-- ==== Sys2Proof/Word.lean ====
section
/-! DEFINITION. The word types of the machine (03 R46, 12 R222, 14 R270). -/

namespace Sys2Proof

/-- A scalar register, an address, a special register: 64 bits. -/
abbrev Word := BitVec 64
/-- One lane of a vector register (R270). -/
abbrev Lane := BitVec 32
/-- The smallest addressable unit (R4). -/
abbrev Byte := BitVec 8
/-- A whole vector register: 64 lanes of 32 bits, lane i in bits [32i+31 : 32i] (R270). -/
abbrev VReg := BitVec 2048
/-- A 64-byte sector, byte k in bits [8k+7 : 8k] (R4, R88). -/
abbrev Sector := BitVec 512

end Sys2Proof
end

