-- ==== Sys2Proof/Config.lean ====
section
/-! DEFINITION. The free values: constants without a body, so that no statement can rest on one of their values. Each is applied to a plain
counter that State holds and the step advances (log 4). -/

namespace Sys2Proof.Config

/-- Which of the module's pending actions happens next where the manual orders none of them (log 4, log 5). -/
opaque choice : Nat → Nat

/-- A free bit: an old or a new value, a kept register or zero, where software cannot choose which (R39, R61, R429; log 4). -/
opaque coin : Nat → Bool

/-- A 64-bit value the manual does not give (log 4). -/
opaque freeWord : Nat → BitVec 64

/-- Which counter of R393 dword n of a die's error status block holds: 15–270, any other number none. The manual gives no offsets (R406; log 11). -/
opaque statusItem : Nat → Nat

/-- Where the descriptors of the three logs lie in the error status block (R396): their order, the first one's dword, and the distance (log 11). -/
opaque logPlace : Nat → Nat

/-- Cipher text of a sector under a generation of a key slot (R417, log 15). -/
opaque cipher : Nat → Nat → Nat → BitVec 512 → BitVec 512

/-- Which of several translations an access uses, old or new (R389; log 8). -/
opaque tlbPick : Nat → Nat → Nat

/-- A fresh key, a signature, a digest: values of the security core the manual gives no number for (log 15). -/
opaque freeKey : Nat → BitVec 512

/-- What stage 2 finds in an image: 0 good, 1 a bad signature, 2 a bad header (R419, R423; log 14). -/
opaque imageCheck : List (BitVec 8) → Nat

/-- VERSION of an image (R419; log 14). -/
opaque imageVersion : List (BitVec 8) → Nat

/-- The number of partitions an image's configuration asks for (R402; log 14). -/
opaque imageParts : List (BitVec 8) → Nat

/-- Word w of the descriptor of partition p in an image's configuration (R404; log 14). -/
opaque imageWord : List (BitVec 8) → Nat → Nat → Nat

/-- Where the words of the security mailbox lie, which the manual does not give (R406, R416; log 11). -/
opaque mailPlace : Nat → Nat

/-- The module's Ed448 public key, a signature by its private key, and a SHAKE256 digest (R418; log 15). -/
opaque identityKey : BitVec 456
opaque signature : List (BitVec 8) → BitVec 912
opaque digest : List (BitVec 8) → BitVec 512

/-- Whether a signature of a transcript by an Ed448 key verifies (R415; log 15). -/
opaque verifies : BitVec 456 → List (BitVec 8) → BitVec 912 → Bool

/-- The bytes of the security core's own firmware and of the barista, which a cupping report measures (R418; log 15). -/
opaque coreFirmware : List (BitVec 8)
opaque baristaFirmware : List (BitVec 8)

end Sys2Proof.Config
end

