-- ==== Sys2Proof/Syntax.lean ====
section
/-! DEFINITION. The operations of the module: one constructor of `Instr` per row of spec/opcode_table.json. The first 208 are slot instructions
(12 R240–R246); the rest are the steps of the module's other agents (95). Guard, slot and literal belong to the bundle, not to the
instruction: see `Slot` and `Bundle` at the end. -/

namespace Sys2Proof

/-- The immediate operand of the RI class: IMM, or with L = 1 the bundle's literal (R229). -/
inductive Imm where
  | imm (v : BitVec 32)
  | lit
  deriving DecidableEq, Repr

/-- Comparison conditions of CMP and VCMP, in the order of their codes 0–9 (R253). -/
inductive Cond where
  | eq | ne | lt | le | gt | ge | ltu | leu | gtu | geu
  deriving DecidableEq, Repr

/-- Width codes of SEXT and ZEXT (R251). -/
inductive XWidth where
  | b | h | w
  deriving DecidableEq, Repr

/-- Branch conditions, CND 0–4 (R240). -/
inductive BrCnd where
  | always | zero | nonzero | neg | nonneg
  deriving DecidableEq, Repr

/-- Scratchpad bank modes, coded 0–2 (R78). -/
inductive BankMode where
  | scratch | cache | fifo
  deriving DecidableEq, Repr

/-- Sources of RBASE (R268): IMM with its three fields, or a scalar register other than s0. -/
inductive RbaseSrc where
  | imm (vrb mrb prb : Nat)
  | reg (a : Nat)
  deriving DecidableEq, Repr

/-- The special registers of R257. -/
inductive SpReg where
  | task | lcore | nlcore | gridx | gridy | gridz | launch | die | pcore | time | vstat | dstat | frzcnt | lbusy | rbase
  | lstk (n : Nat)
  | feat
  deriving DecidableEq, Repr

/-- The privileged registers of R356. -/
inductive PReg where
  | cctl | fcause | faddr | fpc | epc | estat | hbase | rbanks | ltgrant | crftab | ptroot | asid | rcto | rcbudget
  | nmdebt (n : Nat)
  | wstat
  | wcnt (k : Nat)
  deriving DecidableEq, Repr

/-- Rounding modes, SUB [20:19] (R49, R271). -/
inductive Rm where
  | rn | rz | ru | rd
  deriving DecidableEq, Repr

/-- Conditions of VFCMP, SUB 0–7 (R278). -/
inductive FCond where
  | eq | ne | lt | le | gt | ge | un | or
  deriving DecidableEq, Repr

/-- Saturation variants of VADD and VSUB, SUB 0–2 (R280). -/
inductive Sat where
  | wrap | sat | satu
  deriving DecidableEq, Repr

/-- Element formats of VQMX, VDQMX and the matrix operand path (R53, R283). -/
inductive Elem where
  | e2m1 | e4m3 | e5m2
  deriving DecidableEq, Repr

/-- Format pairs of VCVT, field c 0–23 (R282). -/
inductive CvtPair where
  | f32i32 | f32n32 | f32i16 | f32n16 | f32i8 | f32n8 | i32f32 | n32f32 | f32bf16 | f32f16 | f32e4m3 | f32e5m2
  | bf16f32 | f16f32 | e4m3f32 | e5m2f32 | i32i16 | i32i8 | n32n16 | n32n8 | i16i32 | i8i32 | n16n32 | n8n32
  deriving DecidableEq, Repr

/-- Packed widths of VPACK and VUNPK (R285). -/
inductive PackW where
  | h | b | q
  deriving DecidableEq, Repr

/-- Patterns of VSHUF (R286). -/
inductive Shuf where
  | ilo | ihi | even | odd | rev
  deriving DecidableEq, Repr

/-- Operations of VRED and VSCAN, SUB 0–7 (R287). -/
inductive RedOp where
  | fadd | fmax | fmin | add | max | min | maxu | minu
  deriving DecidableEq, Repr

/-- Source of VBCAST (R288): lane c of a vector register, or a scalar register. -/
inductive BcastSrc where
  | lane (a c : Nat)
  | scalar (b : Nat)
  deriving DecidableEq, Repr

/-- Forms of VEXT (R288). -/
inductive ExtForm where
  | zero | sign | dword
  deriving DecidableEq, Repr

/-- Block sizes of VHAD (R290). -/
inductive HadN where
  | n16 | n32 | n64
  deriving DecidableEq, Repr

/-- Outputs of VRNG, SUB 0–6 (R291). -/
inductive RngOut where
  | lo | hi | sr | unif | sra | srb | sign
  deriving DecidableEq, Repr

/-- The second vector source: a vector register, or with SCL = 1 a scalar register broadcast to all lanes (R241, R271). -/
inductive VB where
  | vec (b : Nat)
  | scl (b : Nat)
  deriving DecidableEq, Repr

/-- Memory spaces (R74). -/
inductive Space where
  | l | c | g
  deriving DecidableEq, Repr

/-- Access sizes, SZ 0–3 (R230). -/
inductive Size where
  | b | h | w | d
  deriving DecidableEq, Repr

/-- An L- or W-slot address: base, index, signed offset field (R74, R227). -/
structure Mem where
  base : Nat
  idx : Nat
  off : BitVec 13
  deriving DecidableEq, Repr

/-- Full/empty qualifier of a store (R230). -/
inductive FeQ where
  | plain | full | empty
  deriving DecidableEq, Repr

/-- Operations of AMO, OP 0–8 (R231, R312). -/
inductive AmoOp where
  | add | and | or | xor | min | max | minu | maxu | swap
  deriving DecidableEq, Repr

/-- Scopes named by a letter (R105). -/
inductive Scope where
  | core | cluster | die | module | system
  deriving DecidableEq, Repr

/-- Order suffix of an atomic, OS 0–15 (R231). -/
inductive Order where
  | rlx
  | acq (s : Scope)
  | rel (s : Scope)
  | ar (s : Scope)
  deriving DecidableEq, Repr

/-- Chunk codecs of CP.PK and NET.PUT, codes 0–2 (R182, R320). -/
inductive Codec where
  | raw | zr | bp
  deriving DecidableEq, Repr

/-- The barrier index of a Y-slot instruction (R228, R334). -/
inductive BarIx where
  | imm (i : Nat)
  | reg (b : Nat)
  deriving DecidableEq, Repr

/-- An access of the host to module memory (R92, R122, R408). -/
inductive HostOp where
  | read (pa len : Nat)
  | write (pa : Nat) (bytes : List Byte)
  | fetchAdd (pa : Nat) (v : Word)
  | swap (pa : Nat) (v : Word)
  | cas (pa : Nat) (x v : Word)
  | hostMem (addr : Nat) (bytes : List Byte)
  deriving DecidableEq, Repr

/-- A packet of a NET.PUT message, or the request of a NET.GET, as the receiving port takes it (R179, R332, R333, R413). `tag` names the message among those of its
session, `key` is the session key that the packet is sealed under (R415), `first` the place of the packet's bytes in the window's stream (with a codec a
multiple of 4,096), and `stream` these bytes, or chunk slots where `codec` is not raw; `bad` are the places in `stream` of bytes that the sender took from
damaged sectors and sent as zeros (R395; log 21). -/
structure NetMsg where
  session : Nat
  tag : Nat
  key : BitVec 288
  launch : Nat
  lcore : Nat
  bar : Nat
  contrib : Nat
  record : Nat
  origin : List Int
  codec : Codec
  first : Nat
  stream : List Byte
  bad : List Nat
  deriving DecidableEq, Repr

/-- What the key exchange of a session brings to the security core (R415): the peer's identity key, the X448 shared secret, the transcript, and the peer's signature
of it. -/
structure Exchange where
  peerKey : BitVec 456
  secret : BitVec 448
  transcript : List Byte
  sig : BitVec 912
  deriving DecidableEq, Repr

/-- What the peer answers to a NET command (R333): bytes, and whether they are the last, or a refusal. -/
inductive NetAnswer where
  | bytes (n : Nat) (last : Bool)
  | refused
  deriving DecidableEq, Repr

/-- An answer as it comes to the issuer: the command it is for, and the places of those of its bytes that the peer took from damaged sectors (R395). -/
structure NetReply where
  cmd : Nat
  what : NetAnswer
  bad : List Nat
  deriving DecidableEq, Repr

/-- A repeated key exchange of a session (R415): as it begins, or with what it has brought. -/
structure Rekeying where
  session : Nat
  exchange : Option Exchange
  deriving DecidableEq, Repr

/-- One constructor per row of spec/opcode_table.json. -/
inductive Instr where
  -- S slot: integer arithmetic (R249, R250)
  | nop
  | add (d a b : Nat)
  | addI (d a : Nat) (i : Imm)
  | sub (d a b : Nat)
  | subI (d a : Nat) (i : Imm)
  | mul (d a b : Nat)
  | mulI (d a : Nat) (i : Imm)
  | mulh (d a b : Nat)
  | mulhI (d a : Nat) (i : Imm)
  | mulhu (d a b : Nat)
  | mulhuI (d a : Nat) (i : Imm)
  | div (d a b : Nat)
  | divI (d a : Nat) (i : Imm)
  | divu (d a b : Nat)
  | divuI (d a : Nat) (i : Imm)
  | rem (d a b : Nat)
  | remI (d a : Nat) (i : Imm)
  | remu (d a b : Nat)
  | remuI (d a : Nat) (i : Imm)
  | and (d a b : Nat)
  | andI (d a : Nat) (i : Imm)
  | or (d a b : Nat)
  | orI (d a : Nat) (i : Imm)
  | xor (d a b : Nat)
  | xorI (d a : Nat) (i : Imm)
  | andn (d a b : Nat)
  | andnI (d a : Nat) (i : Imm)
  | shl (d a b : Nat)
  | shlI (d a : Nat) (i : Imm)
  | shr (d a b : Nat)
  | shrI (d a : Nat) (i : Imm)
  | sar (d a b : Nat)
  | sarI (d a : Nat) (i : Imm)
  | rotl (d a b : Nat)
  | rotlI (d a : Nat) (i : Imm)
  | min (d a b : Nat)
  | minI (d a : Nat) (i : Imm)
  | max (d a b : Nat)
  | maxI (d a : Nat) (i : Imm)
  | minu (d a b : Nat)
  | minuI (d a : Nat) (i : Imm)
  | maxu (d a b : Nat)
  | maxuI (d a : Nat) (i : Imm)
  -- S slot: bits, selection, predicates (R251–R255)
  | clz (d a : Nat)
  | ctz (d a : Nat)
  | popc (d a : Nat)
  | sext (w : XWidth) (d a : Nat)
  | zext (w : XWidth) (d a : Nat)
  | bfx (sg : Bool) (d a b : Nat)
  | bfi (d a b c : Nat)
  | sel (d pc a b : Nat)
  | cmp (cond : Cond) (d a b : Nat)
  | plog (t : BitVec 4) (d a b : Nat)
  | movpPs (d a : Nat)
  | movpSp (d a : Nat)
  | movpAll (d : Nat)
  -- S slot: immediates, special registers, control (R256–R268)
  | li (d : Nat) (i : Imm)
  | lih (d : Nat) (v : BitVec 32)
  | rsr (d : Nat) (r : SpReg)
  | wsr (r : SpReg) (a : Nat)
  | br (cnd : BrCnd) (c : Nat) (off : BitVec 32)
  | jmp (off : BitVec 32)
  | call (off : BitVec 32)
  | callr (nl : Bool) (a : Nat)
  | ret
  | loopSet (c : Nat) (off : BitVec 32)
  | loop
  | loopBrk
  | loopIdx (d level : Nat)
  | endTask
  | trap (code : BitVec 16)
  | brk (code : BitVec 16)
  | bankmode (bank : Nat) (mode : BankMode)
  | rbase (src : RbaseSrc)
  -- S slot: handler mode (R269)
  | eret
  | csrr (d : Nat) (r : PReg)
  | csrw (r : PReg) (a : Nat)
  | tlbInvAll
  | tlbInvAsid (b : Nat)
  | tlbInvVa (a b : Nat)
  | tlbPrb (d a : Nat)
  | ctxSv (a : Nat)
  | ctxLd (a : Nat)
  | wfe
  -- V slots (R275–R292)
  | vfadd (rm : Rm) (d a : Nat) (b : VB) (msk : Nat)
  | vfsub (rm : Rm) (d a : Nat) (b : VB) (msk : Nat)
  | vfmul (rm : Rm) (d a : Nat) (b : VB) (msk : Nat)
  | vfma (rm : Rm) (d a : Nat) (b : VB) (c msk : Nat)
  | vfms (rm : Rm) (d a : Nat) (b : VB) (c msk : Nat)
  | vfnma (rm : Rm) (d a : Nat) (b : VB) (c msk : Nat)
  | vfmin (d a : Nat) (b : VB) (msk : Nat)
  | vfmax (d a : Nat) (b : VB) (msk : Nat)
  | vfabs (d a msk : Nat)
  | vfneg (d a msk : Nat)
  | vfcmp (cond : FCond) (d a : Nat) (b : VB) (msk : Nat)
  | vfrcp (rm : Rm) (d a msk : Nat)
  | vfrsq (rm : Rm) (d a msk : Nat)
  | vfexp2 (rm : Rm) (d a msk : Nat)
  | vflog2 (rm : Rm) (d a msk : Nat)
  | vfscl (rm : Rm) (d a : Nat) (b : VB) (msk : Nat)
  | vfsqrt (rm : Rm) (d a msk : Nat)
  | vadd (sat : Sat) (d a : Nat) (b : VB) (msk : Nat)
  | vsub (sat : Sat) (d a : Nat) (b : VB) (msk : Nat)
  | vmul (d a : Nat) (b : VB) (msk : Nat)
  | vmulh (uns : Bool) (d a : Nat) (b : VB) (msk : Nat)
  | vand (d a : Nat) (b : VB) (msk : Nat)
  | vor (d a : Nat) (b : VB) (msk : Nat)
  | vxor (d a : Nat) (b : VB) (msk : Nat)
  | vshl (d a : Nat) (b : VB) (msk : Nat)
  | vshr (d a : Nat) (b : VB) (msk : Nat)
  | vsar (d a : Nat) (b : VB) (msk : Nat)
  | vmin (uns : Bool) (d a : Nat) (b : VB) (msk : Nat)
  | vmax (uns : Bool) (d a : Nat) (b : VB) (msk : Nat)
  | vcmp (cond : Cond) (d a : Nat) (b : VB) (msk : Nat)
  | vsel (d a : Nat) (b : VB) (mc msk : Nat)
  | vabs (sat : Bool) (d a msk : Nat)
  | vpopc (d a msk : Nat)
  | vcvt (pair : CvtPair) (rm : Rm) (sat : Bool) (d a msk : Nat)
  | vqmx (elem : Elem) (d a : Nat) (sr : Option VB) (msk : Nat)
  | vdqmx (elem : Elem) (rm : Rm) (d a msk : Nat)
  | vpack (w : PackW) (d a b msk : Nat)
  | vunpk (w : PackW) (sg : Bool) (part d a msk : Nat)
  | vperm (d a : Nat) (b : VB) (msk : Nat)
  | vshuf (pat : Shuf) (d a b msk : Nat)
  | vred (op : RedOp) (d a msk : Nat)
  | vscan (op : RedOp) (d a msk : Nat)
  | vbcast (d : Nat) (src : BcastSrc) (msk : Nat)
  | vins (dw : Bool) (d a lane : Nat)
  | vext (form : ExtForm) (d a lane : Nat)
  | viota (d msk : Nat)
  | vcomp (d a msk : Nat)
  | vhad (n : HadN) (d a : Nat)
  | vrng (out : RngOut) (d a : Nat) (b : VB) (key msk : Nat)
  | mlog (t : BitVec 4) (d a b : Nat)
  | mpopc (d a : Nat)
  | mfirst (d a : Nat)
  | mset (d a : Nat)
  | mget (d a : Nat)
  -- M slot (R295–R303)
  | mma (z a b c mc : Nat)
  | mmaG (z a b c e mc : Nat)
  | mbin (xor : Bool) (z a b c : Nat)
  | mzero (z : Nat)
  | mloadz (bf : Bool) (z a : Nat)
  | mdrain (bf : Bool) (z a b mc : Nat)
  | mqnt (sideB : Bool) (a b c mc : Nat)
  | mcfg (mc a : Nat)
  | mcfgr (d mc : Nat)
  | mstat (d : Nat)
  -- L slot (R304–R308)
  | ld (sp : Space) (sz : Size) (zx w c : Bool) (d : Nat) (m : Mem) (land : Nat)
  | ldv (sp : Space) (w c : Bool) (d : Nat) (m : Mem) (land : Nat)
  | ldvS (sp : Space) (sz : Size) (zx w c : Bool) (d : Nat) (m : Mem) (land : Nat)
  | ldvX (sp : Space) (sz : Size) (zx w c : Bool) (d : Nat) (m : Mem) (land : Nat)
  | ldm (sp : Space) (w c : Bool) (d : Nat) (m : Mem) (land : Nat)
  | pref (m : Mem)
  -- W slot (R309–R316)
  | st (sp : Space) (sz : Size) (fe : FeQ) (d : Nat) (m : Mem)
  | stv (sp : Space) (fe : FeQ) (d : Nat) (m : Mem)
  | stvS (sp : Space) (sz : Size) (fe : FeQ) (d : Nat) (m : Mem)
  | stvX (sp : Space) (sz : Size) (fe : FeQ) (d : Nat) (m : Mem)
  | stm (sp : Space) (fe : FeQ) (d : Nat) (m : Mem)
  | amo (op : AmoOp) (ord : Order) (d : Nat) (m : Mem) (land : Nat)
  | cas (ord : Order) (d : Nat) (m : Mem) (land : Nat)
  | amof (bf : Bool) (rel : Option Scope) (m : Mem)
  | amofSeq (bf : Bool) (rel : Option Scope) (d : Nat) (m : Mem)
  | amofSeqSkip (bf : Bool) (rel : Option Scope) (d : Nat) (m : Mem)
  | setfe (sp : Space) (full : Bool) (d : Nat) (m : Mem)
  -- C slot (R319–R333)
  | cp (nb : Bool) (org cmd aux : Nat)
  | cpMc (org cmd aux : Nat)
  | cpX (nb sr : Bool) (org cmd aux : Nat)
  | cpPk (nb : Bool) (codec : Codec) (org cmd aux : Nat)
  | cpUn (nb : Bool) (org cmd aux : Nat)
  | cpStamp (a v : Nat)
  | lrecPut (v ix : Nat)
  | lrecGet (v ix : Nat)
  | cln (a len : Nat)
  | inv (a len : Nat)
  | clninv (a len : Nat)
  | tsDep (pd v hd : Nat)
  | tsRd (pd v hd mode dl : Nat)
  | tsTake (pd v hd mode dl : Nat)
  | tsRdp (pd v hd mode land : Nat)
  | tsTakep (pd v hd mode land : Nat)
  | tsCnt (pd d hd mode v land : Nat)
  | rcall (rel trap : Bool) (count d tgt ent pay : Nat)
  | rpost (rel : Bool) (count f0 tgt ent pay : Nat)
  | rret (a b c : Nat)
  | nmLoad (pd eng img : Nat)
  | nmGo (pd eng t : Nat)
  | nmStop (eng : Nat)
  | nmStat (d eng : Nat)
  | netPut (nb : Bool) (codec : Codec) (org cmd aux : Nat)
  | netGet (nb : Bool) (org cmd aux : Nat)
  -- Y slot (R335–R343)
  | barAlloc (pd d : Nat)
  | barAllocAt (pd d : Nat) (ix : BarIx)
  | barFree (ix : BarIx)
  | barRef (ix : BarIx)
  | barInit (pd a : Nat) (ix : BarIx)
  | barExpect (pd a : Nat) (ix : BarIx)
  | barArrive (a : Nat) (ix : BarIx)
  | barWait (a : Nat) (ix : BarIx)
  | barTest (pd a : Nat) (ix : BarIx)
  | barInfo (d : Nat) (ix : BarIx) (word : Nat)
  | gbar (pd a g : Nat)
  | fence (sc : Scope)
  | xfence
  | nmfence
  | monArm (a : Nat)
  | monWait (pd a : Nat)
  | lwait
  -- Results and landings of a hart
  | fixedLatencyWrite (h : Nat)
  | landing (h id : Nat)
  | exactLanding (h id : Nat)
  | mmaReady (h : Nat)
  | mdrainComplete (h : Nat)
  | mloadzComplete (h : Nat)
  | mqntComplete (h : Nat)
  -- Caches and home slices
  | l1Fill (h line : Nat)
  | writeBack (h line : Nat)
  | plainStoreArrival (h k : Nat)
  | atomicAtHomeSlice (h id : Nat)
  | sequencedApply (h id : Nat)
  | hostAccess (op : HostOp)
  | calendarSlot (h id : Nat)
  | walk (die asid : Nat) (root va : Word)
  -- Copy engine, barriers, network
  | commandStart (h : Nat)
  | copyWrite (h id u : Nat)
  | commandComplete (h : Nat)
  | multicastDelivery (h id member u : Nat)
  | stampWrite (h : Nat)
  | barrierDeadline (h b : Nat)
  | netReceive (die : Nat) (m : NetMsg)
  | netPutConfirm (h : Nat) (a : NetReply)
  | netGetRead (die : Nat) (m : NetMsg)
  | netGetData (h : Nat) (a : NetReply) (bytes : List Byte)
  | sessionLost (die session : Nat)
  | rekey (die : Nat) (x : Rekeying)
  | oldKeyExpiry (die session : Nat)
  -- Carafes
  | serveDep (id : Nat)
  | serveRdTake (id : Nat)
  | serveRdpTakep (id : Nat)
  | serveCnt (id : Nat)
  | parkTimeout (sl id : Nat)
  | cancel (h id : Nat)
  | carafeDestroy (sl cid : Nat)
  -- Remote calls
  | callArrival (id : Nat)
  | callStart (e : Nat)
  | budgetExhausted (h : Nat)
  | reply (id : Nat)
  | lost (h id : Nat)
  | releaseNotice (e id : Nat)
  | recordDeadline (e id : Nat)
  | rplost (h id : Nat)
  -- Bank engines (g = die × 64 + 4h + c)
  | engineStart (g : Nat)
  | col (g : Nat)
  | addb (g ad aa ab : Nat)
  | addf (g ad aa ab : Nat)
  | mulb (g ad aa ab : Nat)
  | fmab (g ad aa ab ksel : Nat)
  | maxb (g ad aa ab : Nat)
  | cvt (g sub ad aa ab : Nat)
  | pairupd (g ad aa ab ac ksel idx : Nat)
  | columnReadLanding (g : Nat)
  | act (g : Nat)
  | pre (g : Nat)
  | ref (g : Nat)
  | timetableWait (g : Nat)
  | waitExpiry (g : Nat)
  | timetableLoop (g : Nat)
  | halt (g : Nat)
  | refreshInterval (g : Nat)
  | forcedRef (g : Nat)
  | rowElisionWrite (die off : Nat) (v : Word)
  | rowClearDone (sl k : Nat)
  -- Barista and dispatch hardware (lid = partition × 2^32 + launch id)
  | doorbell (part q : Nat) (count : Word)
  | consumeRecord (part q : Nat)
  | launchEligible (lid : Nat)
  | aging (lid : Nat)
  | coreGrant (part : Nat)
  | preempt (part : Nat)
  | ticketDraw (h : Nat)
  | quantumExpiry (lid cluster : Nat)
  | bindNextBlock (lid cluster : Nat)
  | start (h : Nat)
  | resume (h : Nat)
  | event (h : Nat)
  | switch (h : Nat)
  | handlerEntry (h : Nat)
  | launchEnd (lid : Nat)
  | doneStamp (lid : Nat)
  | rbanks (h : Nat)
  | registerWrite (h : Nat)
  -- Links, deadlines
  | linkDown (i j : Nat)
  | expanderFailure (die : Nat)
  | monWaitDeadline (h : Nat)
  | gbarDeadline (h : Nat)
  -- Start-up and the security core
  | powerOn
  | rom (pass : Bool)
  | image
  | train (fail : Option Nat)
  | part (fail : Option Nat)
  | host (pass : Bool)
  | barista (die : Nat)
  | baristaReadyLimit
  | ready
  | powerLoss
  | cupping (part addr : Nat) (nonce : BitVec 256)
  | sessopen (part die session : Nat) (peeraddr : Word) (peerid : BitVec 256) (peerpart peerlaunch : Nat) (x : Exchange)
  | sessclose (part die session : Nat)
  | keyslot (part slot : Nat)
  | imgload (part pa len : Nat)
  | restart
  | bindingStop (die temp : Nat)
  | bindingResume (die temp : Nat)
  | powerRemoval (die temp : Nat)
  | refreshManagerRefresh (g : Nat)
  | memorySideCacheWriteBack (pa : Nat) (drop : Bool)
  | hostLinkLost (die : Nat)
  deriving DecidableEq, Repr

/-- The eight slots of a bundle, in the order of R234. -/
inductive SlotName where
  | s | v0 | v1 | m | l | w | c | y
  deriving DecidableEq, Repr

/-- An occupied slot: its guard (NEG, predicate index; R225, R232) and its instruction. -/
structure Slot where
  name : SlotName
  neg : Bool
  pred : Nat
  instr : Instr
  deriving DecidableEq, Repr

/-- A decoded bundle (R222, R223): header fields, the literal if LIT names one, and the occupied slots in the order of R234. -/
structure Bundle where
  stall : Nat
  safe : Bool
  lit : Option Word
  slots : List Slot
  deriving DecidableEq, Repr

end Sys2Proof
end

