-- ==== Sys2Proof/WellFormed.lean ====
section
/-! DEFINITION. Well-formed slot instructions: every operand lies in the range its field admits, and the combinations the manual makes ILLEGAL at
decode are absent (12 R226–R231, R240–R246, and the descriptions of chapters 13–16). The steps of other agents carry no encoding and are
well-formed always. -/

namespace Sys2Proof

namespace WF

/-- A scalar register field (R226). -/
abbrev s (n : Nat) : Prop := n < 32
/-- A predicate or mask register field (R226). -/
abbrev p (n : Nat) : Prop := n < 16
/-- A vector register field (R226). -/
abbrev v (n : Nat) : Prop := n < 64
/-- The second vector source (R271). -/
def vb : VB → Bool
  | .vec b => b < 64
  | .scl b => b < 32
/-- Base and index of a MEM operand are scalar registers (R227). -/
abbrev mem (m : Mem) : Prop := m.base < 32 ∧ m.idx < 32
/-- The .X forms index with a vector register (R243, R244). -/
abbrev memX (m : Mem) : Prop := m.base < 32 ∧ m.idx < 64
/-- LAND and the full/empty qualifiers against the space (R84, R93, R230). -/
abbrev qual (sp : Space) (w c : Bool) (land : Nat) : Prop :=
  land < 4096 ∧ (sp ≠ .g → land = 0) ∧ (sp = .g → w = false ∧ c = false)
/-- The full/empty qualifier of a store against the space (R84, R230). -/
abbrev fe (sp : Space) (q : FeQ) : Prop := sp = .g → q = .plain
/-- Element sizes of strided and indexed accesses (R230, R307). -/
abbrev lane (sz : Size) (zx : Bool) : Prop := sz ≠ .d ∧ (sz = .w → zx = false)
/-- A barrier index operand (R228). -/
def ix : BarIx → Bool
  | .imm i => i < 1024
  | .reg b => b < 32

/-- Rounding and saturation allowed for a VCVT pair (R282). -/
def cvtOk (pair : CvtPair) (rm : Rm) (sat : Bool) : Bool :=
  match pair with
  | .f32i32 | .f32n32 | .f32i16 | .f32n16 | .f32i8 | .f32n8 | .f32bf16 | .f32f16 | .f32e5m2 => true
  | .i32f32 | .n32f32 | .f32e4m3 => !sat
  | .bf16f32 | .f16f32 | .e4m3f32 | .e5m2f32 | .i16i32 | .i8i32 | .n16n32 | .n8n32 => rm == .rn && !sat
  | .i32i16 | .i32i8 | .n32n16 | .n32n8 => rm == .rn

/-- The parts VUNPK can name (R285). -/
def parts : PackW → Nat
  | .h => 2
  | .b => 4
  | .q => 8

/-- The special registers that WSR may name (R257). -/
def writableSp : SpReg → Bool
  | .vstat | .dstat => true
  | _ => false

/-- The numbers inside a special register's name (R257). -/
def sp : SpReg → Bool
  | .lstk n => n < 6
  | _ => true

/-- The numbers inside a privileged register's name (R356). -/
def priv : PReg → Bool
  | .nmdebt n => n < 4
  | .wcnt k => 1 ≤ k && k ≤ 7
  | _ => true

/-- The privileged registers that CSRW may name (R356). -/
def writablePriv : PReg → Bool
  | .nmdebt _ | .wstat | .wcnt _ => false
  | _ => true

end WF

open WF in
/-- The well-formed instructions. -/
def Instr.wf : Instr → Bool
  | .nop => true
  | .add d a b | .sub d a b | .mul d a b | .mulh d a b | .mulhu d a b | .div d a b | .divu d a b | .rem d a b | .remu d a b
  | .and d a b | .or d a b | .xor d a b | .andn d a b | .shl d a b | .shr d a b | .sar d a b | .rotl d a b | .min d a b
  | .max d a b | .minu d a b | .maxu d a b | .bfx _ d a b => s d ∧ s a ∧ s b
  | .addI d a _ | .subI d a _ | .mulI d a _ | .mulhI d a _ | .mulhuI d a _ | .divI d a _ | .divuI d a _ | .remI d a _
  | .remuI d a _ | .andI d a _ | .orI d a _ | .xorI d a _ | .andnI d a _ | .shlI d a _ | .shrI d a _ | .sarI d a _
  | .rotlI d a _ | .minI d a _ | .maxI d a _ | .minuI d a _ | .maxuI d a _ => s d ∧ s a
  | .clz d a | .ctz d a | .popc d a | .sext _ d a | .zext _ d a => s d ∧ s a
  | .bfi d a b c => s d ∧ s a ∧ s b ∧ s c
  | .sel d pc a b => s d ∧ p pc ∧ s a ∧ s b
  | .cmp _ d a b => p d ∧ s a ∧ s b
  | .plog _ d a b => p d ∧ p a ∧ p b
  | .movpPs d a => s d ∧ p a
  | .movpSp d a => p d ∧ s a
  | .movpAll d | .li d _ | .lih d _ => s d
  | .rsr d r => s d ∧ sp r
  | .wsr r a => writableSp r ∧ s a
  | .br cnd c _ => s c ∧ (cnd = .always → c = 0)
  | .jmp _ | .call _ | .ret | .loop | .loopBrk | .endTask | .trap _ | .brk _ | .eret | .tlbInvAll | .wfe => true
  | .callr _ a => s a
  | .loopSet c off => s c ∧ 0 < off.toInt
  | .loopIdx d level => s d ∧ level < 6
  | .bankmode bank _ => bank < 16
  | .rbase (.imm vrb mrb prb) => vrb < 64 ∧ mrb < 8 ∧ prb < 8
  | .rbase (.reg a) => a ≠ 0 ∧ s a
  | .csrr d r => s d ∧ priv r
  | .csrw r a => priv r ∧ writablePriv r ∧ s a
  | .tlbInvAsid b => s b
  | .tlbInvVa a b => s a ∧ s b
  | .tlbPrb d a => s d ∧ s a
  | .ctxSv a | .ctxLd a => s a
  | .vfadd _ d a b m | .vfsub _ d a b m | .vfmul _ d a b m | .vfscl _ d a b m | .vfmin d a b m | .vfmax d a b m
  | .vadd _ d a b m | .vsub _ d a b m | .vmul d a b m | .vmulh _ d a b m | .vand d a b m | .vor d a b m | .vxor d a b m
  | .vshl d a b m | .vshr d a b m | .vsar d a b m | .vmin _ d a b m | .vmax _ d a b m | .vperm d a b m =>
      v d ∧ v a ∧ vb b ∧ p m
  | .vfma _ d a b c m | .vfms _ d a b c m | .vfnma _ d a b c m => v d ∧ v a ∧ vb b ∧ v c ∧ p m
  | .vfabs d a m | .vfneg d a m | .vfrcp _ d a m | .vfrsq _ d a m | .vfexp2 _ d a m | .vflog2 _ d a m | .vfsqrt _ d a m
  | .vabs _ d a m | .vpopc d a m | .vdqmx _ _ d a m | .vred _ d a m | .vscan _ d a m | .vcomp d a m => v d ∧ v a ∧ p m
  | .vfcmp _ d a b m | .vcmp _ d a b m => p d ∧ v a ∧ vb b ∧ p m
  | .vsel d a b mc m => v d ∧ v a ∧ vb b ∧ p mc ∧ p m
  | .vcvt pair rm sat d a m => v d ∧ v a ∧ p m ∧ cvtOk pair rm sat
  | .vqmx _ d a none m => v d ∧ v a ∧ p m
  | .vqmx _ d a (some b) m => v d ∧ v a ∧ vb b ∧ p m
  | .vpack _ d a b m => v d ∧ v a ∧ v b ∧ p m
  | .vunpk w _ k d a m => k < parts w ∧ v d ∧ v a ∧ p m
  | .vshuf pat d a b m => v d ∧ v a ∧ v b ∧ p m ∧ (pat = .rev → b = 0)
  | .vbcast d (.lane a c) m => v d ∧ v a ∧ c < 64 ∧ p m
  | .vbcast d (.scalar b) m => v d ∧ s b ∧ p m
  | .vins dw d a c => v d ∧ s a ∧ c < 64 ∧ (dw → c % 2 = 0)
  | .vext form d a c => s d ∧ v a ∧ c < 64 ∧ (form = .dword → c % 2 = 0)
  | .viota d m => v d ∧ p m
  | .vhad _ d a => v d ∧ v a
  | .vrng _ d a b key m => v d ∧ v a ∧ vb b ∧ s key ∧ p m
  | .mlog _ d a b => p d ∧ p a ∧ p b
  | .mpopc d a | .mfirst d a | .mget d a => s d ∧ p a
  | .mset d a => p d ∧ s a
  | .mma z a b c mc => z < 4 ∧ s a ∧ s b ∧ s c ∧ mc < 8
  | .mmaG z a b c e mc => z < 4 ∧ s a ∧ s b ∧ s c ∧ v e ∧ mc < 8
  | .mbin _ z a b c => z < 4 ∧ s a ∧ s b ∧ s c
  | .mzero z => z < 4
  | .mloadz _ z a => z < 4 ∧ s a
  | .mdrain _ z a b mc => z < 4 ∧ s a ∧ s b ∧ mc < 8
  | .mqnt _ a b c mc => s a ∧ s b ∧ s c ∧ mc < 8
  | .mcfg mc a => mc < 8 ∧ a ≤ 27
  | .mcfgr d mc => 1 ≤ d ∧ d ≤ 27 ∧ mc < 8
  | .mstat d => s d
  | .ld sp sz zx w c d m land => s d ∧ mem m ∧ qual sp w c land ∧ (sz = .d → zx = false)
  | .ldv sp w c d m land => v d ∧ mem m ∧ qual sp w c land
  | .ldvS sp sz zx w c d m land => v d ∧ mem m ∧ qual sp w c land ∧ lane sz zx
  | .ldvX sp sz zx w c d m land => v d ∧ memX m ∧ qual sp w c land ∧ lane sz zx
  | .ldm sp w c d m land => p d ∧ mem m ∧ qual sp w c land
  | .pref m => mem m
  | .st sp _ q d m => s d ∧ mem m ∧ fe sp q
  | .stv sp q d m => v d ∧ mem m ∧ fe sp q
  | .stvS sp sz q d m => v d ∧ mem m ∧ fe sp q ∧ sz ≠ .d
  | .stvX sp sz q d m => v d ∧ memX m ∧ fe sp q ∧ sz ≠ .d
  | .stm sp q d m => p d ∧ mem m ∧ fe sp q
  | .amo _ _ d m land | .cas _ d m land => s d ∧ mem m ∧ land < 4096 ∧ (d = 0 → land = 0)
  | .amof _ _ m => mem m
  | .amofSeq _ _ d m => s d ∧ mem m
  | .amofSeqSkip _ _ d m => s d ∧ mem m ∧ m.idx = 0
  | .setfe sp _ d m => s d ∧ mem m ∧ sp ≠ .g
  | .cp _ org cmd aux | .cpMc org cmd aux | .cpX _ _ org cmd aux | .cpPk _ _ org cmd aux | .cpUn _ org cmd aux
  | .netPut _ _ org cmd aux | .netGet _ org cmd aux => v org ∧ s cmd ∧ s aux
  | .cpStamp a b | .cln a b | .inv a b | .clninv a b => s a ∧ s b
  | .lrecPut r i | .lrecGet r i => v r ∧ s i
  | .tsDep pd t hd => p pd ∧ v t ∧ s hd
  | .tsRd pd t hd mode dl | .tsTake pd t hd mode dl => p pd ∧ v t ∧ s hd ∧ s mode ∧ s dl
  | .tsRdp pd t hd mode land | .tsTakep pd t hd mode land => p pd ∧ v t ∧ s hd ∧ s mode ∧ land < 4096
  | .tsCnt pd d hd mode t land => p pd ∧ s d ∧ s hd ∧ s mode ∧ v t ∧ land < 4096
  | .rcall _ _ count d tgt ent pay => count < 16 ∧ s d ∧ s tgt ∧ s ent ∧ s pay
  | .rpost _ count f0 tgt ent pay => count < 16 ∧ f0 < 64 ∧ s tgt ∧ s ent ∧ s pay
  | .rret a b c => s a ∧ s b ∧ s c
  | .nmLoad pd e i | .nmGo pd e i => p pd ∧ s e ∧ s i
  | .nmStop e => s e
  | .nmStat d e => s d ∧ s e
  | .barAlloc pd d => p pd ∧ s d
  | .barAllocAt pd d i => p pd ∧ s d ∧ ix i
  | .barFree i | .barRef i => ix i
  | .barInit pd a i | .barExpect pd a i => p pd ∧ a ≤ 29 ∧ ix i
  | .barArrive a i | .barWait a i => s a ∧ ix i
  | .barTest pd a i => p pd ∧ s a ∧ ix i
  | .barInfo d i w => s d ∧ ix i ∧ w < 8
  | .gbar pd a g => p pd ∧ s a ∧ g < 256
  | .fence _ | .xfence | .nmfence | .lwait => true
  | .monArm a => s a
  | .monWait pd a => p pd ∧ s a
  | _ => true

end Sys2Proof
end

