-- ==== Sys2Proof/Decode.lean ====
section
/-! DEFINITION. Decoding of slots and bundles, total on any bits (12 R222–R247), and the encoder, written from the same encoding tables. A slot
word is a number; bit 0 is its least significant bit (R4). -/

namespace Sys2Proof

/-- The field of n bits of w whose lowest bit is bit lo (R4). -/
def fld (w lo n : Nat) : Nat := w / 2 ^ lo % 2 ^ n

/-- Decode faults (R247). -/
inductive DecFault where
  | illegal
  | priv
  deriving DecidableEq, Repr

namespace Dec

/-- A field value below a bound, otherwise refused: the must-be-zero bits of a register field (R226), or a value that is not listed. -/
def lt (n x : Nat) : Option Nat := if x < n then some x else none
/-- A condition that the encoding must meet, otherwise ILLEGAL. -/
def req (b : Bool) : Option Unit := if b then some () else none

/-- Codes of the operand kinds. -/
def cond : Nat → Option Cond
  | 0 => some .eq | 1 => some .ne | 2 => some .lt | 3 => some .le | 4 => some .gt | 5 => some .ge | 6 => some .ltu
  | 7 => some .leu | 8 => some .gtu | 9 => some .geu | _ => none
def xwidth : Nat → Option XWidth
  | 0 => some .b | 1 => some .h | 2 => some .w | _ => none
def brCnd : Nat → Option BrCnd
  | 0 => some .always | 1 => some .zero | 2 => some .nonzero | 3 => some .neg | 4 => some .nonneg | _ => none
def bankMode : Nat → Option BankMode
  | 0 => some .scratch | 1 => some .cache | 2 => some .fifo | _ => none
def spReg : Nat → Option SpReg
  | 0x000 => some .task | 0x001 => some .lcore | 0x002 => some .nlcore | 0x003 => some .gridx | 0x004 => some .gridy
  | 0x005 => some .gridz | 0x006 => some .launch | 0x007 => some .die | 0x008 => some .pcore | 0x009 => some .time
  | 0x010 => some .vstat | 0x011 => some .dstat | 0x012 => some .frzcnt | 0x013 => some .lbusy | 0x014 => some .rbase
  | 0x018 => some (.lstk 0) | 0x019 => some (.lstk 1) | 0x01A => some (.lstk 2) | 0x01B => some (.lstk 3)
  | 0x01C => some (.lstk 4) | 0x01D => some (.lstk 5) | 0x01F => some .feat | _ => none
def pReg : Nat → Option PReg
  | 0x100 => some .cctl | 0x101 => some .fcause | 0x102 => some .faddr | 0x103 => some .fpc | 0x104 => some .epc
  | 0x105 => some .estat | 0x106 => some .hbase | 0x107 => some .rbanks | 0x108 => some .ltgrant | 0x109 => some .crftab
  | 0x10A => some .ptroot | 0x10B => some .asid | 0x10C => some .rcto | 0x10D => some .rcbudget
  | 0x110 => some (.nmdebt 0) | 0x111 => some (.nmdebt 1) | 0x112 => some (.nmdebt 2) | 0x113 => some (.nmdebt 3)
  | 0x118 => some .wstat | 0x121 => some (.wcnt 1) | 0x122 => some (.wcnt 2) | 0x123 => some (.wcnt 3)
  | 0x124 => some (.wcnt 4) | 0x125 => some (.wcnt 5) | 0x126 => some (.wcnt 6) | 0x127 => some (.wcnt 7) | _ => none
def rm : Nat → Option Rm
  | 0 => some .rn | 1 => some .rz | 2 => some .ru | 3 => some .rd | _ => none
def fcond : Nat → Option FCond
  | 0 => some .eq | 1 => some .ne | 2 => some .lt | 3 => some .le | 4 => some .gt | 5 => some .ge | 6 => some .un
  | 7 => some .or | _ => none
def sat : Nat → Option Sat
  | 0 => some .wrap | 1 => some .sat | 2 => some .satu | _ => none
def elem : Nat → Option Elem
  | 0 => some .e2m1 | 1 => some .e4m3 | 2 => some .e5m2 | _ => none
def cvtPair : Nat → Option CvtPair
  | 0 => some .f32i32 | 1 => some .f32n32 | 2 => some .f32i16 | 3 => some .f32n16 | 4 => some .f32i8 | 5 => some .f32n8
  | 6 => some .i32f32 | 7 => some .n32f32 | 8 => some .f32bf16 | 9 => some .f32f16 | 10 => some .f32e4m3
  | 11 => some .f32e5m2 | 12 => some .bf16f32 | 13 => some .f16f32 | 14 => some .e4m3f32 | 15 => some .e5m2f32
  | 16 => some .i32i16 | 17 => some .i32i8 | 18 => some .n32n16 | 19 => some .n32n8 | 20 => some .i16i32
  | 21 => some .i8i32 | 22 => some .n16n32 | 23 => some .n8n32 | _ => none
def packW : Nat → Option PackW
  | 0 => some .h | 1 => some .b | 2 => some .q | _ => none
def shuf : Nat → Option Shuf
  | 0 => some .ilo | 1 => some .ihi | 2 => some .even | 3 => some .odd | 4 => some .rev | _ => none
def redOp : Nat → Option RedOp
  | 0 => some .fadd | 1 => some .fmax | 2 => some .fmin | 3 => some .add | 4 => some .max | 5 => some .min
  | 6 => some .maxu | 7 => some .minu | _ => none
def extForm : Nat → Option ExtForm
  | 0 => some .zero | 1 => some .sign | 2 => some .dword | _ => none
def hadN : Nat → Option HadN
  | 1 => some .n16 | 2 => some .n32 | 3 => some .n64 | _ => none
def rngOut : Nat → Option RngOut
  | 0 => some .lo | 1 => some .hi | 2 => some .sr | 3 => some .unif | 4 => some .sra | 5 => some .srb | 6 => some .sign
  | _ => none
def space : Nat → Option Space
  | 0 => some .l | 1 => some .c | 2 => some .g | _ => none
def size : Nat → Option Size
  | 0 => some .b | 1 => some .h | 2 => some .w | 3 => some .d | _ => none
def amoOp : Nat → Option AmoOp
  | 0 => some .add | 1 => some .and | 2 => some .or | 3 => some .xor | 4 => some .min | 5 => some .max | 6 => some .minu
  | 7 => some .maxu | 8 => some .swap | _ => none
def scope : Nat → Option Scope
  | 0 => some .core | 1 => some .cluster | 2 => some .die | 3 => some .module | 4 => some .system | _ => none
def order : Nat → Option Order
  | 0 => some .rlx
  | 1 => some (.acq .core) | 2 => some (.acq .cluster) | 3 => some (.acq .die) | 4 => some (.acq .module) | 5 => some (.acq .system)
  | 6 => some (.rel .core) | 7 => some (.rel .cluster) | 8 => some (.rel .die) | 9 => some (.rel .module) | 10 => some (.rel .system)
  | 11 => some (.ar .core) | 12 => some (.ar .cluster) | 13 => some (.ar .die) | 14 => some (.ar .module) | 15 => some (.ar .system)
  | _ => none
/-- AMOF accepts rlx and the releases only (R315). -/
def relOnly : Nat → Option (Option Scope)
  | 0 => some none | 6 => some (some .core) | 7 => some (some .cluster) | 8 => some (some .die) | 9 => some (some .module)
  | 10 => some (some .system) | _ => none
def codec : Nat → Option Codec
  | 0 => some .raw | 1 => some .zr | 2 => some .bp | _ => none
def feQ : Nat → Option FeQ
  | 0 => some .plain | 1 => some .empty | 2 => some .full | _ => none

/-- Field d, a, b, c of the RRR and ENG.M classes, MOD and the reserved bits (R227). -/
def d (w : Nat) : Nat := fld w 45 6
def a (w : Nat) : Nat := fld w 39 6
def b (w : Nat) : Nat := fld w 33 6
def c (w : Nat) : Nat := fld w 27 6
def md (w : Nat) : Nat := fld w 19 8
def off32 (w : Nat) : BitVec 32 := BitVec.ofNat 32 w

/-- RRR with three scalar registers and nothing else (R249). -/
def sss (k : Nat → Nat → Nat → Instr) (w : Nat) : Option Instr := do
  req (c w = 0 ∧ md w = 0 ∧ fld w 0 19 = 0)
  return k (← lt 32 (d w)) (← lt 32 (a w)) (← lt 32 (b w))

/-- RRR with d and a only, of the given kinds, and MOD as given. -/
def da (nd na : Nat) (m : Nat) (k : Nat → Nat → Instr) (w : Nat) : Option Instr := do
  req (b w = 0 ∧ c w = 0 ∧ md w = m ∧ fld w 0 19 = 0)
  return k (← lt nd (d w)) (← lt na (a w))

/-- The immediate of the RI class (R229), its instruction-specific MOD bits zero. -/
def ri (hasLit : Bool) (w : Nat) : Option Imm := do
  req (fld w 32 6 = 0)
  if fld w 38 1 = 1 then
    req (hasLit ∧ fld w 0 32 = 0)
    return .lit
  else return .imm (off32 w)

/-- RI with a destination, a source and an immediate (R249). -/
def sri (hasLit : Bool) (k : Nat → Nat → Imm → Instr) (w : Nat) : Option Instr := do
  return k (← lt 32 (d w)) (← lt 32 (a w)) (← ri hasLit w)

/-- RI used with IMM alone: d, a, L and MOD zero where not named. -/
def onlyImm (w : Nat) : Option Unit := req (fld w 32 19 = 0)

/-- The BR class with MOD and cond zero (R259). -/
def brOff (k : BitVec 32 → Instr) (w : Nat) : Option Instr := do
  req (fld w 32 19 = 0)
  return k (off32 w)

/-- An instruction all of whose operand bits are zero. -/
def bare (i : Instr) (w : Nat) : Option Instr := do
  req (fld w 0 51 = 0)
  return i

/-- The operations 0x01–0x15 in the order of R240, RRR form. -/
def alu : Nat → Option (Nat → Nat → Nat → Instr)
  | 0x01 => some .add | 0x02 => some .sub | 0x03 => some .mul | 0x04 => some .mulh | 0x05 => some .mulhu | 0x06 => some .div
  | 0x07 => some .divu | 0x08 => some .rem | 0x09 => some .remu | 0x0A => some .and | 0x0B => some .or | 0x0C => some .xor
  | 0x0D => some .andn | 0x0E => some .shl | 0x0F => some .shr | 0x10 => some .sar | 0x11 => some .rotl | 0x12 => some .min
  | 0x13 => some .max | 0x14 => some .minu | 0x15 => some .maxu | _ => none

/-- The operations 0x81–0x95 in the order of R240, RI form. -/
def aluI : Nat → Option (Nat → Nat → Imm → Instr)
  | 0x81 => some .addI | 0x82 => some .subI | 0x83 => some .mulI | 0x84 => some .mulhI | 0x85 => some .mulhuI
  | 0x86 => some .divI | 0x87 => some .divuI | 0x88 => some .remI | 0x89 => some .remuI | 0x8A => some .andI
  | 0x8B => some .orI | 0x8C => some .xorI | 0x8D => some .andnI | 0x8E => some .shlI | 0x8F => some .shrI
  | 0x90 => some .sarI | 0x91 => some .rotlI | 0x92 => some .minI | 0x93 => some .maxI | 0x94 => some .minuI
  | 0x95 => some .maxuI | _ => none

/-- S slot (R240). -/
def slotS (hasLit : Bool) (w : Nat) : Option Instr :=
  match alu (fld w 56 8), aluI (fld w 56 8) with
  | some k, _ => sss k w
  | none, some k => sri hasLit k w
  | none, none =>
    match fld w 56 8 with
    | 0x16 => da 32 32 0 .clz w
    | 0x17 => da 32 32 0 .ctz w
    | 0x18 => da 32 32 0 .popc w
    | 0x19 => do da 32 32 (md w) (.sext (← xwidth (md w))) w
    | 0x1A => do da 32 32 (md w) (.zext (← xwidth (md w))) w
    | 0x1B => do
        req (c w = 0 ∧ md w < 2 ∧ fld w 0 19 = 0)
        return .bfx (md w == 1) (← lt 32 (d w)) (← lt 32 (a w)) (← lt 32 (b w))
    | 0x1C => do
        req (md w = 0 ∧ fld w 0 19 = 0)
        return .bfi (← lt 32 (d w)) (← lt 32 (a w)) (← lt 32 (b w)) (← lt 32 (c w))
    | 0x1D => do
        req (md w = 0 ∧ fld w 0 19 = 0)
        return .sel (← lt 32 (d w)) (← lt 16 (c w)) (← lt 32 (a w)) (← lt 32 (b w))
    | 0x1E => do
        req (c w = 0 ∧ fld w 0 19 = 0)
        return .cmp (← cond (md w)) (← lt 16 (d w)) (← lt 32 (a w)) (← lt 32 (b w))
    | 0x1F => do
        req (c w = 0 ∧ md w < 16 ∧ fld w 0 19 = 0)
        return .plog (BitVec.ofNat 4 (md w)) (← lt 16 (d w)) (← lt 16 (a w)) (← lt 16 (b w))
    | 0x20 => do
        req (a w = 0)
        return .li (← lt 32 (d w)) (← ri hasLit w)
    | 0x21 => do
        req (a w = 0 ∧ fld w 32 7 = 0)
        return .lih (← lt 32 (d w)) (off32 w)
    | 0x22 =>
        match md w with
        | 0 => da 32 16 0 .movpPs w
        | 1 => da 16 32 1 .movpSp w
        | 2 => do
            req (fld w 27 18 = 0 ∧ fld w 0 19 = 0)
            return .movpAll (← lt 32 (d w))
        | _ => none
    | 0x23 => do
        req (a w = 0 ∧ fld w 32 7 = 0 ∧ fld w 12 20 = 0)
        return .rsr (← lt 32 (d w)) (← spReg (fld w 0 12))
    | 0x24 => do
        req (d w = 0 ∧ fld w 32 7 = 0 ∧ fld w 12 20 = 0)
        let r ← spReg (fld w 0 12)
        req (WF.writableSp r)
        return .wsr r (← lt 32 (a w))
    | 0x30 => do
        req (fld w 48 3 = 0 ∧ fld w 32 7 = 0)
        let k ← brCnd (fld w 45 3)
        req (k ≠ .always ∨ a w = 0)
        return .br k (← lt 32 (a w)) (off32 w)
    | 0x31 => brOff .jmp w
    | 0x32 => brOff .call w
    | 0x33 => do
        req (fld w 46 5 = 0 ∧ fld w 0 39 = 0)
        return .callr (fld w 45 1 == 1) (← lt 32 (a w))
    | 0x34 => bare .ret w
    | 0x35 => do
        req (fld w 45 6 = 0 ∧ fld w 32 7 = 0 ∧ 0 < (off32 w).toInt)
        return .loopSet (← lt 32 (a w)) (off32 w)
    | 0x36 => bare .loop w
    | 0x37 => bare .loopBrk w
    | 0x38 => do
        req (a w = 0 ∧ fld w 32 7 = 0)
        return .loopIdx (← lt 32 (d w)) (← lt 6 (fld w 0 32))
    | 0x39 => bare .endTask w
    | 0x3A => do
        req (fld w 16 35 = 0)
        return .trap (BitVec.ofNat 16 w)
    | 0x3B => do
        req (fld w 16 35 = 0)
        return .brk (BitVec.ofNat 16 w)
    | 0x3C => do
        req (fld w 6 45 = 0)
        return .bankmode (fld w 0 4) (← bankMode (fld w 4 2))
    | 0x3D => do
        req (d w = 0 ∧ fld w 32 7 = 0)
        if a w = 0 then
          req (fld w 19 13 = 0 ∧ fld w 11 5 = 0 ∧ fld w 6 2 = 0)
          return .rbase (.imm (fld w 0 6) (fld w 8 3) (fld w 16 3))
        else
          req (fld w 0 32 = 0)
          return .rbase (.reg (← lt 32 (a w)))
    | 0x40 => bare .eret w
    | 0x41 => do
        req (a w = 0 ∧ fld w 32 7 = 0 ∧ fld w 12 20 = 0)
        return .csrr (← lt 32 (d w)) (← pReg (fld w 0 12))
    | 0x42 => do
        req (d w = 0 ∧ fld w 32 7 = 0 ∧ fld w 12 20 = 0)
        let r ← pReg (fld w 0 12)
        req (WF.writablePriv r)
        return .csrw r (← lt 32 (a w))
    | 0x43 => do
        req (d w = 0 ∧ c w = 0 ∧ fld w 0 19 = 0)
        match md w with
        | 0 => do
            req (a w = 0 ∧ b w = 0)
            return .tlbInvAll
        | 1 => do
            req (a w = 0)
            return .tlbInvAsid (← lt 32 (b w))
        | 2 => return .tlbInvVa (← lt 32 (a w)) (← lt 32 (b w))
        | _ => none
    | 0x44 => da 32 32 0 .tlbPrb w
    | 0x45 => do
        req (d w = 0 ∧ fld w 0 39 = 0)
        return .ctxSv (← lt 32 (a w))
    | 0x46 => do
        req (d w = 0 ∧ fld w 0 39 = 0)
        return .ctxLd (← lt 32 (a w))
    | 0x47 => bare .wfe w
    | _ => none

/-- MOD of the V slots: SCL, MSK, SUB (R241). -/
def scl (w : Nat) : Nat := fld w 26 1
def msk (w : Nat) : Nat := fld w 22 4
def sub (w : Nat) : Nat := fld w 19 3

/-- The second vector source (R271). -/
def vb (w : Nat) : Option VB := if scl w = 1 then (lt 32 (b w)).map .scl else some (.vec (b w))

/-- Two sources and a mask, field c zero; the code in SUB is the caller's. -/
def vab (k : Nat → Nat → VB → Nat → Instr) (w : Nat) : Option Instr := do
  req (c w = 0 ∧ fld w 0 19 = 0)
  return k (d w) (a w) (← vb w) (msk w)

/-- One source and a mask, field c as given. -/
def va (cc : Nat) (k : Nat → Nat → Nat → Instr) (w : Nat) : Option Instr := do
  req (c w = cc ∧ b w = 0 ∧ scl w = 0 ∧ fld w 0 19 = 0)
  return k (d w) (a w) (msk w)

/-- Mask operations: MSK, SCL and SUB zero (R292). -/
def mop (nd na : Nat) (k : Nat → Nat → Instr) (w : Nat) : Option Instr := do
  req (b w = 0 ∧ c w = 0 ∧ md w = 0 ∧ fld w 0 19 = 0)
  return k (← lt nd (d w)) (← lt na (a w))

/-- The lane-wise operations, legal in V0 and V1 (R241). -/
def slotV (w : Nat) : Option Instr :=
  match fld w 56 8 with
  | 0x01 => do vab (.vfadd (← rm (sub w))) w
  | 0x02 => do vab (.vfsub (← rm (sub w))) w
  | 0x03 => do vab (.vfmul (← rm (sub w))) w
  | 0x04 => do
      req (fld w 0 19 = 0)
      return .vfma (← rm (sub w)) (d w) (a w) (← vb w) (c w) (msk w)
  | 0x05 => do
      req (fld w 0 19 = 0)
      return .vfms (← rm (sub w)) (d w) (a w) (← vb w) (c w) (msk w)
  | 0x06 => do
      req (fld w 0 19 = 0)
      return .vfnma (← rm (sub w)) (d w) (a w) (← vb w) (c w) (msk w)
  | 0x07 => do req (sub w = 0); vab .vfmin w
  | 0x08 => do req (sub w = 0); vab .vfmax w
  | 0x09 => do req (sub w = 0); va 0 .vfabs w
  | 0x0A => do req (sub w = 0); va 0 .vfneg w
  | 0x0B => do
      req (d w < 16)
      vab (.vfcmp (← fcond (sub w))) w
  | 0x0C => do va 0 (.vfrcp (← rm (sub w))) w
  | 0x0D => do va 0 (.vfrsq (← rm (sub w))) w
  | 0x0E => do va 0 (.vfexp2 (← rm (sub w))) w
  | 0x0F => do va 0 (.vflog2 (← rm (sub w))) w
  | 0x10 => do vab (.vfscl (← rm (sub w))) w
  | 0x11 => do va 0 (.vfsqrt (← rm (sub w))) w
  | 0x20 => do vab (.vadd (← sat (sub w))) w
  | 0x21 => do vab (.vsub (← sat (sub w))) w
  | 0x22 => do req (sub w = 0); vab .vmul w
  | 0x23 => do req (sub w < 2); vab (.vmulh (sub w == 1)) w
  | 0x24 => do req (sub w = 0); vab .vand w
  | 0x25 => do req (sub w = 0); vab .vor w
  | 0x26 => do req (sub w = 0); vab .vxor w
  | 0x27 => do req (sub w = 0); vab .vshl w
  | 0x28 => do req (sub w = 0); vab .vshr w
  | 0x29 => do req (sub w = 0); vab .vsar w
  | 0x2A => do req (sub w < 2); vab (.vmin (sub w == 1)) w
  | 0x2B => do req (sub w < 2); vab (.vmax (sub w == 1)) w
  | 0x2C => do
      req (sub w = 0 ∧ d w < 16 ∧ fld w 0 19 = 0)
      return .vcmp (← cond (c w)) (d w) (a w) (← vb w) (msk w)
  | 0x2D => do
      req (sub w = 0 ∧ fld w 0 19 = 0)
      return .vsel (d w) (a w) (← vb w) (← lt 16 (c w)) (msk w)
  | 0x2E => do req (sub w < 2); va 0 (.vabs (sub w == 1)) w
  | 0x2F => do req (sub w = 0); va 0 .vpopc w
  | 0x38 => do
      let pair ← cvtPair (c w)
      let r ← rm (fld w 19 2)
      req (WF.cvtOk pair r (fld w 21 1 == 1))
      va (c w) (.vcvt pair r (fld w 21 1 == 1)) w
  | 0x39 => do
      let e ← elem (c w)
      req (fld w 0 19 = 0)
      match sub w with
      | 0 => do
          req (b w = 0 ∧ scl w = 0)
          return .vqmx e (d w) (a w) none (msk w)
      | 1 => return .vqmx e (d w) (a w) (some (← vb w)) (msk w)
      | _ => none
  | 0x3A => do va (c w) (.vdqmx (← elem (c w)) (← rm (sub w))) w
  | 0x3B => do
      req (sub w = 0 ∧ scl w = 0 ∧ fld w 0 19 = 0)
      return .vpack (← packW (c w)) (d w) (a w) (b w) (msk w)
  | 0x3C => do
      let k ← packW (fld w 27 2)
      req (sub w = 0 ∧ fld w 29 3 < WF.parts k)
      va (c w) (.vunpk k (fld w 32 1 == 1) (fld w 29 3)) w
  | 0x50 => do
      req (md w = 0 ∧ c w < 16 ∧ fld w 0 19 = 0)
      return .mlog (BitVec.ofNat 4 (c w)) (← lt 16 (d w)) (← lt 16 (a w)) (← lt 16 (b w))
  | 0x51 => mop 32 16 .mpopc w
  | 0x52 => mop 32 16 .mfirst w
  | 0x53 => mop 16 32 .mset w
  | 0x54 => mop 32 16 .mget w
  | _ => none

/-- V1 (R241): the lane-wise operations, and those that move data between lanes. -/
def slotV1 (w : Nat) : Option Instr :=
  match fld w 56 8 with
  | 0x40 => do req (sub w = 0); vab .vperm w
  | 0x41 => do
      let k ← shuf (c w)
      req (sub w = 0 ∧ scl w = 0 ∧ fld w 0 19 = 0 ∧ (k ≠ .rev ∨ b w = 0))
      return .vshuf k (d w) (a w) (b w) (msk w)
  | 0x42 => do va 0 (.vred (← redOp (sub w))) w
  | 0x43 => do va 0 (.vscan (← redOp (sub w))) w
  | 0x44 => do
      req (sub w = 0 ∧ fld w 0 19 = 0)
      if scl w = 1 then
        req (a w = 0 ∧ c w = 0)
        return .vbcast (d w) (.scalar (← lt 32 (b w))) (msk w)
      else
        req (b w = 0)
        return .vbcast (d w) (.lane (a w) (c w)) (msk w)
  | 0x45 => do
      req (b w = 0 ∧ scl w = 0 ∧ msk w = 0 ∧ sub w < 2 ∧ fld w 0 19 = 0 ∧ (sub w = 0 ∨ c w % 2 = 0))
      return .vins (sub w == 1) (d w) (← lt 32 (a w)) (c w)
  | 0x46 => do
      let f ← extForm (sub w)
      req (b w = 0 ∧ scl w = 0 ∧ msk w = 0 ∧ fld w 0 19 = 0 ∧ (f ≠ .dword ∨ c w % 2 = 0))
      return .vext f (← lt 32 (d w)) (a w) (c w)
  | 0x47 => do
      req (a w = 0 ∧ b w = 0 ∧ c w = 0 ∧ scl w = 0 ∧ sub w = 0 ∧ fld w 0 19 = 0)
      return .viota (d w) (msk w)
  | 0x48 => do req (sub w = 0); va 0 .vcomp w
  | 0x49 => do
      req (b w = 0 ∧ md w = 0 ∧ fld w 0 19 = 0)
      return .vhad (← hadN (c w)) (d w) (a w)
  | 0x4A => do
      req (fld w 0 19 = 0)
      return .vrng (← rngOut (sub w)) (d w) (a w) (← vb w) (← lt 32 (c w)) (msk w)
  | _ => slotV w

/-- MOD, MC, e of the ENG.M class (R227). -/
def mm (w : Nat) : Nat := fld w 13 5
def mcn (w : Nat) : Nat := fld w 18 3
def e (w : Nat) : Nat := fld w 21 6

/-- M slot (R242). -/
def slotM (w : Nat) : Option Instr :=
  match fld w 56 8 with
  | 0x01 => do
      req (e w = 0 ∧ mm w = 0 ∧ fld w 0 13 = 0)
      return .mma (← lt 4 (d w)) (← lt 32 (a w)) (← lt 32 (b w)) (← lt 32 (c w)) (mcn w)
  | 0x02 => do
      req (mm w = 0 ∧ fld w 0 13 = 0)
      return .mmaG (← lt 4 (d w)) (← lt 32 (a w)) (← lt 32 (b w)) (← lt 32 (c w)) (e w) (mcn w)
  | 0x03 => do
      req (e w = 0 ∧ mcn w = 0 ∧ mm w < 2 ∧ fld w 0 13 = 0)
      return .mbin (mm w == 1) (← lt 4 (d w)) (← lt 32 (a w)) (← lt 32 (b w)) (← lt 32 (c w))
  | 0x04 => do
      req (fld w 0 45 = 0)
      return .mzero (← lt 4 (d w))
  | 0x05 => do
      req (c w = 0 ∧ e w = 0 ∧ mm w < 2 ∧ fld w 0 13 = 0)
      return .mdrain (mm w == 1) (← lt 4 (d w)) (← lt 32 (a w)) (← lt 32 (b w)) (mcn w)
  | 0x06 => do
      req (fld w 18 21 = 0 ∧ mm w < 2 ∧ fld w 0 13 = 0)
      return .mloadz (mm w == 1) (← lt 4 (d w)) (← lt 32 (a w))
  | 0x07 => do
      req (d w = 0 ∧ fld w 21 18 = 0 ∧ mm w = 0 ∧ fld w 0 13 = 0 ∧ a w ≤ 27)
      return .mcfg (mcn w) (a w)
  | 0x08 => do
      req (fld w 21 24 = 0 ∧ mm w = 0 ∧ fld w 0 13 = 0 ∧ 1 ≤ d w ∧ d w ≤ 27)
      return .mcfgr (d w) (mcn w)
  | 0x09 => do
      req (fld w 0 45 = 0)
      return .mstat (← lt 32 (d w))
  | 0x0A => do
      req (d w = 0 ∧ e w = 0 ∧ mm w < 2 ∧ fld w 0 13 = 0)
      return .mqnt (mm w == 1) (← lt 32 (a w)) (← lt 32 (b w)) (← lt 32 (c w)) (mcn w)
  | _ => none

/-- Fields of the MEM class (R227, R230). -/
def sp (w : Nat) : Nat := fld w 31 2
def sz (w : Nat) : Nat := fld w 28 3
def zx (w : Nat) : Bool := fld w 27 1 == 1
def fw (w : Nat) : Bool := fld w 26 1 == 1
def fc (w : Nat) : Bool := fld w 25 1 == 1
def landF (w : Nat) : Nat := fld w 13 12
def off13 (w : Nat) : BitVec 13 := BitVec.ofNat 13 w
def mem (w : Nat) : Option Mem := do return ⟨← lt 32 (a w), ← lt 32 (b w), off13 w⟩
def memX (w : Nat) : Option Mem := do return ⟨← lt 32 (a w), b w, off13 w⟩

/-- The limits of R230 on LAND and the full/empty bits of a load. -/
def loadOk (s : Space) (w : Nat) : Bool :=
  (s == .g || landF w == 0) && (s != .g || (!fw w && !fc w))
/-- The same limits on a store. -/
def storeOk (s : Space) (w : Nat) : Bool := landF w == 0 && !zx w && (s != .g || (!fw w && !fc w))

/-- L slot (R243). -/
def slotL (w : Nat) : Option Instr :=
  match fld w 56 8 with
  | 0x01 => do
      let s ← space (sp w)
      let z ← size (sz w)
      req (loadOk s w ∧ (z ≠ .d ∨ zx w = false))
      return .ld s z (zx w) (fw w) (fc w) (← lt 32 (d w)) (← mem w) (landF w)
  | 0x02 => do
      let s ← space (sp w)
      req (loadOk s w ∧ sz w = 0 ∧ zx w = false)
      return .ldv s (fw w) (fc w) (d w) (← mem w) (landF w)
  | 0x03 => do
      let s ← space (sp w)
      let z ← size (sz w)
      req (loadOk s w ∧ z ≠ .d ∧ (z ≠ .w ∨ zx w = false))
      return .ldvS s z (zx w) (fw w) (fc w) (d w) (← mem w) (landF w)
  | 0x04 => do
      let s ← space (sp w)
      let z ← size (sz w)
      req (loadOk s w ∧ z ≠ .d ∧ (z ≠ .w ∨ zx w = false))
      return .ldvX s z (zx w) (fw w) (fc w) (d w) (← memX w) (landF w)
  | 0x05 => do
      let s ← space (sp w)
      req (loadOk s w ∧ sz w = 3 ∧ zx w = false)
      return .ldm s (fw w) (fc w) (← lt 16 (d w)) (← mem w) (landF w)
  | 0x08 => do
      req (d w = 0 ∧ fld w 25 8 = 128 ∧ landF w = 0)
      return .pref (← mem w)
  | _ => none

/-- W slot (R244, R231). -/
def slotW (w : Nat) : Option Instr :=
  match fld w 56 8 with
  | 0x01 => do
      let s ← space (sp w)
      req (storeOk s w)
      return .st s (← size (sz w)) (← feQ (fld w 25 2)) (← lt 32 (d w)) (← mem w)
  | 0x02 => do
      let s ← space (sp w)
      req (storeOk s w ∧ sz w = 0)
      return .stv s (← feQ (fld w 25 2)) (d w) (← mem w)
  | 0x03 => do
      let s ← space (sp w)
      let z ← size (sz w)
      req (storeOk s w ∧ z ≠ .d)
      return .stvS s z (← feQ (fld w 25 2)) (d w) (← mem w)
  | 0x04 => do
      let s ← space (sp w)
      let z ← size (sz w)
      req (storeOk s w ∧ z ≠ .d)
      return .stvX s z (← feQ (fld w 25 2)) (d w) (← memX w)
  | 0x05 => do
      let s ← space (sp w)
      req (storeOk s w ∧ sz w = 3)
      return .stm s (← feQ (fld w 25 2)) (← lt 16 (d w)) (← mem w)
  | 0x06 => do
      let k ← lt 32 (d w)
      req (k ≠ 0 ∨ landF w = 0)
      return .amo (← amoOp (fld w 29 4)) (← order (fld w 25 4)) k (← mem w) (landF w)
  | 0x07 => do
      let k ← lt 32 (d w)
      req (fld w 29 4 = 0 ∧ (k ≠ 0 ∨ landF w = 0))
      return .cas (← order (fld w 25 4)) k (← mem w) (landF w)
  | 0x08 => do
      req (fld w 29 1 = 0 ∧ landF w = 0)
      let r ← relOnly (fld w 25 4)
      let m ← mem w
      match fld w 30 2 with
      | 0 => do
          req (d w = 0)
          return .amof (fld w 32 1 == 1) r m
      | 1 => return .amofSeq (fld w 32 1 == 1) r (← lt 32 (d w)) m
      | 2 => do
          req (m.idx = 0)
          return .amofSeqSkip (fld w 32 1 == 1) r (← lt 32 (d w)) m
      | _ => none
  | 0x0A => do
      let s ← space (sp w)
      req (s ≠ .g ∧ sz w = 0 ∧ zx w = false ∧ landF w = 0 ∧ fw w ≠ fc w)
      return .setfe s (fw w) (← lt 32 (d w)) (← mem w)
  | _ => none

/-- Fields of the ENG.C class (R227). -/
def f3 (w : Nat) : Nat := fld w 7 6
def pd (w : Nat) : Nat := fld w 3 4
def cm (w : Nat) : Nat := fld w 25 8

/-- The origin, command and auxiliary registers of a CP or NET command; LAND, F3, PD and the reserved bits are zero. -/
def cmd (k : Nat → Nat → Nat → Instr) (w : Nat) : Option Instr := do
  req (fld w 0 25 = 0)
  return k (d w) (← lt 32 (a w)) (← lt 32 (b w))

/-- Two scalar registers in F1 and F2 and nothing else. -/
def f12 (k : Nat → Nat → Instr) (w : Nat) : Option Instr := do
  req (d w = 0 ∧ fld w 0 33 = 0)
  return k (← lt 32 (a w)) (← lt 32 (b w))

/-- C slot (R245, R320, R326, R332). -/
def slotC (w : Nat) : Option Instr :=
  match fld w 56 8 with
  | 0x01 => do req (cm w % 128 = 0); cmd (.cp (cm w == 128)) w
  | 0x02 => do req (cm w = 0); cmd .cpMc w
  | 0x03 => do req (cm w % 128 < 2); cmd (.cpX (128 ≤ cm w) (cm w % 2 == 1)) w
  | 0x04 => do cmd (.cpPk (128 ≤ cm w) (← codec (cm w % 128))) w
  | 0x05 => do req (cm w % 128 = 0); cmd (.cpUn (cm w == 128)) w
  | 0x06 => f12 .cpStamp w
  | 0x07 => do
      req (fld w 0 39 = 0)
      return .lrecPut (d w) (← lt 32 (a w))
  | 0x08 => do
      req (fld w 0 39 = 0)
      return .lrecGet (d w) (← lt 32 (a w))
  | 0x09 => f12 .cln w
  | 0x0A => f12 .inv w
  | 0x0B => f12 .clninv w
  | 0x10 => do
      req (fld w 7 32 = 0 ∧ fld w 0 3 = 0)
      return .tsDep (pd w) (d w) (← lt 32 (a w))
  | 0x11 => do
      req (cm w = 0 ∧ landF w = 0 ∧ fld w 0 3 = 0)
      return .tsRd (pd w) (d w) (← lt 32 (a w)) (← lt 32 (b w)) (← lt 32 (f3 w))
  | 0x12 => do
      req (cm w = 0 ∧ landF w = 0 ∧ fld w 0 3 = 0)
      return .tsTake (pd w) (d w) (← lt 32 (a w)) (← lt 32 (b w)) (← lt 32 (f3 w))
  | 0x13 => do
      req (cm w = 0 ∧ f3 w = 0 ∧ fld w 0 3 = 0)
      return .tsRdp (pd w) (d w) (← lt 32 (a w)) (← lt 32 (b w)) (landF w)
  | 0x14 => do
      req (cm w = 0 ∧ f3 w = 0 ∧ fld w 0 3 = 0)
      return .tsTakep (pd w) (d w) (← lt 32 (a w)) (← lt 32 (b w)) (landF w)
  | 0x15 => do
      req (cm w = 0 ∧ fld w 0 3 = 0)
      return .tsCnt (pd w) (← lt 32 (d w)) (← lt 32 (a w)) (← lt 32 (b w)) (f3 w) (landF w)
  | 0x20 => do
      req (fld w 29 2 = 0 ∧ landF w = 0 ∧ fld w 0 7 = 0)
      return .rcall (fld w 32 1 == 1) (fld w 31 1 == 1) (fld w 25 4) (← lt 32 (d w)) (← lt 32 (a w)) (← lt 32 (b w)) (← lt 32 (f3 w))
  | 0x21 => do
      req (fld w 29 3 = 0 ∧ landF w = 0 ∧ fld w 0 7 = 0)
      return .rpost (fld w 32 1 == 1) (fld w 25 4) (d w) (← lt 32 (a w)) (← lt 32 (b w)) (← lt 32 (f3 w))
  | 0x22 => do
      req (d w = 0 ∧ fld w 13 20 = 0 ∧ fld w 0 7 = 0)
      return .rret (← lt 32 (a w)) (← lt 32 (b w)) (← lt 32 (f3 w))
  | 0x30 => do
      req (d w = 0 ∧ fld w 7 26 = 0 ∧ fld w 0 3 = 0)
      return .nmLoad (pd w) (← lt 32 (a w)) (← lt 32 (b w))
  | 0x31 => do
      req (d w = 0 ∧ fld w 7 26 = 0 ∧ fld w 0 3 = 0)
      return .nmGo (pd w) (← lt 32 (a w)) (← lt 32 (b w))
  | 0x32 => do
      req (d w = 0 ∧ fld w 0 39 = 0)
      return .nmStop (← lt 32 (a w))
  | 0x33 => do
      req (fld w 0 39 = 0)
      return .nmStat (← lt 32 (d w)) (← lt 32 (a w))
  | 0x38 => do cmd (.netPut (128 ≤ cm w) (← codec (cm w % 128))) w
  | 0x39 => do req (cm w % 128 = 0); cmd (.netGet (cm w == 128)) w
  | _ => none

/-- Fields of the Y slot (R228). -/
def ya (w : Nat) : Nat := fld w 31 6
def yb (w : Nat) : Nat := fld w 25 6
def xi (w : Nat) : Nat := fld w 24 1
def sc (w : Nat) : Nat := fld w 21 3
def ypd (w : Nat) : Nat := fld w 17 4
def yimm (w : Nat) : Nat := fld w 0 17

/-- The barrier index of a Y slot (R228, R334). -/
def ix (w : Nat) : Option BarIx :=
  if xi w = 1 then do
    req (yimm w = 0)
    return .reg (← lt 32 (yb w))
  else do
    req (yb w = 0)
    return .imm (← lt 1024 (yimm w))

/-- Y slot (R246). -/
def slotY (w : Nat) : Option Instr :=
  match fld w 42 6 with
  | 0x01 => do
      let k ← lt 32 (ya w)
      match sc w with
      | 0 => do
          req (yb w = 0 ∧ xi w = 0 ∧ yimm w = 0)
          return .barAlloc (ypd w) k
      | 1 => return .barAllocAt (ypd w) k (← ix w)
      | _ => none
  | 0x02 => do req (ya w = 0 ∧ sc w = 0 ∧ ypd w = 0); return .barFree (← ix w)
  | 0x03 => do req (ya w = 0 ∧ sc w = 0 ∧ ypd w = 0); return .barRef (← ix w)
  | 0x04 => do req (sc w = 0); return .barInit (ypd w) (← lt 30 (ya w)) (← ix w)
  | 0x05 => do req (sc w = 0); return .barExpect (ypd w) (← lt 30 (ya w)) (← ix w)
  | 0x06 => do req (sc w = 0 ∧ ypd w = 0); return .barArrive (← lt 32 (ya w)) (← ix w)
  | 0x07 => do req (sc w = 0 ∧ ypd w = 0); return .barWait (← lt 32 (ya w)) (← ix w)
  | 0x08 => do req (sc w = 0); return .barTest (ypd w) (← lt 32 (ya w)) (← ix w)
  | 0x09 => do req (ypd w = 0); return .barInfo (← lt 32 (ya w)) (← ix w) (sc w)
  | 0x0A => do
      req (yb w = 0 ∧ xi w = 0 ∧ sc w = 0)
      return .gbar (ypd w) (← lt 32 (ya w)) (← lt 256 (yimm w))
  | 0x10 => do
      req (ya w = 0 ∧ yb w = 0 ∧ xi w = 0 ∧ ypd w = 0 ∧ yimm w = 0)
      return .fence (← scope (sc w))
  | 0x11 => do req (fld w 0 37 = 0); return .xfence
  | 0x12 => do req (fld w 0 37 = 0); return .nmfence
  | 0x13 => do req (fld w 0 31 = 0); return .monArm (← lt 32 (ya w))
  | 0x14 => do
      req (yb w = 0 ∧ xi w = 0 ∧ sc w = 0 ∧ yimm w = 0)
      return .monWait (ypd w) (← lt 32 (ya w))
  | 0x15 => do req (fld w 0 37 = 0); return .lwait
  | _ => none

/-- The operand bits of a slot, by its name. -/
def slot (n : SlotName) (hasLit : Bool) (w : Nat) : Option Instr :=
  match n with
  | .s => slotS hasLit w
  | .v0 => slotV w
  | .v1 => slotV1 w
  | .m => slotM w
  | .l => slotL w
  | .w => slotW w
  | .c => slotC w
  | .y => slotY w

end Dec

/-- LOOP, LOOP.SET and END carry no guard (R232). -/
def Instr.noGuard : Instr → Bool
  | .loop | .loopSet .. | .endTask => true
  | _ => false

/-- The handler-mode opcodes 0x40–0x47 of the S slot (R240). -/
def Instr.isHandler : Instr → Bool
  | .eret | .csrr .. | .csrw .. | .tlbInvAll | .tlbInvAsid .. | .tlbInvVa .. | .tlbPrb .. | .ctxSv .. | .ctxLd .. | .wfe => true
  | _ => false

/-- The guard of a slot word (R225, R228): NEG and the predicate index. -/
def guardOf (n : SlotName) (w : Nat) : Bool × Nat :=
  if n = .y then (fld w 41 1 == 1, fld w 37 4) else (fld w 55 1 == 1, fld w 51 4)

/-- One slot word: none for NOP (an all-zero slot), otherwise its guard and instruction, or ILLEGAL (R225, R228, R232). The guard bits lie above
the operand bits of every class and in no field a class reads. -/
def decodeSlot (n : SlotName) (hasLit : Bool) (w : Nat) : Except DecFault (Option Slot) :=
  if w = 0 then .ok none
  else match Dec.slot n hasLit w with
    | none => .error .illegal
    | some i => if i.noGuard ∧ guardOf n w ≠ (false, 0) then .error .illegal else .ok (some ⟨n, (guardOf n w).1, (guardOf n w).2, i⟩)

/-- Where a destination register lives (R226, R234). -/
inductive DestKind where
  | s | p | v | m
  deriving DecidableEq, Repr

/-- The registers an instruction names as destinations, discarded ones (s0, p0, m0) left out (R234). -/
def Instr.dests (i : Instr) : List (DestKind × Nat) :=
  let s (n : Nat) := if n = 0 then [] else [(DestKind.s, n)]
  let p (n : Nat) := if n = 0 then [] else [(DestKind.p, n)]
  let m (n : Nat) := if n = 0 then [] else [(DestKind.m, n)]
  let v (n : Nat) := [(DestKind.v, n)]
  match i with
  | .add d _ _ | .sub d _ _ | .mul d _ _ | .mulh d _ _ | .mulhu d _ _ | .div d _ _ | .divu d _ _ | .rem d _ _ | .remu d _ _
  | .and d _ _ | .or d _ _ | .xor d _ _ | .andn d _ _ | .shl d _ _ | .shr d _ _ | .sar d _ _ | .rotl d _ _ | .min d _ _
  | .max d _ _ | .minu d _ _ | .maxu d _ _
  | .addI d _ _ | .subI d _ _ | .mulI d _ _ | .mulhI d _ _ | .mulhuI d _ _ | .divI d _ _ | .divuI d _ _ | .remI d _ _
  | .remuI d _ _ | .andI d _ _ | .orI d _ _ | .xorI d _ _ | .andnI d _ _ | .shlI d _ _ | .shrI d _ _ | .sarI d _ _
  | .rotlI d _ _ | .minI d _ _ | .maxI d _ _ | .minuI d _ _ | .maxuI d _ _
  | .clz d _ | .ctz d _ | .popc d _ | .sext _ d _ | .zext _ d _ | .bfx _ d _ _ | .bfi d _ _ _ | .sel d _ _ _
  | .movpPs d _ | .movpAll d | .li d _ | .lih d _ | .rsr d _ | .loopIdx d _ | .csrr d _ | .tlbPrb d _
  | .vext _ d _ _ | .mpopc d _ | .mfirst d _ | .mget d _ | .mstat d | .nmStat d _
  | .ld _ _ _ _ _ d _ _ | .amo _ _ d _ _ | .cas _ d _ _ | .barAlloc 0 d | .barAllocAt 0 d _ | .barInfo d _ _
  | .tsCnt 0 d _ _ _ _ => s d
  | .call _ => s 31
  | .callr nl _ => if nl then [] else s 31
  | .cmp _ d _ _ | .plog _ d _ _ | .movpSp d _ | .tsDep d _ _ | .nmLoad d _ _ | .nmGo d _ _ | .barInit d _ _
  | .barExpect d _ _ | .barTest d _ _ | .gbar d _ _ | .monWait d _ => p d
  | .vfcmp _ d _ _ _ | .vcmp _ d _ _ _ | .mlog _ d _ _ | .mset d _ | .ldm _ _ _ d _ _ => m d
  | .vfadd _ d _ _ _ | .vfsub _ d _ _ _ | .vfmul _ d _ _ _ | .vfma _ d _ _ _ _ | .vfms _ d _ _ _ _ | .vfnma _ d _ _ _ _
  | .vfmin d _ _ _ | .vfmax d _ _ _ | .vfabs d _ _ | .vfneg d _ _ | .vfrcp _ d _ _ | .vfrsq _ d _ _ | .vfexp2 _ d _ _
  | .vflog2 _ d _ _ | .vfscl _ d _ _ _ | .vfsqrt _ d _ _ | .vadd _ d _ _ _ | .vsub _ d _ _ _ | .vmul d _ _ _
  | .vmulh _ d _ _ _ | .vand d _ _ _ | .vor d _ _ _ | .vxor d _ _ _ | .vshl d _ _ _ | .vshr d _ _ _ | .vsar d _ _ _
  | .vmin _ d _ _ _ | .vmax _ d _ _ _ | .vsel d _ _ _ _ | .vabs _ d _ _ | .vpopc d _ _ | .vcvt _ _ _ d _ _
  | .vqmx _ d _ _ _ | .vdqmx _ _ d _ _ | .vpack _ d _ _ _ | .vunpk _ _ _ d _ _ | .vperm d _ _ _ | .vshuf _ d _ _ _
  | .vred _ d _ _ | .vscan _ d _ _ | .vbcast d _ _ | .vins _ d _ _ | .viota d _ | .vcomp d _ _ | .vhad _ d _
  | .vrng _ d _ _ _ _ | .ldv _ _ _ d _ _ | .ldvS _ _ _ _ _ d _ _ | .ldvX _ _ _ _ _ d _ _ | .lrecGet d _ => v d
  | .mcfgr d _ => (List.range 5).flatMap fun k => s (d + k)
  | .rcall _ _ _ d _ _ _ => if d = 0 then [] else (List.range 4).flatMap fun k => s (d + k)
  | .tsRd pd d _ _ _ | .tsTake pd d _ _ _ | .tsRdp pd d _ _ _ | .tsTakep pd d _ _ _ => v d ++ p pd
  | .barAlloc pd d | .barAllocAt pd d _ | .tsCnt pd d _ _ _ _ => s d ++ p pd
  | _ => []

/-- Two instructions of one bundle name one destination register (R234). -/
def clash (i j : Instr) : Bool := i.dests.any fun x => j.dests.contains x

/-- Bit position and width of each slot in the bundle (R222). -/
def slotPos : SlotName → Nat × Nat
  | .s => (432, 64)
  | .v0 => (368, 64)
  | .v1 => (304, 64)
  | .m => (240, 64)
  | .l => (176, 64)
  | .w => (112, 64)
  | .c => (48, 64)
  | .y => (0, 48)

/-- The slots in the order of R234. -/
def slotOrder : List SlotName := [.s, .v0, .v1, .m, .l, .w, .c, .y]

/-- Bits of slot n in bundle w. -/
def slotBits (n : SlotName) (w : Nat) : Nat := fld w (slotPos n).1 (slotPos n).2

/-- The slot that LIT makes a literal (R233). -/
def litSlot : Nat → Option SlotName
  | 1 => some .c
  | 2 => some .v1
  | _ => none

/-- The slots of a bundle in order, with the decode checks that need only the slot and the slots before it (R247). -/
def decodeSlots (litAt : Option SlotName) (w : Nat) : List SlotName → List Slot → Except (SlotName × DecFault) (List Slot)
  | [], acc => .ok acc.reverse
  | n :: ns, acc =>
    if litAt = some n then decodeSlots litAt w ns acc
    else match decodeSlot n litAt.isSome (slotBits n w) with
      | .error f => .error (n, f)
      | .ok none => decodeSlots litAt w ns acc
      | .ok (some x) =>
        if acc.any fun y => clash y.instr x.instr then .error (n, .illegal) else decodeSlots litAt w ns (x :: acc)

/-- A bundle, whatever the mode (R222, R223, R233, R247). A fault of the header is reported for slot S (log 6). -/
def decodeBundle (w : Nat) : Except (SlotName × DecFault) Bundle :=
  if fld w 496 8 ≠ 0 ∨ fld w 504 2 = 3 then .error (.s, .illegal)
  else
    let litAt := litSlot (fld w 504 2)
    match decodeSlots litAt w slotOrder [] with
    | .error f => .error f
    | .ok xs => .ok ⟨fld w 507 5, fld w 506 1 == 1, litAt.map fun n => BitVec.ofNat 64 (slotBits n w), xs⟩

/-- The number that 64 bytes spell, lowest address first (R4, R222). -/
def bundleOfBytes : List Byte → Nat
  | [] => 0
  | x :: xs => x.toNat + 256 * bundleOfBytes xs

/-- The 64 bytes of a bundle, lowest address first (R4, R222). -/
def bytesOfBundle (w : Nat) : List Byte := (List.range 64).map fun k => BitVec.ofNat 8 (w / 2 ^ (8 * k))

/-- The instruction of a bundle whose bits are w, the bits above nbits being zero: its first occupied slot in the order of R234, NOP for a
bundle without one, and nothing where the decoder refuses. -/
def decodeTableWord (nbits w : Nat) : Option Instr :=
  match decodeBundle (bundleOfBytes (bytesOfBundle (w % 2 ^ nbits))) with
  | .error _ => none
  | .ok b => some (match b.slots with
    | [] => .nop
    | x :: _ => x.instr)

namespace Enc

/-- Codes of the operand kinds, the inverse of those of the decoder. -/
def cond : Cond → Nat
  | .eq => 0 | .ne => 1 | .lt => 2 | .le => 3 | .gt => 4 | .ge => 5 | .ltu => 6 | .leu => 7 | .gtu => 8 | .geu => 9
def xwidth : XWidth → Nat
  | .b => 0 | .h => 1 | .w => 2
def brCnd : BrCnd → Nat
  | .always => 0 | .zero => 1 | .nonzero => 2 | .neg => 3 | .nonneg => 4
def bankMode : BankMode → Nat
  | .scratch => 0 | .cache => 1 | .fifo => 2
def spReg : SpReg → Nat
  | .task => 0x000 | .lcore => 0x001 | .nlcore => 0x002 | .gridx => 0x003 | .gridy => 0x004 | .gridz => 0x005 | .launch => 0x006
  | .die => 0x007 | .pcore => 0x008 | .time => 0x009 | .vstat => 0x010 | .dstat => 0x011 | .frzcnt => 0x012 | .lbusy => 0x013
  | .rbase => 0x014 | .lstk n => 0x018 + n | .feat => 0x01F
def pReg : PReg → Nat
  | .cctl => 0x100 | .fcause => 0x101 | .faddr => 0x102 | .fpc => 0x103 | .epc => 0x104 | .estat => 0x105 | .hbase => 0x106
  | .rbanks => 0x107 | .ltgrant => 0x108 | .crftab => 0x109 | .ptroot => 0x10A | .asid => 0x10B | .rcto => 0x10C
  | .rcbudget => 0x10D | .nmdebt n => 0x110 + n | .wstat => 0x118 | .wcnt k => 0x120 + k
def rm : Rm → Nat
  | .rn => 0 | .rz => 1 | .ru => 2 | .rd => 3
def fcond : FCond → Nat
  | .eq => 0 | .ne => 1 | .lt => 2 | .le => 3 | .gt => 4 | .ge => 5 | .un => 6 | .or => 7
def sat : Sat → Nat
  | .wrap => 0 | .sat => 1 | .satu => 2
def elem : Elem → Nat
  | .e2m1 => 0 | .e4m3 => 1 | .e5m2 => 2
def cvtPair : CvtPair → Nat
  | .f32i32 => 0 | .f32n32 => 1 | .f32i16 => 2 | .f32n16 => 3 | .f32i8 => 4 | .f32n8 => 5 | .i32f32 => 6 | .n32f32 => 7
  | .f32bf16 => 8 | .f32f16 => 9 | .f32e4m3 => 10 | .f32e5m2 => 11 | .bf16f32 => 12 | .f16f32 => 13 | .e4m3f32 => 14
  | .e5m2f32 => 15 | .i32i16 => 16 | .i32i8 => 17 | .n32n16 => 18 | .n32n8 => 19 | .i16i32 => 20 | .i8i32 => 21
  | .n16n32 => 22 | .n8n32 => 23
def packW : PackW → Nat
  | .h => 0 | .b => 1 | .q => 2
def shuf : Shuf → Nat
  | .ilo => 0 | .ihi => 1 | .even => 2 | .odd => 3 | .rev => 4
def redOp : RedOp → Nat
  | .fadd => 0 | .fmax => 1 | .fmin => 2 | .add => 3 | .max => 4 | .min => 5 | .maxu => 6 | .minu => 7
def extForm : ExtForm → Nat
  | .zero => 0 | .sign => 1 | .dword => 2
def hadN : HadN → Nat
  | .n16 => 1 | .n32 => 2 | .n64 => 3
def rngOut : RngOut → Nat
  | .lo => 0 | .hi => 1 | .sr => 2 | .unif => 3 | .sra => 4 | .srb => 5 | .sign => 6
def space : Space → Nat
  | .l => 0 | .c => 1 | .g => 2
def size : Size → Nat
  | .b => 0 | .h => 1 | .w => 2 | .d => 3
def amoOp : AmoOp → Nat
  | .add => 0 | .and => 1 | .or => 2 | .xor => 3 | .min => 4 | .max => 5 | .minu => 6 | .maxu => 7 | .swap => 8
def scope : Scope → Nat
  | .core => 0 | .cluster => 1 | .die => 2 | .module => 3 | .system => 4
def order : Order → Nat
  | .rlx => 0 | .acq s => 1 + scope s | .rel s => 6 + scope s | .ar s => 11 + scope s
def relOnly : Option Scope → Nat
  | none => 0
  | some s => 6 + scope s
def codec : Codec → Nat
  | .raw => 0 | .zr => 1 | .bp => 2
def feQ : FeQ → Nat
  | .plain => 0 | .empty => 1 | .full => 2
def bit (b : Bool) : Nat := if b then 1 else 0

/-- A word of the RRR class (R227), guard p0. -/
def rrr (opc d a b c md : Nat) : Nat := opc * 2 ^ 56 + d * 2 ^ 45 + a * 2 ^ 39 + b * 2 ^ 33 + c * 2 ^ 27 + md * 2 ^ 19
/-- A word of the RI class (R227). -/
def ri (opc d a : Nat) (v : BitVec 32) : Nat := opc * 2 ^ 56 + d * 2 ^ 45 + a * 2 ^ 39 + v.toNat
/-- A word of the RI class with its immediate or L = 1 (R229). -/
def rim (opc d a : Nat) : Imm → Nat
  | .imm v => ri opc d a v
  | .lit => opc * 2 ^ 56 + d * 2 ^ 45 + a * 2 ^ 39 + 2 ^ 38
/-- A word of the MEM class (R227). -/
def mem (opc d : Nat) (m : Mem) (md land : Nat) : Nat :=
  opc * 2 ^ 56 + d * 2 ^ 45 + m.base * 2 ^ 39 + m.idx * 2 ^ 33 + md * 2 ^ 25 + land * 2 ^ 13 + m.off.toNat
/-- MOD of a load or store (R230). -/
def memMod (sp : Space) (sz : Nat) (zx : Bool) (fe : Nat) : Nat := space sp * 64 + sz * 8 + bit zx * 4 + fe
/-- MOD of a V slot (R241). -/
def vmod (scl msk sub : Nat) : Nat := scl * 128 + msk * 8 + sub
/-- A V slot with two sources. -/
def vab (opc d a : Nat) (b : VB) (c msk sub : Nat) : Nat :=
  match b with
  | .vec r => rrr opc d a r c (vmod 0 msk sub)
  | .scl r => rrr opc d a r c (vmod 1 msk sub)
/-- A word of the ENG.M class (R227). -/
def engm (opc d a b c e mc md : Nat) : Nat :=
  opc * 2 ^ 56 + d * 2 ^ 45 + a * 2 ^ 39 + b * 2 ^ 33 + c * 2 ^ 27 + e * 2 ^ 21 + mc * 2 ^ 18 + md * 2 ^ 13
/-- A word of the ENG.C class (R227). -/
def engc (opc f0 f1 f2 md land f3 pd : Nat) : Nat :=
  opc * 2 ^ 56 + f0 * 2 ^ 45 + f1 * 2 ^ 39 + f2 * 2 ^ 33 + md * 2 ^ 25 + land * 2 ^ 13 + f3 * 2 ^ 7 + pd * 2 ^ 3
/-- A word of the Y slot (R228). -/
def y (opc a b xi sc pd imm : Nat) : Nat :=
  opc * 2 ^ 42 + a * 2 ^ 31 + b * 2 ^ 25 + xi * 2 ^ 24 + sc * 2 ^ 21 + pd * 2 ^ 17 + imm
/-- A word of the Y slot that names a barrier (R334). -/
def yix (opc a : Nat) (ix : BarIx) (sc pd : Nat) : Nat :=
  match ix with
  | .imm i => y opc a 0 0 sc pd i
  | .reg b => y opc a b 1 sc pd 0

end Enc

open Enc in
/-- The slot and the word of a slot instruction under guard p0; nothing for the steps of other agents (R225–R246). -/
def encode : Instr → Option (SlotName × Nat)
  | .nop => some (.s, 0)
  | .add d a b => some (.s, rrr 0x01 d a b 0 0)
  | .sub d a b => some (.s, rrr 0x02 d a b 0 0)
  | .mul d a b => some (.s, rrr 0x03 d a b 0 0)
  | .mulh d a b => some (.s, rrr 0x04 d a b 0 0)
  | .mulhu d a b => some (.s, rrr 0x05 d a b 0 0)
  | .div d a b => some (.s, rrr 0x06 d a b 0 0)
  | .divu d a b => some (.s, rrr 0x07 d a b 0 0)
  | .rem d a b => some (.s, rrr 0x08 d a b 0 0)
  | .remu d a b => some (.s, rrr 0x09 d a b 0 0)
  | .and d a b => some (.s, rrr 0x0A d a b 0 0)
  | .or d a b => some (.s, rrr 0x0B d a b 0 0)
  | .xor d a b => some (.s, rrr 0x0C d a b 0 0)
  | .andn d a b => some (.s, rrr 0x0D d a b 0 0)
  | .shl d a b => some (.s, rrr 0x0E d a b 0 0)
  | .shr d a b => some (.s, rrr 0x0F d a b 0 0)
  | .sar d a b => some (.s, rrr 0x10 d a b 0 0)
  | .rotl d a b => some (.s, rrr 0x11 d a b 0 0)
  | .min d a b => some (.s, rrr 0x12 d a b 0 0)
  | .max d a b => some (.s, rrr 0x13 d a b 0 0)
  | .minu d a b => some (.s, rrr 0x14 d a b 0 0)
  | .maxu d a b => some (.s, rrr 0x15 d a b 0 0)
  | .addI d a i => some (.s, rim 0x81 d a i)
  | .subI d a i => some (.s, rim 0x82 d a i)
  | .mulI d a i => some (.s, rim 0x83 d a i)
  | .mulhI d a i => some (.s, rim 0x84 d a i)
  | .mulhuI d a i => some (.s, rim 0x85 d a i)
  | .divI d a i => some (.s, rim 0x86 d a i)
  | .divuI d a i => some (.s, rim 0x87 d a i)
  | .remI d a i => some (.s, rim 0x88 d a i)
  | .remuI d a i => some (.s, rim 0x89 d a i)
  | .andI d a i => some (.s, rim 0x8A d a i)
  | .orI d a i => some (.s, rim 0x8B d a i)
  | .xorI d a i => some (.s, rim 0x8C d a i)
  | .andnI d a i => some (.s, rim 0x8D d a i)
  | .shlI d a i => some (.s, rim 0x8E d a i)
  | .shrI d a i => some (.s, rim 0x8F d a i)
  | .sarI d a i => some (.s, rim 0x90 d a i)
  | .rotlI d a i => some (.s, rim 0x91 d a i)
  | .minI d a i => some (.s, rim 0x92 d a i)
  | .maxI d a i => some (.s, rim 0x93 d a i)
  | .minuI d a i => some (.s, rim 0x94 d a i)
  | .maxuI d a i => some (.s, rim 0x95 d a i)
  | .clz d a => some (.s, rrr 0x16 d a 0 0 0)
  | .ctz d a => some (.s, rrr 0x17 d a 0 0 0)
  | .popc d a => some (.s, rrr 0x18 d a 0 0 0)
  | .sext w d a => some (.s, rrr 0x19 d a 0 0 (xwidth w))
  | .zext w d a => some (.s, rrr 0x1A d a 0 0 (xwidth w))
  | .bfx sg d a b => some (.s, rrr 0x1B d a b 0 (bit sg))
  | .bfi d a b c => some (.s, rrr 0x1C d a b c 0)
  | .sel d pc a b => some (.s, rrr 0x1D d a b pc 0)
  | .cmp k d a b => some (.s, rrr 0x1E d a b 0 (cond k))
  | .plog t d a b => some (.s, rrr 0x1F d a b 0 t.toNat)
  | .movpPs d a => some (.s, rrr 0x22 d a 0 0 0)
  | .movpSp d a => some (.s, rrr 0x22 d a 0 0 1)
  | .movpAll d => some (.s, rrr 0x22 d 0 0 0 2)
  | .li d i => some (.s, rim 0x20 d 0 i)
  | .lih d v => some (.s, ri 0x21 d 0 v)
  | .rsr d r => some (.s, 0x23 * 2 ^ 56 + d * 2 ^ 45 + spReg r)
  | .wsr r a => some (.s, 0x24 * 2 ^ 56 + a * 2 ^ 39 + spReg r)
  | .br k c off => some (.s, 0x30 * 2 ^ 56 + brCnd k * 2 ^ 45 + c * 2 ^ 39 + off.toNat)
  | .jmp off => some (.s, 0x31 * 2 ^ 56 + off.toNat)
  | .call off => some (.s, 0x32 * 2 ^ 56 + off.toNat)
  | .callr nl a => some (.s, 0x33 * 2 ^ 56 + bit nl * 2 ^ 45 + a * 2 ^ 39)
  | .ret => some (.s, 0x34 * 2 ^ 56)
  | .loopSet c off => some (.s, 0x35 * 2 ^ 56 + c * 2 ^ 39 + off.toNat)
  | .loop => some (.s, 0x36 * 2 ^ 56)
  | .loopBrk => some (.s, 0x37 * 2 ^ 56)
  | .loopIdx d k => some (.s, 0x38 * 2 ^ 56 + d * 2 ^ 45 + k)
  | .endTask => some (.s, 0x39 * 2 ^ 56)
  | .trap k => some (.s, 0x3A * 2 ^ 56 + k.toNat)
  | .brk k => some (.s, 0x3B * 2 ^ 56 + k.toNat)
  | .bankmode bank m => some (.s, 0x3C * 2 ^ 56 + bankMode m * 2 ^ 4 + bank)
  | .rbase (.imm vrb mrb prb) => some (.s, 0x3D * 2 ^ 56 + prb * 2 ^ 16 + mrb * 2 ^ 8 + vrb)
  | .rbase (.reg a) => some (.s, 0x3D * 2 ^ 56 + a * 2 ^ 39)
  | .eret => some (.s, 0x40 * 2 ^ 56)
  | .csrr d r => some (.s, 0x41 * 2 ^ 56 + d * 2 ^ 45 + pReg r)
  | .csrw r a => some (.s, 0x42 * 2 ^ 56 + a * 2 ^ 39 + pReg r)
  | .tlbInvAll => some (.s, rrr 0x43 0 0 0 0 0)
  | .tlbInvAsid b => some (.s, rrr 0x43 0 0 b 0 1)
  | .tlbInvVa a b => some (.s, rrr 0x43 0 a b 0 2)
  | .tlbPrb d a => some (.s, rrr 0x44 d a 0 0 0)
  | .ctxSv a => some (.s, rrr 0x45 0 a 0 0 0)
  | .ctxLd a => some (.s, rrr 0x46 0 a 0 0 0)
  | .wfe => some (.s, 0x47 * 2 ^ 56)
  | .vfadd r d a b m => some (.v0, vab 0x01 d a b 0 m (rm r))
  | .vfsub r d a b m => some (.v0, vab 0x02 d a b 0 m (rm r))
  | .vfmul r d a b m => some (.v0, vab 0x03 d a b 0 m (rm r))
  | .vfma r d a b c m => some (.v0, vab 0x04 d a b c m (rm r))
  | .vfms r d a b c m => some (.v0, vab 0x05 d a b c m (rm r))
  | .vfnma r d a b c m => some (.v0, vab 0x06 d a b c m (rm r))
  | .vfmin d a b m => some (.v0, vab 0x07 d a b 0 m 0)
  | .vfmax d a b m => some (.v0, vab 0x08 d a b 0 m 0)
  | .vfabs d a m => some (.v0, rrr 0x09 d a 0 0 (vmod 0 m 0))
  | .vfneg d a m => some (.v0, rrr 0x0A d a 0 0 (vmod 0 m 0))
  | .vfcmp k d a b m => some (.v0, vab 0x0B d a b 0 m (fcond k))
  | .vfrcp r d a m => some (.v0, rrr 0x0C d a 0 0 (vmod 0 m (rm r)))
  | .vfrsq r d a m => some (.v0, rrr 0x0D d a 0 0 (vmod 0 m (rm r)))
  | .vfexp2 r d a m => some (.v0, rrr 0x0E d a 0 0 (vmod 0 m (rm r)))
  | .vflog2 r d a m => some (.v0, rrr 0x0F d a 0 0 (vmod 0 m (rm r)))
  | .vfscl r d a b m => some (.v0, vab 0x10 d a b 0 m (rm r))
  | .vfsqrt r d a m => some (.v0, rrr 0x11 d a 0 0 (vmod 0 m (rm r)))
  | .vadd k d a b m => some (.v0, vab 0x20 d a b 0 m (sat k))
  | .vsub k d a b m => some (.v0, vab 0x21 d a b 0 m (sat k))
  | .vmul d a b m => some (.v0, vab 0x22 d a b 0 m 0)
  | .vmulh u d a b m => some (.v0, vab 0x23 d a b 0 m (bit u))
  | .vand d a b m => some (.v0, vab 0x24 d a b 0 m 0)
  | .vor d a b m => some (.v0, vab 0x25 d a b 0 m 0)
  | .vxor d a b m => some (.v0, vab 0x26 d a b 0 m 0)
  | .vshl d a b m => some (.v0, vab 0x27 d a b 0 m 0)
  | .vshr d a b m => some (.v0, vab 0x28 d a b 0 m 0)
  | .vsar d a b m => some (.v0, vab 0x29 d a b 0 m 0)
  | .vmin u d a b m => some (.v0, vab 0x2A d a b 0 m (bit u))
  | .vmax u d a b m => some (.v0, vab 0x2B d a b 0 m (bit u))
  | .vcmp k d a b m => some (.v0, vab 0x2C d a b (cond k) m 0)
  | .vsel d a b c m => some (.v0, vab 0x2D d a b c m 0)
  | .vabs k d a m => some (.v0, rrr 0x2E d a 0 0 (vmod 0 m (bit k)))
  | .vpopc d a m => some (.v0, rrr 0x2F d a 0 0 (vmod 0 m 0))
  | .vcvt pair r k d a m => some (.v0, rrr 0x38 d a 0 (cvtPair pair) (vmod 0 m (bit k * 4 + rm r)))
  | .vqmx k d a none m => some (.v0, rrr 0x39 d a 0 (elem k) (vmod 0 m 0))
  | .vqmx k d a (some b) m => some (.v0, vab 0x39 d a b (elem k) m 1)
  | .vdqmx k r d a m => some (.v0, rrr 0x3A d a 0 (elem k) (vmod 0 m (rm r)))
  | .vpack k d a b m => some (.v0, rrr 0x3B d a b (packW k) (vmod 0 m 0))
  | .vunpk k sg n d a m => some (.v0, rrr 0x3C d a 0 (bit sg * 32 + n * 4 + packW k) (vmod 0 m 0))
  | .vperm d a b m => some (.v1, vab 0x40 d a b 0 m 0)
  | .vshuf k d a b m => some (.v1, rrr 0x41 d a b (shuf k) (vmod 0 m 0))
  | .vred k d a m => some (.v1, rrr 0x42 d a 0 0 (vmod 0 m (redOp k)))
  | .vscan k d a m => some (.v1, rrr 0x43 d a 0 0 (vmod 0 m (redOp k)))
  | .vbcast d (.lane a c) m => some (.v1, rrr 0x44 d a 0 c (vmod 0 m 0))
  | .vbcast d (.scalar b) m => some (.v1, rrr 0x44 d 0 b 0 (vmod 1 m 0))
  | .vins dw d a c => some (.v1, rrr 0x45 d a 0 c (bit dw))
  | .vext k d a c => some (.v1, rrr 0x46 d a 0 c (extForm k))
  | .viota d m => some (.v1, rrr 0x47 d 0 0 0 (vmod 0 m 0))
  | .vcomp d a m => some (.v1, rrr 0x48 d a 0 0 (vmod 0 m 0))
  | .vhad n d a => some (.v1, rrr 0x49 d a 0 (hadN n) 0)
  | .vrng k d a b c m => some (.v1, vab 0x4A d a b c m (rngOut k))
  | .mlog t d a b => some (.v0, rrr 0x50 d a b t.toNat 0)
  | .mpopc d a => some (.v0, rrr 0x51 d a 0 0 0)
  | .mfirst d a => some (.v0, rrr 0x52 d a 0 0 0)
  | .mset d a => some (.v0, rrr 0x53 d a 0 0 0)
  | .mget d a => some (.v0, rrr 0x54 d a 0 0 0)
  | .mma z a b c mc => some (.m, engm 0x01 z a b c 0 mc 0)
  | .mmaG z a b c e mc => some (.m, engm 0x02 z a b c e mc 0)
  | .mbin x z a b c => some (.m, engm 0x03 z a b c 0 0 (bit x))
  | .mzero z => some (.m, engm 0x04 z 0 0 0 0 0 0)
  | .mdrain bf z a b mc => some (.m, engm 0x05 z a b 0 0 mc (bit bf))
  | .mloadz bf z a => some (.m, engm 0x06 z a 0 0 0 0 (bit bf))
  | .mcfg mc a => some (.m, engm 0x07 0 a 0 0 0 mc 0)
  | .mcfgr d mc => some (.m, engm 0x08 d 0 0 0 0 mc 0)
  | .mstat d => some (.m, engm 0x09 d 0 0 0 0 0 0)
  | .mqnt k a b c mc => some (.m, engm 0x0A 0 a b c 0 mc (bit k))
  | .ld sp z zx w c d m land => some (.l, mem 0x01 d m (memMod sp (size z) zx (bit w * 2 + bit c)) land)
  | .ldv sp w c d m land => some (.l, mem 0x02 d m (memMod sp 0 false (bit w * 2 + bit c)) land)
  | .ldvS sp z zx w c d m land => some (.l, mem 0x03 d m (memMod sp (size z) zx (bit w * 2 + bit c)) land)
  | .ldvX sp z zx w c d m land => some (.l, mem 0x04 d m (memMod sp (size z) zx (bit w * 2 + bit c)) land)
  | .ldm sp w c d m land => some (.l, mem 0x05 d m (memMod sp 3 false (bit w * 2 + bit c)) land)
  | .pref m => some (.l, mem 0x08 0 m 128 0)
  | .st sp z q d m => some (.w, mem 0x01 d m (memMod sp (size z) false (feQ q)) 0)
  | .stv sp q d m => some (.w, mem 0x02 d m (memMod sp 0 false (feQ q)) 0)
  | .stvS sp z q d m => some (.w, mem 0x03 d m (memMod sp (size z) false (feQ q)) 0)
  | .stvX sp z q d m => some (.w, mem 0x04 d m (memMod sp (size z) false (feQ q)) 0)
  | .stm sp q d m => some (.w, mem 0x05 d m (memMod sp 3 false (feQ q)) 0)
  | .amo op o d m land => some (.w, mem 0x06 d m (amoOp op * 16 + order o) land)
  | .cas o d m land => some (.w, mem 0x07 d m (order o) land)
  | .amof bf r m => some (.w, mem 0x08 0 m (bit bf * 128 + relOnly r) 0)
  | .amofSeq bf r d m => some (.w, mem 0x08 d m (bit bf * 128 + 32 + relOnly r) 0)
  | .amofSeqSkip bf r d m => some (.w, mem 0x08 d m (bit bf * 128 + 64 + relOnly r) 0)
  | .setfe sp full d m => some (.w, mem 0x0A d m (memMod sp 0 false (if full then 2 else 1)) 0)
  | .cp nb o c x => some (.c, engc 0x01 o c x (bit nb * 128) 0 0 0)
  | .cpMc o c x => some (.c, engc 0x02 o c x 0 0 0 0)
  | .cpX nb sr o c x => some (.c, engc 0x03 o c x (bit nb * 128 + bit sr) 0 0 0)
  | .cpPk nb k o c x => some (.c, engc 0x04 o c x (bit nb * 128 + codec k) 0 0 0)
  | .cpUn nb o c x => some (.c, engc 0x05 o c x (bit nb * 128) 0 0 0)
  | .cpStamp a v => some (.c, engc 0x06 0 a v 0 0 0 0)
  | .lrecPut v i => some (.c, engc 0x07 v i 0 0 0 0 0)
  | .lrecGet v i => some (.c, engc 0x08 v i 0 0 0 0 0)
  | .cln a b => some (.c, engc 0x09 0 a b 0 0 0 0)
  | .inv a b => some (.c, engc 0x0A 0 a b 0 0 0 0)
  | .clninv a b => some (.c, engc 0x0B 0 a b 0 0 0 0)
  | .tsDep pd v h => some (.c, engc 0x10 v h 0 0 0 0 pd)
  | .tsRd pd v h m dl => some (.c, engc 0x11 v h m 0 0 dl pd)
  | .tsTake pd v h m dl => some (.c, engc 0x12 v h m 0 0 dl pd)
  | .tsRdp pd v h m land => some (.c, engc 0x13 v h m 0 land 0 pd)
  | .tsTakep pd v h m land => some (.c, engc 0x14 v h m 0 land 0 pd)
  | .tsCnt pd d h m v land => some (.c, engc 0x15 d h m 0 land v pd)
  | .rcall r t n d a b p => some (.c, engc 0x20 d a b (bit r * 128 + bit t * 64 + n) 0 p 0)
  | .rpost r n d a b p => some (.c, engc 0x21 d a b (bit r * 128 + n) 0 p 0)
  | .rret a b c => some (.c, engc 0x22 0 a b 0 0 c 0)
  | .nmLoad pd e i => some (.c, engc 0x30 0 e i 0 0 0 pd)
  | .nmGo pd e t => some (.c, engc 0x31 0 e t 0 0 0 pd)
  | .nmStop e => some (.c, engc 0x32 0 e 0 0 0 0 0)
  | .nmStat d e => some (.c, engc 0x33 d e 0 0 0 0 0)
  | .netPut nb k o c x => some (.c, engc 0x38 o c x (bit nb * 128 + codec k) 0 0 0)
  | .netGet nb o c x => some (.c, engc 0x39 o c x (bit nb * 128) 0 0 0)
  | .barAlloc pd d => some (.y, y 0x01 d 0 0 0 pd 0)
  | .barAllocAt pd d i => some (.y, yix 0x01 d i 1 pd)
  | .barFree i => some (.y, yix 0x02 0 i 0 0)
  | .barRef i => some (.y, yix 0x03 0 i 0 0)
  | .barInit pd a i => some (.y, yix 0x04 a i 0 pd)
  | .barExpect pd a i => some (.y, yix 0x05 a i 0 pd)
  | .barArrive a i => some (.y, yix 0x06 a i 0 0)
  | .barWait a i => some (.y, yix 0x07 a i 0 0)
  | .barTest pd a i => some (.y, yix 0x08 a i 0 pd)
  | .barInfo d i w => some (.y, yix 0x09 d i w 0)
  | .gbar pd a g => some (.y, y 0x0A a 0 0 0 pd g)
  | .fence k => some (.y, y 0x10 0 0 0 (scope k) 0 0)
  | .xfence => some (.y, y 0x11 0 0 0 0 0 0)
  | .nmfence => some (.y, y 0x12 0 0 0 0 0 0)
  | .monArm a => some (.y, y 0x13 a 0 0 0 0 0)
  | .monWait pd a => some (.y, y 0x14 a 0 0 0 pd 0)
  | .lwait => some (.y, y 0x15 0 0 0 0 0 0)
  | _ => none

end Sys2Proof
end

