-- ==== Sys2Proof/Machine/Fp.lean ====
section
/-! DEFINITION. Floating-point formats, exact values and rounding (03 R43–R52), the elementary functions (14 R279), MX quantisation (R53), stochastic
rounding (R51) and the random function (R54, R55). Codes are numbers; a value is m · 2^e exactly. -/

namespace Sys2Proof.Machine

/-- A floating-point format (R43): trailing significand bits, exponent bits, whether it has infinities, the magnitude code of the largest finite
value, the canonical NaN. Every format's bias is 2^(eb − 1) − 1. -/
structure Fmt where
  mb : Nat
  eb : Nat
  inf : Bool
  top : Nat
  cnan : Nat
  deriving DecidableEq, Repr

def fp32 : Fmt := { mb := 23, eb := 8, inf := true, top := 0x7F7FFFFF, cnan := 0x7FC00000 }
def fp16 : Fmt := { mb := 10, eb := 5, inf := true, top := 0x7BFF, cnan := 0x7E00 }
def bf16 : Fmt := { mb := 7, eb := 8, inf := true, top := 0x7F7F, cnan := 0x7FC0 }
def e4m3 : Fmt := { mb := 3, eb := 4, inf := false, top := 0x7E, cnan := 0x7F }
def e5m2 : Fmt := { mb := 2, eb := 5, inf := true, top := 0x7B, cnan := 0x7E }
def e2m1 : Fmt := { mb := 1, eb := 2, inf := false, top := 7, cnan := 0 }

/-- The format of an MX element (R53). -/
def elemFmt : Elem → Fmt
  | .e2m1 => e2m1
  | .e4m3 => e4m3
  | .e5m2 => e5m2

/-- The exponent of an element format's largest binade (R53). -/
def emaxElem : Elem → Int
  | .e2m1 => 2
  | .e4m3 => 8
  | .e5m2 => 15

/-- A value: NaN, an infinity, or ± m · 2^e (a signed zero when m = 0). -/
inductive Val where
  | nan
  | inf (neg : Bool)
  | num (neg : Bool) (m : Nat) (e : Int)
  deriving DecidableEq, Repr

/-- Exception bits in VSTAT's places (R50): INX, UNF, OVF, DZ, INV. -/
abbrev Flags := BitVec 5
def fINX : Flags := 16
def fUNF : Flags := 8
def fOVF : Flags := 4
def fDZ : Flags := 2
def fINV : Flags := 1

def Fmt.width (f : Fmt) : Nat := f.mb + f.eb + 1
/-- Exponent of the last place of a subnormal. -/
def Fmt.qmin (f : Fmt) : Int := 2 - 2 ^ (f.eb - 1) - f.mb
/-- Magnitude code of an infinity. -/
def Fmt.infCode (f : Fmt) : Nat := (2 ^ f.eb - 1) * 2 ^ f.mb
/-- A code with its sign. -/
def Fmt.signed (f : Fmt) (neg : Bool) (mag : Nat) : Nat := if neg then 2 ^ (f.width - 1) + mag else mag

/-- The value of a code (R44). -/
def Fmt.value (f : Fmt) (c : Nat) : Val :=
  let mag := c % 2 ^ (f.width - 1)
  let neg := c / 2 ^ (f.width - 1) % 2 = 1
  if mag > f.top then (if f.inf ∧ mag = f.infCode then .inf neg else .nan)
  else if mag < 2 ^ f.mb then .num neg mag f.qmin
  else .num neg (2 ^ f.mb + mag % 2 ^ f.mb) (f.qmin + (mag / 2 ^ f.mb : Nat) - 1)

/-- m · 2^e in units of 2^q, rounded in a mode, and whether that is inexact (R49). -/
def roundUnits (rm : Rm) (neg : Bool) (m : Nat) (e q : Int) : Nat × Bool :=
  if q ≤ e then (m * 2 ^ (e - q).toNat, false)
  else
    let d := (q - e).toNat
    let n := if d > m.log2 + 2 then 0 else m / 2 ^ d
    let inexact : Bool := if d > m.log2 + 2 then m ≠ 0 else m % 2 ^ d ≠ 0
    let up : Bool := match rm with
      | .rn => if d > m.log2 + 2 then false else 2 * (m % 2 ^ d) > 2 ^ d ∨ (2 * (m % 2 ^ d) = 2 ^ d ∧ n % 2 = 1)
      | .rz => false
      | .ru => inexact && !neg
      | .rd => inexact && neg
    (if up then n + 1 else n, inexact)

/-- What an overflow gives: an infinity, or the largest finite value (R49). -/
def overflowMag (f : Fmt) (rm : Rm) (neg sat : Bool) : Nat :=
  let toInf : Bool := match rm with
    | .rn => true
    | .rz => false
    | .ru => !neg
    | .rd => neg
  if f.inf ∧ !sat ∧ toInf then f.infCode else f.top

/-- round_fp (R49) of ± m · 2^e with m ≠ 0: the code and the flags OVF, UNF, INX (R50). -/
def roundNum (f : Fmt) (rm : Rm) (sat neg : Bool) (m : Nat) (e : Int) : Nat × Flags :=
  let ex : Int := e + m.log2
  let ovf := (f.signed neg (overflowMag f rm neg sat), fOVF ||| fINX)
  if ex > 2 ^ f.eb then ovf
  else
    let q := max (ex - f.mb) f.qmin
    let (n, inexact) := roundUnits rm neg m e q
    let mag := (q - f.qmin).toNat * 2 ^ f.mb + n
    if mag > f.top then ovf
    else
      let (nu, _) := roundUnits rm neg m e (ex - f.mb)
      let tiny := ex < f.qmin + f.mb ∧ ¬ (ex = f.qmin + f.mb - 1 ∧ nu = 2 ^ (f.mb + 1))
      (f.signed neg mag, if inexact then (if tiny then fINX ||| fUNF else fINX) else 0)

/-- round_fp(x, format, mode), with .sat where it applies (R49, R52): the code and the flags. -/
def roundFp (f : Fmt) (rm : Rm) (sat : Bool) : Val → Nat × Flags
  | .nan => (f.cnan, 0)
  | .inf neg => if f.inf then (f.signed neg (if sat then f.top else f.infCode), 0) else (f.signed neg f.top, 0)
  | .num neg m e => if m = 0 then (f.signed neg 0, 0) else roundNum f rm sat neg m e

/-- The exact sum (R276); the sign of an exact zero sum depends on the mode. -/
def Val.add (rm : Rm) : Val → Val → Val × Flags
  | .nan, _ => (.nan, 0)
  | _, .nan => (.nan, 0)
  | .inf a, .inf b => if a = b then (.inf a, 0) else (.nan, fINV)
  | .inf a, _ => (.inf a, 0)
  | _, .inf b => (.inf b, 0)
  | .num na ma ea, .num nb mb eb =>
    if ma = 0 ∧ mb = 0 then (.num (if na = nb then na else rm = .rd) 0 0, 0)
    else if ma = 0 then (.num nb mb eb, 0)
    else if mb = 0 then (.num na ma ea, 0)
    else
      let e := min ea eb
      let a : Int := ma * 2 ^ (ea - e).toNat
      let b : Int := mb * 2 ^ (eb - e).toNat
      let t := (if na then -a else a) + (if nb then -b else b)
      if t = 0 then (.num (rm = .rd) 0 0, 0) else (.num (t < 0) t.natAbs e, 0)

def Val.neg : Val → Val
  | .nan => .nan
  | .inf a => .inf !a
  | .num n m e => .num (!n) m e

/-- The exact product; 0 × Inf is invalid (R276). -/
def Val.mul : Val → Val → Val × Flags
  | .nan, _ => (.nan, 0)
  | _, .nan => (.nan, 0)
  | .inf a, .inf b => (.inf (a != b), 0)
  | .inf a, .num n m _ => if m = 0 then (.nan, fINV) else (.inf (a != n), 0)
  | .num n m _, .inf b => if m = 0 then (.nan, fINV) else (.inf (n != b), 0)
  | .num na ma ea, .num nb mb eb => (.num (na != nb) (ma * mb) (ea + eb), 0)

/-- a × b + c with one rounding to come (R275); 0 × Inf is invalid even where c is NaN (R276). -/
def Val.fma (rm : Rm) (a b c : Val) : Val × Flags :=
  let (p, f) := Val.mul a b
  if f = fINV then (.nan, fINV) else Val.add rm p c

/-- a · 2^n (R275). -/
def Val.scale (n : Int) : Val → Val
  | .num s m e => .num s m (e + n)
  | v => v

/-- Order of two values that are not NaN: −1, 0, 1 (−0 = +0). -/
def Val.cmp : Val → Val → Int
  | .inf a, .inf b => if a = b then 0 else if a then -1 else 1
  | .inf a, _ => if a then -1 else 1
  | _, .inf b => if b then 1 else -1
  | .num na ma ea, .num nb mb eb =>
    let e := min ea eb
    let a : Int := ma * 2 ^ (ea - e).toNat
    let b : Int := mb * 2 ^ (eb - e).toNat
    let x := if na then -a else a
    let y := if nb then -b else b
    if x < y then -1 else if x = y then 0 else 1
  | _, _ => 0

def Val.isNan : Val → Bool
  | .nan => true
  | _ => false

/-- Largest r with r² ≤ n, built from k bits down. -/
def isqrtBits (n : Nat) : Nat → Nat → Nat
  | 0, r => r
  | k + 1, r => isqrtBits n k (if (r + 2 ^ k) * (r + 2 ^ k) ≤ n then r + 2 ^ k else r)

/-- floor(√n). -/
def isqrt (n : Nat) : Nat := isqrtBits n (n.log2 / 2 + 1) 0

/-- A value known to lie strictly between n · 2^e and (n + 1) · 2^e, far below any rounding boundary; exactly n · 2^e if `ex`. -/
def Val.sticky (neg : Bool) (n : Nat) (e : Int) (ex : Bool) : Val := .num neg (if ex then 2 * n else 2 * n + 1) (e - 1)

/-- 1 / (m · 2^e), m ≠ 0. -/
def recipVal (neg : Bool) (m : Nat) (e : Int) : Val :=
  let k := m.log2 + 64
  Val.sticky neg (2 ^ k / m) (-(k : Int) - e) (2 ^ k % m = 0)

/-- √(m · 2^e), m ≠ 0. -/
def sqrtVal (m : Nat) (e : Int) : Val :=
  let m' := if e % 2 = 0 then m else 2 * m
  let e' := if e % 2 = 0 then e else e - 1
  let t := m' * 2 ^ 128
  let r := isqrt t
  Val.sticky false r (e' / 2 - 64) (r * r = t)

/-- 1 / √(m · 2^e), m ≠ 0. -/
def rsqrtVal (m : Nat) (e : Int) : Val :=
  let m' := if e % 2 = 0 then m else 2 * m
  let e' := if e % 2 = 0 then e else e - 1
  let k := m'.log2 + 64
  let t := 2 ^ (2 * k) / m'
  let r := isqrt t
  Val.sticky false r (-(k : Int) - e' / 2) (2 ^ (2 * k) % m' = 0 ∧ r * r = t)

/-- 2^(f / 2^n) in units of 2^−320, from the bits of f highest first; c is 2^(1/2^i) in the same units. -/
def exp2Frac (f : Nat) : Nat → Nat → Nat → Nat
  | 0, _, acc => acc
  | n + 1, c, acc =>
    let c' := isqrt (c * 2 ^ 320)
    exp2Frac f n c' (if f / 2 ^ n % 2 = 1 then acc * c' / 2 ^ 320 else acc)

/-- 2^(± m · 2^e), m ≠ 0 (R279): exact for an integer, else to more than 256 bits. -/
def exp2Val (neg : Bool) (m : Nat) (e : Int) : Val :=
  if (m.log2 : Int) + e > 12 then (if neg then .num false 1 (-4096) else .num false 1 4096)
  else if 0 ≤ e then
    let n : Int := m * 2 ^ e.toNat
    .num false 1 (if neg then -n else n)
  else
    let w := (-e).toNat
    let n := m / 2 ^ w
    let f := m % 2 ^ w
    if f = 0 then .num false 1 (if neg then -(n : Int) else n)
    else if (m.log2 : Int) + e < -64 then (if neg then .num false (2 ^ 65 - 1) (-65) else .num false (2 ^ 65 + 1) (-65))
    else if neg then Val.sticky false (exp2Frac (2 ^ w - f) w (2 ^ 321) (2 ^ 320)) (-(n : Int) - 1 - 320) false
    else Val.sticky false (exp2Frac f w (2 ^ 321) (2 ^ 320)) ((n : Int) - 320) false

/-- Fraction bits of log2 of y / 2^320 for 1 ≤ y / 2^320 < 2, highest first. -/
def log2Frac : Nat → Nat → Nat → Nat
  | 0, _, acc => acc
  | n + 1, y, acc =>
    let y2 := y * y / 2 ^ 320
    if y2 ≥ 2 ^ 321 then log2Frac n (y2 / 2) (2 * acc + 1) else log2Frac n y2 (2 * acc)

/-- log2 (m · 2^e), m ≠ 0 (R279): exact for a power of two. -/
def log2Val (m : Nat) (e : Int) : Val :=
  let k : Int := e + m.log2
  if m = 2 ^ m.log2 then .num (k < 0) k.natAbs 0
  else
    let t : Int := k * 2 ^ 128 + log2Frac 128 (m * 2 ^ 320 / 2 ^ m.log2) 0
    if 0 ≤ t then Val.sticky false t.toNat (-128) false else Val.sticky true ((-t).toNat - 1) (-128) false

/-- round_sr (R51) of t = m · 2^e on the grid of f: the magnitude code. -/
def roundSr (f : Fmt) (m : Nat) (e : Int) (r : Nat) : Nat :=
  if m = 0 then 0
  else if Val.cmp (.num false m e) (f.value f.top) ≥ 0 then f.top
  else
    let q := max (e + m.log2 - f.mb) f.qmin
    let (n, inexact) := roundUnits .rz false m e q
    let mag := (q - f.qmin).toNat * 2 ^ f.mb + n
    if !inexact then mag
    else
      let d := (q - e).toNat
      if m % 2 ^ d * 65536 > r % 65536 * 2 ^ d then mag + 1 else mag

/-- What mx_quantise gives: the scale code, the 32 element codes, and whether an element saturated (R53). -/
structure MxBlock where
  scale : Nat
  codes : List Nat
  sat : Bool
  deriving DecidableEq, Repr

/-- floor(log2 |x|) of the largest magnitude in the block, none if all are zero. -/
def maxExp : List Val → Option Int
  | [] => none
  | .num _ m e :: t =>
    match maxExp t with
    | none => if m = 0 then none else some (e + m.log2)
    | some k => if m = 0 then some k else some (max k (e + m.log2))
  | _ :: t => maxExp t

/-- One element of mx_quantise: t = |x| / 2^e, rounded to nearest or stochastically, with its sign. -/
def mxElem (f : Fmt) (sr : Bool) (e : Int) (x : Val) (r : Nat) : Nat × Bool :=
  match x with
  | .num neg m ex =>
    let t : Val := .num false m (ex - e)
    let mag := if sr then roundSr f m (ex - e) r else (roundFp f .rn true t).1
    (f.signed neg mag, m ≠ 0 && Val.cmp t (f.value f.top) > 0)
  | _ => (0, false)

/-- mx_quantise (R53) of a block of FP32 values. -/
def mxQuantise (el : Elem) (sr : Bool) (xs : List Val) (rs : List Nat) : MxBlock :=
  if xs.any fun v => match v with | .num _ _ _ => false | _ => true then { scale := 0xFF, codes := xs.map fun _ => 0, sat := false }
  else
    let e : Int := match maxExp xs with
      | none => -127
      | some k => min (max (k - emaxElem el) (-127)) 127
    let out := List.zipWith (mxElem (elemFmt el) sr e) xs (rs ++ List.replicate xs.length 0)
    { scale := (e + 127).toNat, codes := out.map (·.1), sat := out.any (·.2) }

/-- The value of an element code under a scale code (R48). -/
def mxValue (el : Elem) (scale code : Nat) : Val :=
  if scale = 0xFF then .nan else Val.scale ((scale : Int) - 127) ((elemFmt el).value code)

/-- g_rand (R54). -/
def gRand (key ctr : BitVec 64) : BitVec 64 :=
  let x := ctr + key * 0x9F3B21C56D7E8A13
  let x := (x ^^^ (x >>> 31)) * 0xE5D1C9B734F26A4D
  let x := (x ^^^ (x >>> 27)) * 0x8C2F61A7D3E54B19
  x ^^^ (x >>> 33)

/-- rng_ctr (R55); coordinates are taken modulo 2^28 (R57). -/
def rngCtr (stream : Nat) (a b : Int) : BitVec 64 :=
  BitVec.ofNat 64 (stream * 2 ^ 56 + (a % 2 ^ 28).toNat * 2 ^ 28 + (b % 2 ^ 28).toNat)

/-- An FP32 lane as a value. -/
def laneVal (x : BitVec 32) : Val := fp32.value x.toNat

/-- A value rounded to an FP32 lane; the flags are joined to those already raised. -/
def laneOf (rm : Rm) (r : Val × Flags) : BitVec 32 × Flags :=
  let (c, f) := roundFp fp32 rm false r.1
  (BitVec.ofNat 32 c, r.2 ||| f)

/-- VFADD, VFSUB, VFMUL of two lanes (R275). -/
def fpAdd (rm : Rm) (a b : BitVec 32) : BitVec 32 × Flags := laneOf rm (Val.add rm (laneVal a) (laneVal b))
def fpSub (rm : Rm) (a b : BitVec 32) : BitVec 32 × Flags := laneOf rm (Val.add rm (laneVal a) (laneVal b).neg)
def fpMul (rm : Rm) (a b : BitVec 32) : BitVec 32 × Flags := laneOf rm (Val.mul (laneVal a) (laneVal b))

/-- VFMIN, VFMAX of two lanes (R277). -/
def fpMinMax (max : Bool) (a b : BitVec 32) : BitVec 32 :=
  match laneVal a, laneVal b with
  | .nan, .nan => 0x7FC00000
  | .nan, _ => b
  | _, .nan => a
  | x, y =>
    let c := Val.cmp x y
    let aLess := c < 0 ∨ (c = 0 ∧ a.msb)
    if aLess != max then a else b

/-- One butterfly stage of fwht (R66) on 2^k-strided pairs. -/
def fwhtStage (s : Nat) (v : List (BitVec 32)) : List (BitVec 32) × Flags :=
  let n := v.length
  let out := (List.range n).map fun p =>
    if p / 2 ^ s % 2 = 0 then fpAdd .rn (v.getD p 0) (v.getD (p + 2 ^ s) 0) else fpSub .rn (v.getD (p - 2 ^ s) 0) (v.getD p 0)
  (out.map (·.1), out.foldl (fun f x => f ||| x.2) 0)

/-- fwht (R66) of 2^k values, stages s, s + 1, … . -/
def fwht : Nat → Nat → List (BitVec 32) → List (BitVec 32) × Flags
  | 0, _, v => (v, 0)
  | k + 1, s, v =>
    let (w, f) := fwhtStage s v
    let (u, g) := fwht k (s + 1) w
    (u, f ||| g)

end Sys2Proof.Machine
end

