-- ==== Sys2Proof/Machine/Tab.lean ====
section
/-! DEFINITION. Sparse tables: a list of (key, value) pairs with strictly rising keys. Memory, register files and the tables of the module's units
are all held this way. -/

namespace Sys2Proof.Machine

/-- A sparse table, keys strictly rising. -/
abbrev Tab (α : Type) := List (Nat × α)

/-- The value at key n, d where none is listed. -/
def Tab.get {α : Type} (d : α) : Tab α → Nat → α
  | [], _ => d
  | (k, v) :: t, n => if n = k then v else Tab.get d t n

/-- The value at key n, if one is listed. -/
def Tab.find {α : Type} : Tab α → Nat → Option α
  | [], _ => none
  | (k, v) :: t, n => if n = k then some v else Tab.find t n

/-- Enter x at key n, keeping the keys rising. -/
def Tab.put {α : Type} : Tab α → Nat → α → Tab α
  | [], n, x => [(n, x)]
  | (k, v) :: t, n, x => if n < k then (n, x) :: (k, v) :: t else if n = k then (n, x) :: t else (k, v) :: Tab.put t n x

/-- Drop what is listed at key n. -/
def Tab.del {α : Type} : Tab α → Nat → Tab α
  | [], _ => []
  | (k, v) :: t, n => if n = k then Tab.del t n else (k, v) :: Tab.del t n

/-- Enter x at key n in a table that lists no entry equal to its default d. -/
def Tab.set {α : Type} [DecidableEq α] (d : α) (t : Tab α) (n : Nat) (x : α) : Tab α :=
  if x = d then Tab.del t n else Tab.put t n x

/-- Every key of the table is above b, and the keys rise. -/
def Tab.above {α : Type} (b : Option Nat) : Tab α → Bool
  | [] => true
  | (k, _) :: t => (match b with | none => true | some n => n < k) && Tab.above (some k) t

/-- The canonical form: keys strictly rising and no entry equal to the default. -/
def Tab.wf {α : Type} [DecidableEq α] (d : α) (t : Tab α) : Bool :=
  Tab.above none t && t.all fun e => e.2 ≠ d

end Sys2Proof.Machine
end

