-- ==== Sys2Proof/Machine/State.lean ====
section
/-! DEFINITION. The state of the module: every piece of architectural state the manual names, as plain data, and the state after reset. The tables
that the manual lays out byte by byte in a control region or in memory (partition descriptors, slot table, ticket counters, row-elision ranges,
session table, doorbells, queues, carafe tables, page tables, save areas, log rings) are bytes of `mem`. -/

namespace Sys2Proof.Machine

/-- Memory: (address, byte) pairs, addresses strictly rising, no byte equal to what an unlisted address reads as. -/
abbrev Memory := List Host.Cell

/-- What an address reads as that nothing has written: 0 (log 1). -/
def Memory.unlisted : Byte := 0

/-- The canonical form of a memory. -/
def Memory.wf (m : Memory) : Bool := Tab.wf Memory.unlisted m

/-- What a hart does: a core without a task, in task mode or in handler mode (R353), a stack executor's context running a call (R155), or a core
that a fault has stopped (R355, R363). -/
inductive Mode where
  | idle | task | handler | remote | stopped
  deriving DecidableEq, Repr

/-- A physical register of a hart. `hs`, `hp` are the handler file (R353). -/
inductive Reg where
  | s (n : Nat) | v (n : Nat) | m (n : Nat) | p (n : Nat) | hs (n : Nat) | hp (n : Nat)
  deriving DecidableEq, Repr

/-- A result on its way to a register: fixed-latency results, landings, WSR and CSRW writes (R236, R258, R356). -/
inductive Write where
  | s (n : Nat) (x : Word)
  | hs (n : Nat) (x : Word)
  | v (n : Nat) (x : VReg)
  | m (n : Nat) (x : Word)
  | p (n : Nat) (x : Bool)
  | hp (n : Nat) (x : Bool)
  /-- Five words of a matrix configuration register (R62). -/
  | mc (n : Nat) (w : List Word)
  /-- Every element of accumulator tile n becomes zero (R298). -/
  | z (n : Nat)
  /-- Sticky bits joined to VSTAT (R50, R258). -/
  | vstat (bits : BitVec 5)
  | wsr (r : SpReg) (x : Word)
  | csr (r : PReg) (x : Word)
  deriving DecidableEq, Repr

/-- A fixed-latency result: the running core cycles of its issue and of its writing, and the write. -/
structure Pend where
  issued : Nat
  due : Nat
  w : Write
  deriving DecidableEq, Repr

/-- The registers a bundle reads as sources. -/
structure Regs where
  s : Tab Word
  v : Tab VReg
  m : Tab Word
  p : BitVec 16
  deriving DecidableEq, Repr

/-- A level of the loop stack (R261). -/
structure LoopLevel where
  start : Word
  stop : Word
  count : BitVec 32
  index : BitVec 32
  deriving DecidableEq, Repr

/-- A piece of a load: n bytes at physical address pa, going to byte `at` of the value loaded, on a page with the given CPOL and KEYID; a DEVICE piece is
performed at its home, never in the L1 (R91). -/
structure Piece where
  at_ : Nat
  pa : Nat
  n : Nat
  cpol : Nat
  key : Nat
  dev : Bool
  deriving DecidableEq, Repr

/-- How the bytes of a load become its destination (R305–R307). -/
inductive LoadForm where
  | scalar (sz : Size) (zx : Bool) (d : Reg)
  | vec (d : Reg)
  | lanes (sz : Size) (zx : Bool) (d : Reg) (mask : Word)
  | mask (d : Reg)
  deriving DecidableEq, Repr

/-- What a landing-buffer entry waits for (R93). -/
inductive LandReq where
  /-- A G-space load not yet performed. -/
  | load (f : LoadForm) (ps : List Piece)
  /-- An atomic with a return value (R312, R313). -/
  | atomic (d : Reg)
  /-- A tuple reply (R142): the destination register, or the first of nine scalar registers in remote code (R157), and the predicate. -/
  | tuple (d : Reg) (pd : Option Reg)
  /-- The predicate of TS.DEP (R143). -/
  | dep (pd : Option Reg)
  /-- TS.CNT (R142). -/
  | cnt (d : Reg) (pd : Option Reg)
  /-- A remote reply (R161) with the trap bit. -/
  | call (d : Nat) (trap : Bool)
  /-- NM.LOAD, NM.GO (R331). -/
  | nmPred (pd : Option Reg)
  /-- NM.STAT (R331). -/
  | nmStat (d : Reg)
  deriving DecidableEq, Repr

/-- The scope of an acquire that a landing performs, if any (R110). -/
abbrev Acq := Option Scope

/-- A landing-buffer entry (R94), with the running cycle of its issue. `due` is the running cycle of an exact landing, `none` for land=any. `got` holds
what has arrived. -/
structure Landing where
  id : Nat
  issued : Nat
  due : Option Nat
  pc : Word
  regs : List Reg
  req : LandReq
  got : Option (List Write)
  acq : Acq
  /-- DATA detail of a damaged value (R359). -/
  bad : Option Nat
  /-- The bytes of those pieces of a load that have been read (R311), each at its place. -/
  read : List (Nat × List Byte)
  /-- The task's own request, not one of the handler (R363). -/
  byTask : Bool
  /-- A held reply that has come back with its task: it lands in the first core cycle after the restore (R352, R383). -/
  kept : Bool := false
  /-- Module time before which a D2 access does not complete, and the addresses whose calendar slot has not come (R130). -/
  ready : Nat
  slots : List Nat
  deriving DecidableEq, Repr

/-- A plain store on its way to its home slice (R107, R127): the bytes of one 64-byte sector selected by `mask`. -/
structure Store where
  id : Nat
  sector : Nat
  mask : BitVec 64
  data : Sector
  cpol : Nat
  key : Nat
  /-- The bytes that a task of a D1 or D2 launch stored, with its launch and member: they take part in conflicts (R127). -/
  own : BitVec 64
  by_ : Option (Nat × Nat)
  /-- A D2 task's store: the module time at which its declared latency is over, 0 until its calendar slot has come (R130). -/
  ready : Nat
  deriving DecidableEq, Repr

/-- A byte of a C-space store that no XFENCE has covered (R114): the store's number, the member and hart whose scratchpad it wrote, the offset, the byte
before it and its own. -/
structure CStore where
  id : Nat
  member : Nat
  hart : Nat
  off : Nat
  old : Byte
  new : Byte
  deriving DecidableEq, Repr

/-- A line of the L1 (R80): `valid` and `dirty` per byte, and the dirty bytes that were stored in task mode (R127); `bank` is its way. -/
structure L1Line where
  data : Sector
  valid : BitVec 64
  dirty : BitVec 64
  own : BitVec 64
  bank : Nat
  key : Nat
  deriving DecidableEq, Repr

/-- A scratchpad bank (R78). -/
structure Bank where
  mode : BankMode
  head : BitVec 13
  tail : BitVec 13
  full : Tab Bool
  deriving DecidableEq, Repr

/-- A barrier (R176). -/
structure Barrier where
  expb : Nat
  arrb : Nat
  expa : Nat
  arra : Nat
  phase : Bool
  refcnt : Nat
  infl : Nat
  deadline : Word
  cmask : Word
  flags : BitVec 4
  lbytes : Nat
  lmask : Word
  lflags : BitVec 4
  deriving DecidableEq, Repr

/-- The members of the copy queue (R169, R332). -/
inductive CopyOp where
  | cp | mc | x (sr : Bool) | pk (k : Codec) | un | stamp | netPut (k : Codec) | netGet
  deriving DecidableEq, Repr

/-- One probed page: virtual 4 KiB page to physical 4 KiB page with its key slot (R171). -/
structure Probed where
  vpn : Nat
  ppn : Nat
  cpol : Nat
  key : Nat
  /-- Size of the page that the translation maps. -/
  size : Nat
  deriving DecidableEq, Repr

/-- A place of a window's bytes: a G address, a scratchpad offset in L, an offset in C, or an address beyond its space (R100, R103). -/
inductive Loc where
  | g (a : Nat) | l (o : Nat) | c (o : Nat) | beyond (a : Nat)
  deriving DecidableEq, Repr

/-- One delivery of a copy command: to the issuer's own destination (`to` none) or, for CP.MC, to a member of the group (R174). Units (elements, scale
bytes, blocks, chunks) below `next` and those in `moved` have been moved. -/
structure Part where
  dest : Option Nat
  begun : Bool
  /-- It holds a reference and an INFL count on its barrier (R173, R321). -/
  held : Bool
  next : Nat
  moved : List Nat
  /-- Bytes waiting for a whole empty granule of their FIFO bank, oldest first (R81): the bank, the byte and the flags it counts with. -/
  buf : List (Nat × Byte × BitVec 4)
  /-- Bytes whose count was dropped (R174). -/
  lost : Nat
  arrived : Bool
  deriving DecidableEq, Repr

/-- A byte that a copy command has written: its place in a part's destination, what stood there before, and the bits written. -/
structure Wrote where
  dest : Option Nat
  loc : Loc
  old : Byte
  mask : Byte
  deriving DecidableEq, Repr

/-- An entry of the copy error log in the making (R399): code, word 4, bytes, and the first affected window index. -/
structure CopyErr where
  code : Nat
  w4 : Nat
  bytes : Nat
  first : Nat
  deriving DecidableEq, Repr

/-- A calendar slot that a D2 task's copy engine has used (R129, R130): for which unit of which part, the 256-byte block it moves, the module time of the slot
and the one at which the declared latency is over. -/
structure CopySlot where
  part : Option Nat
  unit : Nat
  block : Nat
  at_ : Nat
  ready : Nat
  deriving DecidableEq, Repr

/-- A command of the copy queue (R168–R175), as captured at issue. -/
structure Cmd where
  id : Nat
  op : CopyOp
  nb : Bool
  cmd : Word
  aux : Word
  org : VReg
  src : BitVec 768
  dst : BitVec 768
  pages : List Probed
  /-- The address space it was probed in (R171). -/
  asid : Nat
  /-- What it has written, and source bytes as it has read them where an earlier command of its queue writes their sector (R168, R172). -/
  wrote : List Wrote
  seen : List (Loc × Byte)
  /-- The issuing task: launch, member, logical core, and its core at issue. -/
  lid : Option Nat
  member : Nat
  lcore : Nat
  core : Nat
  started : Bool
  parts : List Part
  errs : List CopyErr
  /-- Every unit is moved and the arrival added; the command stays while an earlier one of its queue runs (R168). -/
  finished : Bool
  /-- Network commands: bytes the peer has confirmed or supplied, and whether it has answered the last. -/
  confirmed : Nat
  closed : Bool
  /-- Calendar slots it has used for units not yet moved (R130). -/
  slots : List CopySlot := []
  deriving DecidableEq, Repr

/-- Cache maintenance of one sector that has been issued and not performed (R325). -/
inductive MaintOp where
  | cln | inv | clninv
  deriving DecidableEq, Repr
structure Maint where
  id : Nat
  op : MaintOp
  sector : Nat
  deriving DecidableEq, Repr

/-- A matrix instruction in progress (R60, R61). -/
inductive MatKind where
  | mma (g : Option VReg) | mbin (xor : Bool) | mzero | mloadz (bf : Bool) | mdrain (bf : Bool) | mqnt (sideB : Bool)
  deriving DecidableEq, Repr

/-- A matrix instruction in progress: its operands and configuration as captured at issue, the running cycle in which it completes, and for a
drain or a quantisation the bytes it will write (R429). -/
structure MatOp where
  kind : MatKind
  tile : Nat
  ops : List Word
  cfg : List Word
  /-- Operand bytes as they stood at issue: panel A, panel B, rounding table. -/
  panels : List (List Byte)
  outs : List (Nat × List Byte)
  mstat : BitVec 6
  due : Nat
  /-- How many writes the hart's log held at issue: those after it fall into the operation (R61). -/
  seen : Nat
  deriving DecidableEq, Repr

/-- The monitor of a core (R119). -/
structure Monitor where
  sector : Nat
  hit : Bool
  deriving DecidableEq, Repr

/-- A waiting bundle (R36, R37): its kinds, the first of them the one that shows, and the sources, rotation bases and special registers as read at its
first issue (R234, R257). -/
structure Waiting where
  kind : Nat
  kinds : List Nat
  regs : Regs
  hs : Tab Word
  hp : BitVec 16
  vrb : Nat
  mrb : Nat
  prb : Nat
  /-- Module time of the first issue, which RSR TIME reads, and the other special registers that may change while the bundle waits. -/
  time : Nat
  vstat : BitVec 5
  dstat : Word
  frzcnt : Nat
  lbusy : Nat
  deriving DecidableEq, Repr

/-- A bundle some of whose slots have taken effect while a later one is held by what they have begun (R234): its sources as read at its issue, and the
slots still to act. -/
structure Going where
  src : Waiting
  left : List SlotName
  deriving DecidableEq, Repr

/-- What an exec of one slot reported to the bundle (R234): held before issue under a kind (0 a structural stall), waiting, or a fault taken: its
cause and detail, slot, address, and the detail of R161. -/
inductive Sig where
  | held (k : Nat) | waiting (k : Nat) | faulted (code detail slot : Nat) (addr : Word) (rd : Nat)
  deriving DecidableEq, Repr

/-- A call on its way, queued or running (R151). -/
structure Call where
  caller : Nat
  hart : Nat
  lid : Nat
  member : Nat
  seq : Nat
  time : Nat
  entry : Word
  target : Word
  payload : List Word
  task : Word
  post : Bool
  trap : Bool
  deadline : Nat
  /-- The release bit (R151). -/
  rel : Bool
  budget : Nat
  ptroot : Word
  asid : Nat
  die : Nat
  deriving DecidableEq, Repr

/-- A call the caller has outstanding (R152). -/
structure Outstanding where
  /-- Requester id and target of the call. -/
  caller : Nat
  target : Word
  seq : Nat
  time : Nat
  deadline : Nat
  exec : Nat
  post : Bool
  trap : Bool
  landing : Nat
  deriving DecidableEq, Repr

/-- A hart: a core with its resident task and handler file, or a call context of a stack executor. -/
structure Hart where
  mode : Mode
  -- the resumable state of the sequencer (R25)
  pc : Word
  npc : Word
  stall : Nat
  /-- STALL of the bundle being issued. -/
  hdr : Nat
  loops : List LoopLevel
  vrb : Nat
  mrb : Nat
  prb : Nat
  nvrb : Nat
  nmrb : Nat
  nprb : Nat
  -- register files (R24, R353)
  r : Regs
  hs : Tab Word
  hp : BitVec 16
  /-- Accumulator element (t, i, j) at key (t · 128 + i) · 128 + j (R58). -/
  z : Tab (BitVec 32)
  /-- Word w of matrix configuration register n at key 5n + w (R62). -/
  mc : Tab Word
  -- special registers (R257)
  task : Word
  lcore : Word
  nlcore : Word
  gridx : Word
  gridy : Word
  gridz : Word
  launch : Word
  vstat : BitVec 5
  dstat : Word
  mstat : BitVec 6
  frzcnt : Nat
  wcnt : Tab Nat
  -- privileged registers (R356)
  cctl : Word
  fcause : Word
  faddr : Word
  fpc : Word
  epc : Word
  estat : Word
  hbase : Word
  rbanks : Word
  ltgrant : Word
  crftab : Word
  ptroot : Word
  asid : Word
  rcto : Word
  rcbudget : Word
  -- placement of the resident task
  /-- The launch of the resident task (partition × 2^32 + id), if any. -/
  lid : Option Nat
  /-- Member of that launch: LCORE, or TASK in ticket mode. -/
  member : Nat
  /-- Declared scratchpad banks and barriers (R20). -/
  scr : Nat
  bmax : Nat
  /-- Module time at which a switch stopped the task (R131). -/
  stopTime : Nat
  -- time and results in flight
  /-- Running core cycles (R95), slice cycles on a context (R156). -/
  cyc : Nat
  pend : List Pend
  /-- Cycle in which the divider accepts a division again (R239). -/
  divFree : Nat
  /-- Cycle in which the matrix slot is free (R239). -/
  mFree : Nat
  matq : List MatOp
  land : List Landing
  frozen : Bool
  -- scratchpad, L1 and stores in flight
  sp : Tab Byte
  /-- Writes to the scratchpad since a matrix instruction began (R61): offset and bytes. -/
  spLog : List (Nat × List Byte)
  /-- Granules a SETFE has still to change: hart, first granule, count and the new state (R316). -/
  setfe : List (Nat × Nat × Nat × Bool)
  banks : Tab Bank
  /-- Scratchpad granules with an uncorrectable or a correctable error (R86). -/
  spBad : List Nat
  spCorr : List Nat
  l1 : Tab L1Line
  /-- 16-byte granules (PA / 16) of L1 lines with an uncorrectable error, and whether a write-back has met one, so that the task takes DATA (R86). -/
  l1Bad : List Nat
  l1Data : Bool
  /-- 16-byte granules of dirty L1 lines with a correctable error (R86). -/
  l1Corr : List Nat
  /-- DATA of an atomic without a destination register that met a damaged sector (R394): detail, FPC, and whether it is the task's; taken before the next
  bundle. -/
  atomData : Option (Nat × Word × Bool)
  stq : List Store
  /-- Bytes of C-space stores since the last XFENCE, oldest first (R114). -/
  cst : List CStore
  /-- Cache maintenance in progress, for which NMFENCE waits (R325, R117). -/
  mnts : List Maint
  /-- Granules that have become full in this core cycle: a waiting .W load is retried in the next (R85). -/
  fills : List Nat
  -- synchronisation
  bars : Tab Barrier
  /-- How far the updates of its barriers have come in this cycle: 0 its own copies, 1 a network message, 2 + n multicasts of requester n (R177). -/
  barTurn : Nat
  copyq : List Cmd
  monitor : Option Monitor
  outst : List Outstanding
  seqctr : Nat
  gbarPend : Bool
  -- issue
  waiting : Option Waiting
  going : Option Going
  /-- The first issue of a bundle that waits: its slots do only what R37 takes at that moment. -/
  firstOnly : Bool
  /-- Latency windows that a switch found open, by the cycles left (R39), and those armed again at the resume, by their last cycle. -/
  shut : List (Reg × Nat)
  wins : List (Reg × Nat)
  /-- What the waiting bundle's first issue has set up: the landing entry of its blocking tuple request, the deadline of its GBAR or MON.WAIT, and
  whether that deadline has ended the wait (R36, R37). -/
  wLand : Option Nat
  wDl : Word
  wExp : Bool
  /-- Wait kind that holds the bundle at the PC, 0 for none (R356 WSTAT). -/
  heldKind : Nat
  tried : Bool
  /-- The bundle being issued has taken effect but for its C accesses, which come at the end of this cycle (R85). -/
  cLeft : Bool
  /-- A TLB.INV of the hart has invalidated, and waits for accesses and probes issued before this number (R391); 0 for none. -/
  invMark : Nat
  /-- Handler mode has been entered and no bundle of it has issued: ESTAT.HELD is still to be written (R362). -/
  entering : Bool
  /-- The bundle at the PC, once fetched and not yet issued. -/
  fetched : Option Nat
  /-- The bundle's checks have passed and its slots take effect (R234). -/
  commit : Bool
  sig : Option Sig
  slot : SlotName
  lit : Option Word
  -- dispatch
  /-- An event posted and not yet seen by WFE (R367). -/
  eventHeld : Bool
  /-- A context of an executor: the call it runs, and the call's end not yet sent because 1,024 records are held (R164). -/
  call : Option Call
  /-- The module time before which ERET does not resume the task (R383). -/
  notBefore : Nat
  /-- RCALL code 5 to raise before the next bundle issues (R162): detail and address, oldest first. -/
  trapPend : List (Nat × Word)
  deriving DecidableEq, Repr

/-- A waiting TS request, travelling or parked (R138–R141). -/
inductive TsOp where
  | dep | rd | take | rdp | takep | cnt
  deriving DecidableEq, Repr

/-- The memory operations of the atomic unit (R113, R123). -/
inductive AtomOp where
  | amo (op : AmoOp) (x : Word)
  | cas (x v : Word)
  | amof (bf : Bool) (x : BitVec 32)
  | amofSeq (bf : Bool) (skip : Bool) (q : Word) (x : BitVec 32)
  deriving DecidableEq, Repr

/-- A message between agents. -/
inductive MsgBody where
  | ts (op : TsOp) (cid : Nat) (tup : Sector) (mode : Word) (deadline : Word)
  /-- A cancel of the blocking request with this landing entry (R145). -/
  | cancel (target : Nat)
  | atomic (op : AtomOp) (pa : Nat) (cpol : Nat) (key : Nat) (asys : Bool) (acq : Acq) (pc : Word)
  | call (c : Call)
  /-- A reply of four words to a call (R161), with the caller's hart; `again` where another reply of the call has landed (R164). -/
  | reply (c : Call) (w : List Word) (again : Bool)
  /-- A release notice for a completed call (R164). -/
  | notice (exec : Nat) (c : Call)
  deriving DecidableEq, Repr

/-- A travelling message: its number (rising in order of sending), the hart and landing entry it belongs to, the requester id (R11), the
launch and member for whom it travels, the home slice or other destination it goes to, and the module time of sending. -/
structure Msg where
  id : Nat
  hart : Nat
  landing : Nat
  rid : Nat
  lid : Nat
  member : Nat
  home : Nat
  time : Nat
  body : MsgBody
  /-- A D2 task's atomic without a landing entry: the module time at which its declared latency is over, 0 until its slot has come (R130). -/
  ready : Nat := 0
  /-- The task's own request, not one of the handler (R363). -/
  byTask : Bool := true
  /-- A tuple request of a call: the module time by which its slice serves it (R163); 0 for every other message. -/
  limit : Nat := 0
  /-- Sent again on a new route: it precedes every later message between the two dies (R164, R411). -/
  again : Bool := false
  deriving DecidableEq, Repr

/-- A stored tuple (R139). -/
structure Tuple where
  cid : Nat
  words : Sector
  stamp : Word
  /-- Its place in the home slice's share of the backing range, by 64 bytes (R133). -/
  place : Nat
  deriving DecidableEq, Repr

/-- A next-expected number of a sequenced word (R123, R126), with the operations held for it. -/
structure SeqEntry where
  lid : Nat
  pa : Nat
  next : Word
  deriving DecidableEq, Repr

/-- A held sequenced operation (R123, R125). -/
structure SeqHeld where
  lid : Nat
  pa : Nat
  q : Word
  bf : Bool
  skip : Bool
  x : BitVec 32
  cpol : Nat
  key : Nat
  asys : Bool
  /-- The hart it came from. -/
  hart : Nat
  deriving DecidableEq, Repr

/-- A plain store seen by a slice, kept to find conflicts (R127). -/
structure Seen where
  lid : Nat
  member : Nat
  sector : Nat
  bytes : BitVec 64
  deriving DecidableEq, Repr

/-- A memory slice (R10, R138, R123). -/
structure Slice where
  parked : List Msg
  /-- Slice cycle and requester id of the carafe request served last (R138). -/
  served : Nat × Nat
  tuples : List Tuple
  stamp : Word
  /-- Carafes destroyed at the slice, and those whose invalid descriptor has been logged (R147, R148). -/
  gone : List Nat
  crfbad : List Nat
  seqs : List SeqEntry
  held : List SeqHeld
  /-- Launches for which SEQFULL has been logged (R126). -/
  seqFull : List Nat
  /-- Sequenced operations refused and retried (R125, R126), and those of them that have been refused for want of a sequence-table entry. -/
  refused : List Msg
  noEntry : List Nat
  seen : List Seen
  -- error counters (R393)
  msce : Nat
  hbmce : Nat
  t2ce : Nat
  elided : Nat
  /-- Module time of the last CECC event per 2 KiB line (R393). -/
  cecc : Tab Nat
  deriving DecidableEq, Repr

/-- A completed call record (R164). -/
structure CallRecord where
  call : Call
  reply : Option (List Word)
  deriving DecidableEq, Repr

/-- A stack executor (R153, R164). Its contexts are harts. -/
structure Executor where
  queue : List Call
  records : List CallRecord
  /-- The context that issued last (R156); 0 before any has, which the rule leaves open (log 29). -/
  last : Nat
  /-- It has issued a bundle in this slice cycle (R156). -/
  spent : Bool
  /-- Calls ended while 1,024 records were held: context and reply (R164). -/
  ended : List (Nat × CallRecord)
  deriving DecidableEq, Repr

/-- Run states of a bank engine (R196). -/
inductive EngState where
  | empty | loaded | armed | running | halted | faulted
  deriving DecidableEq, Repr

/-- A bank engine (R186). -/
structure Engine where
  b : Tab Sector
  tt : List Word
  k : Tab (BitVec 32)
  /-- Permitted physical 4 KiB pages (R195). -/
  win : List Nat
  owner : Option Nat
  st : EngState
  code : Nat
  flags : BitVec 5
  pc : Nat
  iter : Nat
  debt : Nat
  startAt : Nat
  /-- Slice cycles left of the word in progress, and whether it is a WAIT. -/
  busy : Nat
  wait : Bool
  /-- NM.STOP asks for a halt after the current word (R196). -/
  stop : Bool
  /-- Open row per bank (R192). -/
  rows : Tab Nat
  /-- Column reads that have not landed: register and value. -/
  flight : List (Nat × Sector)
  /-- A REF must come before the next word (R201). -/
  force : Bool
  /-- BECE (R393). -/
  bece : Nat
  deriving DecidableEq, Repr

/-- Where a member of a launch is (R32, R33, R376). -/
inductive Place where
  | unstarted | resident (h : Nat) | saved (area : Nat) (h : Nat) | retired | stopped (h : Nat) | dropped
  deriving DecidableEq, Repr

/-- What waits for a task that is switched out: its outstanding landing entries and calls, and the core that issued them (R40, R166, R382). `wLand` is
the entry of the blocking request its bundle waits for (R352). -/
structure Away where
  lid : Nat
  member : Nat
  hart : Nat
  land : List Landing
  outst : List Outstanding
  wLand : Option Nat
  /-- The traps of replies that had landed (R162). -/
  trap : List (Nat × Word)
  /-- Latency windows that the switch found open (R39). -/
  shut : List (Reg × Nat)
  deriving DecidableEq, Repr

/-- Phases of an accepted launch (R20–R22, R428). -/
inductive Phase where
  | accepted | eligible | running | ending | retired | done
  deriving DecidableEq, Repr

/-- A group's barrier (R340): the generation count of each member. A member whose count is above n has arrived for generation n. -/
structure GroupBar where
  gens : Tab Nat
  deriving DecidableEq, Repr

/-- The blocks bound to a cluster (R32): the rotation in increasing order, the resident block, and the module time from which its quantum counts. -/
structure Rotation where
  blocks : List Nat
  resident : Option Nat
  since : Nat
  deriving DecidableEq, Repr

/-- An accepted launch (R19, R371, R377). -/
structure Launch where
  words : List Word
  queue : Nat
  phase : Phase
  /-- Order in which launches became eligible; module time of eligibility (R374). -/
  order : Nat
  since : Nat
  /-- Effective priority, fixed at the first grant (R374). -/
  prio : Option Nat
  groups : List (BitVec 4096)
  carafes : List Nat
  /-- Layout table entries of the launch (R104). -/
  lrecs : Tab (BitVec 768)
  gbars : Tab GroupBar
  members : Tab Place
  /-- Clusters bound (die × 2 + cluster) and their rotations. -/
  rots : Tab Rotation
  /-- Ticket counter slot on each die (R378). -/
  tctr : Tab Nat
  /-- The remap table (R377). -/
  remap : Tab (BitVec 16)
  retired : Nat
  stopped : Nat
  /-- The faulting task of a launch that is ending (R428). -/
  culprit : Word
  /-- PRIO of its queue at acceptance, and the aging quanta it has waited (R374). -/
  qprio : Nat
  aged : Nat
  /-- Module time at which each switched-out member stopped (R131). -/
  stops : Tab Nat
  /-- Physical address of the launch block (R376). -/
  block : Word
  /-- While it waits: the module time since which its dependence stamps are met (R373). -/
  met : Option Nat
  deriving DecidableEq, Repr

/-- What the barista loads into the task-related registers of a partition's cores at a bind where the launch record and the partition descriptor do not
say it: the partition's address space, HBASE, and DELEG and CHKLAT of CCTL (R356–R358; log 12). -/
structure Policy where
  ptroot : Word
  asid : Nat
  hbase : Word
  deleg : BitVec 32
  chklat : Bool
  deriving DecidableEq, Repr

/-- A sector of a memory-side cache (R88). -/
structure MscSector where
  data : Sector
  dirty : Bool
  deriving DecidableEq, Repr

/-- The TLBs of a die (R388): a core's micro-TLB, a cluster's, the last-level TLB. Cores and clusters are numbered within the die. -/
inductive TlbAt where
  | micro (pcore : Nat) | cluster (c : Nat) | last
  deriving DecidableEq, Repr

/-- A cached translation (R388): where it is held, the page and the leaf as walked. -/
structure TlbEntry where
  die : Nat
  at_ : TlbAt
  asid : Nat
  va : Nat
  size : Nat
  leaf : Word
  deriving DecidableEq, Repr

/-- Description of a log ring (R396). -/
structure Log where
  base : Word
  log2n : Nat
  wridx : Word
  rdidx : Word
  lost : Word
  /-- Next SEQ per source (R397). -/
  seqs : Tab Nat
  deriving DecidableEq, Repr

/-- A session key's state at a port (R415): the key, the key it replaced, and the module time at which the old one expires. -/
structure SessKey where
  key : BitVec 288
  old : Option (BitVec 288)
  expiry : Nat
  /-- Module time of the last acknowledgement by the peer (R414). -/
  acked : Nat
  deriving DecidableEq, Repr

/-- A die's own state: logs, errors, links of its ports, thermal stop. -/
structure Die where
  event : Log
  copyErr : Log
  engineErr : Log
  /-- SPCE and L1PAR per core (R393). -/
  spce : Tab Nat
  l1par : Tab Nat
  hostBase : Word
  hostUp : Bool
  /-- No new task is bound (R427). -/
  bindStop : Bool
  /-- The second-tier expander has stopped responding (R409). -/
  expanderDown : Bool
  baristaUp : Bool
  keys : Tab SessKey
  deriving DecidableEq, Repr

/-- Stages of the start sequence (R419). -/
inductive Stage where
  | off | rom | image | train | part | host | barista | ready | decaf | failed (stage : Nat)
  deriving DecidableEq, Repr

/-- A command of the security mailbox (R416, R424), with the submitter's partition. -/
inductive MailCmd where
  | cupping (part addr : Nat) (nonce : BitVec 256)
  | sessopen (part die session : Nat) (peeraddr : Word) (peerid : BitVec 256) (peerpart peerlaunch : Nat) (x : Exchange)
  | sessclose (part die session : Nat)
  | keyslot (part slot : Nat)
  | imgload (part pa len : Nat)
  | restart
  deriving DecidableEq, Repr

/-- The security core and NVM (R415–R424). -/
structure Security where
  stage : Stage
  reason : Nat
  detail : Nat
  starts : Word
  failrun : Nat
  minVersion : Nat
  image : List Byte
  /-- The image an IMGLOAD in progress is writing, and whether a power loss has cut one (R424). -/
  loading : Option (List Byte)
  torn : Bool
  /-- The start that runs enters decaf mode after stage 1: FAILRUN stood at 3 (R421). -/
  toDecaf : Bool
  /-- Commands that wait for the running one, oldest first (R416). -/
  cmds : List MailCmd
  /-- Module time at which stage 6 began (R419). -/
  baristaSince : Nat
  /-- STATUS of the mailbox (R416). -/
  status : Nat
  /-- Generation of each key slot: how often KEYSLOT has replaced it (R417). -/
  keyGen : Tab Nat
  deriving DecidableEq, Repr

/-- A message of the network as far as its port has taken it (R413): its die, its first packet without the bytes, the packets written (first byte and number of
bytes), bytes that wait for room in a FIFO bank with their banks and flags, how many of its counted bytes found no barrier, whether it holds an INFL count, and
whether it has arrived or been refused, after which its packets are discarded. -/
structure NetWait where
  die : Nat
  msg : NetMsg
  got : List (Nat × Nat)
  done : Bool
  buf : List (Nat × Byte × BitVec 4)
  lost : Nat
  held : Bool
  deriving DecidableEq, Repr

/-- A message that a port has handed to the network (R333, R412, R415): its session, the number that names it there, the nonce of its first packet, its
bytes. -/
structure NetOut where
  die : Nat
  session : Nat
  tag : Nat
  nonce : BitVec 96
  data : List Byte
  deriving DecidableEq, Repr

/-- The module. -/
structure State where
  /-- Module time (R6). -/
  time : Nat
  harts : Tab Hart
  /-- The hart an instruction acts on. -/
  cur : Nat
  /-- The hart whose bundle the next step issues, if the scheduler has named one. -/
  turn : Option Nat
  mem : Memory
  /-- Memory-side caches, by sector number PA / 64 (R88). -/
  msc : Tab MscSector
  /-- Sectors with an uncorrectable or a correctable stored error (R394), by sector number. -/
  bad : List Nat
  corr : List Nat
  /-- Key slot and generation under which a sector was stored, by sector number (R417). -/
  sealed_ : Tab (Nat × Nat)
  away : List Away
  /-- Monitors that home slices keep for tasks that are switched out (R342): launch, member, monitor. -/
  monitors : List (Nat × Nat × Monitor)
  /-- Rows being cleared after a row-elision range let them go (R205): slice and range. -/
  clearing : List (Nat × Nat × Nat × Nat × Nat)
  tlb : List TlbEntry
  msgs : List Msg
  /-- Destructions of carafes on their way to the home slices (R147): slice and carafe id. -/
  dooms : List (Nat × Nat)
  slices : Tab Slice
  execs : Tab Executor
  engines : Tab Engine
  launches : Tab Launch
  /-- Module time at which the barista last wrote VALID in a core's bind record: the dispatch hardware acts in a later slice cycle (R376). -/
  boundAt : Tab Nat
  /-- Next launch id per partition, from 1 (R372, log 12). -/
  nextLid : Tab Nat
  /-- Launches numbered in the order they became eligible (R374). -/
  nextOrder : Nat
  policies : Tab Policy
  dies : Tab Die
  /-- LINKSTAT (R410). -/
  links : BitVec 28
  /-- Number of partitions, and FEAT (R402, R425). -/
  nparts : Nat
  /-- Stage 4 has written the partition descriptors; until then they show their Reset column (R404). -/
  described : Bool
  feat : Word
  sec : Security
  hostMem : Tab Byte
  /-- Messages handed to the network ports, oldest first (R333). -/
  netOut : List NetOut
  /-- Network messages that have begun to arrive (R81, R333, R413), and packets and reads that wait for a bank engine or a slot (R129, R200): whether it is a
  read, the die, the packet. -/
  netIn : List NetWait
  netHeld : List (Bool × Nat × NetMsg)
  /-- Host accesses that a run of a bank engine defers (R200). -/
  hostIn : List HostOp
  /-- An AtomicOp of the host that has read and not yet written: the operation, its address and the value read (R92). -/
  hostRmw : Option (AtomOp × Nat × Nat)
  /-- What the outside world and the module's free order do next, oldest first (log 3). -/
  inputs : List Instr
  /-- Numbers for new messages, stores and landing entries. -/
  nextId : Nat
  /-- Counters behind the free values (log 4): the model's own. -/
  nfree : Nat
  nchoice : Nat
  /-- Counts accesses that may choose between an old and a new translation (R389): the model's own. -/
  ntlb : Nat
  deriving DecidableEq, Repr

/-- Why the machine stops. -/
inductive Fault where
  /-- A slot instruction was executed on a hart that is not issuing: an idle or stopped core. Raised by exec; a step raises it
  only where `turn` names such a hart, which no step does; safe. -/
  | notIssuing
  deriving DecidableEq, Repr

/-- Why an instruction has no meaning. -/
inductive Refusal where
  /-- Its meaning is not written yet; safe. -/
  | notModelled (mnemonic : String)
  deriving DecidableEq, Repr

/-- A bank of a task that has just started (R24, R78): SCRATCH, all granules empty. -/
def Bank.reset : Bank := { mode := .scratch, head := 0, tail := 0, full := [] }

/-- Registers all zero but p0 and m0, which read true and all ones wherever they are read (R24, R226). -/
def Regs.reset : Regs := { s := [], v := [], m := [], p := 0 }

/-- A hart right after module start: the privileged registers at their Reset column (R356), no task; every other register 0 (log 2). -/
def Hart.reset : Hart :=
  { mode := .idle, pc := 0, npc := 0, stall := 0, hdr := 0, loops := [], vrb := 0, mrb := 0, prb := 0, nvrb := 0, nmrb := 0, nprb := 0,
    r := Regs.reset, hs := [], hp := 0, z := [], mc := [],
    task := 0, lcore := 0, nlcore := 0, gridx := 0, gridy := 0, gridz := 0, launch := 0, vstat := 0, dstat := 0, mstat := 0, frzcnt := 0, wcnt := [],
    cctl := 0, fcause := 0, faddr := 0, fpc := 0, epc := 0, estat := 0, hbase := 0, rbanks := 1, ltgrant := 0, crftab := 0, ptroot := 0, asid := 0,
    rcto := 0xD693A400, rcbudget := 0x0112A880,
    lid := none, member := 0, scr := 0, bmax := 0, stopTime := 0,
    cyc := 0, pend := [], divFree := 0, mFree := 0, matq := [], land := [], frozen := false,
    sp := [], spLog := [], setfe := [], banks := [], spBad := [], spCorr := [], l1 := [], l1Bad := [], l1Data := false, l1Corr := [], atomData := none, stq := [], cst := [], mnts := [], fills := [],
    bars := [], barTurn := 0, copyq := [], monitor := none, outst := [], seqctr := 0, gbarPend := false,
    waiting := none, going := none, firstOnly := false, shut := [], wins := [], wLand := none, wDl := 0, wExp := false, heldKind := 0, tried := false, cLeft := false, entering := false, invMark := 0, fetched := none, commit := false, sig := none, slot := .s, lit := none,
    eventHeld := false, call := none, notBefore := 0, trapPend := [] }

/-- A slice at module start (R138: the stamp counter starts at 0; R393: counters 0). -/
def Slice.reset : Slice :=
  { parked := [], served := (0, 0), tuples := [], stamp := 0, gone := [], crfbad := [], seqs := [], held := [], seqFull := [], refused := [], noEntry := [], seen := [], msce := 0, hbmce := 0,
    t2ce := 0, elided := 0, cecc := [] }

/-- An executor at module start. None of its contexts has issued: `last` is 0, so that context 1 is asked before context 0, which R156 leaves open
(log 29). -/
def Executor.reset : Executor := { queue := [], records := [], last := 0, spent := false, ended := [] }

/-- A bank engine at module start (R186). -/
def Engine.reset : Engine :=
  { b := [], tt := [], k := [], win := [], owner := none, st := .empty, code := 0, flags := 0, pc := 0, iter := 0, debt := 0, startAt := 0, busy := 0,
    rows := [], flight := [], force := false, bece := 0, wait := false, stop := false }

/-- A log at module start: disabled (R396). -/
def Log.reset : Log := { base := 0, log2n := 0, wridx := 0, rdidx := 0, lost := 0, seqs := [] }

/-- Every value 0 (log 12). -/
def Policy.reset : Policy := { ptroot := 0, asid := 0, hbase := 0, deleg := 0, chklat := false }

/-- A die at module start. -/
def Die.reset : Die :=
  { event := Log.reset, copyErr := Log.reset, engineErr := Log.reset, spce := [], l1par := [], hostBase := 0, hostUp := false, bindStop := false,
    expanderDown := false, baristaUp := false, keys := [] }

/-- The security core before stage 1; NVM counters 0 (log 14). -/
def Security.reset : Security :=
  { stage := .off, reason := 0, detail := 0, starts := 0, failrun := 0, minVersion := 0, image := [], loading := none, torn := false, toDecaf := false, cmds := [], baristaSince := 0, status := 0, keyGen := [] }

/-- The module at power-on: module time 0, no stage begun (R419); a QX8 with every optional unit and one partition (log 10); all links up. -/
def State.reset : State :=
  { time := 0, harts := [], cur := 0, turn := none, mem := [], msc := [], bad := [], corr := [], sealed_ := [], away := [], monitors := [], clearing := [], tlb := [], msgs := [], dooms := [],
    slices := [], execs := [], engines := [], launches := [], boundAt := [], nextLid := [], nextOrder := 0, policies := [], dies := [], links := 0xFFFFFFF, nparts := 1, described := false, feat := 0x77,
    sec := Security.reset, hostMem := [], netOut := [], netIn := [], netHeld := [], hostIn := [], hostRmw := none, inputs := [], nextId := 0, nfree := 0, nchoice := 0, ntlb := 0 }

end Sys2Proof.Machine
end

