-- ==== Sys2Proof/Machine/Mem.lean ====
section
/-! DEFINITION. Physical memory as its home slices hold it (01 R13–R15, 05 R87–R89, 10 R187, R204, 22 R393–R400, 23 R403–R406, R417), page walks and
translation (22 R384–R390), and the three logs of a die. -/

namespace Sys2Proof.Machine

/-- A field of a 64-bit word as a number (R4). -/
def wf (w : Word) (lo n : Nat) : Nat := fld w.toNat lo n
/-- A 64-bit word from a number. -/
def word (n : Nat) : Word := BitVec.ofNat 64 n

/-- Little-endian bytes of a number (R4). -/
def bytesOf : Nat → Nat → List Byte
  | 0, _ => []
  | n + 1, x => BitVec.ofNat 8 x :: bytesOf n (x / 256)
/-- The number little-endian bytes stand for. -/
def numOf : List Byte → Nat
  | [] => 0
  | b :: t => b.toNat + 256 * numOf t

/-- Regions of the physical address space (R13, R405). -/
inductive Region where
  | hbm | second | host | control | none
  deriving DecidableEq, Repr

/-- Dies present (R425). -/
def State.ndie (s : State) : Nat := wf s.feat 4 3 + 1
/-- Optional units (R425): bank engines, memory encryption, second tier. -/
def State.hasNme (s : State) : Bool := wf s.feat 2 1 = 1
def State.hasMenc (s : State) : Bool := wf s.feat 1 1 = 1
def State.hasSect (s : State) : Bool := wf s.feat 0 1 = 1

/-- Region and owning die of a physical address (R13, R405). -/
def region (pa : Nat) : Region × Nat :=
  if pa < 2 ^ 40 then (.hbm, pa / 2 ^ 37)
  else if 0x20000000000 ≤ pa ∧ pa < 0x40000000000 then (.second, pa / 2 ^ 38 % 8)
  else if 0x40000000000 ≤ pa ∧ pa < 0x80000000000 then (.host, pa / 2 ^ 39 % 8)
  else if 0x80000000000 ≤ pa ∧ pa < 0x80800000000 then (.control, pa / 2 ^ 32 % 8)
  else (.none, 0)

/-- The address lies in installed memory or a window of a die present (R13, R426). -/
def State.installed (s : State) (pa : Nat) : Bool :=
  match region pa with
  | (.none, _) => false
  | (.second, d) => s.hasSect && d < s.ndie
  | (_, d) => d < s.ndie

/-- The partition of a die (R402). -/
def State.partOf (s : State) (die : Nat) : Nat := die * s.nparts / s.ndie
/-- The dies of a partition (R402). -/
def State.partDies (s : State) (p : Nat) : List Nat := (List.range s.ndie).filter fun d => s.partOf d = p
def State.lowestDie (s : State) (p : Nat) : Nat := (s.partDies p).headD 0

/-- home_slice (R14): slice index and channel. -/
def homeSlice (pa : Nat) : Nat × Nat :=
  (fld pa 11 4 ^^^ fld pa 15 4 ^^^ fld pa 19 4 ^^^ fld pa 23 4, fld pa 15 2 ^^^ fld pa 27 2)
/-- The slice (die × 16 + h) an address is served by. -/
def sliceOf (pa : Nat) : Nat := (region pa).2 * 16 + (homeSlice pa).1
/-- dram_line (R187): the line of a bank and row of channel c of slice h of die e. -/
def dramLine (e h c bank row : Nat) : Nat :=
  let pa := e * 2 ^ 37 + row * 2 ^ 22 + bank * 2 ^ 17
  let pa := pa + (c ^^^ fld pa 27 2) * 2 ^ 15
  pa + (h ^^^ fld pa 15 4 ^^^ fld pa 19 4 ^^^ fld pa 23 4) * 2 ^ 11

/-- A byte of the storage behind the caches. -/
def State.dram (s : State) (pa : Nat) : Byte := Tab.get Memory.unlisted s.mem pa
def State.setDram (s : State) (pa : Nat) (b : Byte) : State := { s with mem := Tab.set Memory.unlisted s.mem pa b }

/-- Base of a die's control region (R405), and its parts (R406). -/
def ctlBase (die : Nat) : Nat := 0x80000000000 + die * 2 ^ 32
def offSlotTable : Nat := 0x11000
def offTickets : Nat := 0x12000
def offElision : Nat := 0x14000
def offSessions : Nat := 0x20000
def offMailbox : Nat := 0x100000
def offSummary : Nat := 0x1FFFE000
def offDoorbells : Nat := 0x20000000

/-- Parts of a control region that are kept as bytes of `mem`, beside the partition descriptor. -/
def ctlKept (die off : Nat) : Bool :=
  (offSlotTable ≤ off && off < offSlotTable + 0x1000) || (offTickets ≤ off && off < offTickets + 0x200)
    || (offElision ≤ off && off < offElision + 0x1000) || (offSessions ≤ off && off < offSessions + 0x40000)
    || (die = 0 && offMailbox ≤ off && off < offMailbox + 0xF00)
    || (offSummary ≤ off && off < offSummary + 0x2000) || (offDoorbells ≤ off && off < offDoorbells + 0x80000)

/-- The doorbells and their summary are on the partition's lowest die (R406). -/
def State.ctlHeld (s : State) (die off : Nat) : Bool := ctlKept die off && (off < offSummary || s.lowestDie (s.partOf die) = die)

/-- The bits of byte `off` of a control region that a write changes. The reserved bits of a bind record read as zero (R5, R376); of a session table entry
system software writes GRANT, and the security core writes the rest (R412). -/
def ctlMask (off : Nat) : Byte :=
  let o := off % 64
  if offSlotTable ≤ off ∧ off < offSlotTable + 0x1000 then
    if o = 1 then 0x01 else if o = 40 then 0x0F else if (2 ≤ o ∧ o < 8) ∨ 40 < o then 0 else 255
  else if offSessions ≤ off ∧ off < offSessions + 0x40000 then if 4 ≤ o ∧ o < 8 then 255 else 0
  else 255

/-- n bytes of `mem` as a number, without caches: control structures. -/
def State.ctlNum (s : State) (pa n : Nat) : Nat := numOf ((List.range n).map fun i => s.dram (pa + i))
def State.setCtl (s : State) (pa n x : Nat) : State :=
  (List.range n).foldl (fun s i => s.setDram (pa + i) (BitVec.ofNat 8 (x / 256 ^ i))) s

/-- Word w of a partition descriptor before stage 4 has written it: the Reset column of R404, with 0 where firmware sets the value. -/
def State.descReset (s : State) (die w : Nat) : Nat :=
  if w = 0 then 0xFF else if w = 1 then 65536 * 2 ^ 16 else if w = 2 then ctlBase (s.lowestDie (s.partOf die)) + offDoorbells else if w = 5 then 65536
  else if w = 7 then 4096 * 2 ^ 12 else if w = 8 then 360000000 else if w = 9 then 7200000 else if w = 10 then 4096 * 2 ^ 16 else 0
/-- Word w of the partition descriptor of a die (R404). -/
def State.descWord (s : State) (die w : Nat) : Nat := if s.described then s.ctlNum (ctlBase die + 8 * w) 8 else s.descReset die w

/-- The dword of the security mailbox that holds COMMAND (0), STATUS (1) or operand word i (2 + i): the manual gives no layout (R416; log 11). -/
def mailDword (i : Nat) : Nat :=
  let o := Config.mailPlace 0 % 400
  if i = 0 then o + Config.mailPlace 1 % 2 else if i = 1 then o + 1 - Config.mailPlace 1 % 2 else o + i
/-- Its address (R406). -/
def mailPa (i : Nat) : Nat := ctlBase 0 + offMailbox + 8 * mailDword i

/-- Stage as STAGE of the start status words shows it (R423). -/
def Stage.number : Stage → Nat
  | .off => 0 | .rom => 1 | .image => 2 | .train => 3 | .part => 4 | .host => 5 | .barista => 6 | .ready => 7 | .decaf => 1
  | .failed n => n

/-- The start status words (R423). -/
def State.startWord (s : State) (w : Nat) : Word :=
  if w = 0 then
    word ((if s.sec.stage = .decaf then 1 else 0) * 2 ^ 26 + s.sec.failrun % 4 * 2 ^ 24 + s.sec.detail % 256 * 2 ^ 16 + s.sec.reason % 256 * 2 ^ 8
      + s.sec.stage.number)
  else if w = 1 then s.sec.starts else 0

/-- A die's state. -/
def State.dieAt (s : State) (d : Nat) : Die := Tab.get Die.reset s.dies d
def State.setDie (s : State) (d : Nat) (x : Die) : State := { s with dies := Tab.put s.dies d x }

/-- Which of a die's logs (R396). -/
inductive LogKind where
  | event | copy | engine
  deriving DecidableEq, Repr

def Die.log (d : Die) : LogKind → Log
  | .event => d.event
  | .copy => d.copyErr
  | .engine => d.engineErr
def Die.setLog (d : Die) (k : LogKind) (l : Log) : Die :=
  match k with
  | .event => { d with event := l }
  | .copy => { d with copyErr := l }
  | .engine => { d with engineErr := l }

/-- The log whose descriptor number k is (R396; the order is the manual's list). -/
def logNumber (k : Nat) : LogKind := if k = 0 then .event else if k = 1 then .copy else .engine

/-- The dword of the error status block at which the descriptor of log k starts (log 11). -/
def logDword (k : Nat) : Nat :=
  let order : List Nat := ([[0, 1, 2], [0, 2, 1], [1, 0, 2], [1, 2, 0], [2, 0, 1], [2, 1, 0]] : List (List Nat)).getD (Config.logPlace 0 % 6) []
  1 + Config.logPlace 1 % 7000 + (5 + Config.logPlace 2 % 300) * order.getD k 0
/-- What dword n of the block holds: word i of the descriptor of log k is item 5k + i (R396), the counters are items 15–270. -/
def statusItem (n : Nat) : Nat :=
  match (List.range 3).find? fun k => logDword k ≤ n && n < logDword k + 5 with
  | some k => 5 * k + (n - logDword k)
  | none => if Config.statusItem n < 15 then 271 else Config.statusItem n

/-- An item of a die's error status block as it reads: words 0–4 of the three log descriptors (R396), then the counters of R393: SPCE and L1PAR per core,
MSCE, HBMCE, T2CE and ELIDED per slice, BECE per bank engine. -/
def State.statusRead (s : State) (die n : Nat) : Nat :=
  let d := s.dieAt die
  let l := d.log (logNumber (n / 5))
  let slice (k : Nat) : Slice := Tab.get Slice.reset s.slices (die * 16 + k)
  if n < 15 then (if n % 5 = 0 then l.base.toNat else if n % 5 = 1 then l.log2n else if n % 5 = 2 then l.wridx.toNat else if n % 5 = 3 then l.rdidx.toNat else l.lost.toNat)
  else if n < 79 then Tab.get 0 d.spce (n - 15)
  else if n < 143 then Tab.get 0 d.l1par (n - 79)
  else if n < 159 then (slice (n - 143)).msce
  else if n < 175 then (slice (n - 159)).hbmce
  else if n < 191 then (slice (n - 175)).t2ce
  else if n < 207 then (slice (n - 191)).elided
  else if n < 271 then (Tab.get Engine.reset s.engines (die * 64 + (n - 207))).bece
  else 0

/-- A dword written to an item: BASE, LOG2N and RDIDX of a descriptor take it, WRIDX and LOST are the module's (R396); a counter is cleared by zero (R393). -/
def State.statusWrite (s : State) (die n : Nat) (x : Word) : State :=
  let d := s.dieAt die
  let k := logNumber (n / 5)
  let l := d.log k
  let slice (k : Nat) : Slice := Tab.get Slice.reset s.slices (die * 16 + k)
  let setSl (k : Nat) (z : Slice) : State := { s with slices := Tab.put s.slices (die * 16 + k) z }
  if n < 15 then
    (if n % 5 = 0 then s.setDie die (d.setLog k { l with base := x &&& 0x000FFFFFFFFFF000 })
      else if n % 5 = 1 then s.setDie die (d.setLog k { l with log2n := wf x 0 5 })
      else if n % 5 = 3 then s.setDie die (d.setLog k { l with rdidx := x }) else s)
  else if x ≠ 0 then s
  else if n < 79 then s.setDie die { d with spce := Tab.del d.spce (n - 15) }
  else if n < 143 then s.setDie die { d with l1par := Tab.del d.l1par (n - 79) }
  else if n < 159 then setSl (n - 143) { slice (n - 143) with msce := 0 }
  else if n < 175 then setSl (n - 159) { slice (n - 159) with hbmce := 0 }
  else if n < 191 then setSl (n - 175) { slice (n - 175) with t2ce := 0 }
  else if n < 207 then setSl (n - 191) { slice (n - 191) with elided := 0 }
  else if n < 271 then
    { s with engines := Tab.put s.engines (die * 64 + (n - 207)) { Tab.get Engine.reset s.engines (die * 64 + (n - 207)) with bece := 0 } }
  else s

/-- A byte of a control region as read (R406): the partition descriptor, kept parts, LINKSTAT, STATUS of the mailbox, start status words, and the items of the error status block at
offsets that the manual does not give (log 11); unlisted offsets read zero. -/
def State.ctlByte (s : State) (pa : Nat) : Byte :=
  let die := (region pa).2
  let off := pa % 2 ^ 32
  if off < 0x80 then BitVec.ofNat 8 (s.descWord die (off / 8) / 256 ^ (off % 8))
  else if pa / 8 = mailPa 1 / 8 then BitVec.ofNat 8 (s.sec.status / 256 ^ (off % 8))
  else if s.ctlHeld die off then s.dram pa
  else if 0x1000 ≤ off ∧ off < 0x1008 then BitVec.ofNat 8 (s.links.toNat / 256 ^ (off - 0x1000))
  else if 0x1008 ≤ off ∧ off < 0x11000 then BitVec.ofNat 8 (s.statusRead die (statusItem ((off - 0x1000) / 8)) / 256 ^ (off % 8))
  else if die = 0 ∧ offMailbox + 0xF00 ≤ off ∧ off < offMailbox + 0xF10 then
    BitVec.ofNat 8 ((s.startWord ((off - offMailbox - 0xF00) / 8)).toNat / 256 ^ (off % 8))
  else 0

/-- Row-elision range k of a slice (R205): word 0 and word 1. -/
def elisionPa (sl k : Nat) : Nat := ctlBase (sl / 16) + offElision + 256 * (sl % 16) + 16 * k

/-- Bank, row and channel of an HBM address (R187). -/
def hbmRow (pa : Nat) : Nat × Nat × Nat := (fld pa 17 5, fld pa 22 15, (homeSlice pa).2)

/-- A row of a bank of channel ch of slice sl is covered by an enabled range (R205). -/
def State.rowElided (s : State) (sl bank row ch : Nat) : Bool :=
  (List.range 16).any fun k =>
    let e := elisionPa sl k
    if (s.dram e).getLsbD 0 then
      let w0 := s.ctlNum e 8
      let w1 := s.ctlNum (e + 8) 8
      fld w0 16 5 = bank && fld w0 8 2 = ch && fld w1 0 15 ≤ row && row ≤ fld w1 16 15
    else false
/-- The row of an HBM address is covered by an enabled range (R205). -/
def State.notLive (s : State) (pa : Nat) : Bool :=
  (region pa).1 = .hbm && s.rowElided (sliceOf pa) (hbmRow pa).1 (hbmRow pa).2.1 (hbmRow pa).2.2

/-- The second-tier expander behind an address has stopped responding (R409). -/
def State.expanderLost (s : State) (pa : Nat) : Bool := (region pa).1 = .second && (s.dieAt (region pa).2).expanderDown

/-- The number of the link between two dies (R410), and whether it is up. -/
def linkBit (d e : Nat) : Nat := min d e * 7 - min d e * (min d e - 1) / 2 + (max d e - min d e - 1)
def State.linkUp (s : State) (d e : Nat) : Bool := s.links.getLsbD (linkBit d e)
/-- The links that traffic between two dies takes: their own, else two over the lowest third die of the partition (R411); none without a route. -/
def State.route (s : State) (d e : Nat) : Option (List Nat) :=
  if d = e then some []
  else if s.linkUp d e then some [linkBit d e]
  else ((s.partDies (s.partOf d)).find? fun t => t ≠ d && t ≠ e && s.linkUp d t && s.linkUp t e).map fun t => [linkBit d t, linkBit t e]
/-- A route exists from die d to the die of an address. -/
def State.reaches (s : State) (d pa : Nat) : Bool := (s.route d (region pa).2).isSome

/-- A sector of the storage behind the caches. -/
def State.dramSector (s : State) (k : Nat) : Sector :=
  BitVec.ofNat 512 (numOf ((List.range 64).map fun i => s.dram (64 * k + i)))
def State.setDramSector (s : State) (k : Nat) (x : Sector) : State :=
  (List.range 64).foldl (fun s i => s.setDram (64 * k + i) (BitVec.ofNat 8 (x.toNat / 256 ^ i))) s

/-- The host address behind a host-window address (R405). -/
def State.hostAddr (s : State) (pa : Nat) : Nat := ((s.dieAt (region pa).2).hostBase.toNat + pa % 2 ^ 39) % 2 ^ 64

/-- The byte at a physical address as its home slice holds it: what a read arriving now returns (R87, R88, R204). -/
def State.byteAt (s : State) (pa : Nat) : Byte :=
  match (region pa).1 with
  | .hbm | .second =>
    if s.notLive pa then 0
    else match Tab.find s.msc (pa / 64) with
      | some e => BitVec.ofNat 8 (e.data.toNat / 256 ^ (pa % 64))
      | none => s.dram pa
  | .host => Tab.get 0 s.hostMem (s.hostAddr pa)
  | .control => s.ctlByte pa
  | .none => 0

/-- The cipher text of a sector that is stored under a key slot and not in the memory-side cache, which holds plain text (R417). -/
def State.cipherOf (s : State) (k : Nat) : Option Sector :=
  match Tab.find s.sealed_ k, Tab.find s.msc k with
  | some (key, gen), none => some (Config.cipher key gen k (s.dramSector k))
  | _, _ => none
/-- The byte that a read of a page with the given key slot returns: without a key slot, cipher text where the sector is stored under one (R417). -/
def State.readByte (s : State) (key pa : Nat) : Byte :=
  match if key = 0 ∧ !s.notLive pa then s.cipherOf (pa / 64) else none with
  | some x => BitVec.ofNat 8 (x.toNat / 256 ^ (pa % 64))
  | none => s.byteAt pa
/-- n bytes as a read of a page with the given key slot returns them, as a number. -/
def State.numSeen (s : State) (key pa n : Nat) : Nat := numOf ((List.range n).map fun i => s.readByte key (pa + i))

/-- n bytes at the home slices as a number, as the module's own units read them, without a key slot. -/
def State.numAt (s : State) (pa n : Nat) : Nat := s.numSeen 0 pa n
def State.dwordAt (s : State) (pa : Nat) : Word := word (s.numAt pa 8)

/-- The generation of a key slot (R417). -/
def State.keyGenOf (s : State) (key : Nat) : Nat := Tab.get 0 s.sec.keyGen key

/-- The integrity tag of a sector does not fit a read under a key slot (R417): the sector was stored under another slot or an earlier key. The memory-side
cache holds plain text, which a replaced key makes unreadable too. -/
def State.wrongTag (s : State) (k key : Nat) : Bool :=
  match Tab.find s.msc k, Tab.find s.sealed_ k with
  | some _, some (x, g) => g ≠ s.keyGenOf x
  | some _, none => false
  | none, t => key ≠ 0 && t ≠ some (key, s.keyGenOf key)
/-- The sector reads as uncorrectable: a stored error, a lost expander, or a wrong integrity tag (R394, R409, R417). -/
def State.uncorr (s : State) (k key : Nat) : Bool := s.bad.contains k || s.expanderLost (64 * k) || s.wrongTag k key

/-- Storage number of a sector in error events (R398): 1 memory-side cache, 2 HBM4E, 3 second tier. -/
def State.storageOf (s : State) (k : Nat) : Nat :=
  if s.expanderLost (64 * k) then 3 else if (Tab.find s.msc k).isSome then 1 else if (region (64 * k)).1 = .second then 3 else 2
/-- DATA detail of a damaged sector (R359): 2 in the memory-side cache or HBM, 3 in second tier. -/
def State.dataDetail (s : State) (k : Nat) : Nat := if s.storageOf k = 3 then 3 else 2

/-- Byte mask to bit mask. -/
def spread (m : BitVec 64) : Sector :=
  BitVec.ofNat 512 (numOf ((List.range 64).map fun i => if m.getLsbD i then (255 : Byte) else 0))
/-- New bytes where the mask selects them, old bytes elsewhere. -/
def mixSector (m : BitVec 64) (new old : Sector) : Sector := (new &&& spread m) ||| (old &&& ~~~ spread m)

/-- The part of n data bytes at pa that falls into sector k: mask and placed data. -/
def placeIn (pa : Nat) (data : List Byte) (k : Nat) : BitVec 64 × Sector :=
  let at_ (i : Nat) : Option Byte := if pa ≤ 64 * k + i then data[64 * k + i - pa]? else none
  (BitVec.ofNat 64 ((List.range 64).foldl (fun m i => if (at_ i).isSome then m + 2 ^ i else m) 0),
   BitVec.ofNat 512 (numOf ((List.range 64).map fun i => (at_ i).getD 0)))

/-- Sectors that hold a byte of [pa, pa + n). -/
def sectorsOf (pa n : Nat) : List Nat :=
  if n = 0 then [] else (List.range ((pa + n - 1) / 64 + 1 - pa / 64)).map fun i => pa / 64 + i

def State.sliceAt (s : State) (k : Nat) : Slice := Tab.get Slice.reset s.slices k
def State.setSlice (s : State) (k : Nat) (x : Slice) : State := { s with slices := Tab.put s.slices k x }

/-- Counters saturate at 32 bits (R393). -/
def sat32 (n : Nat) : Nat := min n (2 ^ 32 - 1)

/-- An access to a row that is not live increments the slice's counter (R204). -/
def State.countElided (s : State) (pa : Nat) : State :=
  let k := sliceOf pa
  let sl := s.sliceAt k
  s.setSlice k { sl with elided := sat32 (sl.elided + 1) }

/-- A fresh free value's number (log 4). -/
def State.draw (s : State) : Nat × State := (s.nfree, { s with nfree := s.nfree + 1 })

/-- A number for a new message, store or landing entry; 0 names none. -/
def State.fresh (s : State) : Nat × State := (s.nextId + 1, { s with nextId := s.nextId + 1 })

/-- The bank engine of a channel (R186): die × 64 + 4 × slice + channel. -/
def engineOf (pa : Nat) : Nat := (region pa).2 * 64 + 4 * (homeSlice pa).1 + (homeSlice pa).2
def State.engineAt (s : State) (g : Nat) : Engine := Tab.get Engine.reset s.engines g
def State.setEngine (s : State) (g : Nat) (e : Engine) : State := { s with engines := Tab.put s.engines g e }
/-- The bank engine of an HBM address's channel is RUNNING: its slice defers every DRAM access to the channel (R200). -/
def State.runs (s : State) (pa : Nat) : Bool := (region pa).1 = .hbm && (s.engineAt (engineOf pa)).st = .running
/-- An access to [pa, pa + n) is deferred: a sector is not in the memory-side cache and its channel's engine is RUNNING (R200). -/
def State.deferred (s : State) (pa n : Nat) : Bool :=
  (sectorsOf pa n).any fun k => s.runs (64 * k) && (Tab.find s.msc k).isNone

/-- The set of a sector's line in its slice's memory-side cache: 4 MiB in 16-way sets of 2 KiB lines, 128 sets (R88). Which address bits number the set
the manual does not say (log 26). -/
def mscSet (k : Nat) : Nat × Nat := (sliceOf (64 * k), k / 512 % 128)
/-- Lines (PA / 2,048) of a sector's set that have a resident sector. -/
def State.mscLines (s : State) (k : Nat) : List Nat := ((s.msc.map fun e => e.1 / 32).eraseDups).filter fun l => mscSet (32 * l) = mscSet k
/-- A line may leave the memory-side cache now: no dirty sector of it would have to wait for a bank engine or be lost with an expander. -/
def State.mscMayLeave (s : State) (line : Nat) : Bool :=
  s.msc.all fun e => e.1 / 32 ≠ line || !e.2.dirty || !(s.runs (64 * e.1) || s.expanderLost (64 * e.1))
/-- Store a sector's bytes to DRAM or second tier as they leave the memory-side cache, or discard and count them where the row is not live (R204). -/
def State.mscSpill (s : State) (k : Nat) (x : Sector) : State :=
  if s.notLive (64 * k) then s.countElided (64 * k) else s.setDramSector k x
/-- A sector leaves the memory-side cache: with it goes what its slice noted of plain stores (R127). -/
def State.mscDrop (s : State) (k : Nat) : State :=
  let i := sliceOf (64 * k)
  let sl := s.sliceAt i
  let s : State := if sl.seen.any fun e => e.sector = k then s.setSlice i { sl with seen := sl.seen.filter fun e => e.sector ≠ k } else s
  { s with msc := Tab.del s.msc k }
/-- A line leaves the memory-side cache: its dirty sectors are written back (R88). -/
def State.mscEvict (s : State) (line : Nat) : State :=
  (s.msc.filter fun e => e.1 / 32 = line).foldl (fun s e => let s := s.mscDrop e.1; if e.2.dirty then s.mscSpill e.1 e.2.data else s) s
/-- The line that leaves the full set of a sector, freely chosen (R88, log 4). -/
def State.mscVictim (s : State) (k : Nat) : Option Nat :=
  let l := (s.mscLines k).filter s.mscMayLeave
  l[Config.choice s.nchoice % l.length]?
/-- A sector can be taken into its set without another line leaving it. -/
def State.mscRoom (s : State) (k : Nat) : Bool :=
  s.msc.length < 16 || (Tab.find s.msc k).isSome || (s.mscLines k).contains (k / 32) || (s.mscLines k).length < 16
/-- Take a sector into the memory-side cache (R88): from a full set a line leaves first; where none can leave, the sector is not cached. -/
def State.mscPut (s : State) (k : Nat) (e : MscSector) : State :=
  if s.mscRoom k then { s with msc := Tab.put s.msc k e }
  else match s.mscVictim k with
    | some l =>
      let t := State.mscEvict { s with nchoice := s.nchoice + 1 } l
      { t with msc := Tab.put t.msc k e }
    | none => if e.dirty then s.mscSpill k e.data else s

/-- Store bytes of a sector behind the caches, ending or merging a stored error; returns whether a merge happened (R394). -/
def State.putSector (s : State) (k : Nat) (m : BitVec 64) (x : Sector) (cpol key : Nat) : State :=
  let old : Sector := if s.uncorr k key then 0 else match Tab.find s.msc k with
    | some e => e.data
    | none => if key = 0 then (s.cipherOf k).getD (s.dramSector k) else s.dramSector k
  let new := mixSector m x old
  let s := { s with bad := s.bad.filter (· ≠ k), corr := s.corr.filter (· ≠ k),
                    sealed_ := if key = 0 then Tab.del s.sealed_ k else Tab.put s.sealed_ k (key, s.keyGenOf key) }
  if cpol = 2 ∧ (Tab.find s.msc k).isNone then s.setDramSector k new
  else s.mscPut k { data := new, dirty := true }

/-- Sources of log entries (R397). -/
def srcCore (h : Nat) : Nat := h
def srcSlice (k : Nat) : Nat := 512 + k
def srcEngine (g : Nat) : Nat := 640 + g
def srcNet (d : Nat) : Nat := 1152 + d
def srcHost (d : Nat) : Nat := 1160 + d
def srcBarista (d : Nat) : Nat := 1168 + d
/-- The die of a source (R397). -/
def srcDie (x : Nat) : Nat :=
  if x < 512 then x / 64 else if x < 640 then (x - 512) / 16 else if x < 1152 then (x - 640) / 64 else if x < 1160 then x - 1152
  else if x < 1168 then x - 1160 else if x < 1176 then x - 1168 else 0

def State.hartAt (s : State) (k : Nat) : Hart := Tab.get Hart.reset s.harts k
def State.setHart (s : State) (k : Nat) (h : Hart) : State := { s with harts := Tab.put s.harts k h }

/-- Monitors on a sector record a write by another agent (R119, R342). -/
def State.notify (s : State) (k : Nat) (writer : Option Nat) : State :=
  { s with monitors := s.monitors.map fun (l, n, m) => (l, n, if m.sector = k then { m with hit := true } else m),
           harts := s.harts.map fun (n, h) =>
      match h.monitor with
      | some m => if m.sector = k ∧ writer ≠ some n then (n, { h with monitor := some { m with hit := true } }) else (n, h)
      | none => (n, h) }

/-- Die of a hart, and its requester id (R11). Contexts of stack executor e are harts 512 + 16e … 512 + 16e + 15. -/
def hartDie (k : Nat) : Nat := if k < 512 then k / 64 else (k - 512) / 256
def hartRid (k : Nat) : Nat := if k < 512 then k else 512 + (k - 512) / 16
def hartPcore (k : Nat) : Nat := k % 64

/-- A row of words w0, w1 that no enabled range covers now: the first row, or the row after an enabled range, is one if there is any. -/
def State.rowLeaves (s : State) (sl w0 w1 : Nat) : Bool :=
  let ends : List Nat := (List.range 16).map fun k => fld (s.ctlNum (elisionPa sl k + 8) 8) 16 15 + 1
  (fld w1 0 15 :: ends).any fun r => fld w1 0 15 ≤ r && r ≤ fld w1 16 15 && !s.rowElided sl (fld w0 16 5) r (fld w0 8 2)

/-- A write of the ranges of row elision (R205): what becomes live again is cleared first. A row that another enabled range still covers does not. -/
def State.elisionWrite (s : State) (pa : Nat) (x : Word) : State :=
  let base := pa / 16 * 16
  let w0 := s.ctlNum base 8
  let w1 := s.ctlNum (base + 8) 8
  if fld w0 1 1 = 1 then s
  else
    let n0 := if pa % 16 = 0 then fld x.toNat 16 5 * 2 ^ 16 + fld x.toNat 8 2 * 2 ^ 8 + fld x.toNat 0 1 else w0
    let n1 := if pa % 16 = 0 then w1 else fld x.toNat 16 15 * 2 ^ 16 + fld x.toNat 0 15
    let s := (s.setCtl base 8 n0).setCtl (base + 8) 8 n1
    let sl := ((base - ctlBase 0) / 2 ^ 32) * 16 + base % 2 ^ 32 / 256 % 16
    if fld w0 0 1 = 1 ∧ s.rowLeaves sl w0 w1 then
      -- Rows that become live are zero before any access to them is served.
      let live (a : Nat) : Bool := (region a).1 = .hbm && sliceOf a = sl && (hbmRow a).1 = fld w0 16 5 && (hbmRow a).2.2 = fld w0 8 2 && fld w1 0 15 ≤ (hbmRow a).2.1 && (hbmRow a).2.1 ≤ fld w1 16 15 && !s.notLive a
      let s := { s with mem := s.mem.filter (fun c => !live c.1), msc := s.msc.filter (fun c => !live (64 * c.1)), bad := s.bad.filter (fun k => !live (64 * k)),
                        corr := s.corr.filter (fun k => !live (64 * k)), sealed_ := s.sealed_.filter (fun c => !live (64 * c.1)) }
      let s := s.setCtl base 8 (n0 + 2)
      { s with clearing := s.clearing ++ [(sl, base % 256 / 16, fld w0 8 2 * 32 + fld w0 16 5, fld w1 0 15, fld w1 16 15)] }
    else s

/-- The doorbell word and summary bit of a queue (R369). -/
def State.ring (s : State) (part q : Nat) (x : Word) : State :=
  let lo := ctlBase (s.lowestDie part)
  let s := s.setCtl (lo + offDoorbells + 8 * q) 8 x.toNat
  let b := lo + offSummary + q / 8
  s.setDram b (s.dram b ||| BitVec.ofNat 8 (2 ^ (q % 8)))

/-- Little-endian bytes of a bit vector. -/
def bvBytes {n : Nat} (x : BitVec n) : List Byte := bytesOf (n / 8) x.toNat
/-- A key exchange with a peer, whose values are free (R415, log 15). -/
def State.drawExchange (s : State) : Exchange × State :=
  let f (i : Nat) : BitVec 512 := Config.freeKey (s.nfree + i)
  ({ peerKey := (f 0).setWidth 456, secret := (f 1).setWidth 448, transcript := bvBytes (f 2), sig := (f 3 ++ f 4).setWidth 912 }, { s with nfree := s.nfree + 5 })

/-- Operand word i of the mailbox. -/
def State.mailWord (s : State) (i : Nat) : Nat := s.ctlNum (mailPa (2 + i)) 8
/-- The command that a COMMAND word submits with the operand words (R416, R424). The mailbox lies in the control region of die 0, so the submitter's partition is that
die's. The order of the operand words is the table's (log 11). -/
def State.mailCommand (s : State) (code : Nat) (x : Exchange) : Option MailCmd :=
  let p := s.partOf 0
  let w := s.mailWord
  match code with
  | 1 => some (.cupping p (w 4) (BitVec.ofNat 256 (s.ctlNum (mailPa 2) 32)))
  | 2 => some (.sessopen p (w 0) (w 1) (word (w 2)) (BitVec.ofNat 256 (s.ctlNum (mailPa 5) 32)) (fld (w 7) 32 3) (fld (w 7) 0 32) x)
  | 3 => some (.sessclose p (w 0) (w 1))
  | 4 => some (.keyslot p (w 0))
  | 5 => some (.imgload p (w 0) (w 1))
  | 6 => some .restart
  | _ => none
/-- A COMMAND word is written (R416): the command waits for those before it; a code that no rule lists fails with STATUS 2 (log 15). -/
def State.submitMail (s : State) (code : Nat) : State :=
  let (x, s) := s.drawExchange
  match s.mailCommand code x with
  | some i => { s with sec := { s.sec with cmds := s.sec.cmds ++ [i], status := 1 } }
  | none => { s with sec := { s.sec with status := 2 } }

/-- A write of bytes of an aligned dword of a control region (R406): row-elision words, doorbells, COMMAND of the mailbox and the items of the error status block act, reserved bits
keep their value, and the partition descriptor (R404), read-only words and unlisted offsets ignore it. -/
def State.ctlDword (s : State) (w : Nat) (byte : Nat → Option Byte) : State :=
  let die := (region w).2
  let off := w % 2 ^ 32
  let x : Word := word (numOf ((List.range 8).map fun i => (byte i).getD (s.ctlByte (w + i))))
  if offElision ≤ off ∧ off < offElision + 0x1000 then s.elisionWrite w x
  else if offDoorbells ≤ off ∧ off < offDoorbells + 0x80000 then (if s.ctlHeld die off then s.ring (s.partOf die) ((off - offDoorbells) / 8) x else s)
  else if 0x1008 ≤ off ∧ off < 0x11000 then s.statusWrite die (statusItem ((off - 0x1000) / 8)) x
  else if w = mailPa 0 then (s.setCtl w 8 x.toNat).submitMail x.toNat
  else if w = mailPa 1 then s
  else (List.range 8).foldl (fun s i => match byte i with
    | some b => if s.ctlHeld die (off + i) then s.setDram (w + i) ((b &&& ctlMask (off + i)) ||| (s.dram (w + i) &&& ~~~ ctlMask (off + i))) else s
    | none => s) s
/-- A write of consecutive bytes of a control region, dword by dword. -/
def State.ctlWrite (s : State) (pa : Nat) (data : List Byte) : State :=
  if data.isEmpty then s
  else (List.range ((pa + data.length - 1) / 8 + 1 - pa / 8)).foldl (fun s j =>
    s.ctlDword (8 * (pa / 8 + j)) fun i => if pa ≤ 8 * (pa / 8 + j) + i then data[8 * (pa / 8 + j) + i - pa]? else none) s

/-- Write a log entry's bytes at their home slices: no error event comes of it, which would be an entry itself (log 13). -/
def State.putRaw (s : State) (pa : Nat) (data : List Byte) : State :=
  (sectorsOf pa data.length).foldl (fun s k =>
    let (m, x) := placeIn pa data k
    match (region (64 * k)).1 with
    | .hbm | .second => if s.notLive (64 * k) then s.countElided (64 * k) else if s.expanderLost (64 * k) then s else (s.putSector k m x 1 0).notify k none
    | .host => ((List.range data.length).foldl (fun s i =>
        if (pa + i) / 64 = k then { s with hostMem := Tab.set 0 s.hostMem (s.hostAddr (pa + i)) (data.getD i 0) } else s) s).notify k none
    | _ => s) s

/-- Raise a log entry (R396, R397, R401): the words 2–7, dropped when the ring is full or disabled, and where LOG2N is no number that R396 lists or the
entry's place lies outside the partition's memory (R403, log 13). -/
def State.log (s : State) (kind : LogKind) (code source : Nat) (words : List Word) : State :=
  let die := srcDie source
  let d := s.dieAt die
  let l := d.log kind
  let seq := Tab.get 0 l.seqs source
  let l := { l with seqs := Tab.put l.seqs source ((seq + 1) % 65536) }
  let at_ := l.base.toNat + 64 * (l.wridx.toNat % 2 ^ l.log2n)
  if l.log2n < 6 ∨ 16 < l.log2n ∨ l.wridx - l.rdidx = word (2 ^ l.log2n) ∨ !s.installed at_ ∨ s.partOf (region at_).2 ≠ s.partOf die then s.setDie die (d.setLog kind { l with lost := l.lost + 1 })
  else
    let w0 := source % 2 ^ 11 * 2 ^ 32 + code % 2 ^ 16 * 2 ^ 16 + seq
    let ws := w0 :: s.time % 2 ^ 64 :: (List.range 6).map fun i => (words.getD i 0).toNat
    let data := ws.flatMap (bytesOf 8)
    let s := s.putRaw at_ data
    s.setDie die (d.setLog kind { l with wridx := l.wridx + 1 })

/-- UECC (R398): PA, storage and agent kind, requester id. -/
def State.uecc (s : State) (source pa agent rid : Nat) : State :=
  s.log .event 0x11 source [word pa, word (rid % 2 ^ 11 * 2 ^ 16 + agent * 2 ^ 8 + s.storageOf (pa / 64) + 1)]

/-- At most one CECC event per line and 3,600,000 units (R393). -/
def State.ceccLog (s : State) (k storage : Nat) : State :=
  let i := sliceOf (64 * k)
  let sl := s.sliceAt i
  let note : State := (s.setSlice i { sl with cecc := Tab.put sl.cecc (k / 32) s.time }).log .event 0x10 (srcSlice i) [word (64 * k), word storage]
  match Tab.find sl.cecc (k / 32) with
  | some t => if s.time < t + 3600000 then s else note
  | none => note

/-- A corrected read (R393): the slice's counter and the event. -/
def State.cecc (s : State) (k : Nat) : State :=
  let i := sliceOf (64 * k)
  let sl := s.sliceAt i
  let st := s.storageOf k
  let sl := if st = 1 then { sl with msce := sat32 (sl.msce + 1) } else if st = 2 then { sl with hbmce := sat32 (sl.hbmce + 1) }
    else { sl with t2ce := sat32 (sl.t2ce + 1) }
  (s.setSlice i sl).ceccLog k st

/-- The agent kind of UECC for a read by a requester (R398): a core, or an executor. -/
def readAgent (rid : Nat) : Nat := if 512 ≤ rid then 6 else 0

/-- Effects of a read at the home slices of [pa, pa + n) (R87, R88, R204, R394): cache fills, counters, error events. `agent` is the agent kind of
UECC. -/
def State.touch (s : State) (pa n cpol key agent rid : Nat) : State :=
  (sectorsOf pa n).foldl (fun s k =>
    match (region (64 * k)).1 with
    | .hbm | .second =>
      if s.notLive (64 * k) then s.countElided (64 * k)
      else
        let bad := s.uncorr k key
        let s := if bad then s.uecc (srcSlice (sliceOf (64 * k))) (64 * k) agent rid
          else if s.corr.contains k then { s.cecc k with corr := s.corr.filter (· ≠ k) } else s
        if cpol = 2 ∨ bad ∨ (Tab.find s.msc k).isSome ∨ (key = 0 ∧ (s.cipherOf k).isSome) then s
        else s.mscPut k { data := s.dramSector k, dirty := false }
    | _ => s) s
/-- Write a dirty sector of the memory-side cache to DRAM or second tier; it stays, clean. A write to a row that is not live is discarded and counted
(R204), one to a lost expander discarded and logged (R409). -/
def State.mscClean (s : State) (k : Nat) : State :=
  match Tab.find s.msc k with
  | none => s
  | some e =>
    if !e.dirty then s
    else
      let s := { s with msc := Tab.put s.msc k { e with dirty := false } }
      if !s.notLive (64 * k) ∧ s.expanderLost (64 * k) then s.uecc (srcSlice (sliceOf (64 * k))) (64 * k) 3 (512 + sliceOf (64 * k))
      else s.mscSpill k e.data
/-- A prediction of the footprint table (R88): sector `i` of a resident sector's line comes into the memory-side cache, with a correctable error corrected
and counted, unless it is there, damaged, not live, stored under another key slot than the resident one, or its DRAM access is deferred. -/
def State.footprint (s : State) (k i : Nat) : State :=
  let j := k / 32 * 32 + i % 32
  let key := match Tab.find s.sealed_ j with | some (x, _) => x | none => 0
  if (Tab.find s.msc k).isNone ∨ (Tab.find s.msc j).isSome ∨ s.runs (64 * j) ∨ s.notLive (64 * j) ∨ s.uncorr j key
      ∨ (key ≠ 0 ∧ (Tab.find s.sealed_ k).map (·.1) ≠ some key) then s
  else
    let s := if s.corr.contains j then { s.cecc j with corr := s.corr.filter (· ≠ j) } else s
    { s with msc := Tab.put s.msc j { data := s.dramSector j, dirty := false } }

/-- One of the sectors of [pa, pa + n) reads as uncorrectable: the first one. -/
def State.badSector (s : State) (pa n key : Nat) : Option Nat :=
  (sectorsOf pa n).find? fun k => ((region (64 * k)).1 = .hbm || (region (64 * k)).1 = .second) && !s.notLive (64 * k) && s.uncorr k key

/-- Home slices of a carafe of a partition by word 0 of its descriptor (R133). -/
def State.carafeSlices (s : State) (p w0 : Nat) : List Nat :=
  if fld w0 16 2 = 1 then [fld w0 32 3 * 16 + fld w0 35 4]
  else ((s.partDies p).filter fun d => fld w0 24 8 / 2 ^ d % 2 = 1).flatMap fun d => (List.range 16).map fun h => 16 * d + h
/-- A write has changed a sector (its state before is `old`): a carafe whose STATE has become 2 is to be destroyed at its home slices (R147). -/
def State.noteDooms (s old : State) (k : Nat) : State :=
  if s.described then
    (List.range s.nparts).foldl (fun s p =>
      let base := s.descWord (s.lowestDie p) 6
      if base < 64 * k + 64 ∧ 64 * k < base + 2 ^ 21 then
        (List.range 3).foldl (fun s j =>
          let cid := (64 * k - base) / 32 + j
          let a := base + 32 * cid
          let w0 := s.numAt a 8
          if a / 64 = k ∧ cid < 65536 ∧ fld w0 20 2 = 2 ∧ fld (old.numAt a 8) 20 2 ≠ 2 then
            { s with dooms := s.dooms ++ (s.carafeSlices p w0).map fun z => (z, cid) }
          else s) s
      else s) s
  else s

/-- A write applied at the home slice of one sector (R87, R107): row elision, lost expanders, merges of damaged sectors, monitors. -/
def State.applySector (s : State) (k : Nat) (m : BitVec 64) (x : Sector) (cpol key rid : Nat) (writer : Option Nat) : State :=
  match (region (64 * k)).1 with
  | .hbm | .second =>
    if s.notLive (64 * k) then s.countElided (64 * k)
    else if s.expanderLost (64 * k) then s.uecc (srcSlice (sliceOf (64 * k))) (64 * k) 3 rid
    else
      let s := if s.uncorr k key && m ≠ BitVec.allOnes 64 then s.uecc (srcSlice (sliceOf (64 * k))) (64 * k) 4 rid else s
      ((s.putSector k m x cpol key).notify k writer).noteDooms s k
  | .host => ((List.range 64).foldl (fun s i =>
      if m.getLsbD i then { s with hostMem := Tab.set 0 s.hostMem (s.hostAddr (64 * k + i)) (BitVec.ofNat 8 (x.toNat / 256 ^ i)) } else s) s).notify k writer
  | .control => (List.range 8).foldl (fun s j =>
      let byte (i : Nat) : Option Byte := if m.getLsbD (8 * j + i) then some (BitVec.ofNat 8 (x.toNat / 256 ^ (8 * j + i))) else none
      if (List.range 8).any fun i => (byte i).isSome then s.ctlDword (64 * k + 8 * j) byte else s) s
  | .none => s

/-- A write of consecutive bytes applied at their home slices. -/
def State.applyWrite (s : State) (pa : Nat) (data : List Byte) (cpol key rid : Nat) (writer : Option Nat) : State :=
  (sectorsOf pa data.length).foldl (fun s k =>
    let (m, x) := placeIn pa data k
    s.applySector k m x cpol key rid writer) s
/-- A write by a unit of the module, without a key slot: records, save areas and reports. `writer` is the hart that writes, if one does. -/
def State.putBytes (s : State) (pa : Nat) (data : List Byte) (writer : Option Nat := none) : State :=
  s.applyWrite pa data 1 0 ((writer.map hartRid).getD 0) writer

/-- A walk's result: the leaf, its page size, and the offset of VA in the page; or the XLATE detail and the level reached (R384–R386). -/
inductive WalkResult where
  | leaf (w : Word) (size : Nat)
  | fail (detail level : Nat)
  /-- A leaf with CPOL 3: XLATE detail 3 of an access (R89), code 2 of a copy probe (R170). -/
  | noPolicy (level : Nat)
  /-- An uncorrectable entry at this address: XLATE detail 2 and a UECC event (R387). -/
  | damaged (pa level : Nat)
  /-- An entry at this address, in a row that is not live: it reads as zero, so XLATE detail 2, and the read is counted (R204). -/
  | elided (pa level : Nat)
  deriving DecidableEq, Repr

/-- Reserved bits of an entry are zero (R385). -/
def pteIsPointer (e : Word) : Bool := wf e 1 3 = 0
def ptePpn (e : Word) : Nat := wf e 12 40 * 4096

/-- One walk (R384–R386), level by level; `sz64` when the level-0 table maps 64 KiB pages. Entries are read at their home slices, in the memory of the
partition of die `die` (R403). -/
def State.walkFrom (s : State) (die va : Nat) : Nat → Bool → Nat → WalkResult
  | lvl, sz64, table =>
    let ix := if sz64 then 16 * fld va 16 5 else fld va (12 + 9 * lvl) 9
    let pa := table + 8 * ix
    if !s.installed pa ∨ s.partOf (region pa).2 ≠ s.partOf die then .fail 3 lvl
    else if s.notLive pa then .elided pa lvl
    else if s.uncorr (pa / 64) 0 then .damaged pa lvl
    else
      let e := s.dwordAt pa
      if wf e 0 1 = 0 then .fail 2 lvl
      else if pteIsPointer e then
        if wf e 52 12 ≠ 0 ∨ wf e 5 7 ≠ 0 ∨ (wf e 4 1 = 1 ∧ lvl ≠ 1) then .fail 2 lvl
        else match lvl with
          | 0 => .fail 2 0
          | l + 1 => State.walkFrom s die va l (wf e 4 1 = 1) (ptePpn e)
      else if wf e 11 1 ≠ 0 ∨ 3 ≤ lvl then .fail 2 lvl
      else
        let size := if lvl = 2 then 2 ^ 30 else if lvl = 1 then 2 ^ 21 else if sz64 then 65536 else 4096
        if ptePpn e % size ≠ 0 then .fail 2 lvl
        else if wf e 7 2 = 3 then .noPolicy lvl
        else .leaf e size
  termination_by structural lvl => lvl

/-- A walk from the root at level 4, for an agent of a die. -/
def State.walk (s : State) (die : Nat) (root : Word) (va : Nat) : WalkResult := s.walkFrom die va 4 false (wf root 12 40 * 4096)

/-- The entries a walk reads: it corrects and counts what it can (R393), counts a read of a row that is not live (R204), and logs UECC with agent kind WALK
for a damaged entry (R387). -/
def State.walkReads (s : State) (die rid va : Nat) : Nat → Bool → Nat → State
  | lvl, sz64, table =>
    let pa := table + 8 * (if sz64 then 16 * fld va 16 5 else fld va (12 + 9 * lvl) 9)
    if !s.installed pa ∨ s.partOf (region pa).2 ≠ s.partOf die then s
    else
      let t := s.touch pa 8 1 0 5 rid
      let e := s.dwordAt pa
      if s.notLive pa ∨ s.uncorr (pa / 64) 0 ∨ wf e 0 1 = 0 ∨ !pteIsPointer e ∨ wf e 52 12 ≠ 0 ∨ wf e 5 7 ≠ 0 ∨ (wf e 4 1 = 1 ∧ lvl ≠ 1) then t
      else match lvl with
        | 0 => t
        | l + 1 => State.walkReads t die rid va l (wf e 4 1 = 1) (ptePpn e)
  termination_by structural lvl => lvl
/-- What a walk from a root leaves behind at the slices. -/
def State.walked (s : State) (die rid : Nat) (root : Word) (va : Nat) : State := s.walkReads die rid va 4 false (wf root 12 40 * 4096)

/-- The DRAM access for an entry of a walk from a table at level lvl is deferred while a bank engine runs (R200). -/
def State.walkDefers (s : State) (va : Nat) : Nat → Bool → Nat → Bool
  | lvl, sz64, table =>
    let pa := table + 8 * (if sz64 then 16 * fld va 16 5 else fld va (12 + 9 * lvl) 9)
    let e := s.dwordAt pa
    s.deferred pa 8 || (s.installed pa && wf e 0 1 = 1 && pteIsPointer e && match lvl with
      | 0 => false
      | l + 1 => State.walkDefers s va l (wf e 4 1 = 1) (ptePpn e))
  termination_by structural lvl => lvl

/-- A translation: the physical address and the leaf's attributes. -/
structure Page where
  pa : Nat
  leaf : Word
  size : Nat := 4096
  deriving DecidableEq, Repr

def Page.key (p : Page) : Nat := wf p.leaf 52 12
def Page.seq (p : Page) : Bool := wf p.leaf 10 1 = 1
def Page.nmok (p : Page) : Bool := wf p.leaf 9 1 = 1
/-- A window page acts as CPOL 2 whatever its field holds (R405). -/
def Page.cpol (p : Page) : Nat := if (region p.pa).1 = .hbm ∨ (region p.pa).1 = .second then wf p.leaf 7 2 else 2
def Page.atomsys (p : Page) : Bool := wf p.leaf 6 1 = 1
/-- 0 NORMAL, 1 CARAFE, 2 CMP, 3 DEVICE. -/
def Page.cls (p : Page) : Nat := wf p.leaf 4 2
def Page.x (p : Page) : Bool := wf p.leaf 3 1 = 1
def Page.w (p : Page) : Bool := wf p.leaf 2 1 = 1
def Page.r (p : Page) : Bool := wf p.leaf 1 1 = 1

/-- A fault's cause and detail (R359). -/
structure Cause where
  code : Nat
  detail : Nat
  deriving DecidableEq, Repr

def cILLEGAL : Nat := 1
def cPRIV : Nat := 2
def cLATCHK : Nat := 3
def cXLATE : Nat := 4
def cPROT : Nat := 5
def cALIGN : Nat := 6
def cSPACE : Nat := 7
def cCARAFE : Nat := 8
def cLREC : Nat := 9
def cCPPROBE : Nat := 10
def cREGOFF : Nat := 11
def cRCALL : Nat := 12
def cDATA : Nat := 13
def cLOOPSTK : Nat := 14
def cTRAP : Nat := 15
def cBRK : Nat := 16
def cBARRIER : Nat := 17
def cNMREF : Nat := 18
def cFEAT : Nat := 19

/-- A virtual address with bits [63:57] equal to bit 56 (R74). -/
def canonical (va : Word) : Bool := va.toNat < 2 ^ 56 || va.toNat ≥ 2 ^ 64 - 2 ^ 56

/-- The entry serves hart k of a die: a core by its micro-TLB, its cluster's and its die's, any other agent by its die's (R388). -/
def TlbEntry.serves (e : TlbEntry) (die k : Nat) : Bool :=
  e.die = die && match e.at_ with
    | .micro p => k < 512 && hartPcore k = p
    | .cluster c => k < 512 && hartPcore k / 32 = c
    | .last => true
/-- The cached translations of a VA that an agent may use. -/
def State.cached (s : State) (die k asid va : Nat) : List TlbEntry := s.tlb.filter fun e => e.serves die k && e.asid = asid && e.va = va / e.size * e.size
/-- The translation that hart k uses for a canonical VA (R388, R389): a cached one or what a walk finds now; where they differ, the choice is free and made
for each access (log 8). -/
def State.findLeaf (s : State) (die k asid : Nat) (root : Word) (va : Nat) : WalkResult :=
  let l := (s.walk die root va :: (s.cached die k asid va).map fun e => WalkResult.leaf e.leaf e.size).eraseDups
  match l with
  | [x] => x
  | _ => l.getD (Config.tlbPick s.ntlb (va / 64) % l.length) (.fail 2 4)

/-- Key slots a partition owns (R404, R417). -/
def State.keyOk (s : State) (die key : Nat) : Bool :=
  let w := s.descWord die 7
  key = 0 || (fld w 0 12 ≤ key && key < fld w 0 12 + fld w 12 13)

/-- Where a G address leads for hart k of a die, whatever the page's class and permissions (R384, R403, R426): the page, its physical address
not yet held against the partition, or the fault. -/
def State.leafOf (s : State) (die k asid : Nat) (root va : Word) : Except Cause Page :=
  if !canonical va then .error { code := cXLATE, detail := 1 }
  else
    match s.findLeaf die k asid root (va.toNat % 2 ^ 57) with
    | .fail d _ => .error { code := cXLATE, detail := d }
    | .noPolicy _ => .error { code := cXLATE, detail := 3 }
    | .damaged _ _ | .elided _ _ => .error { code := cXLATE, detail := 2 }
    | .leaf w size =>
      let p : Page := { pa := ptePpn w + va.toNat % size, leaf := w, size := size }
      if p.key ≠ 0 ∧ !s.hasMenc then .error { code := cFEAT, detail := 1 } else .ok p

/-- The translation of a G address whose page class and key do not matter: a remote call's target (R149). -/
def State.located (s : State) (die k asid : Nat) (root va : Word) : Except Cause Page :=
  match s.leafOf die k asid root va with
  | .error c => .error c
  | .ok p => if !s.installed p.pa ∨ s.partOf (region p.pa).2 ≠ s.partOf die then .error { code := cXLATE, detail := 3 } else .ok p

/-- Translation of a G address for hart k of a die (R384, R403, R405, R417, R426): the page or the fault. A task cannot read the partition descriptor
(R404); the model refuses the access as one of a wrong class (log 11). -/
def State.translate (s : State) (die k asid : Nat) (root va : Word) : Except Cause Page :=
  match s.located die k asid root va with
  | .error c => .error c
  | .ok p =>
    if (region p.pa).1 = .control ∧ (p.cls ≠ 3 ∨ p.pa % 2 ^ 32 < 0x80) then .error { code := cPROT, detail := 2 }
    else if !s.keyOk die p.key then .error { code := cPROT, detail := 1 }
    else .ok p

/-- A physical address of handler mode (R354, R403). -/
def State.physical (s : State) (die : Nat) (ea : Word) : Except Cause Page :=
  if ea.toNat ≥ 2 ^ 52 then .error { code := cXLATE, detail := 1 }
  else if !s.installed ea.toNat ∨ s.partOf (region ea.toNat).2 ≠ s.partOf die then .error { code := cXLATE, detail := 3 }
  else .ok { pa := ea.toNat, leaf := word 0x8F }

end Sys2Proof.Machine
end

