-- ==== Sys2Proof/Machine/Access.lean ====
section
/-! DEFINITION. The shared operations on harts: reading registers through rotation (12 R226, R235), scheduling fixed-latency results (R236, R237), the
scratchpad and the L1 (05 R78–R86), stores in flight and landing-buffer entries (05 R93–R96), atomics at their home slices (06 R113, R123–R126), and
the view a core has of memory (06 R107, 05 R80). -/

namespace Sys2Proof.Machine

/-- The hart an instruction acts on. -/
def State.h (s : State) : Hart := s.hartAt s.cur
def State.onH (s : State) (f : Hart → Hart) : State := s.setHart s.cur (f s.h)
def State.die (s : State) : Nat := hartDie s.cur
def State.rid (s : State) : Nat := hartRid s.cur

/-! ### Registers -/

def Hart.handler (h : Hart) : Bool := h.mode = .handler

/-- Declared vector registers, rotating vector registers, declared tiles (R364, R235). -/
def Hart.vregs (h : Hart) : Nat := 16 * (wf h.rbanks 19 2 + 1)
def Hart.nr (h : Hart) : Nat := h.vregs - 16
def Hart.ztiles (h : Hart) : Nat := wf h.rbanks 21 3

/-- Physical numbers of rotating registers (R235). -/
def Hart.physV (h : Hart) (n : Nat) : Nat := if n < 16 ∨ h.nr = 0 then n else 16 + (n - 16 + h.vrb) % h.nr
def Hart.physM (h : Hart) (n : Nat) : Nat := if n < 8 then n else 8 + (n - 8 + h.mrb) % 8
def Hart.physP (h : Hart) (n : Nat) : Nat := if n < 8 ∨ h.handler then n else 8 + (n - 8 + h.prb) % 8

/-- The physical register behind a logical number (R235, R353). -/
def Hart.regS (h : Hart) (n : Nat) : Reg := if h.handler then .hs n else .s n
def Hart.regP (h : Hart) (n : Nat) : Reg := if h.handler then .hp n else .p (h.physP n)
def Hart.regV (h : Hart) (n : Nat) : Reg := .v (h.physV n)
def Hart.regM (h : Hart) (n : Nat) : Reg := .m (h.physM n)

/-- Register reads: s0 is 0, p0 true, m0 all ones (R226). -/
def Hart.getS (h : Hart) (n : Nat) : Word := if n = 0 then 0 else Tab.get 0 (if h.handler then h.hs else h.r.s) n
def Hart.getP (h : Hart) (n : Nat) : Bool := n = 0 || (if h.handler then h.hp else h.r.p).getLsbD (h.physP n)
def Hart.getM (h : Hart) (n : Nat) : Word := if n = 0 then BitVec.allOnes 64 else Tab.get 0 h.r.m (h.physM n)
def Hart.getV (h : Hart) (n : Nat) : VReg := Tab.get 0 h.r.v (h.physV n)

def State.rdS (s : State) (n : Nat) : Word := s.h.getS n
def State.rdP (s : State) (n : Nat) : Bool := s.h.getP n
def State.rdM (s : State) (n : Nat) : Word := s.h.getM n
def State.rdV (s : State) (n : Nat) : VReg := s.h.getV n

/-- Lane i of a vector register (R270). -/
def laneAt (v : VReg) (i : Nat) : Lane := BitVec.ofNat 32 (v.toNat / 2 ^ (32 * i))
/-- A vector register from its lanes, lane 0 first. -/
def ofLanes : List Lane → Nat
  | [] => 0
  | x :: t => x.toNat + 2 ^ 32 * ofLanes t
def vreg (l : List Lane) : VReg := BitVec.ofNat 2048 (ofLanes l)
def lanesOf (v : VReg) : List Lane := (List.range 64).map (laneAt v)
/-- 64-bit word w of a record or tuple in a vector register (R97, R135). -/
def vword (v : VReg) (w : Nat) : Word := BitVec.ofNat 64 (v.toNat / 2 ^ (64 * w))

/-- The physical register a write goes to, if it is one the scoreboard tracks. -/
def Write.reg : Write → Option Reg
  | .s n _ => some (.s n)
  | .hs n _ => some (.hs n)
  | .v n _ => some (.v n)
  | .m n _ => some (.m n)
  | .p n _ => some (.p n)
  | .hp n _ => some (.hp n)
  | _ => none

/-- Schedule a fixed-latency write (R236). -/
def Hart.later (h : Hart) (lat : Nat) (w : Write) : Hart := { h with pend := h.pend ++ [{ issued := h.cyc, due := h.cyc + lat, w := w }] }
def State.later (s : State) (lat : Nat) (w : Write) : State := s.onH fun h => h.later lat w

/-- Results to a logical register; writes to s0, p0, m0 are discarded (R226). -/
def State.putS (s : State) (lat d : Nat) (x : Word) : State :=
  if d = 0 then s else s.later lat (if s.h.handler then .hs d x else .s d x)
def State.putP (s : State) (lat d : Nat) (x : Bool) : State :=
  if d = 0 then s else s.later lat (if s.h.handler then .hp d x else .p (s.h.physP d) x)
def State.putM (s : State) (lat d : Nat) (x : Word) : State := if d = 0 then s else s.later lat (.m (s.h.physM d) x)
def State.putV (s : State) (lat d : Nat) (x : VReg) : State := s.later lat (.v (s.h.physV d) x)

/-- The privileged register behind a name, as CSRR reads it and CSRW writes it (R356); NMDEBT and WSTAT are read from the engines and the wait. -/
def Hart.setPriv (h : Hart) (r : PReg) (x : Word) : Hart :=
  match r with
  | .cctl => { h with cctl := (x &&& ~~~ 8) ||| (h.cctl &&& 8) }
  | .fcause => { h with fcause := x }
  | .faddr => { h with faddr := x }
  | .fpc => { h with fpc := x }
  | .epc => { h with epc := x }
  | .estat => { h with estat := x }
  | .hbase => { h with hbase := x }
  | .rbanks =>
    -- A bank or tile that is OFF has lost its contents (R364).
    let off (lo : Nat) : Bool := wf x lo 2 = 0
    { h with rbanks := x, r := { h.r with v := h.r.v.filter fun e => !off (2 * (e.1 / 16)) },
             z := h.z.filter fun e => !off (8 + 2 * (e.1 / 16384)) }
  | .ltgrant => { h with ltgrant := x }
  | .crftab => { h with crftab := x }
  | .ptroot => { h with ptroot := x }
  | .asid => { h with asid := x }
  | .rcto => { h with rcto := if x.toNat < 1024 then 1024 else x }
  | .rcbudget => { h with rcbudget := x }
  | .nmdebt _ | .wstat | .wcnt _ => h

/-- Perform a write (R236, R258, R356). -/
def Hart.perform (h : Hart) : Write → Hart
  | .s n x => { h with r := { h.r with s := Tab.set 0 h.r.s n x } }
  | .hs n x => { h with hs := Tab.set 0 h.hs n x }
  | .v n x => { h with r := { h.r with v := Tab.set 0 h.r.v n x } }
  | .m n x => { h with r := { h.r with m := Tab.set 0 h.r.m n x } }
  | .p n x => { h with r := { h.r with p := if x then h.r.p ||| BitVec.ofNat 16 (2 ^ n) else h.r.p &&& ~~~ BitVec.ofNat 16 (2 ^ n) } }
  | .hp n x => { h with hp := if x then h.hp ||| BitVec.ofNat 16 (2 ^ n) else h.hp &&& ~~~ BitVec.ofNat 16 (2 ^ n) }
  | .mc n w => { h with mc := (List.range 5).foldl (fun t i => Tab.set 0 t (5 * n + i) (w.getD i 0)) h.mc }
  | .z n => { h with z := h.z.filter fun e => e.1 / 16384 ≠ n }
  | .vstat b => { h with vstat := h.vstat ||| b }
  | .wsr .vstat x => { h with vstat := BitVec.ofNat 5 x.toNat }
  | .wsr .dstat x => { h with dstat := (x &&& 0x800FFFFFFFFFFFC0) }
  | .wsr _ _ => h
  | .csr r x => h.setPriv r x

/-- A write that joins sticky bits rather than replacing a value; it comes after a WSR of the same cycle (R258). -/
def Write.sticky : Write → Bool
  | .vstat _ => true
  | _ => false

/-- Classes of pending writes: results of instructions, CSRW of RBANKS, other CSRWs. -/
inductive WriteClass where
  | result | banks | priv
  deriving DecidableEq, Repr
def Write.cls : Write → WriteClass
  | .csr .rbanks _ => .banks
  | .csr _ _ => .priv
  | _ => .result

/-- Perform every write that is due and satisfies p, in issue order, sticky bits last (R237, R258). -/
def Hart.settleIf (h : Hart) (p : Pend → Bool) : Hart :=
  let ready (e : Pend) : Bool := e.due ≤ h.cyc && p e
  let due := h.pend.filter ready
  let h' := { h with pend := h.pend.filter fun e => !ready e }
  let h' := (due.filter fun e => !e.w.sticky).foldl (fun h e => h.perform e.w) h'
  (due.filter fun e => e.w.sticky).foldl (fun h e => h.perform e.w) h'

/-- Perform every write of a class that is due and was issued before a cycle. -/
def Hart.settle (h : Hart) (c : WriteClass) (before : Nat) : Hart := h.settleIf fun e => e.w.cls = c && e.issued < before
/-- Perform the register results that are due and were issued before a landing's request (R96). VSTAT and the registers of WSR keep an order of their
own (R258). -/
def Hart.settleRegs (h : Hart) (before : Nat) : Hart := h.settleIf fun e => e.w.cls = .result && e.issued < before && match e.w with
  | .vstat _ | .wsr _ _ => false
  | _ => true

/-- A write of a class is due on the hart. -/
def Hart.writeDue (h : Hart) (c : WriteClass) : Bool := h.pend.any fun e => e.due ≤ h.cyc && e.w.cls = c

/-- The register is pending under land=any (R96). The reply that the bundle's own blocking request is to take holds no register of it (R352). -/
def Hart.pending (h : Hart) (r : Reg) : Bool := h.land.any fun l => l.due.isNone && h.wLand ≠ some l.id && l.regs.contains r
/-- The register lies in the window of an outstanding fixed-latency write (R237, R238), or in one that a switch found open (R39). -/
def Hart.inWindow (h : Hart) (r : Reg) : Bool :=
  (h.pend.any fun e => e.w.reg = some r && h.cyc < e.due) || h.wins.any fun e => e.1 = r && h.cyc < e.2
/-- The windows open now, by the cycles left. -/
def Hart.windows (h : Hart) : List (Reg × Nat) :=
  (h.pend.filterMap fun e => e.w.reg.bind fun r => if h.cyc < e.due then some (r, e.due - h.cyc) else none)
    ++ h.wins.filterMap fun e => if h.cyc < e.2 then some (e.1, e.2 - h.cyc) else none

/-- Landing entries held (R94). -/
def Hart.lbusy (h : Hart) : Nat := h.land.length

/-! ### Scratchpad -/

/-- A bank's state: declared banks start in SCRATCH, the others are L1 ways (R20, R78). -/
def Hart.bank (h : Hart) (b : Nat) : Bank :=
  match Tab.find h.banks b with
  | some x => x
  | none => if b < h.scr then Bank.reset else { Bank.reset with mode := .cache }
def Hart.setBank (h : Hart) (b : Nat) (x : Bank) : Hart := { h with banks := Tab.put h.banks b x }
/-- Size of a bank and of a granule (R78). -/
def bankSize : Nat := 0x20000
def Hart.spByte (h : Hart) (o : Nat) : Byte := Tab.get 0 h.sp o
def Hart.spBytes (h : Hart) (o n : Nat) : List Byte := (List.range n).map fun i => h.spByte (o + i)
/-- A write replaces the damage of every granule it covers whole (R86). While a matrix instruction runs it is noted (R61). -/
def Hart.spWrite (h : Hart) (o : Nat) (data : List Byte) : Hart :=
  { h with spLog := if h.matq.isEmpty then [] else h.spLog ++ [(o, data)], spBad := h.spBad.filter fun g => !(o ≤ 16 * g && 16 * g + 16 ≤ o + data.length), sp := (List.range data.length).foldl (fun t i => Tab.set 0 t (o + i) (data.getD i 0)) h.sp }
/-- Granules a span touches. -/
def granules (o n : Nat) : List Nat := if n = 0 then [] else (List.range ((o + n - 1) / 16 + 1 - o / 16)).map fun i => o / 16 + i
def Hart.fullAt (h : Hart) (g : Nat) : Bool := Tab.get false (h.bank (g / 8192)).full (g % 8192)
def Hart.setFull (h : Hart) (g : Nat) (x : Bool) : Hart :=
  let b := h.bank (g / 8192)
  { h with fills := if x then g :: h.fills else h.fills }.setBank (g / 8192) { b with full := Tab.set false b.full (g % 8192) x }
def Hart.setFulls (h : Hart) (gs : List Nat) (x : Bool) : Hart := gs.foldl (fun h g => h.setFull g x) h
/-- A write by an engine: bytes and full bits (R83). -/
def Hart.engineWrite (h : Hart) (o : Nat) (data : List Byte) : Hart := (h.spWrite o data).setFulls (granules o data.length) true

/-! ### Launches and their members -/

def State.launch? (s : State) (lid : Nat) : Option Launch := Tab.find s.launches lid
def State.setLaunch (s : State) (lid : Nat) (l : Launch) : State := { s with launches := Tab.put s.launches lid l }
def Launch.place (l : Launch) (m : Nat) : Place := Tab.get .unstarted l.members m
def Launch.setPlace (l : Launch) (m : Nat) (p : Place) : Launch := { l with members := Tab.put l.members m p }
def Launch.w (l : Launch) (i : Nat) : Word := l.words.getD i 0
/-- DETLVL of the accepted record (R371). -/
def Launch.detlvl (l : Launch) : Nat := wf (l.w 5) 8 2
/-- Where a member of a launch is. -/
def State.placeOf (s : State) (lid m : Nat) : Place := match s.launch? lid with | some l => l.place m | none => .dropped

/-! ### Conflicting plain stores (R127, R128) -/

/-- A slice reports a conflict. A WSR of DSTAT that is due comes first (R258). -/
def Hart.conflict (h : Hart) (sector : Nat) : Hart :=
  let h := h.settleIf fun e => match e.w with
    | .wsr .dstat _ => true
    | _ => false
  if h.dstat.getLsbD 63 then h else { h with dstat := word (2 ^ 63 + sector % 2 ^ 46 * 64) }
/-- A conflict is reported to a member of a launch: where it runs, or in its save area (R381). -/
def State.reportConflict (s : State) (lid m sector : Nat) : State :=
  match s.placeOf lid m with
  | .saved area _ =>
    if (s.dwordAt (area + 0x288)).getLsbD 63 then s else s.putBytes (area + 0x288) (bytesOf 8 (2 ^ 63 + sector % 2 ^ 46 * 64))
  | _ => { s with harts := s.harts.map fun (n, g) => if n < 512 ∧ g.lid = some lid ∧ g.member = m then (n, g.conflict sector) else (n, g) }
/-- The launch and member whose plain stores count for conflicts: the task of a D1 or D2 launch that runs on a core in task mode (R127, R358). -/
def State.storer (s : State) (k : Nat) : Option (Nat × Nat) :=
  let h := s.hartAt k
  match if k < 512 ∧ h.mode = .task then h.lid else none with
  | some lid => if ((s.launch? lid).map Launch.detlvl).getD 0 ≠ 0 then some (lid, h.member) else none
  | none => none
/-- A slice has seen bytes that a task of a D1 or D2 launch stored: a conflict with another task's store to a common byte of a resident sector sets DSTAT
in both (R127). A pair whose first store met a sector that was not resident yet is reported too, which the rule leaves open (log 27). -/
def State.seeStore (s : State) (by_ : Option (Nat × Nat)) (sector : Nat) (m : BitVec 64) : State :=
  match by_ with
  | none => s
  | some (lid, member) =>
    let i := sliceOf (64 * sector)
    let sl := s.sliceAt i
    let resident := (Tab.find s.msc sector).isSome
    let old := if resident then sl.seen.filter fun e => e.lid = lid ∧ e.sector = sector ∧ e.member ≠ member ∧ e.bytes &&& m ≠ 0 else []
    let s := s.setSlice i { sl with seen := (if resident then sl.seen else sl.seen.filter fun e => e.sector ≠ sector)
                              ++ [{ lid := lid, member := member, sector := sector, bytes := m }] }
    if old.isEmpty then s else (member :: (old.map (·.member)).eraseDups).foldl (fun s x => s.reportConflict lid x sector) s

/-! ### The D2 calendar (R129, R130) -/

/-- The owner of a slice's slot: a core's accesses, its copy engine, or the executors, bank engines and host of the die. -/
inductive SlotOwner where
  | core (k : Nat) | engine (k : Nat) | die
  deriving DecidableEq, Repr
/-- The owner at module time t of the slot in which slice sl is. -/
def slotOwner (t sl : Nat) : SlotOwner :=
  let e := sl / 16
  let slot := (t / 2 + 16 * (sl % 16)) % 256
  let q := t / 512 % 8
  if slot % 4 = 0 then .core (64 * e + slot / 4)
  else if slot % 4 ≠ 3 then .engine (64 * e + slot / 4)
  else if q = e then .die
  else if t / 4096 % 2 = 0 then .core (64 * q + slot / 4) else .engine (64 * q + slot / 4)
/-- A core holds a resident task of a D2 launch. -/
def State.d2Core (s : State) (k : Nat) : Bool :=
  k < 512 && match (s.hartAt k).lid.bind s.launch? with | some l => l.detlvl = 2 | none => false
/-- Declared latency in core cycles (R130). -/
def d2Latency (k pa : Nat) : Nat :=
  (if (region pa).1 = .second then 3600 else 1152) + (if hartDie k = (region pa).2 then 0 else 360)
/-- The address is served by a calendar. -/
def calendared (pa : Nat) : Bool := (region pa).1 = .hbm || (region pa).1 = .second
/-- At this module time the slice of an address may serve an access of hart k, or of its copy engine: a D2 task's only in a slot it owns, every other only
in a slot that no resident D2 task owns (R129). -/
def State.mayUse (s : State) (k : Nat) (engine : Bool) (pa : Nat) : Bool :=
  !calendared pa ||
    let o := slotOwner s.time (sliceOf pa)
    if s.d2Core k then o = (if engine then .engine k else .core k)
    else match o with
      | .core n | .engine n => !s.d2Core n
      | .die => true

/-! ### Landing entries -/

def Hart.entry (h : Hart) (id : Nat) : Option Landing := h.land.find? fun l => l.id = id
def Hart.setEntry (h : Hart) (l : Landing) : Hart := { h with land := h.land.map fun x => if x.id = l.id then l else x }
def Hart.dropEntry (h : Hart) (id : Nat) : Hart := { h with land := h.land.filter fun x => x.id ≠ id }
/-- An exact landing whose request was issued before an entry's is due and has not been written: the entry's value waits for it (R96). -/
def Hart.exactBefore (h : Hart) (l : Landing) : Bool :=
  h.land.any fun x => x.id ≠ l.id && x.issued ≤ l.issued && (match x.due with | some d => d ≤ h.cyc | none => false)
/-- The hart that holds a landing entry: the one that sent the request, or the one on which its task has resumed. -/
def State.entryHart (s : State) (k id : Nat) : Option Nat :=
  if ((s.hartAt k).entry id).isSome then some k else (s.harts.find? fun x : Nat × Hart => (x.2.entry id).isSome).map (·.1)

def predWrite (pd : Option Reg) (x : Bool) : List Write :=
  match pd with
  | some (.p n) => [.p n x]
  | some (.hp n) => [.hp n x]
  | _ => []
def scalarWrite (d : Reg) (x : Word) : List Write :=
  match d with
  | .s n => [.s n x]
  | .hs n => [.hs n x]
  | _ => []

/-- A held reply in the save area (R381, R382): slot by slot after the entries already held; kind 1 remote, 2 tuple. -/
def State.holdReply (s : State) (area kind d pd : Nat) (vals : List Byte) : State :=
  let base := area + 0x59800
  match (List.range 64).find? fun i => s.numAt (base + 512 * i) 1 = 0 with
  | none => s
  | some i => s.putBytes (base + 512 * i) (bytesOf 8 (kind + d * 2 ^ 8 + pd * 2 ^ 16) ++ vals)

/-- Number of a register as a held reply names it (R381). -/
def regIx : Reg → Nat
  | .s n | .v n | .m n | .p n | .hs n | .hp n => n
/-- Values of a held reply. -/
def writeBytes : Write → List Byte
  | .s _ x => bytesOf 8 x.toNat
  | .v _ x => bytesOf 256 x.toNat
  | .p _ x => [if x then 1 else 0]
  | _ => []
/-- Destination and predicate of a tuple reply. -/
def LandReq.names : LandReq → Nat × Nat
  | .tuple d pd | .cnt d pd => (regIx d, (pd.map regIx).getD 0)
  | .dep pd => (0, (pd.map regIx).getD 0)
  | _ => (0, 0)
/-- Fill an entry of a task that is switched out: the reply is held (R40, R382). -/
def Away.fill (a : Away) (id : Nat) (f : Landing → Landing) : Away :=
  { a with land := a.land.map fun l : Landing => if l.id = id then f l else l }

/-- Fill a landing entry, on the hart where its task is now or kept for a task that is switched out (R40). -/
def State.fill (s : State) (k id : Nat) (f : Landing → Landing) : State :=
  match s.entryHart k id with
  | some n => s.setHart n { s.hartAt n with land := (s.hartAt n).land.map fun l => if l.id = id then f l else l }
  | none =>
    match s.away.find? fun a => a.land.any fun l => l.id = id with
    | none => s
    | some a =>
      let s : State := { s with away := s.away.map fun x => if x = a then x.fill id f else x }
      match s.placeOf a.lid a.member, (a.fill id f).land.find? fun l => l.id = id with
      | .saved area _, some l => s.holdReply area 2 l.req.names.1 l.req.names.2 ((l.got.getD []).flatMap writeBytes)
      | _, _ => s

/-! ### Acquires of the L1 (R90, R110) -/

/-- A scope is cluster or wider (R90). -/
def wideScope : Scope → Bool
  | .core => false
  | _ => true

/-- Invalidate every clean line, and the clean bytes of the others (R90). -/
def State.dropClean (s : State) (k : Nat) : State :=
  let h := s.hartAt k
  let l1 : Tab L1Line := (h.l1.filter fun e => e.2.dirty ≠ 0).map fun e => (e.1, { e.2 with valid := e.2.dirty })
  s.setHart k { h with l1 := l1, l1Bad := h.l1Bad.filter fun g => (Tab.find l1 (g / 4)).isSome, l1Corr := h.l1Corr.filter fun g => (Tab.find l1 (g / 4)).isSome }
/-- Acquire of a hart (R110): clean L1 contents are invalidated for cluster scope and wider (R90). -/
def State.acquire (s : State) (k : Nat) (wide : Bool) : State := if wide then s.dropClean k else s

/-! ### Atomics at their home slices (R113) -/

def minS {w : Nat} (a b : BitVec w) : BitVec w := if a.slt b then a else b
def maxS {w : Nat} (a b : BitVec w) : BitVec w := if a.slt b then b else a
def minU {w : Nat} (a b : BitVec w) : BitVec w := if a.ult b then a else b
def maxU {w : Nat} (a b : BitVec w) : BitVec w := if a.ult b then b else a

/-- New value of an AMO (R312). -/
def amoVal (op : AmoOp) (v x : Word) : Word :=
  match op with
  | .add => v + x
  | .and => v &&& x
  | .or => v ||| x
  | .xor => v ^^^ x
  | .min => minS v x
  | .max => maxS v x
  | .minu => minU v x
  | .maxu => maxU v x
  | .swap => x

/-- BF16 addition (R315). -/
def bf16Add (a b : Nat) : Nat := (roundFp bf16 .rn false (Val.add .rn (bf16.value a) (bf16.value b)).1).1
/-- New word of an AMOF (R315). -/
def amofVal (bf : Bool) (w x : BitVec 32) : BitVec 32 :=
  if bf then BitVec.ofNat 32 (bf16Add (fld w.toNat 0 16) (fld x.toNat 0 16) + bf16Add (fld w.toNat 16 16) (fld x.toNat 16 16) * 65536)
  else (fpAdd .rn w x).1

/-- Bytes an atomic touches. -/
def AtomOp.size : AtomOp → Nat
  | .amo _ _ | .cas _ _ => 8
  | .amof _ _ | .amofSeq _ _ _ _ => 4

/-- The bytes an atomic writes, given the value it reads; none where it writes nothing. -/
def AtomOp.result (op : AtomOp) (v : Nat) : Option Nat :=
  match op with
  | .amo op x => some (amoVal op (word v) x).toNat
  | .cas x n => if word v = x then some n.toNat else none
  | .amof bf x => some (amofVal bf (BitVec.ofNat 32 v) x).toNat
  | .amofSeq bf skip _ x => if skip then none else some (amofVal bf (BitVec.ofNat 32 v) x).toNat

/-- The host's AtomicOp that has read writes (R92). -/
def State.hostFinish (s : State) : State :=
  match s.hostRmw with
  | none => s
  | some (op, pa, v) =>
    let s : State := { s with hostRmw := none }
    match op.result v with
    | some x => s.applyWrite pa (bytesOf op.size x) 1 0 0 none
    | none => s

/-- An atomic operation at its home slice: what it read, none where the sector is uncorrectable and nothing is written (R394). An AtomicOp of the host
that has read the word and not yet written comes before it on an ATOMSYS = 1 page; on another page its write may fall before or after this one's
(R92). -/
def State.atomicDo (s : State) (op : AtomOp) (pa cpol key rid : Nat) (asys : Bool) (writer : Option Nat) : State × Option Nat :=
  let meets : Bool := match s.hostRmw with | some (_, a, _) => a / 8 = pa / 8 | none => false
  let s := if meets && asys then s.hostFinish else s
  let s := s.touch pa op.size cpol key 0 rid
  if (s.badSector pa op.size key).isSome then (s, none)
  else
    let v := s.numSeen key pa op.size
    let s : State := if meets && !asys then (let (n, t) := s.draw; if Config.coin n then t.hostFinish else t) else s
    match op.result v with
    | some x => (s.applyWrite pa (bytesOf op.size x) cpol key rid writer, some v)
    | none => (s, some v)

/-- The reply of an AMO or CAS: its value at its landing entry, DATA for a damaged sector (R363, R394): at the landing, or before the next bundle where
it has no destination. -/
def State.atomicReply (s : State) (m : Msg) (pa : Nat) (v : Option Nat) (pc : Word) : State :=
  match v with
  | some v =>
    s.fill m.hart m.landing fun l =>
      { l with got := some (match l.req with | .atomic d => scalarWrite d (word v) | _ => []) }
  | none =>
    if m.landing = 0 then s.setHart m.hart { s.hartAt m.hart with atomData := some (s.dataDetail (pa / 64), pc, m.byTask) }
    else s.fill m.hart m.landing fun l => { l with got := some [], bad := some (s.dataDetail (pa / 64)) }

def Slice.dropRefused (x : Slice) (id : Nat) : Slice := { x with refused := x.refused.filter (fun m => m.id ≠ id), noEntry := x.noEntry.filter (· ≠ id) }
/-- An atomic that has no route to its slice: DATA with detail 2 (R411). -/
def State.atomicLost (s : State) (m : Msg) (pc : Word) : State :=
  let s : State := { s with msgs := s.msgs.filter (fun x => x.id ≠ m.id), slices := s.slices.map fun z : Nat × Slice => (z.1, z.2.dropRefused m.id) }
  if m.landing = 0 then s.setHart m.hart { s.hartAt m.hart with atomData := some (2, pc, m.byTask) } else s.fill m.hart m.landing fun l => { l with got := some [], bad := some 2 }

/-- Where a sequenced operation stands in its word's order (R123, R126). -/
inductive SeqFate where
  | refused | full | duplicate | due | early
  deriving DecidableEq, Repr

def Slice.nextSeq (sl : Slice) (lid pa : Nat) : Option Word := (sl.seqs.find? fun e => e.lid = lid ∧ e.pa = pa).map (·.next)

def Slice.fate (sl : Slice) (lid pa : Nat) (q : Word) : SeqFate :=
  match sl.nextSeq lid pa with
  | none => if 4096 ≤ (sl.seqs.filter fun e => e.lid = lid).length ∨ 16384 ≤ sl.seqs.length then .full else if q = 0 then .due
      else if 1024 ≤ sl.held.length then .refused else .early
  | some n =>
    if q.toNat < n.toNat ∨ (sl.held.any fun e => e.lid = lid ∧ e.pa = pa ∧ e.q = q) then .duplicate
    else if q = n then .due
    else if 1024 ≤ sl.held.length then .refused else .early

/-- Set a word's next-expected number. -/
def Slice.setNext (sl : Slice) (lid pa : Nat) (n : Word) : Slice :=
  { sl with seqs := (sl.seqs.filter fun e => !(e.lid = lid ∧ e.pa = pa)) ++ [{ lid := lid, pa := pa, next := n }] }

/-- Apply the operation whose turn it is, then every held one whose turn comes (R123). -/
def State.seqRun (s : State) (i lid pa : Nat) : Nat → SeqHeld → State
  | fuel, e =>
    let n := ((s.sliceAt i).nextSeq lid pa).getD 0
    let s := (s.atomicDo (.amofSeq e.bf e.skip n e.x) pa e.cpol e.key (512 + i) e.asys (some e.hart)).1
    let s := s.setSlice i ((s.sliceAt i).setNext lid pa (n + 1))
    match fuel with
    | 0 => s
    | fuel + 1 =>
      match (s.sliceAt i).held.find? fun e => e.lid = lid ∧ e.pa = pa ∧ e.q = n + 1 with
      | none => s
      | some e => State.seqRun (s.setSlice i { s.sliceAt i with held := (s.sliceAt i).held.erase e }) i lid pa fuel e
  termination_by structural fuel => fuel

/-- A sequenced operation meets its slice (R123, R125, R126). -/
def State.seqArrive (s : State) (m : Msg) (e : SeqHeld) : State :=
  let pa := e.pa
  let q := e.q
  let i := m.home
  let s : State := { s with msgs := s.msgs.filter fun y => y.id ≠ m.id }
  let was : Bool := (s.sliceAt i).noEntry.contains m.id
  let sl := (s.sliceAt i).dropRefused m.id
  match sl.fate m.lid pa q with
  | .refused =>
    -- The word's entry in the sequence table is taken all the same: only the hold table is full (R125).
    let sl := if (sl.nextSeq m.lid pa).isNone then sl.setNext m.lid pa 0 else sl
    s.setSlice i { sl with refused := sl.refused ++ [m], noEntry := if was then m.id :: sl.noEntry else sl.noEntry }
  | .full =>
    let s := s.setSlice i { sl with refused := sl.refused ++ [m], noEntry := m.id :: sl.noEntry, seqFull := if sl.seqFull.contains m.lid then sl.seqFull else sl.seqFull ++ [m.lid] }
    if sl.seqFull.contains m.lid then s else s.log .event 0x23 (srcSlice i) [word pa, word (m.lid % 2 ^ 32)]
  | .duplicate => (s.setSlice i sl).log .event 0x20 (srcSlice i) [word pa, q, word (m.lid % 2 ^ 32)]
  | .due =>
    let sl := if (sl.nextSeq m.lid pa).isNone then sl.setNext m.lid pa 0 else sl
    (s.setSlice i sl).seqRun i m.lid pa 1024 e
  | .early =>
    let sl := if (sl.nextSeq m.lid pa).isNone then sl.setNext m.lid pa 0 else sl
    s.setSlice i { sl with held := sl.held ++ [e] }

/-- A travelling atomic of a hart takes effect at its home slice now (R113, R123). Its acquire, if it has one, takes place with its response (R314). -/
def State.atomicNow (s : State) (m : Msg) : State :=
  match m.body with
  | .atomic op pa cpol key asys acq pc =>
    if !s.reaches (hartDie m.hart) pa then s.atomicLost m pc
    else match op with
    | .amofSeq bf skip q x =>
      s.seqArrive m { lid := m.lid, pa := pa, q := q, bf := bf, skip := skip, x := x, cpol := cpol, key := key, asys := asys, hart := m.hart }
    | _ =>
      let s : State := { s with msgs := s.msgs.filter fun x => x.id ≠ m.id }
      let (s, v) := s.atomicDo op pa cpol key m.rid asys (some m.hart)
      let s := match op with
        | .amo _ _ | .cas _ _ => s.atomicReply m pa v pc
        | _ => s
      match acq with
      | some sc => s.acquire m.hart (wideScope sc)
      | none => s
  | _ => s

/-- A travelling atomic of hart k to an address that satisfies p. -/
def Msg.atomicOf (m : Msg) (k : Nat) (p : Nat → Bool) : Bool :=
  m.hart = k && match m.body with
    | .atomic _ pa _ _ _ _ _ => p pa
    | _ => false
/-- The hart has a travelling atomic to the sector, or maintenance of it in progress: the L1 is not filled from it. -/
def State.ownAtomic (s : State) (k sec : Nat) : Bool :=
  (s.msgs.any fun m => m.atomicOf k fun pa => pa / 64 = sec) || (s.hartAt k).mnts.any fun m => m.sector = sec

/-- The dies between which a message travels. -/
def Msg.dies (m : Msg) : Nat × Nat :=
  match m.body with
  | .reply c _ _ => ((m.rid - 512) / 16, hartDie c.hart)
  | _ => (hartDie m.hart, m.home / 16)
/-- A message may arrive: none that was sent again between the same dies is ahead of it (R164, R411). -/
def State.msgMay (s : State) (m : Msg) : Bool := !(s.msgs.takeWhile fun x => x.id ≠ m.id).any fun x => x.again && x.dies = m.dies

/-! ### L1 and stores in flight -/

/-- The banks in CACHE mode: the ways of the L1 (R80). -/
def Hart.ways (h : Hart) : List Nat := (List.range 16).filter fun b => (h.bank b).mode = .cache
def Hart.hasL1 (h : Hart) (k : Nat) : Bool := k < 512 && !h.ways.isEmpty
/-- Set index of a line (R80). -/
def l1Set (line : Nat) : Nat := line % 2048

/-- Granules of an L1 line with an uncorrectable error (R86), and a line with zeros in them. -/
def Hart.badLine (h : Hart) (line : Nat) : List Nat := h.l1Bad.filter fun g => g / 4 = line
def zeroGranules (gs : List Nat) (x : Sector) : Sector :=
  gs.foldl (fun x g => x &&& ~~~ BitVec.ofNat 512 ((2 ^ 128 - 1) * 2 ^ (128 * (g % 4)))) x

/-- A plain store or write-back reaches its home slice (R127). -/
def State.storeArrives (s : State) (k : Nat) (e : Store) : State :=
  -- Without a route the store is discarded (R411).
  if !s.reaches (hartDie k) (64 * e.sector) then s.uecc (hartRid k) (64 * e.sector) 3 (hartRid k)
  else
  let s := s.seeStore e.by_ e.sector e.own
  s.applySector e.sector e.mask e.data e.cpol e.key (hartRid k) (some k)

/-- Count corrected granules of a core: SPCE (R393). -/
def State.countSpce (s : State) (k n : Nat) : State :=
  if n = 0 then s
  else
    let d := s.dieAt (hartDie k)
    s.setDie (hartDie k) { d with spce := Tab.set 0 d.spce (hartPcore k) (sat32 (Tab.get 0 d.spce (hartPcore k) + n)) }
/-- Correctable errors of dirty L1 granules that satisfy p are corrected and counted (R86, R393). -/
def State.l1Correct (s : State) (k : Nat) (p : Nat → Bool) : State :=
  let h := s.hartAt k
  (s.setHart k { h with l1Corr := h.l1Corr.filter fun g => !p g }).countSpce k (h.l1Corr.filter p).length

/-- The task of a D1 or D2 launch that the core holds, whatever its mode: the dirty bytes of its L1 are that task's (R127). -/
def State.storerOf (s : State) (k : Nat) : Option (Nat × Nat) :=
  ((s.hartAt k).lid).bind fun lid => if ((s.launch? lid).map Launch.detlvl).getD 0 ≠ 0 then some (lid, (s.hartAt k).member) else none

/-- Write back the dirty bytes of an L1 line as one write at the home slice (R80, R350). They are younger than the core's stores in flight and atomics on the
sector, which the caller has seen performed (R107). The line stays, clean. -/
def State.writeBack (s : State) (k line : Nat) : State :=
  match Tab.find (s.hartAt k).l1 line with
  | none => s
  | some l =>
    if l.dirty = 0 then s
    else
      let s := s.l1Correct k fun g => g / 4 = line
      let h := s.hartAt k
      let gs := h.badLine line
      let s := s.setHart k { h with l1 := Tab.put h.l1 line { l with dirty := 0, own := 0 }, l1Bad := h.l1Bad.filter (· / 4 ≠ line), l1Data := h.l1Data || !gs.isEmpty }
      let s := gs.foldl (fun s g => s.log .event 0x11 (srcCore k) [word (16 * g), word (hartRid k % 2 ^ 11 * 2 ^ 16 + 3 * 2 ^ 8 + 1)]) s
      if !s.reaches (hartDie k) (64 * line) then s.uecc (hartRid k) (64 * line) 3 (hartRid k)
      else (s.seeStore (s.storerOf k) line l.own).applySector line l.dirty (zeroGranules gs l.data) 0 l.key (hartRid k) (some k)

/-- Drop an L1 line (its dirty bytes are written back by the caller, or discarded). -/
def State.dropLine (s : State) (k line : Nat) : State :=
  let h := s.hartAt k
  s.setHart k { h with l1 := Tab.del h.l1 line, l1Bad := h.l1Bad.filter (· / 4 ≠ line), l1Corr := h.l1Corr.filter (· / 4 ≠ line) }

/-- A clean line with a parity error is dropped and counted (R86, R393). -/
def State.parity (s : State) (k line : Nat) : State :=
  match Tab.find (s.hartAt k).l1 line with
  | some l =>
    if l.dirty = 0 ∧ !((s.hartAt k).badLine line).isEmpty then
      let d := s.dieAt (hartDie k)
      (s.dropLine k line).setDie (hartDie k) { d with l1par := Tab.put d.l1par (hartPcore k) (sat32 (Tab.get 0 d.l1par (hartPcore k) + 1)) }
    else s
  | none => s

/-- Write back every dirty line of a hart's L1 (R90). -/
def State.writeBackAll (s : State) (k : Nat) : State :=
  ((s.hartAt k).l1.map (·.1)).foldl (fun s line => s.writeBack k line) s
/-- A store in flight of a hart. -/
def State.launchStore (s : State) (k : Nat) (e : Store) : State :=
  let (id, s) := s.fresh
  s.setHart k { s.hartAt k with stq := (s.hartAt k).stq ++ [{ e with id := id }] }
/-- The dirty bytes of a line leave as one write on its way to the home slice (R80, R350); the line stays, clean. -/
def State.flushLine (s : State) (k line : Nat) : State :=
  match Tab.find (s.hartAt k).l1 line with
  | none => s
  | some l =>
    if l.dirty = 0 then s
    else
      let s := s.l1Correct k fun g => g / 4 = line
      let gs := (s.hartAt k).badLine line
      let s := gs.foldl (fun s g => s.log .event 0x11 (srcCore k) [word (16 * g), word (hartRid k % 2 ^ 11 * 2 ^ 16 + 3 * 2 ^ 8 + 1)]) s
      let s := s.launchStore k { id := 0, sector := line, mask := l.dirty, data := zeroGranules gs l.data, cpol := 0, key := l.key, own := l.own, by_ := s.storerOf k,
                                 ready := 0 }
      let h := s.hartAt k
      s.setHart k { h with l1 := Tab.put h.l1 line { l with dirty := 0, own := 0 }, l1Bad := h.l1Bad.filter (· / 4 ≠ line), l1Data := h.l1Data || !gs.isEmpty }
/-- A line gives up its way (R80). -/
def State.evictLine (s : State) (k line : Nat) : State := (s.flushLine k line).dropLine k line
/-- Room for a line in its set: a way without one, else a freely chosen way's line leaves (R80, log 4). -/
def State.l1Room (s : State) (k line : Nat) : State × Nat :=
  let h := s.hartAt k
  let used := (h.l1.filter fun e => l1Set e.1 = l1Set line).map fun e => e.2.bank
  match h.ways.find? fun w => !used.contains w with
  | some w => (s, w)
  | none =>
    let w := h.ways.getD (Config.choice s.nchoice % h.ways.length) 0
    let s : State := { s with nchoice := s.nchoice + 1 }
    match h.l1.find? fun e => l1Set e.1 = l1Set line ∧ e.2.bank = w with
    | some e => (s.evictLine k e.1, w)
    | none => (s, w)

/-- Store bytes into the L1: a miss allocates the line at once (R80); a clean line with a parity error is dropped first (R86). -/
def State.l1Store (s : State) (k line : Nat) (m : BitVec 64) (x : Sector) (key : Nat) : State :=
  let own : BitVec 64 := if (s.hartAt k).mode = .task then m else 0
  let s := s.parity k line
  match Tab.find (s.hartAt k).l1 line with
  | some l =>
    let h := s.hartAt k
    s.setHart k { h with l1 := Tab.put h.l1 line { l with data := mixSector m x l.data, valid := l.valid ||| m, dirty := l.dirty ||| m,
                                                          own := (l.own &&& ~~~ m) ||| own } }
  | none =>
    let (s, w) := s.l1Room k line
    let h := s.hartAt k
    s.setHart k { h with l1 := Tab.put h.l1 line { data := mixSector m x 0, valid := m, dirty := m, own := own, bank := w, key := key } }

/-- Stores in flight of a hart laid over a sector's bytes (R107). -/
def Hart.overlay (h : Hart) (sec : Nat) (x : Sector) : Sector := (h.stq.filter fun e => e.sector = sec).foldl (fun x e => mixSector e.mask e.data x) x

/-- Fill the bytes of a line that no store has written, from the home slice (R80), with the core's own stores in flight in it (R107). The read at the slice
is the caller's (`State.touch`), and no atomic of the core on the sector is on its way. -/
def State.l1FillLine (s : State) (k line key : Nat) : State :=
  let home : Sector := (s.hartAt k).overlay line (BitVec.ofNat 512 (s.numSeen key (64 * line) 64))
  match Tab.find (s.hartAt k).l1 line with
  | some l =>
    let h := s.hartAt k
    s.setHart k { h with l1 := Tab.put h.l1 line { l with data := mixSector l.valid l.data home, valid := BitVec.allOnes 64 } }
  | none =>
    let (s, w) := s.l1Room k line
    let h := s.hartAt k
    s.setHart k { h with l1 := Tab.put h.l1 line { data := home, valid := BitVec.allOnes 64, dirty := 0, own := 0, bank := w, key := key } }

/-- The byte a hart's own load on a page with the given key slot returns: its L1, then its stores in flight, then the home slice (R107, R80). -/
def State.viewByte (s : State) (k key pa : Nat) : Byte :=
  let h := s.hartAt k
  let fromStore (l : List Store) : Option Byte :=
    (l.reverse.find? fun e => e.sector = pa / 64 ∧ e.mask.getLsbD (pa % 64)).map fun e => BitVec.ofNat 8 (e.data.toNat / 256 ^ (pa % 64))
  match Tab.find h.l1 (pa / 64) with
  | some l =>
    if l.valid.getLsbD (pa % 64) then BitVec.ofNat 8 (l.data.toNat / 256 ^ (pa % 64)) else (fromStore h.stq).getD (s.readByte key pa)
  | none => (fromStore h.stq).getD (s.readByte key pa)

/-! ### Landings -/

/-- The value of a load from its bytes (R305–R307). -/
def LoadForm.writes (f : LoadForm) (raw : List Byte) : List Write :=
  let ext (sz : Size) (zx : Bool) (w : Nat) (x : Nat) : Nat :=
    let n := match sz with | .b => 8 | .h => 16 | .w => 32 | .d => 64
    if zx ∨ x / 2 ^ (n - 1) % 2 = 0 then x % 2 ^ n else x % 2 ^ n + (2 ^ w - 2 ^ n)
  let toReg (d : Reg) (x : Word) : List Write := match d with
    | .s n => [.s n x]
    | .hs n => [.hs n x]
    | .m n => [.m n x]
    | _ => []
  match f with
  | .scalar sz zx d => toReg d (word (ext sz zx 64 (numOf raw)))
  | .vec (.v n) => [.v n (BitVec.ofNat 2048 (numOf raw))]
  | .lanes sz zx (.v n) act =>
    [.v n (vreg ((List.range 64).map fun i =>
      if act.getLsbD i then BitVec.ofNat 32 (ext sz zx 32 (numOf ((raw.drop (4 * i)).take 4))) else 0))]
  | .mask d => toReg d (word (numOf raw))
  | _ => []

/-- The bytes of a piece in a hart's view; a DEVICE piece's at its home (R91). -/
def State.pieceBytes (s : State) (k : Nat) (p : Piece) : List Byte :=
  (List.range p.n).map fun i => if p.dev then s.readByte p.key (p.pa + i) else s.viewByte k p.key (p.pa + i)
/-- A value of n bytes from its pieces; bytes that no piece supplies are 0. -/
def assemble (n : Nat) (l : List (Nat × List Byte)) : List Byte := l.foldl (fun v (a, b) => v.take a ++ b ++ v.drop (a + b.length)) (List.replicate n 0)

/-- Bytes of a load's value before extension. -/
def LoadForm.size : LoadForm → Nat
  | .scalar .b _ _ => 1
  | .scalar .h _ _ => 2
  | .scalar .w _ _ => 4
  | .scalar .d _ _ => 8
  | .vec _ => 256
  | .lanes _ _ _ _ => 256
  | .mask _ => 8

/-- A piece is served by the core alone: every byte lies in its L1 or its stores in flight. A DEVICE piece never is (R91). -/
def State.ownPiece (s : State) (k : Nat) (p : Piece) : Bool :=
  let h := s.hartAt k
  !p.dev && (List.range p.n).all fun i =>
    (match Tab.find h.l1 ((p.pa + i) / 64) with
     | some l => l.valid.getLsbD ((p.pa + i) % 64)
     | none => false)
    || h.stq.any fun e => e.sector = (p.pa + i) / 64 ∧ e.mask.getLsbD ((p.pa + i) % 64)

/-- Perform pieces of a load: fills of caches, the bytes, and the DATA detail of the first damaged sector, 2 for one without a route (R87, R394, R411). -/
def State.doPieces (s : State) (k : Nat) (ps : List Piece) : State × List (Nat × List Byte) × Option Nat :=
  let s := ps.foldl (fun s p => (sectorsOf p.pa p.n).foldl (fun s line => if p.dev then (s.parity k line).writeBack k line else s.parity k line) s) s
  let hits (g : Nat) : Bool := ps.any fun p => !p.dev && p.pa < 16 * g + 16 && 16 * g < p.pa + p.n
  let s := s.l1Correct k hits
  let s := ps.foldl (fun s p =>
    if s.ownPiece k p ∨ !s.reaches (hartDie k) p.pa then s
    else
      let s := s.touch p.pa p.n p.cpol p.key (readAgent (hartRid k)) (hartRid k)
      if p.cpol = 0 ∧ !p.dev ∧ (s.hartAt k).hasL1 k ∧ (s.badSector p.pa p.n p.key).isNone
      then (sectorsOf p.pa p.n).foldl (fun s line => if s.ownAtomic k line then s else s.l1FillLine k line p.key) s else s) s
  let bad := ps.findSome? fun p => if s.ownPiece k p then none else if !s.reaches (hartDie k) p.pa then some 2
    else (s.badSector p.pa p.n p.key).map s.dataDetail
  match (s.hartAt k).l1Bad.find? hits with
  | some g => (s.log .event 0x11 (srcCore k) [word (16 * g), word (hartRid k % 2 ^ 11 * 2 ^ 16 + 1)], [], some 1)
  | none => (s, ps.map fun p => (p.at_, s.pieceBytes k p), bad)

/-- Some of the pieces of a load are read (R311); with the last of them its value has arrived. -/
def State.arrivePieces (s : State) (k : Nat) (l : Landing) (now : Piece → Bool) : State × Landing :=
  match l.req, l.got with
  | .load f ps, none =>
    let (s, rd, bad) := s.doPieces k (ps.filter now)
    let left := ps.filter fun p => !now p
    (s, { l with req := .load f left, read := l.read ++ rd, bad := l.bad.or bad,
                 got := if left.isEmpty then some (f.writes (assemble f.size (l.read ++ rd))) else none })
  | _, _ => (s, l)
/-- An entry's value arrives: perform it if it is a load. -/
def State.arriveLoad (s : State) (k : Nat) (l : Landing) : State × Landing := s.arrivePieces k l fun _ => true

/-! ### Accesses in flight, and their order (R107–R110) -/

/-- Two loads have a byte in common that neither has read. -/
def Landing.meets (a b : Landing) : Bool :=
  match a.req, a.got, b.req, b.got with
  | .load _ ps, none, .load _ qs, none => ps.any fun p => qs.any fun q => p.pa < q.pa + q.n && q.pa < p.pa + p.n
  | _, _, _, _ => false
/-- The bytes of a load overlap a sector's mask. -/
def Landing.overlaps (l : Landing) (sector : Nat) (m : BitVec 64) : Bool :=
  match l.req, l.got with
  | .load _ ps, none => ps.any fun p => (List.range p.n).any fun i => (p.pa + i) / 64 = sector ∧ m.getLsbD ((p.pa + i) % 64)
  | _, _ => false
/-- A load with bytes in the sector. -/
def Landing.loads (l : Landing) (sector : Nat) : Bool := l.overlaps sector (BitVec.allOnes 64)

/-- An access of a hart that has been issued and not performed. -/
inductive Acc where
  | load (l : Landing)
  | atomic (m : Msg) (pa : Nat)
  | store (e : Store)
  | maint (m : Maint)
/-- Its number: they rise in program order. -/
def Acc.id : Acc → Nat
  | .load l => l.id
  | .atomic m _ => m.id
  | .store e => e.id
  | .maint m => m.id
def Acc.isMaint : Acc → Bool
  | .maint _ => true
  | _ => false
def Acc.isStore : Acc → Bool
  | .store _ => true
  | _ => false
/-- It touches the sector. -/
def Acc.on (a : Acc) (sec : Nat) : Bool :=
  match a with
  | .load l => l.loads sec
  | .atomic _ pa => pa / 64 = sec
  | .store e => e.sector = sec
  | .maint m => m.sector = sec
/-- The earlier access is performed before the later one: they meet, and the later one is no load that sees an earlier store of its own (R107). -/
def Acc.first (b a : Acc) : Bool :=
  b.id < a.id && match b, a with
    | .load l, .load m => l.meets m
    | .load l, .store e => l.overlaps e.sector e.mask
    | .load l, .atomic _ pa | .atomic _ pa, .load l => l.loads (pa / 64)
    | .atomic _ p, .atomic _ q => p / 64 = q / 64
    | .atomic _ p, .store e | .store e, .atomic _ p => p / 64 = e.sector
    | .store e, .store f => e.sector = f.sector
    | .store _, .load _ => false
    | .maint m, x | x, .maint m => x.on m.sector
/-- Insert in program order. -/
def insertAcc (a : Acc) : List Acc → List Acc
  | [] => [a]
  | b :: t => if a.id < b.id then a :: b :: t else b :: insertAcc a t
/-- The accesses of a hart that are not performed, in program order. -/
def State.accs (s : State) (k : Nat) : List Acc :=
  let h := s.hartAt k
  let loads := h.land.filterMap fun l => match l.req, l.got with | .load _ _, none => some (Acc.load l) | _, _ => none
  let atomics := s.msgs.filterMap fun m => match m.body with
    | .atomic _ pa _ _ _ _ _ => if m.hart = k then some (Acc.atomic m pa) else none
    | _ => none
  (loads ++ atomics ++ h.stq.map Acc.store ++ h.mnts.map Acc.maint).foldl (fun l a => insertAcc a l) []
/-- Maintenance of a sector at its home slice (R325): a dirty one is written to DRAM or second tier, and stays clean, or goes. -/
def State.maintNow (s : State) (m : MaintOp) (sec : Nat) : State :=
  match m with
  | .cln => s.mscClean sec
  | .inv => s.mscDrop sec
  | .clninv => (s.mscClean sec).mscDrop sec
/-- Perform an access. -/
def State.performAcc (s : State) (k : Nat) (a : Acc) : State :=
  match a with
  | .load l => let (s, l) := s.arriveLoad k l; s.setHart k ((s.hartAt k).setEntry l)
  | .atomic m _ => s.atomicNow m
  | .store e => (s.setHart k { s.hartAt k with stq := (s.hartAt k).stq.filter fun x => x.id ≠ e.id }).storeArrives k e
  | .maint m => (s.setHart k { s.hartAt k with mnts := (s.hartAt k).mnts.filter fun x => x.id ≠ m.id }).maintNow m.op m.sector
/-- The accesses that satisfy a condition, with every earlier one that must come before one of them. -/
def withFirst (only : Acc → Bool) : List Acc → List Acc
  | [] => []
  | a :: t =>
    let r := withFirst only t
    if only a || r.any a.first then a :: r else r
/-- Perform accesses of a hart in program order. -/
def State.performSome (s : State) (k : Nat) (only : Acc → Bool) : State := (withFirst only (s.accs k)).foldl (fun s a => s.performAcc k a) s

/-- A request in the entry acquires where it answers with a tuple or a halt (R110). -/
def Landing.acquires (l : Landing) : Bool :=
  match l.req with
  | .tuple _ _ | .nmStat _ => l.got.isNone
  | _ => false
/-- An acquire of the hart that was issued before access number id is not complete: the access is not performed yet (R110). -/
def State.acqBefore (s : State) (k id : Nat) : Bool :=
  ((s.hartAt k).land.any fun l => l.id < id && l.acquires)
    || s.msgs.any fun m => m.hart = k && m.id < id && (match m.body with | .atomic _ _ _ _ _ a _ => a.isSome | _ => false)

/-- A piece of a load can be served now: by the core alone, or at its slice, where no bank engine holds the channel (R200) and the calendar's slot is not
another's (R129); a D2 task's after the declared latency of its slots (R130). -/
def State.pieceFree (s : State) (k : Nat) (l : Landing) (p : Piece) : Bool :=
  l.slots.isEmpty && l.ready ≤ s.time && (s.ownPiece k p || (!s.deferred p.pa p.n && (l.ready ≠ 0 || s.mayUse k false p.pa)))
/-- Maintenance of a sector has to wait for a bank engine: it writes to DRAM of the engine's channel (R200). -/
def State.maintWaits (s : State) (m : Maint) : Bool :=
  s.runs (64 * m.sector) && m.op ≠ .inv && match Tab.find s.msc m.sector with | some e => e.dirty | none => false
/-- An access can be served now, as far as bank engines and calendars are concerned. -/
def State.accFree (s : State) (k : Nat) (a : Acc) : Bool :=
  match a with
  | .load l => match l.req with | .load _ ps => ps.all (s.pieceFree k l) | _ => true
  | .atomic m pa => !s.deferred pa 1 && match (s.hartAt k).entry m.landing with
    | some l => l.slots.isEmpty && l.ready ≤ s.time && (l.ready ≠ 0 || s.mayUse k false pa)
    | none => if s.d2Core k ∧ calendared pa then m.ready ≠ 0 && m.ready ≤ s.time else s.mayUse k false pa
  | .store e => !s.deferred (64 * e.sector) 64 &&
    (if s.d2Core k ∧ calendared (64 * e.sector) then e.ready ≠ 0 && e.ready ≤ s.time else s.mayUse k false (64 * e.sector))
  | .maint m => !s.maintWaits m
/-- An access may be performed now. -/
def State.accMay (s : State) (k : Nat) (a : Acc) : Bool := (match a with | .atomic m _ => s.msgMay m | _ => true) && !s.acqBefore k a.id && s.accFree k a && !(s.accs k).any fun b => b.first a
/-- The accesses that satisfy a condition, with those before them, cannot all be performed now. -/
def State.accsHeld (s : State) (k : Nat) (only : Acc → Bool) : Bool := (withFirst only (s.accs k)).any fun a => s.acqBefore k a.id || !s.accFree k a

/-- A store that does not go through the L1 reaches a sector that the L1 holds: its dirty bytes leave first, and the line takes the new bytes, so that the
core sees its own accesses in order (R107). -/
def State.l1Patch (s : State) (k sec : Nat) (m : BitVec 64) (x : Sector) : State :=
  let s := (s.flushLine k sec).parity k sec
  match Tab.find (s.hartAt k).l1 sec with
  | some l =>
    let h := s.hartAt k
    s.setHart k { h with l1 := Tab.put h.l1 sec { l with data := mixSector m x l.data, valid := l.valid ||| m } }
  | none => s

/-- A plain store cannot issue yet: an earlier load of its bytes, or for a DEVICE store an earlier access to its sectors, has to be performed first and cannot
be now. -/
def State.storeHeld (s : State) (k pa n : Nat) (device : Bool) : Bool :=
  (sectorsOf pa n).any fun sec =>
    let (m, _) := placeIn pa (List.replicate n 0) sec
    s.accsHeld k (fun a => match a with | .load l => l.overlaps sec m | b => device && b.on sec)
      || device && (s.deferred (64 * sec) 64 || !s.mayUse k false (64 * sec))

/-- A G-space plain store of a hart (R107, R80, R127): into the L1 on a CPOL 0 page of a core with L1 ways, else in flight to its home slice.
Earlier loads of the same bytes are performed first. DEVICE accesses are performed at once, in program order (R91). -/
def State.plainStore (s : State) (k pa : Nat) (data : List Byte) (cpol key : Nat) (device : Bool) : State :=
  (sectorsOf pa data.length).foldl (fun s sec =>
    let (m, x) := placeIn pa data sec
    let s := s.performSome k fun a => match a with | .load l => l.overlaps sec m | b => device && b.on sec
    let e : Store := { id := 0, sector := sec, mask := m, data := x, cpol := cpol, key := key, own := m, by_ := s.storer k, ready := 0 }
    if device then
      let s := s.l1Patch k sec m x
      (s.performSome k fun a => a.on sec).storeArrives k e
    else if cpol = 0 ∧ (s.hartAt k).hasL1 k then s.l1Store k sec m x key
    else
      (s.l1Patch k sec m x).launchStore k e) s

end Sys2Proof.Machine
end

