-- ==== Sys2Proof/Machine/Ops.lean ====
section
/-! DEFINITION. The shared operations above the accesses: releases and acquires (06 R105–R110), barriers' updates (09 R177), launches, and taking an
exception and returning from it (20 R353–R366, 08 R160, R161). -/

namespace Sys2Proof.Machine

/-! ### Scopes, releases and acquires -/

/-- The L1 of a hart holds dirty bytes of a sector. -/
def Hart.dirtyAt (h : Hart) (sec : Nat) : Bool :=
  match Tab.find h.l1 sec with
  | some l => l.dirty ≠ 0
  | none => false
/-- The accesses that a release performs (R109): its loads and atomics, with cluster scope and wider its stores, and maintenance of a line that is to be
written back, which comes before the bytes stored after it. -/
def State.relAcc (s : State) (k : Nat) (wide : Bool) (a : Acc) : Bool :=
  match a with
  | .store _ => wide
  | .maint m => wide && (s.hartAt k).dirtyAt m.sector
  | _ => true

/-- Release of a hart (R109): its loads, atomics and stores are performed, dirty L1 lines written back for cluster scope and wider (R90). All are
performed for every agent at once: the module scope's strength serves the narrower ones (log 7). A sequenced atomic is received by its slice (R126). The
dirty bytes of a line that a fill has pushed out go with them. -/
def State.release (s : State) (k : Nat) (wide : Bool) : State :=
  let s := s.performSome k (s.relAcc k wide)
  if wide then (s.performSome k Acc.isStore).writeBackAll k else s

/-- Dirty L1 lines of a hart cannot all be written back now: a bank engine holds a channel (R200), the calendar's slot is another's (R129), an acquire is not
complete (R110); a D2 task's leave as stores of their own (R130). -/
def State.linesHeld (s : State) (k : Nat) : Bool :=
  (s.hartAt k).l1.any fun e => e.2.dirty ≠ 0 && (s.deferred (64 * e.1) 64 || (s.d2Core k && calendared (64 * e.1)) || !s.mayUse k false (64 * e.1)
    || s.acqBefore k (s.nextId + 1))
/-- A release of a hart waits: an access it performs cannot be served at this module time (R129, R130, R200; log 7). -/
def State.relHeld (s : State) (k : Nat) (wide : Bool) : Bool := s.accsHeld k (s.relAcc k wide) || wide && s.linesHeld k

/-- What a damaged sector met by a write-back or by an atomic without a destination register owes: DATA (R86, R394), with its FPC, for the task or for the
handler that issued the atomic. -/
def Hart.owed (h : Hart) : Option (Nat × Word × Bool) := if h.l1Data then some (1, h.pc, true) else h.atomData

/-- What a bundle has read at its first issue, while it waits or goes on (R37, R234). -/
def Hart.source (h : Hart) : Option Waiting := match h.waiting with | some w => some w | none => h.going.map (·.src)

/-! ### Barriers -/

/-- A barrier right after BAR.ALLOC (R176). -/
def Barrier.fresh : Barrier :=
  { expb := 0, arrb := 0, expa := 0, arra := 0, phase := false, refcnt := 1, infl := 0, deadline := BitVec.allOnes 64, cmask := 0, flags := 0,
    lbytes := 0, lmask := 0, lflags := 0 }
def sat48 (n : Nat) : Nat := min n (2 ^ 48 - 1)
def sat16 (n : Nat) : Nat := min n (2 ^ 16 - 1)

/-- complete(b, partial) (R177). -/
def Barrier.complete (b : Barrier) (partly : Bool) : Barrier :=
  let f := b.flags ||| (if b.arrb > b.expb ∨ b.arra > b.expa then 4 else 0) ||| (if partly then 8 else 0)
  { b with lbytes := b.arrb, lmask := b.cmask, lflags := f, arrb := 0, arra := 0, cmask := 0, flags := 0, phase := !b.phase,
           deadline := BitVec.allOnes 64 }

/-- barrier_update (R177). -/
def Barrier.update (b : Barrier) (bytes arrivals : Nat) (contributor : Option Nat) (flags : BitVec 4) : Barrier :=
  let b := { b with arrb := sat48 (b.arrb + bytes), arra := sat16 (b.arra + arrivals), flags := b.flags ||| flags,
                    cmask := match contributor with | some c => b.cmask ||| word (2 ^ (c % 64)) | none => b.cmask }
  if b.arrb ≥ b.expb ∧ b.arra ≥ b.expa then b.complete false else b

def Hart.bar (h : Hart) (i : Nat) : Option Barrier := Tab.find h.bars i
def Hart.setBar (h : Hart) (i : Nat) (b : Barrier) : Hart :=
  { h with bars := if b.refcnt = 0 then Tab.del h.bars i else Tab.put h.bars i b }

/-! ### Launches -/

/-- Fields of the accepted record (R371). -/
def Launch.mode (l : Launch) : Nat := wf (l.w 5) 0 1
def Launch.fixed (l : Launch) : Bool := l.mode = 1
def Launch.vcode (l : Launch) : Nat := wf (l.w 5) 10 2
def Launch.ztiles (l : Launch) : Nat := wf (l.w 5) 12 3
def Launch.scratch (l : Launch) : Nat := wf (l.w 5) 15 5
def Launch.part (l : Launch) : Nat := wf (l.w 5) 20 3
def Launch.barriers (l : Launch) : Nat := wf (l.w 5) 32 11
def Launch.gx (l : Launch) : Nat := wf (l.w 6) 0 12 + 1
def Launch.gy (l : Launch) : Nat := wf (l.w 6) 16 12 + 1
def Launch.gz (l : Launch) : Nat := wf (l.w 6) 32 12 + 1
def Launch.nlcore (l : Launch) : Nat := if l.fixed then l.gx * l.gy * l.gz else 0
def Launch.count (l : Launch) : Nat := if l.fixed then l.nlcore else wf (l.w 6) 0 48
def Launch.diemask (l : Launch) : Nat := wf (l.w 7) 0 8
def Launch.maxcores (l : Launch) : Nat := wf (l.w 7) 8 7 + 1
def Launch.groupCount (l : Launch) : Nat := wf (l.w 9) 0 9
def Launch.ltfirst (l : Launch) : Nat := wf (l.w 9) 16 16
def Launch.ltcount (l : Launch) : Nat := wf (l.w 9) 32 17
/-- Members of a group (R34). -/
def Launch.inGroup (l : Launch) (g lc : Nat) : Bool := (l.groups.getD g 0).getLsbD lc
def Launch.groupMembers (l : Launch) (g : Nat) : List Nat := (List.range l.nlcore).filter fun lc => l.inGroup g lc
def State.h_launch (s : State) : Option Launch := s.h.lid.bind s.launch?

/-- The bind record of a core in its die's slot table (R376). -/
def bindPa (k : Nat) : Nat := ctlBase (hartDie k) + offSlotTable + 64 * hartPcore k
/-- STATE of a bind record (R376). -/
def State.setBindState (s : State) (k st : Nat) : State :=
  let w := s.ctlNum (bindPa k) 8
  s.setCtl (bindPa k) 8 (w - fld w 4 4 * 16 + st * 16)
def State.bindState (s : State) (k : Nat) : Nat := fld (s.ctlNum (bindPa k) 8) 4 4
/-- A switch request is pending: SWITCH of the bind record (R376), shown in CCTL.SWREQ (R357). -/
def State.switchReq (s : State) (k : Nat) : Bool := (s.hartAt k).cctl.getLsbD 3

/-! ### Taking an exception and returning -/

/-- Running cycles until every fixed-latency result is written and every exact landing has landed (R362 step 2). -/
def Hart.settleTime (h : Hart) : Nat :=
  (h.pend.map fun e => e.due - h.cyc).foldl max 0 |> fun a => (h.land.map fun l => match l.due with | some d => d - h.cyc | none => 0).foldl max a

/-- FCAUSE (R360). -/
def fcauseOf (c : Cause) (slot : Nat) (fetch : Bool) : Word :=
  word ((if c.code = cDATA then 0 else 2 ^ 28) + (if fetch then 2 ^ 27 else 0) + slot * 2 ^ 24 + c.detail % 2 ^ 16 * 256 + c.code)

/-- Number of a slot in FCAUSE (R360). -/
def slotNum : SlotName → Nat
  | .s => 0 | .v0 => 1 | .v1 => 2 | .m => 3 | .l => 4 | .w => 5 | .c => 6 | .y => 7

/-- Results under land=any, or held replies, are outstanding (R361). -/
def Hart.heldBit (h : Hart) : Nat := if h.land.any fun l => l.due.isNone then 8 else 0
/-- ESTAT at entry (R361): the STALL remainder, the wait kind in which the bundle at the PC stands, whether landings or held replies are outstanding, and the
kind of entry. -/
def estatOf (h : Hart) (rem entry : Nat) : Word :=
  word (rem * 2 ^ 16 + (match h.waiting with | some w => w.kind | none => h.heldKind) % 16 * 16 + h.heldBit + entry)

/-- The fault record (R362 step 3) of a hart for a fault or trap of the bundle at the PC. -/
def Hart.record (h : Hart) (c : Cause) (slot : Nat) (fetch : Bool) (addr : Word) : Hart :=
  let trap := c.code = cTRAP ∨ c.code = cBRK
  { h with fcause := fcauseOf c slot fetch, faddr := addr, fpc := h.pc, epc := if trap then h.pc + 64 else if c.code = cDATA then 0 else h.pc,
           estat := estatOf h (if trap then h.hdr else 0) 0 }

/-- Enter handler mode at vector n (R362 step 4). The first handler bundle issues after the task's fixed-latency results and exact landings. -/
def Hart.enter (h : Hart) (n : Nat) : Hart :=
  { h with mode := .handler, pc := h.hbase + word (64 * n), npc := h.hbase + word (64 * n), stall := h.settleTime, waiting := none, going := none, wExp := false, heldKind := 0, fetched := none,
           entering := true }
/-- The first handler bundle issues after the wait of R362 step 2: ESTAT.HELD shows what is outstanding then. -/
def Hart.entered (h : Hart) : Hart :=
  if h.entering then { h with entering := false, estat := (h.estat &&& ~~~ 8) ||| word h.heldBit } else h

/-- The handler receives this cause (R357, R363). -/
def Hart.delegated (h : Hart) (c : Cause) : Bool :=
  c.code ≠ cDATA && c.code ≠ 0 && c.code < 20 && h.cctl.getLsbD (32 + c.code)

/-- The default policy for a fault that stops a task (R428 steps 1 and 2): the launch is ending. -/
def State.beginEnd (s : State) (lid : Nat) (culprit : Word) : State :=
  match s.launch? lid with
  | none => s
  | some l =>
    if l.phase = .running then
      s.setLaunch lid { l with phase := .ending, culprit := culprit,
                               members := l.members.map fun (m, p) => (m, match p with | .saved _ _ => .dropped | q => q) }
    else s

/-- Stop a task at a fault no handler receives (R363): TASKFAULT, STATE 5, and the launch's end begins (R428). The record stands already. A parked tuple
request of a bundle that DATA abandons stays parked and may still take a tuple: R141 does not list this way of leaving the table, the model's choice
(log 30). -/
def State.taskStop (s : State) (k : Nat) : State :=
  let h := s.hartAt k
  let s := s.setHart k { h with mode := .stopped, waiting := none, going := none, wExp := false, heldKind := 0 }
  let lid := h.lid.getD 0
  let s := s.log .event 0x01 (srcCore k) [h.fcause, h.faddr, h.fpc, word (lid % 2 ^ 32 + h.lcore.toNat % 2 ^ 32 * 2 ^ 32)]
  let s := s.setBindState k 5
  match h.lid with
  | none => s
  | some lid =>
    let s := match s.launch? lid with
      | some l => s.setLaunch lid (l.setPlace h.member (.stopped k))
      | none => s
    s.beginEnd lid (if h.lcore = BitVec.allOnes 64 then h.task else h.lcore)

/-- A handler fault (R355): HFAULT with the saved record and the new one, whose FPC is the bundle that faulted or, for DATA, that issued the request; the
core stops and the task does not resume. -/
def State.handlerFault (s : State) (c : Cause) (slot : Nat) (fetch : Bool) (addr fpc : Word) : State :=
  let h := s.h
  let s := s.onH fun h => { h with mode := .stopped, waiting := none, going := none, wExp := false, heldKind := 0, invMark := 0 }
  let s := s.log .event 0x02 (srcCore s.cur) [h.fcause, h.fpc, fcauseOf c slot fetch, fpc, addr]
  let s := s.setBindState s.cur 5
  match h.lid with
  | none => s
  | some lid =>
    let s := match s.launch? lid with
      | some l => s.setLaunch lid (l.setPlace h.member (.stopped s.cur))
      | none => s
    s.beginEnd lid (if h.lcore = BitVec.allOnes 64 then h.task else h.lcore)

def State.execAt (s : State) (e : Nat) : Executor := Tab.get Executor.reset s.execs e
def State.setExec (s : State) (e : Nat) (x : Executor) : State := { s with execs := Tab.put s.execs e x }

/-- A message leaves an agent. -/
def State.send (s : State) (m : Msg) : State :=
  let (id, s) := s.fresh
  { s with msgs := s.msgs ++ [{ m with id := id, time := s.time }] }

/-- The end of a call (R158–R161, R164, R165): its reply is sent and recorded, or logged for an RPOST; with 1,024 records held the context keeps the
call and the reply waits. -/
def State.callSend (s : State) (e : Nat) (c : Call) (w : List Word) : State :=
  let s := if c.post then
      (if w.headD 0 = 0 then s
       else s.log .event 0x32 (srcSlice e) [w.getD 1 0, w.getD 2 0, w.getD 3 0, word (c.caller % 2 ^ 11 + c.seq * 2 ^ 16)])
    else s.send { id := 0, hart := c.hart, landing := 0, rid := 512 + e, lid := c.lid, member := c.member, home := 0, time := 0, body := .reply c w false }
  let x := s.execAt e
  s.setExec e { x with records := x.records ++ [{ call := c, reply := if c.post then none else some w }] }
/-- A request of the TS family. -/
def Msg.isTs (m : Msg) : Bool :=
  match m.body with
  | .ts _ _ _ _ _ => true
  | _ => false
/-- A request of the TS family that may take or read a tuple: every one but a deposit. -/
def Msg.asks (m : Msg) : Bool :=
  match m.body with
  | .ts .dep _ _ _ _ => false
  | .ts _ _ _ _ _ => true
  | _ => false
/-- A blocking request of the TS family. -/
def Msg.blocks (m : Msg) : Bool :=
  match m.body with
  | .ts .rd _ _ _ _ | .ts .take _ _ _ _ => true
  | _ => false
/-- Remove the parked requests of a hart (R145, R146). -/
def Slice.unpark (x : Slice) (k : Nat) : Slice := { x with parked := x.parked.filter fun m => m.hart ≠ k }
/-- The end of a context's call: its requests, parked or on their way, are removed, so that no tuple is taken on its behalf afterwards (R146); deposits that
have been issued complete. -/
def State.endCall (s : State) (k : Nat) (w : List Word) : State :=
  let h := s.hartAt k
  let e := (k - 512) / 16
  match h.call with
  | none => s
  | some c =>
    let s := { s with msgs := s.msgs.filter (fun m => !(m.hart = k && m.asks)),
                      slices := s.slices.map fun z : Nat × Slice => (z.1, z.2.unpark k) }
    let x : Executor := s.execAt e
    if x.records.length ≥ 1024 then
      State.setExec (s.setHart k { h with mode := .stopped, land := [], pend := [], waiting := none }) e
        { x with ended := x.ended ++ [(k, { call := c, reply := some w })] }
    else (s.callSend e c w).setHart k Hart.reset

/-- What the walk for an address of hart k leaves behind at the slices (R204, R387, R393): nothing where a TLB holds the translation. -/
def State.walkOn (s : State) (k : Nat) (addr : Word) : State :=
  let h := s.hartAt k
  let va := addr.toNat % 2 ^ 57
  if h.mode = .handler ∨ !canonical addr ∨ s.cached (hartDie k) k (wf h.asid 0 16) va ≠ [] then s else s.walked (hartDie k) (hartRid k) h.ptroot va
/-- The walks for the addresses of an access. -/
def State.walksOn (s : State) (k : Nat) (l : List Word) : State := l.foldl (fun s a => s.walkOn k a) s
/-- The fault names an address that was translated. -/
def Cause.walked (c : Cause) : Bool := c.code = cXLATE || c.code = cPROT || c.code = cFEAT || c.code = cCPPROBE

/-- UECC for a damaged granule of a scratchpad that a load reads at issue (R86, R394, R398), or for a sector of a save area: the address names it. -/
def State.granuleUecc (s : State) (c : Cause) (fetch : Bool) (addr : Word) : State :=
  if c.code = cDATA ∧ c.detail ≠ 1 ∧ !fetch then s.uecc (srcSlice (sliceOf addr.toNat)) addr.toNat 0 s.rid
  else if c.code = cDATA ∧ !fetch then s.log .event 0x11 (srcCore s.cur) [word (addr.toNat % 2 ^ 21 / 16 * 16), word (s.rid % 2 ^ 11 * 2 ^ 16)] else s

/-- Taking a fault or trap (R355, R362, R363, R160): in task mode the handler if the cause is delegated, else the task stops; in handler mode a
handler fault; in remote code the call ends with FAULT. `rdetail` is the detail of R161. -/
def State.takeFault (s : State) (c : Cause) (slot : Nat) (fetch : Bool) (addr : Word) (rdetail : Nat) : State :=
  let s := (if c.walked then s.walkOn s.cur addr else s).granuleUecc c fetch addr
  match s.h.mode with
  | .handler => s.handlerFault c slot fetch addr s.h.pc
  | .remote => (s.release s.cur true).endCall s.cur [1, word (c.code + rdetail * 256), addr, s.h.pc]
  | _ =>
    let s := s.onH fun h => h.record c slot fetch addr
    if s.h.delegated c then s.onH fun h => h.enter c.code else s.taskStop s.cur

/-- DATA of a core (R363): imprecise, never delegated; FPC is the bundle that issued the request, EPC 0. `slot` is the slot of the request. -/
def State.takeData (s : State) (k detail slot : Nat) (pc : Word) : State :=
  let h := s.hartAt k
  let c : Cause := { code := cDATA, detail := detail }
  if h.mode = .handler then
    let t := State.handlerFault { s with cur := k } c slot false 0 pc
    { t with cur := s.cur }
  else if h.mode = .remote then (s.release k true).endCall k [1, word cDATA, 0, pc]
  else (s.setHart k { h with fcause := fcauseOf c slot false, faddr := 0, fpc := pc, epc := 0, estat := estatOf h 0 0 }).taskStop k

/-- Take the DATA that a hart owes; the task's own stops it in whatever mode the core is (R363). -/
def State.takeOwed (s : State) (k : Nat) : State :=
  let h := s.hartAt k
  match h.owed with
  | none => s
  | some (d, pc, byTask) =>
    (s.setHart k { h with l1Data := false, atomData := none, mode := if h.mode = .handler ∧ byTask then .task else h.mode }).takeData k d (if h.l1Data then 4 else 5) pc

/-- ERET (R366): the RETAIN banks turn ON, the core returns to task mode at EPC after the STALL remainder, not before START of the bind record. Windows
that a switch found open are armed again for LATCHK (R39). A task that goes on without having been saved runs again (R376). -/
def State.eretTask (s : State) : State :=
  let on (x : Nat) (i : Nat) : Nat := if fld x (2 * i) 2 = 2 then x - 2 ^ (2 * i) else x
  let s := if s.bindState s.cur = 2 then s.setBindState s.cur 1 else s
  s.onH fun h => { h with rbanks := word ((List.range 8).foldl on h.rbanks.toNat), mode := .task, npc := h.epc,
                          hdr := wf h.estat 16 5, wins := h.shut.map (fun x => (x.1, h.cyc + 1 + x.2)), shut := [] }

/-! ### Outcomes of a slot -/

/-- What a meaning answers: its next state, a hold before issue (kind 0 for a structural stall), a wait with what the first issue has done, a fault,
or a remote-illegal instruction (R161 details 1–4). -/
inductive Res where
  | ok (s : State)
  | hold (k : Nat)
  | wait (k : Nat) (s : State)
  | exc (c : Cause) (addr : Word)
  | rill (detail : Nat)
  | idle
  deriving DecidableEq, Repr

/-- A fault taken, and what it was (R234). -/
def State.fault (s : State) (c : Cause) (addr : Word) (rd : Nat) : State :=
  (s.takeFault c (slotNum s.h.slot) false addr rd).onH fun h => { h with sig := some (.faulted c.code c.detail (slotNum s.h.slot) addr rd) }

/-- Cause code of a translation that has to wait for a bank engine (R200): no fault, but a structural stall. -/
def cWAIT : Nat := 0
/-- A slot's outcome as a state: a hold leaves the state but for its mark, a fault is taken. -/
def finish (s : State) : Res → Host.Outcome State Fault Refusal
  | .ok t => .next t
  | .hold k => .next (s.onH fun h => { h with sig := some (.held k) })
  | .wait k t => .next (t.onH fun h => { h with sig := some (.waiting k) })
  | .exc c addr => .next (if c.code = cWAIT then s.onH fun h => { h with sig := some (.held 0) } else s.fault c addr 0)
  | .rill d => .next (s.fault { code := cILLEGAL, detail := 0 } 0 d)
  | .idle => .fault .notIssuing

end Sys2Proof.Machine
end

