-- ==== Sys2Proof/Machine/Operands.lean ====
section
/-! DEFINITION. Operands: the registers an instruction reads (12 R226, R234), the checks every slot makes before its own (R96, R156, R238, R354, R235),
and the operand forms: immediates and literals (R229), vector and broadcast sources (R271), memory operands (05 R74–R77, 15 R304) and barrier
indexes (16 R334). -/

namespace Sys2Proof.Machine

/-- The mask register of a V-slot instruction as a source (R272). -/
def srcMask (n : Nat) : List (DestKind × Nat) := if n = 0 then [] else [(.m, n)]
/-- The second vector source (R271). -/
def srcVB : VB → List (DestKind × Nat)
  | .vec b => [(.v, b)]
  | .scl b => [(.s, b)]
/-- Base and index of a memory operand (R227). -/
def srcMem (m : Mem) : List (DestKind × Nat) := [(.s, m.base), (.s, m.idx)]
/-- A barrier index in a register (R334). -/
def srcIx : BarIx → List (DestKind × Nat)
  | .imm _ => []
  | .reg b => [(.s, b)]

/-- The registers an instruction reads as sources, by their logical numbers (R234). -/
def srcs (i : Instr) : List (DestKind × Nat) :=
  let s (n : Nat) : DestKind × Nat := (.s, n)
  let p (n : Nat) : DestKind × Nat := (.p, n)
  let v (n : Nat) : DestKind × Nat := (.v, n)
  let m (n : Nat) : DestKind × Nat := (.m, n)
  match i with
  | .add _ a b | .sub _ a b | .mul _ a b | .mulh _ a b | .mulhu _ a b | .div _ a b | .divu _ a b | .rem _ a b | .remu _ a b
  | .and _ a b | .or _ a b | .xor _ a b | .andn _ a b | .shl _ a b | .shr _ a b | .sar _ a b | .rotl _ a b | .min _ a b
  | .max _ a b | .minu _ a b | .maxu _ a b | .bfx _ _ a b | .cmp _ _ a b => [s a, s b]
  | .addI _ a _ | .subI _ a _ | .mulI _ a _ | .mulhI _ a _ | .mulhuI _ a _ | .divI _ a _ | .divuI _ a _ | .remI _ a _ | .remuI _ a _
  | .andI _ a _ | .orI _ a _ | .xorI _ a _ | .andnI _ a _ | .shlI _ a _ | .shrI _ a _ | .sarI _ a _ | .rotlI _ a _ | .minI _ a _
  | .maxI _ a _ | .minuI _ a _ | .maxuI _ a _
  | .clz _ a | .ctz _ a | .popc _ a | .sext _ _ a | .zext _ _ a | .movpSp _ a | .wsr _ a | .callr _ a | .csrw _ a | .tlbPrb _ a
  | .ctxSv a | .ctxLd a | .tlbInvAsid a | .mset _ a => [s a]
  | .bfi _ a b c => [s a, s b, s c]
  | .sel _ pc a b => [p pc, s a, s b]
  | .plog _ _ a b => [p a, p b]
  | .movpPs _ a => [p a]
  | .movpAll _ => (List.range 16).map p
  | .lih d _ => [s d]
  | .br _ c _ | .loopSet c _ => [s c]
  | .ret => [s 31]
  | .rbase (.reg a) => [s a]
  | .tlbInvVa a b => [s a, s b]
  | .vfadd _ _ a b k | .vfsub _ _ a b k | .vfmul _ _ a b k | .vfscl _ _ a b k | .vfmin _ a b k | .vfmax _ a b k | .vadd _ _ a b k
  | .vsub _ _ a b k | .vmul _ a b k | .vmulh _ _ a b k | .vand _ a b k | .vor _ a b k | .vxor _ a b k | .vshl _ a b k | .vshr _ a b k
  | .vsar _ a b k | .vmin _ _ a b k | .vmax _ _ a b k | .vperm _ a b k | .vfcmp _ _ a b k | .vcmp _ _ a b k =>
      v a :: srcVB b ++ srcMask k
  | .vfma _ _ a b c k | .vfms _ _ a b c k | .vfnma _ _ a b c k => v a :: v c :: srcVB b ++ srcMask k
  | .vsel _ a b c k => v a :: m c :: srcVB b ++ srcMask k
  | .vfabs _ a k | .vfneg _ a k | .vfrcp _ _ a k | .vfrsq _ _ a k | .vfexp2 _ _ a k | .vflog2 _ _ a k | .vfsqrt _ _ a k | .vabs _ _ a k
  | .vpopc _ a k | .vdqmx _ _ _ a k | .vred _ _ a k | .vscan _ _ a k | .vcomp _ a k | .vcvt _ _ _ _ a k | .vqmx _ _ a none k
  | .vunpk _ _ _ _ a k => v a :: srcMask k
  | .vqmx _ _ a (some b) k => v a :: srcVB b ++ srcMask k
  | .vpack _ _ a b k => v a :: v b :: srcMask k
  | .vshuf pat _ a b k => if pat = .rev then v a :: srcMask k else v a :: v b :: srcMask k
  | .vbcast _ (.lane a _) k => v a :: srcMask k
  | .vbcast _ (.scalar b) k => s b :: srcMask k
  | .vins _ d a _ => [v d, s a]
  | .vext _ _ a _ => [v a]
  | .viota _ k => srcMask k
  | .vhad _ _ a => [v a]
  | .vrng _ _ a b key k => v a :: s key :: srcVB b ++ srcMask k
  | .mlog _ _ a b => [m a, m b]
  | .mpopc _ a | .mfirst _ a | .mget _ a => [m a]
  | .mma _ a b c _ | .mbin _ _ a b c | .mqnt _ a b c _ => [s a, s b, s c]
  | .mmaG _ a b c e _ => [s a, s b, s c, v e]
  | .mloadz _ _ a => [s a]
  | .mdrain _ _ a b _ => [s a, s b]
  | .mcfg _ a => (List.range 5).map fun k => s (a + k)
  | .ld _ _ _ _ _ _ x _ | .ldv _ _ _ _ x _ | .ldm _ _ _ _ x _ | .ldvS _ _ _ _ _ _ x _ | .pref x => srcMem x
  | .ldvX _ _ _ _ _ _ x _ => [s x.base, v x.idx]
  | .st _ _ _ d x => s d :: srcMem x
  | .stv _ _ d x | .stvS _ _ _ d x => v d :: srcMem x
  | .stvX _ _ _ d x => [v d, s x.base, v x.idx]
  | .stm _ _ d x => m d :: srcMem x
  | .amo _ _ _ x _ | .amof _ _ x => srcMem x
  | .cas _ d x _ | .amofSeq _ _ d x | .amofSeqSkip _ _ d x | .setfe _ _ d x => s d :: srcMem x
  | .cp _ o c _ | .cpPk _ _ o c _ | .netPut _ _ o c _ | .netGet _ o c _ | .cpMc o c _ | .cpX _ _ o c _ | .cpUn _ o c _ =>
      match i with
      | .cp .. | .cpPk .. => [v o, s c]
      | .netPut _ _ _ _ x | .netGet _ _ _ x | .cpMc _ _ x | .cpX _ _ _ _ x | .cpUn _ _ _ x => [v o, s c, s x]
      | _ => []
  | .cpStamp a b | .cln a b | .inv a b | .clninv a b => [s a, s b]
  | .lrecPut r x => [v r, s x]
  | .lrecGet _ x => [s x]
  | .tsDep _ t hd => [v t, s hd]
  | .tsRd _ t hd mode dl | .tsTake _ t hd mode dl => [v t, s hd, s mode, s dl]
  | .tsRdp _ t hd mode _ | .tsTakep _ t hd mode _ => [v t, s hd, s mode]
  | .tsCnt _ _ hd mode t _ => [v t, s hd, s mode]
  | .rcall _ _ n _ t e f | .rpost _ n _ t e f => [s t, s e] ++ (if n ≤ 8 ∧ f + n ≤ 32 then (List.range n).map fun k => s (f + k) else [])
  | .rret a b c => [s a, s b, s c]
  | .nmLoad _ e x | .nmGo _ e x => [s e, s x]
  | .nmStop e | .nmStat _ e => [s e]
  | .barAllocAt _ _ x | .barFree x | .barRef x | .barInfo _ x _ => srcIx x
  | .barInit _ a x | .barExpect _ a x => [s a, s (a + 1), s (a + 2)] ++ srcIx x
  | .barArrive a x | .barWait a x | .barTest _ a x => s a :: srcIx x
  | .gbar _ a _ | .monArm a | .monWait _ a => [s a]
  | _ => []

/-- In remote code the vector-register field of a TS instruction names scalar registers: nine from sv for the tuple and the status (R157). -/
def remoteRegs (l : List (DestKind × Nat)) (n : Nat) : List (DestKind × Nat) :=
  l.flatMap fun (k, r) => if k = .v then (List.range n).map fun j => (.s, r + j) else [(k, r)]

/-- Every register the instruction reads or writes on this hart (R96, R238). -/
def Hart.uses (h : Hart) (i : Instr) : List (DestKind × Nat) :=
  if h.mode = .remote then remoteRegs (srcs i) 8 ++ remoteRegs i.dests 9 else srcs i ++ i.dests

/-- The physical register behind a logical name (R235). -/
def Hart.phys (h : Hart) : DestKind × Nat → Reg
  | (.s, n) => h.regS n
  | (.p, n) => h.regP n
  | (.v, n) => h.regV n
  | (.m, n) => h.regM n

/-- Accumulator tiles an instruction names (R226). -/
def tiles : Instr → List Nat
  | .mma z _ _ _ _ | .mmaG z _ _ _ _ _ | .mbin _ z _ _ _ | .mzero z | .mloadz _ z _ | .mdrain _ z _ _ _ => [z]
  | _ => []

/-- Power state of a vector bank or tile (R364): 0 OFF, 1 ON, 2 RETAIN. -/
def Hart.vbank (h : Hart) (n : Nat) : Nat := wf h.rbanks (2 * (n / 16)) 2
def Hart.zbank (h : Hart) (n : Nat) : Nat := wf h.rbanks (8 + 2 * n) 2

/-- REGOFF of a slot (R20, R235, R364): detail 1 beyond the declaration, 2 a declared bank that is not ON. -/
def Hart.regoff (h : Hart) (i : Instr) : Option Cause :=
  let vs := (h.uses i).filterMap fun (k, n) => if k = .v then some n else none
  if (vs.any fun n => h.vregs ≤ n) || ((tiles i).any fun z => h.ztiles ≤ z) then some { code := cREGOFF, detail := 1 }
  else if (vs.any fun n => h.vbank (h.physV n) ≠ 1) || ((tiles i).any fun z => h.zbank z ≠ 1) then some { code := cREGOFF, detail := 2 }
  else none

/-- Kind of a register in LATCHK's detail (R359). -/
def latchDetail : Reg → Nat
  | .s n | .hs n => n
  | .v n => n + 64
  | .m n => n + 128
  | .p n | .hp n => n + 192

/-- LATCHK (R238): the first register the slot reads or writes inside a window, in task mode with CHKLAT. -/
def Hart.latchk (h : Hart) (i : Instr) : Option Cause :=
  if h.mode = .task ∧ h.cctl.getLsbD 0 then
    (((h.uses i).map h.phys).find? fun r => h.inWindow r).map fun r => { code := cLATCHK, detail := latchDetail r }
  else none

/-- Instructions permitted in handler mode (R354). -/
def handlerPermits : Instr → Bool
  | .loop | .loopSet .. | .loopBrk | .loopIdx .. | .rbase _ | .bankmode .. | .endTask | .wsr .. => false
  | .ld .g _ _ _ _ _ _ _ | .st .g _ _ _ _ | .amo .. | .cas .. | .cln .. | .inv .. | .clninv .. | .fence _ | .xfence | .nmfence => true
  | .ld .. | .st .. => false
  | .nop | .add .. | .sub .. | .mul .. | .mulh .. | .mulhu .. | .div .. | .divu .. | .rem .. | .remu .. | .and .. | .or .. | .xor .. | .andn ..
  | .shl .. | .shr .. | .sar .. | .rotl .. | .min .. | .max .. | .minu .. | .maxu .. | .addI .. | .subI .. | .mulI .. | .mulhI .. | .mulhuI ..
  | .divI .. | .divuI .. | .remI .. | .remuI .. | .andI .. | .orI .. | .xorI .. | .andnI .. | .shlI .. | .shrI .. | .sarI .. | .rotlI ..
  | .minI .. | .maxI .. | .minuI .. | .maxuI .. | .clz .. | .ctz .. | .popc .. | .sext .. | .zext .. | .bfx .. | .bfi .. | .sel .. | .cmp ..
  | .plog .. | .movpPs .. | .movpSp .. | .movpAll _ | .li .. | .lih .. | .rsr .. | .br .. | .jmp _ | .call _ | .callr .. | .ret | .trap _
  | .brk _ | .eret | .csrr .. | .csrw .. | .tlbInvAll | .tlbInvAsid _ | .tlbInvVa .. | .tlbPrb .. | .ctxSv _ | .ctxLd _ | .wfe => true
  | _ => false

/-- Remote-illegal instructions (R156, R157): 0 permitted, else the detail of R161. -/
def remoteDetail (slot : SlotName) : Instr → Nat
  | .rcall .. | .rpost .. => 2
  | .nop | .add .. | .sub .. | .mul .. | .mulh .. | .mulhu .. | .div .. | .divu .. | .rem .. | .remu .. | .and .. | .or .. | .xor .. | .andn ..
  | .shl .. | .shr .. | .sar .. | .rotl .. | .min .. | .max .. | .minu .. | .maxu .. | .addI .. | .subI .. | .mulI .. | .mulhI .. | .mulhuI ..
  | .divI .. | .divuI .. | .remI .. | .remuI .. | .andI .. | .orI .. | .xorI .. | .andnI .. | .shlI .. | .shrI .. | .sarI .. | .rotlI ..
  | .minI .. | .maxI .. | .minuI .. | .maxuI .. | .clz .. | .ctz .. | .popc .. | .sext .. | .zext .. | .bfx .. | .bfi .. | .sel .. | .cmp ..
  | .plog .. | .movpPs .. | .movpSp .. | .movpAll _ | .li .. | .lih .. | .br .. | .jmp _ | .call _ | .callr .. | .ret | .rret .. | .fence _ => 0
  | .rsr _ r => if r = .time ∨ r = .launch ∨ r = .die then 0 else 1
  | .ld .g _ _ _ _ _ _ 0 | .st .g _ _ _ _ | .amo _ _ _ _ 0 | .cas _ _ _ 0 => 0
  | .tsDep _ t _ | .tsRd _ t _ _ _ | .tsTake _ t _ _ _ | .tsRdp _ t _ _ 0 | .tsTakep _ t _ _ 0 | .tsCnt _ _ _ _ t 0 => if 1 ≤ t ∧ t ≤ 23 then 0 else 1
  | _ => if slot = .v0 ∨ slot = .v1 ∨ slot = .m then 3 else 1

/-- Decode faults that depend on the mode (R156, R240, R245, R247, R354): PRIV and ILLEGAL on a core, remote-illegal in a call. -/
def Hart.modeRes (h : Hart) (i : Instr) : Option Res :=
  match h.mode with
  | .idle | .stopped => some .idle
  | .task =>
    if i.isHandler then some (.exc { code := cPRIV, detail := 0 } 0)
    else match i with
      | .rret .. => some (.exc { code := cILLEGAL, detail := 0 } 0)
      | _ => none
  | .handler => if handlerPermits i then none else some (.exc { code := cILLEGAL, detail := 0 } 0)
  | .remote => if remoteDetail h.slot i = 0 then none else some (.rill (remoteDetail h.slot i))

/-- A register of the slot is pending under land=any, and the bundle waits under kind 6 (R96); in remote code every window is interlocked (R156). -/
def Hart.blocked (h : Hart) (i : Instr) : Option Nat :=
  if (h.uses i).any fun r => h.pending (h.phys r) then some 6
  else if h.mode = .remote && ((h.uses i).any fun r => h.inWindow (h.phys r)) then some 0
  else none

/-- The checks every slot instruction makes before its own, in the order of R247 (log 6): the mode, pending registers, LATCHK, the ILLEGAL of its
operand values, REGOFF. They are made once per bundle, before any slot takes effect (R234). -/
def early (i : Instr) (s : State) : Option Res :=
  if s.h.commit then none
  else match s.h.modeRes i with
  | some r => some r
  | none => (s.h.blocked i).map Res.hold
def late (i : Instr) (ill : State → Bool) (s : State) : Option Res :=
  if s.h.commit then none
  else match s.h.latchk i with
  | some c => some (.exc c 0)
  | none =>
    if ill s then some (.exc { code := cILLEGAL, detail := 0 } 0)
    else (s.h.regoff i).map fun c => .exc c 0
def gate (i : Instr) (ill : State → Bool) (s : State) : Option Res := (early i s).or (late i ill s)

/-- A meaning under its checks. A hold of the instruction's own (a structural stall, a full queue: R36, R239) comes before the faults: they are
raised when the bundle issues. -/
def issue (i : Instr) (ill : State → Bool) (s : State) (body : State → Res) : Host.Outcome State Fault Refusal :=
  finish s (match early i s with
    | some r => r
    | none => match body s with
      | .hold k => .hold k
      | r => (late i ill s).getD r)

/-- A meaning without operand values that raise ILLEGAL. -/
def noIll : State → Bool := fun _ => false

/-- The instruction passes every common check: it may have its own effect. -/
abbrev State.clear (s : State) (i : Instr) : Prop := (gate i noIll s).isNone = true

/-- The immediate operand of the RI class (R229): sign-extended, or the bundle's literal. -/
def State.immVal (s : State) : Imm → Word
  | .imm v => v.signExtend 64
  | .lit => s.h.lit.getD 0

/-- Lane i of the second vector source (R271). -/
def State.vbLane (s : State) (b : VB) (i : Nat) : Lane :=
  match b with
  | .vec r => laneAt (s.rdV r) i
  | .scl r => (s.rdS r).setWidth 32

/-- Index of a barrier (R334). -/
def State.ixVal (s : State) : BarIx → Nat
  | .imm i => i
  | .reg b => (s.rdS b).toNat % 1024

/-- Bytes of an access size (R230). -/
def sizeOf_ : Size → Nat
  | .b => 1 | .h => 2 | .w => 4 | .d => 8

/-- EA := base + index + OFF × size (R74). -/
def State.ea (s : State) (m : Mem) (scale : Nat) : Word := s.rdS m.base + s.rdS m.idx + m.off.signExtend 64 * word scale

/-- Address of lane i of a strided access and of an indexed one (R304). -/
def State.eaS (s : State) (m : Mem) (e i : Nat) : Word := s.rdS m.base + m.off.signExtend 64 * word e + word i * s.rdS m.idx
def State.eaX (s : State) (m : Mem) (e i : Nat) : Word := s.rdS m.base + m.off.signExtend 64 * word e + (laneAt (s.rdV m.idx) i).signExtend 64

/-- The walk that an address of the current hart needs is deferred by a bank engine (R200). -/
def State.walkHeld (s : State) (ea : Word) : Bool :=
  let va := ea.toNat % 2 ^ 57
  s.cached s.die s.cur (wf s.h.asid 0 16) va = [] && s.engines.any (fun e : Nat × Engine => e.2.st = .running) && s.walkDefers va 4 false (wf s.h.ptroot 12 40 * 4096)

/-- Translation of a G address on the current hart: physical in handler mode, otherwise through its tables (R354, R387). -/
def State.xlate (s : State) (ea : Word) : Except Cause Page :=
  if s.h.handler then s.physical s.die ea
  else if s.walkHeld ea then .error { code := cWAIT, detail := 0 }
  else s.translate s.die s.cur (wf s.h.asid 0 16) s.h.ptroot ea

/-- Kinds of access a page admits or refuses (R91). -/
inductive Access where
  | ld | st | vld | vst | amo | amof | amofSeq | fetch
  deriving DecidableEq, Repr

/-- What R91 says of an access to a page: the refusal, if any. Handler mode's pages admit everything. -/
def Page.refuse (p : Page) (a : Access) : Option Cause :=
  let no : Option Cause := some { code := cPROT, detail := 1 }
  let cls : Option Cause := some { code := cPROT, detail := 2 }
  match a with
  | .ld => if p.cls = 1 ∨ p.cls = 2 then cls else if p.r then none else no
  | .st => if p.cls = 1 ∨ p.cls = 2 then cls else if p.w then none else no
  | .vld => if p.cls ≠ 0 then cls else if p.r then none else no
  | .vst => if p.cls ≠ 0 then cls else if p.w then none else no
  | .amo => if p.cls ≠ 0 then cls else if p.r ∧ p.w then none else no
  | .amof => if p.cls ≠ 0 then cls else if ¬ (p.r ∧ p.w) then no else if p.seq then some { code := cPROT, detail := 3 } else none
  | .amofSeq => if p.cls ≠ 0 then cls else if ¬ (p.r ∧ p.w) then no else if p.seq then none else some { code := cPROT, detail := 3 }
  | .fetch => if p.cls ≠ 0 then cls else if p.x then none else no

/-- A G access of n bytes at EA with its checks in the order XLATE, PROT, ALIGN (R247): its page. -/
def State.gPage (s : State) (ea : Word) (align : Nat) (a : Access) : Except Cause Page :=
  match s.xlate ea with
  | .error c => .error c
  | .ok p =>
    match p.refuse a with
    | some c => .error c
    | none => if ea.toNat % align = 0 then .ok p else .error { code := cALIGN, detail := 0 }

/-- The order in which one instruction reports its faults (R247). -/
def Cause.rank (c : Cause) : Nat :=
  if c.code = cWAIT then 0 else if c.code = cFEAT then 1 else if c.code = cXLATE then 2 else if c.code = cPROT then 3 else if c.code = cALIGN then 4 else 5
/-- The fault an instruction reports among those of its pages and elements: the first kind of R247, of its lowest element (R307, R317). -/
def worst : List (Cause × Word) → Option (Cause × Word)
  | [] => none
  | x :: t => match worst t with
    | none => some x
    | some y => if y.1.rank < x.1.rank then some y else some x

/-- The accesses of n bytes at EA, one for each page, with the alignment that each must have. -/
def pageParts (ea : Word) (n align : Nat) : List (Nat × Word × Nat × Nat) :=
  let first := 4096 - ea.toNat % 4096
  if n ≤ first then [(0, ea, n, align)] else [(0, ea, first, align), (first, ea + word first, n - first, 1)]

/-- A piece by the sectors it lies in: each of them is read at its own time, at its own slice (R15, R311). -/
def Piece.bySector (p : Piece) : List Piece :=
  (sectorsOf p.pa p.n).map fun k =>
    let a := max p.pa (64 * k)
    { p with at_ := p.at_ + (a - p.pa), pa := a, n := min (p.pa + p.n) (64 * k + 64) - a }

/-- A contiguous access that may cross a page boundary: its pieces in order and whether its first page is DEVICE, or its fault and the address. -/
def State.gPieces (s : State) (ea : Word) (n align : Nat) (a : Access) : Except (Cause × Word) (List Piece × Bool) :=
  let l := (pageParts ea n align).map fun x => (x, s.gPage x.2.1 x.2.2.2 a)
  match worst (l.filterMap fun x => match x.2 with | .error c => some (c, x.1.2.1) | .ok _ => none) with
  | some e => .error e
  | none =>
    let ps := l.filterMap fun x => match x.2 with
      | .ok p => some ({ at_ := x.1.1, pa := p.pa, n := x.1.2.2.1, cpol := p.cpol, key := p.key, dev := p.cls = 3 } : Piece)
      | .error _ => none
    .ok (ps.flatMap Piece.bySector, (ps.headD { at_ := 0, pa := 0, n := 0, cpol := 0, key := 0, dev := false }).dev)

/-! ### Scratchpads and save areas -/

/-- Offsets in a save area (R381). -/
def imgBank (area b : Nat) : Nat := area + 0x440 + 4 * b
def imgBar (area n : Nat) : Nat := area + 0x4800 + 0x40000 + 64 * n
def imgFull (area g : Nat) : Nat := area + 0x61800 + g / 8
def imgSp (area off : Nat) : Nat := area + 0x100000 + off

/-- A bank in a save area (R381). -/
def State.imgBankAt (s : State) (a b : Nat) : Bank :=
  let w := s.numAt (imgBank a b) 4
  { mode := if fld w 0 2 = 1 then .cache else if fld w 0 2 = 2 then .fifo else .scratch, head := BitVec.ofNat 13 (w / 4),
    tail := BitVec.ofNat 13 (w / 2 ^ 15), full := [] }
def modeNum : BankMode → Nat
  | .scratch => 0 | .cache => 1 | .fifo => 2
def Bank.imageWord (b : Bank) : Nat := modeNum b.mode + b.head.toNat * 4 + b.tail.toNat * 2 ^ 15

/-- Set a granule's bit in a save area (R381, R382). -/
def State.imgSetFull (s : State) (a : Nat) (full : Bool) (g : Nat) : State :=
  let b := BitVec.ofNat 8 (2 ^ (g % 8))
  s.putBytes (imgFull a g) [if full then s.byteAt (imgFull a g) ||| b else s.byteAt (imgFull a g) &&& ~~~ b]

/-- Where a place of L or C space is: on a core; in the save area of a member that is switched out (R382); on the core of a member of the resident block
that has not started, whose banks count as they will stand at its start (R24; log 28). -/
inductive SpotAt where
  | live | image (area : Nat) | unborn
  deriving DecidableEq, Repr

/-- Where an L or C access goes: a hart's scratchpad and the offset in it. -/
structure Spot where
  hart : Nat
  off : Nat
  at_ : SpotAt
  deriving DecidableEq, Repr

/-- The core on which a member of a resident block starts (R31). -/
def Launch.coreOf (l : Launch) (m : Nat) : Option Nat :=
  l.rots.findSome? fun r => if r.2.resident = some (m / 32) then some (32 * r.1 + m % 32) else none
/-- Where a member's scratchpad is (R31, R75): none for a member that has executed END or whose launch is ended, and for one of a block that is not
resident and has never been. -/
def State.memberSpot (s : State) (lid lc off : Nat) : Option Spot :=
  match s.placeOf lid lc with
  | .resident h | .stopped h => some { hart := h, off := off, at_ := .live }
  | .saved a h => some { hart := h, off := off, at_ := if wf (s.dwordAt (a + 56)) 0 1 = 1 then .live else .image a }
  | .unstarted => ((s.launch? lid).bind fun l => l.coreOf lc).map fun h => { hart := h, off := off, at_ := .unborn }
  | _ => none

/-- The hart whose scratchpad EA names in L or C space (R74, R75): SPACE where there is none. -/
def State.spot (s : State) (sp : Space) (ea : Word) : Except Cause Spot :=
  let no : Except Cause Spot := .error { code := cSPACE, detail := 0 }
  match sp with
  | .g => no
  | .l => if ea.toNat < 2 ^ 21 then .ok { hart := s.cur, off := ea.toNat, at_ := .live } else no
  | .c =>
    match s.h.lid.bind s.launch?, s.h.lid with
    | some l, some lid =>
      if ea.toNat ≥ 2 ^ 26 ∨ !l.fixed ∨ l.phase = .done ∨ l.phase = .retired then no
      else
        let lc := s.h.lcore.toNat / 32 * 32 + ea.toNat / 2 ^ 21
        if l.nlcore ≤ lc then no
        else match s.memberSpot lid lc (ea.toNat % 2 ^ 21) with
          | some x => .ok x
          | none => no
    | _, _ => no

/-- A bank of the scratchpad in which a place lies, its bytes and its granules' bits. -/
def State.spBank (s : State) (x : Spot) (b : Nat) : Bank :=
  match x.at_ with
  | .live => (s.hartAt x.hart).bank b
  | .image a => s.imgBankAt a b
  | .unborn => Bank.reset
def State.spAt (s : State) (x : Spot) (o : Nat) : Byte :=
  match x.at_ with
  | .image a => s.byteAt (imgSp a o)
  | _ => (s.hartAt x.hart).spByte o
def State.spFull (s : State) (x : Spot) (g : Nat) : Bool :=
  match x.at_ with
  | .live => (s.hartAt x.hart).fullAt g
  | .image a => (s.byteAt (imgFull a g)).getLsbD (g % 8)
  | .unborn => false
def State.spPut (s : State) (x : Spot) (o : Nat) (data : List Byte) : State :=
  match x.at_ with
  | .image a => s.putBytes (imgSp a o) data
  | _ => s.setHart x.hart ((s.hartAt x.hart).spWrite o data)
def State.spSetFulls (s : State) (x : Spot) (gs : List Nat) (full : Bool) : State :=
  match x.at_ with
  | .live => s.setHart x.hart ((s.hartAt x.hart).setFulls gs full)
  | .image a => gs.foldl (fun s g => s.imgSetFull a full g) s
  | .unborn => s
/-- HEAD and TAIL of a FIFO bank change. -/
def State.spSetEnds (s : State) (x : Spot) (b : Nat) (head tail : BitVec 13) : State :=
  match x.at_ with
  | .live => s.setHart x.hart ((s.hartAt x.hart).setBank b { (s.hartAt x.hart).bank b with head := head, tail := tail })
  | .image a => s.putBytes (imgBank a b) (bytesOf 4 (Bank.imageWord { s.imgBankAt a b with head := head, tail := tail }))
  | .unborn => s

/-- The place lies in a FIFO bank. -/
def State.spotFifo (s : State) (x : Spot) : Bool := (s.spBank x (x.off / bankSize)).mode = .fifo
/-- The bank of an offset belongs to the task and holds data (R75, R81): FIFO banks only where the form admits them, whatever EA[16:0] is. A contiguous vector
access that starts in a SCRATCH bank and runs into a FIFO bank raises SPACE: no rule speaks of it, and the model refuses the mixture (log 58). -/
def State.spotOk (s : State) (x : Spot) (n : Nat) (fifo : Bool) : Bool :=
  let h := s.hartAt x.hart
  let scr := if x.at_ = .live then h.scr else s.h.scr
  if fifo && s.spotFifo x then x.off / bankSize < scr
  else x.off + n ≤ 2 ^ 21 && (List.range ((x.off + n - 1) / bankSize + 1 - x.off / bankSize)).all fun i =>
    x.off / bankSize + i < scr && (s.spBank x (x.off / bankSize + i)).mode = .scratch

/-- A matrix instruction in progress will write the granule: what it holds after, for each (R429). -/
def Hart.early (h : Hart) (g : Nat) : Option (List Byte) :=
  let hit := h.matq.flatMap fun m => m.outs.filter fun (o, d) => o < 16 * g + 16 ∧ 16 * g < o + d.length
  if hit.isEmpty then none
  else some ((List.range 16).map fun i => match hit.find? fun (o, d) => o ≤ 16 * g + i ∧ 16 * g + i < o + d.length with
    | some (o, d) => d.getD (16 * g + i - o) 0
    | none => h.spByte (16 * g + i))

/-- n scratchpad bytes as a load of the core sees them: a granule that a matrix instruction is about to write reads old or new, and new by a .W load
(R429). -/
def State.spRead (s : State) (x : Spot) (n : Nat) (w : Bool) : List Byte × State :=
  let h := s.hartAt x.hart
  if x.at_ = .live ∧ x.hart = s.cur ∧ !h.matq.isEmpty then
    let gs := (granules x.off n).filter fun g => (h.early g).isSome
    let picks := gs.zipIdx.filter fun (_, i) => w || Config.coin (s.nfree + i)
    ((List.range n).map fun i =>
      match picks.find? fun (g, _) => g = (x.off + i) / 16 with
      | some (g, _) => ((h.early g).getD []).getD ((x.off + i) % 16) 0
      | none => h.spByte (x.off + i), { s with nfree := s.nfree + gs.length })
  else ((List.range n).map fun i => s.spAt x (x.off + i), s)

end Sys2Proof.Machine
end

