-- ==== Sys2Proof/Machine/Flags.lean ====
section
/-! DEFINITION. Conditions and status bits: the integer comparisons of CMP and VCMP (13 R253, 14 R281), the floating-point comparisons of VFCMP (14
R278), truth tables (R254), and the sticky bits of VSTAT (03 R50) and MSTAT (04 R70). -/

namespace Sys2Proof.Machine

/-- cond(a, b) (R253, R281). -/
def condHolds {w : Nat} (c : Cond) (a b : BitVec w) : Bool :=
  match c with
  | .eq => a = b
  | .ne => a ≠ b
  | .lt => a.slt b
  | .le => a.sle b
  | .gt => b.slt a
  | .ge => b.sle a
  | .ltu => a.ult b
  | .leu => a.ule b
  | .gtu => b.ult a
  | .geu => b.ule a

/-- VFCMP's condition (R278). -/
def fcondHolds (c : FCond) (a b : Val) : Bool :=
  let un := a.isNan || b.isNan
  match c with
  | .eq => !un && Val.cmp a b = 0
  | .ne => un || Val.cmp a b ≠ 0
  | .lt => !un && Val.cmp a b < 0
  | .le => !un && Val.cmp a b ≤ 0
  | .gt => !un && Val.cmp a b > 0
  | .ge => !un && Val.cmp a b ≥ 0
  | .un => un
  | .or => !un

/-- T[2x + y] of a truth table (R254). -/
def truth (t : BitVec 4) (x y : Bool) : Bool := t.getLsbD ((if x then 2 else 0) + (if y then 1 else 0))

/-- A branch condition on a scalar register (R240, R259). -/
def brHolds (c : BrCnd) (x : Word) : Bool :=
  match c with
  | .always => true
  | .zero => x = 0
  | .nonzero => x ≠ 0
  | .neg => x.msb
  | .nonneg => !x.msb

/-- Sticky bits joined to VSTAT when the result is ready (R50, R274); nothing is scheduled where none is set. -/
def State.stick (s : State) (lat : Nat) (f : Flags) : State := if f = 0 then s else s.later lat (.vstat f)

/-- MSTAT bits (R70) from the exception bits of its roundings; DZ has no place. QSAT is bit 5. -/
def mstatOf (f : Flags) (sat : Bool) : BitVec 6 := (f &&& 0x1D).setWidth 6 ||| (if sat then 32 else 0)

/-- MSTAT as its instruction reads it (R303). -/
def Hart.joinMstat (h : Hart) (b : BitVec 6) : Hart := { h with mstat := h.mstat ||| b }

end Sys2Proof.Machine
end

