-- ==== Sys2Proof/Machine/Scalar.lean ====
section
/-! DEFINITION. Scalar and predicate instructions of the S slot (13 R248–R258). -/

namespace Sys2Proof.Machine

abbrev Out := Host.Outcome State Fault Refusal

/-- A scalar result with its latency (R236, R248). -/
def alu (i : Instr) (lat d : Nat) (f : State → Word) (s : State) : Out := issue i noIll s fun s => .ok (s.putS lat d (f s))

/-- A predicate result with latency 1. -/
def aluP (i : Instr) (d : Nat) (f : State → Bool) (s : State) : Out := issue i noIll s fun s => .ok (s.putP 1 d (f s))

/-- A division: the divider accepts one every 24 cycles (R239, R249). -/
def divide (i : Instr) (d : Nat) (f : State → Word) (s : State) : Out := issue i noIll s fun s =>
  if s.h.cyc < s.h.divFree then .hold 0
  else .ok ((s.putS 24 d (f s)).onH fun h => { h with divFree := h.cyc + 24 })

/-- High halves of the 128-bit products (R249). -/
def mulHigh (a b : Word) : Word := BitVec.ofInt 64 (a.toInt * b.toInt / 2 ^ 64)
def mulHighU (a b : Word) : Word := BitVec.ofNat 64 (a.toNat * b.toNat / 2 ^ 64)

/-- The divisions (R250). -/
def sdivQ (a b : Word) : Word :=
  if b = 0 then BitVec.allOnes 64 else if a = BitVec.intMin 64 ∧ b = BitVec.allOnes 64 then a else BitVec.ofInt 64 (a.toInt.tdiv b.toInt)
def sdivR (a b : Word) : Word :=
  if b = 0 then a else if a = BitVec.intMin 64 ∧ b = BitVec.allOnes 64 then 0 else BitVec.ofInt 64 (a.toInt.tmod b.toInt)
def udivQ (a b : Word) : Word := if b = 0 then BitVec.allOnes 64 else a / b
def udivR (a b : Word) : Word := if b = 0 then a else a % b

/-- Shifts and rotation use b[5:0] (R249). -/
def shCount (b : Word) : Nat := b.toNat % 64
def shlW (a b : Word) : Word := a <<< shCount b
def shrW (a b : Word) : Word := a >>> shCount b
def sarW (a b : Word) : Word := a.sshiftRight (shCount b)
def rotlW (a b : Word) : Word := a.rotateLeft (shCount b)

/-- Leading and trailing zeros, one bits (R251). -/
def clzW (a : Word) : Word := word (if a = 0 then 64 else 63 - a.toNat.log2)
def ctzW (a : Word) : Word := word (((List.range 64).find? fun i => a.getLsbD i).getD 64)
def popcount {w : Nat} (a : BitVec w) : Nat := (List.range w).foldl (fun n i => if a.getLsbD i then n + 1 else n) 0

/-- Sign and zero extension of the low bits (R251). -/
def extBits : XWidth → Nat
  | .b => 8 | .h => 16 | .w => 32
def sextW (k : XWidth) (a : Word) : Word := (a.setWidth (extBits k)).signExtend 64
def zextW (k : XWidth) (a : Word) : Word := (a.setWidth (extBits k)).setWidth 64

/-- POS and LEN of a field operand (R252). -/
def fieldPos (f : Word) : Nat := wf f 0 6
def fieldLen (f : Word) : Nat := min (wf f 8 7) 64
/-- BFX (R252). -/
def bfxW (sg : Bool) (a f : Word) : Word :=
  let len := fieldLen f
  let x := a.toNat / 2 ^ fieldPos f % 2 ^ len
  if len = 0 then 0
  else if sg ∧ x / 2 ^ (len - 1) % 2 = 1 then word (x + (2 ^ 64 - 2 ^ len)) else word x
/-- BFI (R252). -/
def bfiW (a b f : Word) : Word :=
  let m := word ((2 ^ fieldLen f - 1) * 2 ^ fieldPos f)
  (a &&& ~~~ m) ||| ((b <<< fieldPos f) &&& m)

def execNop (s : State) : Out := issue .nop noIll s fun s => .ok s
def execAdd (d a b : Nat) (s : State) : Out := alu (.add d a b) 1 d (fun s => s.rdS a + s.rdS b) s
def execAddI (d a : Nat) (i : Imm) (s : State) : Out := alu (.addI d a i) 1 d (fun s => s.rdS a + s.immVal i) s
def execSub (d a b : Nat) (s : State) : Out := alu (.sub d a b) 1 d (fun s => s.rdS a - s.rdS b) s
def execSubI (d a : Nat) (i : Imm) (s : State) : Out := alu (.subI d a i) 1 d (fun s => s.rdS a - s.immVal i) s
def execMul (d a b : Nat) (s : State) : Out := alu (.mul d a b) 3 d (fun s => s.rdS a * s.rdS b) s
def execMulI (d a : Nat) (i : Imm) (s : State) : Out := alu (.mulI d a i) 3 d (fun s => s.rdS a * s.immVal i) s
def execMulh (d a b : Nat) (s : State) : Out := alu (.mulh d a b) 3 d (fun s => mulHigh (s.rdS a) (s.rdS b)) s
def execMulhI (d a : Nat) (i : Imm) (s : State) : Out := alu (.mulhI d a i) 3 d (fun s => mulHigh (s.rdS a) (s.immVal i)) s
def execMulhu (d a b : Nat) (s : State) : Out := alu (.mulhu d a b) 3 d (fun s => mulHighU (s.rdS a) (s.rdS b)) s
def execMulhuI (d a : Nat) (i : Imm) (s : State) : Out := alu (.mulhuI d a i) 3 d (fun s => mulHighU (s.rdS a) (s.immVal i)) s
def execDiv (d a b : Nat) (s : State) : Out := divide (.div d a b) d (fun s => sdivQ (s.rdS a) (s.rdS b)) s
def execDivI (d a : Nat) (i : Imm) (s : State) : Out := divide (.divI d a i) d (fun s => sdivQ (s.rdS a) (s.immVal i)) s
def execDivu (d a b : Nat) (s : State) : Out := divide (.divu d a b) d (fun s => udivQ (s.rdS a) (s.rdS b)) s
def execDivuI (d a : Nat) (i : Imm) (s : State) : Out := divide (.divuI d a i) d (fun s => udivQ (s.rdS a) (s.immVal i)) s
def execRem (d a b : Nat) (s : State) : Out := divide (.rem d a b) d (fun s => sdivR (s.rdS a) (s.rdS b)) s
def execRemI (d a : Nat) (i : Imm) (s : State) : Out := divide (.remI d a i) d (fun s => sdivR (s.rdS a) (s.immVal i)) s
def execRemu (d a b : Nat) (s : State) : Out := divide (.remu d a b) d (fun s => udivR (s.rdS a) (s.rdS b)) s
def execRemuI (d a : Nat) (i : Imm) (s : State) : Out := divide (.remuI d a i) d (fun s => udivR (s.rdS a) (s.immVal i)) s
def execAnd (d a b : Nat) (s : State) : Out := alu (.and d a b) 1 d (fun s => s.rdS a &&& s.rdS b) s
def execAndI (d a : Nat) (i : Imm) (s : State) : Out := alu (.andI d a i) 1 d (fun s => s.rdS a &&& s.immVal i) s
def execOr (d a b : Nat) (s : State) : Out := alu (.or d a b) 1 d (fun s => s.rdS a ||| s.rdS b) s
def execOrI (d a : Nat) (i : Imm) (s : State) : Out := alu (.orI d a i) 1 d (fun s => s.rdS a ||| s.immVal i) s
def execXor (d a b : Nat) (s : State) : Out := alu (.xor d a b) 1 d (fun s => s.rdS a ^^^ s.rdS b) s
def execXorI (d a : Nat) (i : Imm) (s : State) : Out := alu (.xorI d a i) 1 d (fun s => s.rdS a ^^^ s.immVal i) s
def execAndn (d a b : Nat) (s : State) : Out := alu (.andn d a b) 1 d (fun s => s.rdS a &&& ~~~ s.rdS b) s
def execAndnI (d a : Nat) (i : Imm) (s : State) : Out := alu (.andnI d a i) 1 d (fun s => s.rdS a &&& ~~~ s.immVal i) s
def execShl (d a b : Nat) (s : State) : Out := alu (.shl d a b) 1 d (fun s => shlW (s.rdS a) (s.rdS b)) s
def execShlI (d a : Nat) (i : Imm) (s : State) : Out := alu (.shlI d a i) 1 d (fun s => shlW (s.rdS a) (s.immVal i)) s
def execShr (d a b : Nat) (s : State) : Out := alu (.shr d a b) 1 d (fun s => shrW (s.rdS a) (s.rdS b)) s
def execShrI (d a : Nat) (i : Imm) (s : State) : Out := alu (.shrI d a i) 1 d (fun s => shrW (s.rdS a) (s.immVal i)) s
def execSar (d a b : Nat) (s : State) : Out := alu (.sar d a b) 1 d (fun s => sarW (s.rdS a) (s.rdS b)) s
def execSarI (d a : Nat) (i : Imm) (s : State) : Out := alu (.sarI d a i) 1 d (fun s => sarW (s.rdS a) (s.immVal i)) s
def execRotl (d a b : Nat) (s : State) : Out := alu (.rotl d a b) 1 d (fun s => rotlW (s.rdS a) (s.rdS b)) s
def execRotlI (d a : Nat) (i : Imm) (s : State) : Out := alu (.rotlI d a i) 1 d (fun s => rotlW (s.rdS a) (s.immVal i)) s
def execMin (d a b : Nat) (s : State) : Out := alu (.min d a b) 1 d (fun s => minS (s.rdS a) (s.rdS b)) s
def execMinI (d a : Nat) (i : Imm) (s : State) : Out := alu (.minI d a i) 1 d (fun s => minS (s.rdS a) (s.immVal i)) s
def execMax (d a b : Nat) (s : State) : Out := alu (.max d a b) 1 d (fun s => maxS (s.rdS a) (s.rdS b)) s
def execMaxI (d a : Nat) (i : Imm) (s : State) : Out := alu (.maxI d a i) 1 d (fun s => maxS (s.rdS a) (s.immVal i)) s
def execMinu (d a b : Nat) (s : State) : Out := alu (.minu d a b) 1 d (fun s => minU (s.rdS a) (s.rdS b)) s
def execMinuI (d a : Nat) (i : Imm) (s : State) : Out := alu (.minuI d a i) 1 d (fun s => minU (s.rdS a) (s.immVal i)) s
def execMaxu (d a b : Nat) (s : State) : Out := alu (.maxu d a b) 1 d (fun s => maxU (s.rdS a) (s.rdS b)) s
def execMaxuI (d a : Nat) (i : Imm) (s : State) : Out := alu (.maxuI d a i) 1 d (fun s => maxU (s.rdS a) (s.immVal i)) s
def execClz (d a : Nat) (s : State) : Out := alu (.clz d a) 1 d (fun s => clzW (s.rdS a)) s
def execCtz (d a : Nat) (s : State) : Out := alu (.ctz d a) 1 d (fun s => ctzW (s.rdS a)) s
def execPopc (d a : Nat) (s : State) : Out := alu (.popc d a) 1 d (fun s => word (popcount (s.rdS a))) s
def execSext (k : XWidth) (d a : Nat) (s : State) : Out := alu (.sext k d a) 1 d (fun s => sextW k (s.rdS a)) s
def execZext (k : XWidth) (d a : Nat) (s : State) : Out := alu (.zext k d a) 1 d (fun s => zextW k (s.rdS a)) s
def execBfx (sg : Bool) (d a b : Nat) (s : State) : Out := alu (.bfx sg d a b) 1 d (fun s => bfxW sg (s.rdS a) (s.rdS b)) s
def execBfi (d a b c : Nat) (s : State) : Out := alu (.bfi d a b c) 1 d (fun s => bfiW (s.rdS a) (s.rdS b) (s.rdS c)) s
/-- SEL reads its predicate as it stands before the bundle (R251). -/
def execSel (d pc a b : Nat) (s : State) : Out := alu (.sel d pc a b) 1 d (fun s => if s.rdP pc then s.rdS a else s.rdS b) s
def execCmp (k : Cond) (d a b : Nat) (s : State) : Out := aluP (.cmp k d a b) d (fun s => condHolds k (s.rdS a) (s.rdS b)) s
def execPlog (t : BitVec 4) (d a b : Nat) (s : State) : Out := aluP (.plog t d a b) d (fun s => truth t (s.rdP a) (s.rdP b)) s
def execMovpPs (d a : Nat) (s : State) : Out := alu (.movpPs d a) 1 d (fun s => if s.rdP a then 1 else 0) s
def execMovpSp (d a : Nat) (s : State) : Out := aluP (.movpSp d a) d (fun s => s.rdS a ≠ 0) s
/-- Bit n is logical p(n) (R255). -/
def execMovpAll (d : Nat) (s : State) : Out :=
  alu (.movpAll d) 1 d (fun s => word ((List.range 16).foldl (fun x n => if s.rdP n then x + 2 ^ n else x) 0)) s
def execLi (d : Nat) (i : Imm) (s : State) : Out := alu (.li d i) 1 d (fun s => s.immVal i) s
def execLih (d : Nat) (v : BitVec 32) (s : State) : Out :=
  alu (.lih d v) 1 d (fun s => (s.rdS d &&& 0xFFFFFFFF) ||| (v.setWidth 64 <<< 32)) s

/-- RBASE as a value (R257). -/
def rbaseWord (vrb mrb prb : Nat) : Word := word (prb * 2 ^ 16 + mrb * 2 ^ 8 + vrb)

/-- What RSR reads (R257, R26): TIME is module time at the bundle's issue; LBUSY counts entries held before this bundle's requests. A bundle that has
waited reads as at its first issue (R37). -/
def State.rsrVal (s : State) (r : SpReg) : Word :=
  let h := match s.h.source with
    | some w => { s.h with vstat := w.vstat, dstat := w.dstat, frzcnt := w.frzcnt }
    | none => s.h
  match r with
  | .task => h.task
  | .lcore => h.lcore
  | .nlcore => h.nlcore
  | .gridx => h.gridx
  | .gridy => h.gridy
  | .gridz => h.gridz
  | .launch => h.launch
  | .die => word s.die
  | .pcore => word (hartPcore s.cur)
  | .time => word (match h.source with | some w => w.time | none => s.time)
  | .vstat => h.vstat.setWidth 64
  | .dstat => h.dstat
  | .frzcnt => word h.frzcnt
  | .lbusy => word (match h.source with | some w => w.lbusy | none => h.lbusy)
  | .rbase => rbaseWord h.vrb h.mrb h.prb
  | .lstk n => match h.loops[n]? with
    | some l => l.count.setWidth 64 <<< 32 ||| l.index.setWidth 64
    | none => 0
  | .feat => s.feat

def execRsr (d : Nat) (r : SpReg) (s : State) : Out := alu (.rsr d r) 1 d (fun s => s.rsrVal r) s
/-- A WSR issued at t writes at t + 1 (R258). -/
def execWsr (r : SpReg) (a : Nat) (s : State) : Out := issue (.wsr r a) noIll s fun s => .ok (s.later 1 (.wsr r (s.rdS a)))

end Sys2Proof.Machine
end

