-- ==== Sys2Proof/Machine/Control.lean ====
section
/-! DEFINITION. Branches, calls, the loop stack, TRAP, BRK and RBASE (13 R259–R268). The next PC and the next rotation bases take effect when the
bundle ends (R234). -/

namespace Sys2Proof.Machine

/-- The next bundle issued is the target (R224). -/
def State.jump (s : State) (target : Word) : State := s.onH fun h => { h with npc := target }

/-- PC + 64 × OFF (R259). -/
def Hart.target (h : Hart) (off : BitVec 32) : Word := h.pc + off.signExtend 64 * 64

/-- The link register (R259, R260). -/
def State.link (s : State) : State := s.putS 1 31 (s.h.pc + 64)

def execBr (cnd : BrCnd) (c : Nat) (off : BitVec 32) (s : State) : Out := issue (.br cnd c off) noIll s fun s =>
  .ok (if brHolds cnd (s.rdS c) then s.jump (s.h.target off) else s)

def execJmp (off : BitVec 32) (s : State) : Out := issue (.jmp off) noIll s fun s => .ok (s.jump (s.h.target off))

def execCall (off : BitVec 32) (s : State) : Out := issue (.call off) noIll s fun s => .ok (s.link.jump (s.h.target off))

/-- A register target: bits [5:0] nonzero raise ALIGN, with the target as the failing address (R260). -/
def toReg (s : State) (target : Word) (t : State) : Res :=
  if target.toNat % 64 ≠ 0 then .exc { code := cALIGN, detail := 0 } target else .ok (t.jump target)

def execCallr (nl : Bool) (a : Nat) (s : State) : Out := issue (.callr nl a) noIll s fun s =>
  toReg s (s.rdS a) (if nl then s else s.link)

def execRet (s : State) : Out := issue .ret noIll s fun s => toReg s (s.rdS 31) s

/-- LOOPSTK with its code (R266). -/
def loopFault (code : Nat) : Res := .exc { code := cLOOPSTK, detail := code } 0

/-- LOOP.SET with OFF ≤ 0 is ILLEGAL at decode (R262); the level it pushes is the innermost. -/
def execLoopSet (c : Nat) (off : BitVec 32) (s : State) : Out := issue (.loopSet c off) noIll s fun s =>
  let n := s.rdS c
  if n = 0 then .ok (s.jump (s.h.pc + (off.signExtend 64 + 1) * 64))
  else if s.h.loops.length ≥ 6 then loopFault 1
  else if n.toNat ≥ 2 ^ 32 then loopFault 3
  else .ok (s.onH fun h =>
    { h with loops := { start := h.pc + 64, stop := h.target off, count := n.setWidth 32, index := 0 } :: h.loops })

/-- The bases a LOOP sets for the next bundle (R235, R263). -/
def Hart.rotate (h : Hart) : Hart :=
  { h with nvrb := if h.nr = 0 then 0 else (h.vrb + h.nr - 1) % h.nr, nmrb := (h.mrb + 7) % 8, nprb := (h.prb + 7) % 8 }

def execLoop (s : State) : Out := issue .loop noIll s fun s =>
  match s.h.loops with
  | [] => loopFault 4
  | l :: rest =>
    if s.h.pc ≠ l.stop then loopFault 2
    else if (l.index + 1).ult l.count then
      .ok (s.onH fun h => { h.rotate with npc := l.start, loops := { l with index := l.index + 1 } :: rest })
    else .ok (s.onH fun h => { h.rotate with loops := rest })

def execLoopBrk (s : State) : Out := issue .loopBrk noIll s fun s =>
  match s.h.loops with
  | [] => loopFault 4
  | l :: rest => .ok (s.onH fun h => { h with npc := l.stop + 64, loops := rest })

def execLoopIdx (d level : Nat) (s : State) : Out := issue (.loopIdx d level) noIll s fun s =>
  match s.h.loops[level]? with
  | none => loopFault 5
  | some l => .ok (s.putS 1 d (l.index.setWidth 64))

/-- TRAP and BRK are raised, and the bundle takes no effect (R267). -/
def execTrap (code : BitVec 16) (s : State) : Out := issue (.trap code) noIll s fun _ => .exc { code := cTRAP, detail := code.toNat } 0
def execBrk (code : BitVec 16) (s : State) : Out := issue (.brk code) noIll s fun _ => .exc { code := cBRK, detail := code.toNat } 0

/-- New rotation bases, from the next bundle on (R268). -/
def Hart.rebase (h : Hart) (v m p : Nat) : Hart :=
  { h with nvrb := if h.nr = 0 then 0 else v % h.nr, nmrb := m % 8, nprb := p % 8 }

def execRbase (src : RbaseSrc) (s : State) : Out := issue (.rbase src) noIll s fun s =>
  match src with
  | .imm v m p => .ok (s.onH fun h => h.rebase v m p)
  | .reg a => let x := s.rdS a; .ok (s.onH fun h => h.rebase (wf x 0 6) (wf x 8 3) (wf x 16 3))

end Sys2Proof.Machine
end

