-- ==== Sys2Proof/Machine/LoadStore.lean ====
section
/-! DEFINITION. Loads, stores, prefetch, atomics and granule state (05 R74–R96, 06 R113, R123, 15 R304–R317). G-space loads and atomics with a result
take a landing entry and arrive by events of their own. -/

namespace Sys2Proof.Machine

def faultRes (x : Cause × Word) : Res := .exc x.1 x.2

/-! ### Order against the hart's own atomics -/

/-- An atomic with acquire order has left the hart and its response is outstanding: no later load, store, atomic or vector access issues (R314). The slots
of one bundle do not wait for one another (R234). -/
def State.acqPending (s : State) : Bool :=
  !s.h.commit && s.msgs.any fun m => m.hart = s.cur && (match m.body with | .atomic _ _ _ _ _ a _ => a.isSome | _ => false)

/-! ### The D2 calendar (R129, R130) -/

/-- The hart runs a task of a D2 launch (R130). -/
def State.isD2 (s : State) : Bool := s.d2Core s.cur
/-- Addresses of an access that need a calendar slot. -/
def State.slotsFor (s : State) (pas : List Nat) : List Nat := if s.isD2 then pas.filter calendared else []

/-! ### Addresses of an access -/

/-- The destination of a load into s(d) or m(d): writes to s0 and m0 are discarded (R226). -/
def Hart.destS (h : Hart) (d : Nat) : Reg := if d = 0 then .p 0 else h.regS d
def Hart.destM (h : Hart) (d : Nat) : Reg := if d = 0 then .p 0 else h.regM d
def regsOf (r : Reg) : List Reg := if r = .p 0 then [] else [r]

/-- One address of an access: its place in the value, its EA, its bytes. -/
structure Elt where
  at_ : Nat
  ea : Word
  n : Nat
  deriving DecidableEq, Repr

/-- Answers of the elements of an access together: all of them, or the fault that the instruction reports (R307, R317). -/
def allElts {α : Type} (l : List (Except (Cause × Word) α)) : Except (Cause × Word) (List α) :=
  match worst (l.filterMap fun x => match x with | .error e => some e | .ok _ => none) with
  | some e => .error e
  | none => .ok (l.filterMap fun x => match x with | .ok y => some y | .error _ => none)

/-- The pieces of a G access, or its fault. -/
def State.eltPieces (s : State) (a : Access) (align : Nat) (l : List Elt) : Except (Cause × Word) (List Piece × Bool) :=
  match allElts (l.map fun e => (s.gPieces e.ea e.n align a).map fun x => (x.1.map (fun p => { p with at_ := e.at_ + p.at_ }), x.2)) with
  | .error e => .error e
  | .ok ps => .ok (ps.flatMap (·.1), ps.any (·.2))

/-- The scratchpad place of an element of an L or C access, or its fault: ALIGN before SPACE. A misaligned EA in a FIFO bank raises ALIGN too, although R81
ignores EA[16:0]: which of R76 and R81 wins the manual does not say, and the model takes R76 (log 58). -/
def State.eltSpot (s : State) (sp : Space) (align : Nat) (fifo : Bool) (e : Elt) : Except (Cause × Word) (Elt × Spot) :=
  if e.ea.toNat % align ≠ 0 then .error ({ code := cALIGN, detail := 0 }, e.ea)
  else match s.spot sp e.ea with
    | .error c => .error (c, e.ea)
    | .ok x => if s.spotOk x e.n fifo then .ok (e, x) else .error ({ code := cSPACE, detail := 0 }, e.ea)
/-- The scratchpad places of an L or C access, or its fault. -/
def State.eltSpots (s : State) (sp : Space) (align : Nat) (fifo : Bool) (l : List Elt) : Except (Cause × Word) (List (Elt × Spot)) :=
  allElts (l.map (s.eltSpot sp align fifo))

/-- Latency of an L or a C load (R236). -/
def spaceLat : Space → Nat
  | .l => 6
  | _ => 40


/-! ### Loads -/

/-- Granules of a place. -/
def State.allFull (s : State) (l : List (Elt × Spot)) : Bool :=
  l.all fun (e, x) => (granules x.off e.n).all fun g => s.spFull x g
/-- The first uncorrectable granule of a place (R86): the DATA detail, and the address that DATA names: of the granule in its space or, for a save area, of
the damaged sector (R382, R394). -/
def State.anyBad (s : State) (e : Elt) (x : Spot) (gs : List Nat) : Option (Nat × Word) :=
  match x.at_ with
  | .live => (gs.find? (s.hartAt x.hart).spBad.contains).map fun g => (1, word (e.ea.toNat / 2 ^ 21 * 2 ^ 21 + 16 * g))
  | .image a => (gs.findSome? fun g => s.badSector (imgSp a (16 * g)) 16 0).map fun k => (s.dataDetail k, word (64 * k))
  | .unborn => none
def State.spotBad (s : State) (e : Elt) (x : Spot) : Option (Nat × Word) := s.anyBad e x (granules x.off e.n)
/-- DATA at issue (R86, R363). -/
def dataExc (d : Nat × Word) : Res := .exc { code := cDATA, detail := d.1 } d.2
/-- A granule of a waiting load has become full in this cycle: the load is retried in the next (R85). -/
def State.justFilled (s : State) (l : List (Spot × Nat)) : Bool :=
  s.h.waiting.isSome && l.any fun (x, g) => x.at_ = .live && (s.hartAt x.hart).fills.contains g
/-- The granules of every element. -/
def spotGranules (l : List (Elt × Spot)) : List (Spot × Nat) := l.flatMap fun (e, x) => (granules x.off e.n).map fun g => (x, g)
/-- Corrected granules of a hart's scratchpad are counted (R86, R393). -/
def State.spCorrect (s : State) (k : Nat) (gs : List Nat) : State :=
  let h := s.hartAt k
  let l := (gs.eraseDups).filter h.spCorr.contains
  if l.isEmpty then s else (s.setHart k { h with spCorr := h.spCorr.filter fun g => !l.contains g }).countSpce k l.length
def State.corrAt (s : State) (x : Spot) (gs : List Nat) : State := if x.at_ = .live then s.spCorrect x.hart gs else s

/-- Read every element and place its bytes in the value. -/
def State.readSpots (s : State) (total : Nat) (w : Bool) (l : List (Elt × Spot)) : List Byte × State :=
  l.foldl (fun (v, s) (e, x) =>
    let (b, s) := s.spRead x e.n w
    (v.take e.at_ ++ b ++ v.drop (e.at_ + e.n), s.corrAt x (granules x.off e.n))) (List.replicate total 0, s)

/-- Empty the granules of every element (R84). -/
def State.emptySpots (s : State) (full : Bool) (l : List (Elt × Spot)) : State := l.foldl (fun s (e, x) => s.spSetFulls x (granules x.off e.n) full) s

/-- n granules of a bank from position i of its ring (R81). -/
def ringOf (b i n : Nat) : List Nat := (List.range n).map fun j => b * 8192 + (i + j) % 8192
/-- A place's granules from HEAD of its FIFO bank, and from TAIL (R81). -/
def State.atHead (s : State) (x : Spot) (n : Nat) : List Nat := ringOf (x.off / bankSize) (s.spBank x (x.off / bankSize)).head.toNat n
def State.atTail (s : State) (x : Spot) (n : Nat) : List Nat := ringOf (x.off / bankSize) (s.spBank x (x.off / bankSize)).tail.toNat n
/-- A pop of n granules (R81): their bytes, and the bank after it. -/
def State.ringBytes (s : State) (x : Spot) (n : Nat) : List Byte := (s.atHead x n).flatMap fun g => (List.range 16).map fun i => s.spAt x (16 * g + i)
def State.ringPop (s : State) (x : Spot) (n : Nat) : State :=
  let b := s.spBank x (x.off / bankSize)
  ((s.corrAt x (s.atHead x n)).spSetFulls x (s.atHead x n) false).spSetEnds x (x.off / bankSize) (b.head + BitVec.ofNat 13 n) b.tail

/-- Schedule the writes of a load. -/
def State.laters (s : State) (lat : Nat) (ws : List Write) : State := ws.foldl (fun s w => s.later lat w) s

/-- An L or C load: SCRATCH places with their qualifiers (R84), or a pop of a FIFO bank (R81). `fifo` is the number of granules a pop takes, 0 where
FIFO banks are refused. It too is performed at issue, the model's choice (R107, log 7). -/
def loadLocal (sp : Space) (align : Nat) (w c : Bool) (f : LoadForm) (elts : List Elt) (fifo : Nat) (s : State) : Res :=
  let plain (l : List (Elt × Spot)) : Res :=
    if w ∧ (!s.allFull l ∨ s.justFilled (spotGranules l)) then .wait 4 s
    else match l.findSome? fun (e, x) => s.spotBad e x with
      | some d => dataExc d
      | none =>
        let (raw, t) := s.readSpots f.size w l
        .ok ((if c then t.emptySpots false l else t).laters (spaceLat sp) (f.writes raw))
  match s.eltSpots sp align (fifo ≠ 0) elts with
  | .error x => faultRes x
  | .ok [(e, x)] =>
    if s.spotFifo x then
      let gs := s.atHead x fifo
      if !gs.all (s.spFull x) ∨ s.justFilled (gs.map fun g => (x, g)) then .wait 4 s
      else match s.anyBad e x gs with
        | some d => dataExc d
        | none => .ok ((s.ringPop x fifo).laters (spaceLat sp) (f.writes ((s.ringBytes x fifo).take e.n)))
    else plain [(e, x)]
  | .ok l => plain l

/-- A new landing entry (R94–R96). -/
def Hart.land_ (h : Hart) (id land : Nat) (regs : List Reg) (req : LandReq) (acq : Acq) (slots : List Nat) : Hart :=
  let e : Landing := { id := id, issued := h.cyc, due := if land = 0 then none else some (h.cyc + land), pc := h.pc, regs := regs, req := req, got := none,
                       acq := acq, bad := none, ready := 0, slots := slots, read := [], byTask := !h.handler }
  { h with land := h.land ++ [e] }

/-- A G load (R93): it takes an entry; on a DEVICE page it is performed at once (R91). -/
def loadGlobal (a : Access) (align land : Nat) (f : LoadForm) (dest : Reg) (elts : List Elt) (s : State) : Res :=
  if s.h.lbusy ≥ 64 then .hold 7
  else match s.eltPieces a align elts with
    | .error x => if s.acqPending then .hold 0 else faultRes x
    | .ok (ps, dev) =>
      -- A DEVICE load is performed at once, after the core's earlier accesses to its sectors.
      if s.acqPending ∨ (dev ∧ ps.any fun p => s.deferred p.pa p.n || !s.mayUse s.cur false p.pa || s.accsHeld s.cur fun a => a.on (p.pa / 64)) then .hold 0
      else
        let (id, s) := (s.walksOn s.cur (elts.map (·.ea))).fresh
        let s := if dev then ps.foldl (fun s p => s.performSome s.cur fun a => a.on (p.pa / 64)) s else s
        let s := s.onH fun h => h.land_ id land (regsOf dest) (.load f ps) none (if dev then [] else s.slotsFor (ps.map (·.pa)))
        .ok (if dev then s.performSome s.cur fun a => a.id = id else s)

/-- A load in any space. -/
def load (sp : Space) (a : Access) (align land fifo : Nat) (w c : Bool) (f : LoadForm) (dest : Reg) (elts : List Elt) (s : State) : Res :=
  if sp = .g then loadGlobal a align land f dest elts s
  else if s.acqPending then .hold 0 else loadLocal sp align w c f elts fifo s

def execLd (sp : Space) (sz : Size) (zx w c : Bool) (d : Nat) (m : Mem) (land : Nat) (s : State) : Out :=
  issue (.ld sp sz zx w c d m land) noIll s fun s =>
    load sp .ld (sizeOf_ sz) land 1 w c (.scalar sz zx (s.h.destS d)) (s.h.destS d)
      [{ at_ := 0, ea := s.ea m (sizeOf_ sz), n := sizeOf_ sz }] s

def execLdv (sp : Space) (w c : Bool) (d : Nat) (m : Mem) (land : Nat) (s : State) : Out :=
  issue (.ldv sp w c d m land) noIll s fun s =>
    load sp .vld 16 land 16 w c (.vec (s.h.regV d)) (s.h.regV d) [{ at_ := 0, ea := s.ea m 256, n := 256 }] s

def execLdm (sp : Space) (w c : Bool) (d : Nat) (m : Mem) (land : Nat) (s : State) : Out :=
  issue (.ldm sp w c d m land) noIll s fun s =>
    load sp .vld 8 land 1 w c (.mask (s.h.destM d)) (s.h.destM d) [{ at_ := 0, ea := s.ea m 8, n := 8 }] s

/-- The 64 elements of a strided or indexed access (R304). -/
def strided (s : State) (m : Mem) (e : Nat) : List Elt := (List.range 64).map fun i => { at_ := 4 * i, ea := s.eaS m e i, n := e }
def indexed (s : State) (m : Mem) (e : Nat) : List Elt := (List.range 64).map fun i => { at_ := 4 * i, ea := s.eaX m e i, n := e }

def execLdvS (sp : Space) (sz : Size) (zx w c : Bool) (d : Nat) (m : Mem) (land : Nat) (s : State) : Out :=
  issue (.ldvS sp sz zx w c d m land) noIll s fun s =>
    load sp .vld (sizeOf_ sz) land 0 w c (.lanes sz zx (s.h.regV d) (BitVec.allOnes 64)) (s.h.regV d) (strided s m (sizeOf_ sz)) s

def execLdvX (sp : Space) (sz : Size) (zx w c : Bool) (d : Nat) (m : Mem) (land : Nat) (s : State) : Out :=
  issue (.ldvX sp sz zx w c d m land) noIll s fun s =>
    load sp .vld (sizeOf_ sz) land 0 w c (.lanes sz zx (s.h.regV d) (BitVec.allOnes 64)) (s.h.regV d) (indexed s m (sizeOf_ sz)) s

/-- PREF (R308): a line toward the core; no effect where R91 refuses it, a bank engine would defer it (R200), its slice's slot is another's (R129), or an
atomic of the core on the sector is on its way. -/
def prefetch (s : State) (ea : Word) : State :=
  match s.xlate ea with
  | .error c => if c.walked then s.walkOn s.cur ea else s
  | .ok p =>
    let line := p.pa / 64
    let s := s.walkOn s.cur ea
    if (p.refuse .vld).isSome ∨ p.cpol = 2 ∨ s.deferred (64 * line) 64 ∨ !s.mayUse s.cur false (64 * line) ∨ s.ownAtomic s.cur line
        ∨ (s.badSector (64 * line) 64 p.key).isSome then s
    else
      let s := s.touch (64 * line) 64 p.cpol p.key (readAgent s.rid) s.rid
      if p.cpol = 0 ∧ s.h.hasL1 s.cur then s.l1FillLine s.cur line p.key else s

def execPref (m : Mem) (s : State) : Out := issue (.pref m) noIll s fun s =>
  if s.acqPending then .hold 0 else .ok (prefetch s (s.ea m 64))

/-! ### Stores -/

/-- Full/empty bits a store sets (R83). -/
def State.qualify (s : State) (fe : FeQ) (l : List (Elt × Spot)) : State :=
  match fe with
  | .plain => s
  | .full => s.emptySpots true l
  | .empty => s.emptySpots false l

/-- Append one access of n granules to a FIFO bank: none if one of them is full (R81). -/
def State.ringPush (s : State) (x : Spot) (n : Nat) (data : List Byte) : Option State :=
  let gs := s.atTail x n
  if gs.any (s.spFull x) then none
  else
    let b := s.spBank x (x.off / bankSize)
    let pad := data ++ List.replicate (16 * n - data.length) 0
    let t := gs.zipIdx.foldl (fun s (g, i) => s.spPut x (16 * g) ((pad.drop (16 * i)).take 16)) s
    some ((t.spSetFulls x gs true).spSetEnds x (x.off / bankSize) b.head (b.tail + BitVec.ofNat 13 n))

/-- The bytes of a C store as the core's own copy commands may still miss them (R114). -/
def State.noteC (s : State) (l : List (Elt × Spot)) (val : Elt → List Byte) : State :=
  let (id, s) := s.fresh
  l.foldl (fun s (e, x) =>
    if x.at_ = .live then
      let note : List CStore := (val e).zipIdx.map fun (b, i) =>
        { id := id, member := (s.hartAt x.hart).member, hart := x.hart, off := x.off + i, old := (s.hartAt x.hart).spByte (x.off + i), new := b }
      s.onH fun h => { h with cst := h.cst ++ note }
    else s) s
/-- An L store comes after the core's own C stores to its bytes. -/
def State.unnoteC (s : State) (l : List (Elt × Spot)) : State :=
  s.onH fun h => { h with cst := h.cst.filter fun c => !l.any fun (e, x) => c.hart = x.hart && x.off ≤ c.off && c.off < x.off + e.n }

/-- An L or C store: every element's bytes in order of the elements, or an append to a FIFO bank. R107 lets it be performed at any time up to the next
release; the model performs it at issue, its choice (log 7), and the core's own copy commands may still miss a C store (R114). -/
def storeLocal (sp : Space) (align : Nat) (fe : FeQ) (elts : List Elt) (val : Elt → List Byte) (fifo : Nat) (s : State) : Res :=
  match s.eltSpots sp align (fifo ≠ 0) elts with
  | .error x => faultRes x
  | .ok l =>
    let put : State := l.foldl (fun s (e, x) => s.spPut x x.off (val e)) (if sp = .c then s.noteC l val else if s.h.cst.isEmpty then s else s.unnoteC l)
    match l with
    | [(e, x)] =>
      if s.spotFifo x then
        match s.ringPush x fifo (val e) with
        | none => .exc { code := cSPACE, detail := 0 } e.ea
        | some t => .ok t
      else .ok (put.qualify fe l)
    | _ => .ok (put.qualify fe l)

/-- A G store (R107, R309). -/
def storeGlobal (a : Access) (align : Nat) (elts : List Elt) (val : Elt → List Byte) (s : State) : Res :=
  match s.eltPieces a align elts with
  | .error x => if s.acqPending then .hold 0 else faultRes x
  | .ok (ps, dev) =>
    if s.acqPending ∨ ps.any fun p => s.storeHeld s.cur p.pa p.n dev then .hold 0
    else
      let all : List Byte := elts.foldl (fun v e => v.take e.at_ ++ val e ++ v.drop (e.at_ + e.n)) (List.replicate 256 0)
      .ok (ps.foldl (fun s p => s.plainStore s.cur p.pa ((all.drop p.at_).take p.n) p.cpol p.key dev) (s.walksOn s.cur (elts.map (·.ea))))

def store (sp : Space) (a : Access) (align fifo : Nat) (fe : FeQ) (elts : List Elt) (val : Elt → List Byte) (s : State) : Res :=
  if sp = .g then storeGlobal a align elts val s
  else if s.acqPending then .hold 0 else storeLocal sp align fe elts val fifo s

def execSt (sp : Space) (sz : Size) (fe : FeQ) (d : Nat) (m : Mem) (s : State) : Out :=
  issue (.st sp sz fe d m) noIll s fun s =>
    store sp .st (sizeOf_ sz) 1 fe [{ at_ := 0, ea := s.ea m (sizeOf_ sz), n := sizeOf_ sz }] (fun _ => bytesOf (sizeOf_ sz) (s.rdS d).toNat) s

def execStv (sp : Space) (fe : FeQ) (d : Nat) (m : Mem) (s : State) : Out :=
  issue (.stv sp fe d m) noIll s fun s =>
    store sp .vst 16 16 fe [{ at_ := 0, ea := s.ea m 256, n := 256 }] (fun _ => bytesOf 256 (s.rdV d).toNat) s

def execStm (sp : Space) (fe : FeQ) (d : Nat) (m : Mem) (s : State) : Out :=
  issue (.stm sp fe d m) noIll s fun s =>
    store sp .vst 8 1 fe [{ at_ := 0, ea := s.ea m 8, n := 8 }] (fun _ => bytesOf 8 (s.rdM d).toNat) s

/-- The low bytes of the lane an element belongs to (R310). -/
def laneBytes (v : VReg) (e : Elt) : List Byte := bytesOf e.n (laneAt v (e.at_ / 4)).toNat

def execStvS (sp : Space) (sz : Size) (fe : FeQ) (d : Nat) (m : Mem) (s : State) : Out :=
  issue (.stvS sp sz fe d m) noIll s fun s =>
    store sp .vst (sizeOf_ sz) 0 fe (strided s m (sizeOf_ sz)) (laneBytes (s.rdV d)) s

def execStvX (sp : Space) (sz : Size) (fe : FeQ) (d : Nat) (m : Mem) (s : State) : Out :=
  issue (.stvX sp sz fe d m) noIll s fun s =>
    store sp .vst (sizeOf_ sz) 0 fe (indexed s m (sizeOf_ sz)) (laneBytes (s.rdV d)) s

/-! ### Atomics -/

/-- The scope of an order's release and of its acquire (R231). -/
def relOf : Order → Option Scope
  | .rel x | .ar x => some x
  | _ => none
def acqOf : Order → Option Scope
  | .acq x | .ar x => some x
  | _ => none

/-- Issue an atomic of n bytes at EA (R312–R315): its page, its release, its entry if it has a destination, and the message to its home slice. The core's own
L1 line of the sector is written back and invalidated before it leaves (R90). -/
def atomic (a : Access) (n land : Nat) (dest : Reg) (rel acq : Option Scope) (op : AtomOp) (ea : Word) (s : State) : Res :=
  if regsOf dest ≠ [] ∧ s.h.lbusy ≥ 64 then .hold 7
  else if s.acqPending then .hold 0
  else match s.gPage ea n a with
    | .error c => .exc c ea
    | .ok p =>
      -- Its release may have to wait (R314).
      let held : Bool := match rel with | some x => s.relHeld s.cur (wideScope x) | none => false
      if held then .hold 0
      else
        let s := s.walkOn s.cur ea
        let s := match rel with
          | some x => s.release s.cur (wideScope x)
          | none => s
        let s := s.evictLine s.cur (p.pa / 64)
        let ret := regsOf dest ≠ []
        let (id, s) := s.fresh
        let s := if ret then s.onH fun h => h.land_ id land (regsOf dest) (.atomic dest) acq (s.slotsFor [p.pa]) else s
        .ok (s.send { id := 0, hart := s.cur, landing := if ret then id else 0, rid := s.rid, lid := s.h.lid.getD 0, member := s.h.member,
                      home := sliceOf p.pa, time := 0, body := .atomic op p.pa p.cpol p.key p.atomsys acq s.h.pc, byTask := !s.h.handler })

/-- EA of an atomic: index names its operand, not an address (R312). -/
def State.eaA (s : State) (m : Mem) (scale : Nat) : Word := s.rdS m.base + m.off.signExtend 64 * word scale

def execAmo (op : AmoOp) (o : Order) (d : Nat) (m : Mem) (land : Nat) (s : State) : Out :=
  issue (.amo op o d m land) noIll s fun s =>
    atomic .amo 8 land (s.h.destS d) (relOf o) (acqOf o) (.amo op (s.rdS m.idx)) (s.eaA m 8) s

/-- CAS takes its expected value from s(d) (R313). -/
def execCas (o : Order) (d : Nat) (m : Mem) (land : Nat) (s : State) : Out :=
  issue (.cas o d m land) noIll s fun s =>
    atomic .amo 8 land (s.h.destS d) (relOf o) (acqOf o) (.cas (s.rdS d) (s.rdS m.idx)) (s.eaA m 8) s

def execAmof (bf : Bool) (rel : Option Scope) (m : Mem) (s : State) : Out :=
  issue (.amof bf rel m) noIll s fun s =>
    atomic .amof 4 0 (.p 0) rel none (.amof bf ((s.rdS m.idx).setWidth 32)) (s.eaA m 4) s

/-- A sequence number with bits [63:32] nonzero is ILLEGAL (R315). -/
def execAmofSeq (bf : Bool) (rel : Option Scope) (d : Nat) (m : Mem) (s : State) : Out :=
  issue (.amofSeq bf rel d m) (fun s => (s.rdS d).toNat ≥ 2 ^ 32) s fun s =>
    atomic .amofSeq 4 0 (.p 0) rel none (.amofSeq bf false (s.rdS d) ((s.rdS m.idx).setWidth 32)) (s.eaA m 4) s

def execAmofSeqSkip (bf : Bool) (rel : Option Scope) (d : Nat) (m : Mem) (s : State) : Out :=
  issue (.amofSeqSkip bf rel d m) (fun s => (s.rdS d).toNat ≥ 2 ^ 32) s fun s =>
    atomic .amofSeq 4 0 (.p 0) rel none (.amofSeq bf true (s.rdS d) 0) (s.eaA m 4) s

/-! ### Granule state -/

/-- Granules of a range within a declared, SCRATCH-mode span (R316). -/
def State.setfeOk (s : State) (x : Spot) (n : Nat) : Bool :=
  n = 0 || (x.off + 16 * n ≤ 2 ^ 21 && s.spotOk x (16 * n) false)

def execSetfe (sp : Space) (full : Bool) (d : Nat) (m : Mem) (s : State) : Out := issue (.setfe sp full d m) noIll s fun s =>
  let ea := s.ea m 16
  let n := (s.rdS d).toNat
  if s.acqPending then .hold 0
  else if ea.toNat % 16 ≠ 0 then .exc { code := cALIGN, detail := 0 } ea
  else match s.spot sp ea with
    | .error c => .exc c ea
    | .ok x =>
      if !s.setfeOk x n then .exc { code := cSPACE, detail := 0 } ea
      else
        -- 64 granules in this cycle, the others in the cycles for which issue stalls.
        let now := if x.at_ = .live then 64 else n
        let t := s.spSetFulls x ((granules x.off (16 * n)).take now) full
        let rest : List (Nat × Nat × Nat × Bool) := if now < n then [(x.hart, x.off / 16 + 64, n - 64, full)] else []
        .ok (t.onH fun h => { h with hdr := h.hdr + ((n + 63) / 64 - 1), setfe := h.setfe ++ rest })

end Sys2Proof.Machine
end

