-- ==== Sys2Proof/Machine/Records.lean ====
section
/-! DEFINITION. Layout records (05 R97–R104), the byte stream of a window and the chunk codec (09 R181–R185). -/

namespace Sys2Proof.Machine

/-- A field read as a two's complement number of n bits. -/
def signed (n x : Nat) : Int := if x < 2 ^ (n - 1) then x else (x : Int) - 2 ^ n

/-! ### Fields (R98) -/

abbrev Rec := BitVec 768

def recFld (r : Rec) (lo n : Nat) : Nat := fld r.toNat lo n
def recBase (r : Rec) : Nat := recFld r 0 64
def recFmt (r : Rec) : Nat := recFld r 64 8
def recRank (r : Rec) : Nat := recFld r 72 3
def recFillMode (r : Rec) : Nat := recFld r 75 2
def recSpace (r : Rec) : Nat := recFld r 77 2
def recFill (r : Rec) : Nat := recFld r 80 16
def recIlv (r : Rec) : Nat := recFld r 96 4
def recIlvg (r : Rec) : Nat := recFld r 100 4
def recScaleOff (r : Rec) : Int := signed 48 (recFld r 704 48)
def recExt (r : Rec) (d : Nat) : Nat := recFld r (128 + 96 * d) 32
def recStride (r : Rec) (d : Nat) : Int := signed 48 (recFld r (160 + 96 * d) 48)
def recBox (r : Rec) (d : Nat) : Nat := recFld r (208 + 96 * d) 16

/-- Bits of an element (R47); 0 for an unknown code. -/
def fmtBits (f : Nat) : Nat :=
  if f = 0x01 then 32 else if f = 0x02 ∨ f = 0x03 then 16 else if f = 0x04 ∨ f = 0x05 ∨ f = 0x08 ∨ f = 0x09 then 8 else if f = 0x0A then 4
  else if (0x10 ≤ f ∧ f ≤ 0x13) ∨ (0x18 ≤ f ∧ f ≤ 0x1B) then 8 * 2 ^ (f % 4) else if f = 0x20 then 1 else 0
def fmtMx (f : Nat) : Bool := f = 0x08 || f = 0x09 || f = 0x0A
def fmtPacked (f : Nat) : Bool := f = 0x0A || f = 0x20
def fmtElem (f : Nat) : Elem := if f = 0x08 then .e4m3 else if f = 0x09 then .e5m2 else .e2m1

/-- The first broken rule of R98, R99 and R103 by its code in R100, 0 for a valid record. -/
def recCode (r : Rec) : Nat :=
  let rank := recRank r
  let dims := List.range (min rank 6)
  let f := recFmt r
  let bits := fmtBits f
  let sp := recSpace r
  let ilv := recIlv r
  let b0 := fld (recBase r) 17 4
  let strideBad (d : Nat) : Bool :=
    if fmtPacked f && d = 0 then recStride r 0 ≠ 0
    else (bits ≥ 8 && recStride r d % (bits / 8 : Nat) ≠ 0) || (fmtMx f && d ≥ 1 && recStride r d % (4 * bits : Nat) ≠ 0)
  let boxBad : Bool := (f = 0x20 && recBox r 0 % 8 ≠ 0) || (fmtMx f && recBox r 0 % 32 ≠ 0)
  if recFld r 752 16 ≠ 0 ∨ recFld r 104 24 ≠ 0 ∨ recFld r 79 1 ≠ 0 then 1
  else if rank = 0 ∨ rank = 7 then 2
  else if bits = 0 then 3
  else if recFillMode r = 3 then 4
  else if sp = 3 then 5
  else if ilv > 4 ∨ (sp = 0 ∧ ilv ≠ 0) ∨ (ilv = 0 ∧ recIlvg r ≠ 0) ∨ (ilv ≠ 0 ∧ (recIlvg r < 6 ∨ 12 < recIlvg r))
      ∨ (ilv ≠ 0 ∧ (b0 % 2 ^ ilv ≠ 0 ∨ 16 < b0 + 2 ^ ilv)) then 6
  else if (sp = 0 ∧ !canonical (word (recBase r))) ∨ (sp = 1 ∧ 2 ^ 21 ≤ recBase r) ∨ (sp = 2 ∧ 2 ^ 26 ≤ recBase r) then 7
  else if dims.any fun d => recExt r d = 0 || recBox r d = 0 then 8
  else if boxBad ∨ dims.any strideBad then 9
  else if (List.range 6).any fun d => rank ≤ d && recFld r (128 + 96 * d) 96 ≠ 0 then 10
  else if recFld r 704 48 ≠ 0 ∧ !fmtMx f then 11
  else 0

/-- A record in lanes 0–23 of a vector register (R97). -/
def recOf (v : VReg) : Rec := v.setWidth 768

/-! ### Windows (R101, R172) -/

/-- Positions of a window below dimension d, and of the whole window. -/
def boxProd (r : Rec) (d : Nat) : Nat := (List.range d).foldl (fun p e => p * recBox r e) 1
def winSize (r : Rec) : Nat := boxProd r (recRank r)
/-- Tensor coordinates of the position with linear index i, from the window origin. -/
def coordsAt (r : Rec) (org : List Int) (i : Nat) : List Int :=
  (List.range (recRank r)).map fun d => org.getD d 0 + ((i / boxProd r d % recBox r d : Nat) : Int)
/-- The coordinates lie in the tensor. -/
def insideT (r : Rec) (c : List Int) : Bool := c.zipIdx.all fun (x, d) => 0 ≤ x && x < recExt r d
def clampT (r : Rec) (c : List Int) : List Int := c.zipIdx.map fun (x, d) => max 0 (min x ((recExt r d : Int) - 1))
/-- Dimensions 1 and up lie in the tensor, and the block of 32 holding the first coordinate begins in it. -/
def blockIn (r : Rec) (c : List Int) : Bool :=
  insideT r (c.set 0 0) && 0 ≤ c.getD 0 0 && c.getD 0 0 / 32 * 32 < recExt r 0
def strideSum (r : Rec) (c : List Int) : Int := (c.zipIdx.map fun (x, d) => if d = 0 then 0 else x * recStride r d).foldl (· + ·) 0
/-- Bit offset of an element from BASE. -/
def elemBit (r : Rec) (c : List Int) : Int :=
  8 * strideSum r c + (if fmtPacked (recFmt r) then c.getD 0 0 * (fmtBits (recFmt r) : Nat) else 8 * (c.getD 0 0 * recStride r 0))
/-- Byte offset of the scale of an element's block from BASE. -/
def scaleAt (r : Rec) (c : List Int) : Int := recScaleOff r + c.getD 0 0 / 32 + strideSum r c / ((4 * fmtBits (recFmt r) : Nat) : Int)

/-- Window origins of a command: lanes 0–5 and 8–13 of its origin register (R169). -/
def originOf (v : VReg) (first : Nat) : List Int := (List.range 6).map fun d => (laneAt v (first + d)).toInt

/-- The place of the byte at linear offset off (R103). -/
def byteLoc (r : Rec) (off : Int) : Loc :=
  let base := recBase r
  let a : Int := (base : Int) + off
  let wrapped := (a % (2 ^ 64 : Nat)).toNat
  if recSpace r = 0 then .g wrapped
  else
    let at_ (o : Nat) : Loc := if recSpace r = 1 then (if o < 2 ^ 21 then .l o else .beyond o) else (if o < 2 ^ 26 then .c o else .beyond o)
    if recIlv r = 0 then (if a < 0 then .beyond wrapped else at_ a.toNat)
    else if off < 0 then .beyond wrapped
    else
      let o := off.toNat
      let gi := o / 2 ^ recIlvg r
      let bank := fld base 17 4 + gi % 2 ^ recIlv r
      let inBank := base % 2 ^ 17 + gi / 2 ^ recIlv r * 2 ^ recIlvg r + o % 2 ^ recIlvg r
      let full := base / 2 ^ 21 * 2 ^ 21 + bank * 2 ^ 17 + inBank
      if 2 ^ 17 ≤ inBank then .beyond full else at_ full

/-- Fill code of an element outside the tensor under FILLMODE 0 and 1 (R102). -/
def fillCode (r : Rec) : Nat :=
  let f := recFmt r
  let v := recFill r
  if recFillMode r ≠ 1 then 0
  else if f = 0x01 then (roundFp fp32 .rn false (bf16.value v)).1
  else if f = 0x12 then (BitVec.ofInt 32 (signed 16 v)).toNat
  else if f = 0x13 then (BitVec.ofInt 64 (signed 16 v)).toNat
  else v % 2 ^ min (fmtBits f) 16
/-- Scale of a block wholly outside the tensor (R102). -/
def fillScale (r : Rec) : Nat := if recFillMode r = 1 then recFill r / 256 else 0

/-- A piece of a window: bits [lo + n − 1 : lo] of the element at linear index i, or the scale of the window's block b. -/
inductive What where
  | elem (i lo n : Nat)
  | scale (b : Nat)
  deriving DecidableEq, Repr

/-- Linear index of the first position of block b of a window (R183: blocks of 32 positions along dimension 0 in window order). -/
def blockFirst (b : Nat) : Nat := 32 * b

/-- Byte j of a window's byte stream (R183): the pieces it holds, lowest bits first. -/
def streamByte (r : Rec) (j : Nat) : List What :=
  let bits := fmtBits (recFmt r)
  let n := winSize r
  if j < n * bits / 8 then
    if bits < 8 then (List.range (8 / bits)).map fun e => .elem (j * (8 / bits) + e) 0 bits else [.elem (j / (bits / 8)) (8 * (j % (bits / 8))) 8]
  else [.scale (j - n * bits / 8)]
/-- Size of a window's byte stream. -/
def streamSize (r : Rec) : Nat := winSize r * fmtBits (recFmt r) / 8 + (if fmtMx (recFmt r) then winSize r / 32 else 0)
/-- Chunks of 4,096 stream bytes, and the share of chunk k (R183). -/
def chunkCount (r : Rec) : Nat := (streamSize r + 4095) / 4096
def chunkShare (r : Rec) (k : Nat) : Nat := min 4096 (streamSize r - 4096 * k)

/-- Width of a piece. -/
def What.bits : What → Nat
  | .elem _ _ n => n
  | .scale _ => 8

/-! ### The chunk codec -/

/-- One step of CRC-32C over a byte, reflected (R181). -/
def crcByte (c : BitVec 32) (b : Byte) : BitVec 32 :=
  (List.range 8).foldl (fun c _ => if c.getLsbD 0 then (c >>> 1) ^^^ 0x82F63B78 else c >>> 1) (c ^^^ b.setWidth 32)
def crc32c (d : List Byte) : BitVec 32 := (d.foldl crcByte 0xFFFFFFFF) ^^^ 0xFFFFFFFF

/-- zero_run (R182): at most `fuel` tokens; the expansion, and whether the tokens overran. -/
def zeroRun (max : Nat) : Nat → List Byte → List Byte → List Byte × Bool
  | 0, _, out => (out, false)
  | fuel + 1, d, out =>
    if d.isEmpty ∨ max ≤ out.length then (out, false)
    else match d with
    | [_] => (out, true)
    | a :: b :: t =>
      let w := a.toNat + 256 * b.toNat
      let n := w % 32768 + 1
      if w ≥ 32768 then zeroRun max fuel t (out ++ List.replicate (2 * n) 0)
      else if t.length < 2 * n then (out, true)
      else zeroRun max fuel (t.drop (2 * n)) (out ++ t.take (2 * n))
    | [] => (out, false)

/-- Byte planes joined again (R182, codec 2). -/
def joinPlanes (u : List Byte) (n : Nat) : List Byte :=
  (List.range (n / 2)).flatMap fun j => [u.getD j 0, u.getD (n / 2 + j) 0]
/-- Byte planes split. -/
def splitPlanes (d : List Byte) : List Byte :=
  (List.range (d.length / 2)).map (fun j => d.getD (2 * j) 0) ++ (List.range (d.length / 2)).map fun j => d.getD (2 * j + 1) 0

/-- Expand the chunk in a slot (R181–R183): none for a bad chunk. -/
def expandChunk (slot : List Byte) : Option (List Byte) :=
  let at_ (o n : Nat) : Nat := numOf ((slot.drop o).take n)
  let codec := at_ 2 1
  let decl := at_ 4 4
  let stored := at_ 8 4
  if at_ 0 2 ≠ 0x5A42 ∨ codec > 2 ∨ at_ 3 1 ≠ 0 ∨ decl = 0 ∨ decl > 4096 ∨ (codec ≠ 0 ∧ decl % 2 = 1) ∨ stored > 4096 ∨ (codec = 0 ∧ stored ≠ decl)
  then none
  else
    let d := (slot.drop 16).take stored
    let (u, ran) := if codec = 0 then (d, false) else zeroRun decl 4096 d []
    if ran ∨ u.length ≠ decl then none
    else
      let out := if codec = 2 then joinPlanes u decl else u
      if (crc32c out).toNat ≠ at_ 12 4 then none else some out

/-- 16-bit words of an even number of bytes. -/
def wordsOf : List Byte → List Nat
  | a :: b :: t => (a.toNat + 256 * b.toNat) :: wordsOf t
  | _ => []
/-- Words from the front that are zero, or that are not, at most n of them. -/
def runLen (zero : Bool) : Nat → List Nat → Nat
  | 0, _ => 0
  | _, [] => 0
  | n + 1, w :: t => if (w = 0) = zero then 1 + runLen zero n t else 0
/-- Zero-run encoding (R185): one token for each maximal run of zero words, literal tokens between. -/
def zeroRunPack : Nat → List Nat → List Byte
  | 0, _ => []
  | _, [] => []
  | fuel + 1, w :: t =>
    let n := runLen (w = 0) 32768 (w :: t)
    let body := if w = 0 then [] else (w :: t).take n |>.flatMap (bytesOf 2)
    bytesOf 2 ((if w = 0 then 32768 else 0) + (n - 1)) ++ body ++ zeroRunPack fuel ((w :: t).drop n)

/-- A chunk with its header (R181, R185). -/
def packChunk (codec : Codec) (d : List Byte) : List Byte :=
  let pack (x : List Byte) : List Byte := zeroRunPack 2048 (wordsOf x)
  let coded : Option (Nat × List Byte) :=
    if d.length % 2 = 1 then none
    else match codec with
    | .raw => none
    | .zr => some (1, pack d)
    | .bp => some (2, pack (splitPlanes d))
  let (n, body) := match coded with
    | some (n, x) => if x.length < d.length ∧ x.length ≤ 4096 then (n, x) else (0, d)
    | none => (0, d)
  bytesOf 2 0x5A42 ++ bytesOf 1 n ++ [0] ++ bytesOf 4 d.length ++ bytesOf 4 body.length ++ bytesOf 4 (crc32c d).toNat ++ body

/-- A share's bytes from its chunk (R183): expanded bytes, zeros after them; zeros for a bad chunk. -/
def shareOf (n : Nat) (d : Option (List Byte)) : List Byte :=
  let x := d.getD []
  (List.range n).map fun i => x.getD i 0

end Sys2Proof.Machine
end

