-- ==== Sys2Proof/Machine/Copy.lean ====
section
/-! DEFINITION. Copy commands at issue (09 R168–R171, 16 R319–R322, R332, R333): where a member's storage is, the probe, and the queue; layout records
(16 R323, R324). -/

namespace Sys2Proof.Machine

/-! ### Storage of a member (R174, R175, R382) -/

/-- Where a member's scratchpad and barriers are: on a core, in a save area (with the core that holds a KEEP scratchpad), or nowhere. A member that has
ended has none, so that a multicast to it writes nothing and its count is dropped, which R174 leaves open (log 31). -/
inductive Storage where
  | live (k : Nat)
  | image (area k : Nat)
  | gone
  deriving DecidableEq, Repr

def State.storage (s : State) (lid : Option Nat) (m core : Nat) : Storage :=
  match lid with
  | none => .live core
  | some l =>
    match s.placeOf l m with
    | .resident k | .stopped k => .live k
    | .saved a k => .image a k
    | _ => if (s.launch? l).isNone && (s.hartAt core).lid = some l && (s.hartAt core).member = m then .live core else .gone

/-- A KEEP task's scratchpad stays on its core (R380, R382). -/
def State.spStore (s : State) (st : Storage) : Storage :=
  match st with
  | .image a k => if wf (s.dwordAt (a + 56)) 0 1 = 1 then .live k else .image a k
  | x => x

def State.stBank (s : State) (st : Storage) (b : Nat) : Bank :=
  match s.spStore st with
  | .live k => (s.hartAt k).bank b
  | .image a _ => s.imgBankAt a b
  | .gone => { Bank.reset with mode := .cache }

/-- An engine's write of consecutive scratchpad bytes within a bank (R83, R382). -/
def State.stWrite (s : State) (st : Storage) (off : Nat) (data : List Byte) : State :=
  match s.spStore st with
  | .live k => s.setHart k ((s.hartAt k).engineWrite off data)
  | .image a _ => (granules off data.length).foldl (fun s g => s.imgSetFull a true g) (s.putBytes (imgSp a off) data)
  | .gone => s

/-- Append one granule to a FIFO bank, if its TAIL granule is empty (R81). -/
def State.stAppend (s : State) (st : Storage) (b : Nat) (data : List Byte) : Option State :=
  let x := s.stBank st b
  let t := x.tail.toNat
  let g := b * 8192 + t
  match s.spStore st with
  | .live k =>
    if (s.hartAt k).fullAt g then none
    else some (s.setHart k (((s.hartAt k).engineWrite (16 * g) data).setBank b
      { x with tail := x.tail + 1, full := Tab.set false x.full t true }))
  | .image a _ =>
    if (s.byteAt (imgFull a g)).getLsbD (g % 8) then none
    else some ((s.stWrite st (16 * g) data).putBytes (imgBank a b) (bytesOf 4 (Bank.imageWord { x with tail := x.tail + 1 })))
  | .gone => some s

/-! ### Barriers in storage (R174, R178, R339, R381) -/

/-- BAR.INFO words 0–6 of a barrier (R339). -/
def Barrier.info (b : Barrier) (w : Nat) : Word :=
  if w = 0 then word b.expb else if w = 1 then word b.arrb
  else if w = 2 then word (b.infl * 2 ^ 48 + b.refcnt * 2 ^ 32 + b.arra * 2 ^ 16 + b.expa)
  else if w = 3 then b.deadline else if w = 4 then b.cmask
  else if w = 5 then word ((if b.phase then 2 ^ 56 else 0) + b.flags.toNat * 2 ^ 52 + b.lflags.toNat * 2 ^ 48 + b.lbytes)
  else b.lmask

/-- The barrier that words 0–6 of a save-area entry hold. -/
def Barrier.ofWords (w : Nat → Word) : Barrier :=
  { expb := wf (w 0) 0 48, arrb := wf (w 1) 0 48, expa := wf (w 2) 0 16, arra := wf (w 2) 16 16, refcnt := wf (w 2) 32 16, infl := wf (w 2) 48 16,
    deadline := w 3, cmask := w 4, phase := wf (w 5) 56 1 = 1, flags := BitVec.ofNat 4 (wf (w 5) 52 4), lflags := BitVec.ofNat 4 (wf (w 5) 48 4),
    lbytes := wf (w 5) 0 48, lmask := w 6 }

/-- The eight words of a save-area entry: word 7 [63] VALID. -/
def Barrier.entry (b : Barrier) : List Byte :=
  ((List.range 7).flatMap fun w => bytesOf 8 (b.info w).toNat) ++ bytesOf 8 (if b.refcnt = 0 then 0 else 2 ^ 63)

def State.stBar (s : State) (st : Storage) (n : Nat) : Option Barrier :=
  match st with
  | .live k => (s.hartAt k).bar n
  | .image a _ =>
    if wf (s.dwordAt (imgBar a n + 56)) 63 1 = 1 then some (Barrier.ofWords fun w => s.dwordAt (imgBar a n + 8 * w)) else none
  | .gone => none

def State.stSetBar (s : State) (st : Storage) (n : Nat) (b : Barrier) : State :=
  match st with
  | .live k => s.setHart k ((s.hartAt k).setBar n b)
  | .image a _ => s.putBytes (imgBar a n) b.entry
  | .gone => s

/-- A reference and an INFL count, taken and given back (R173, R178). A count that stands at 65,535 keeps its value when one more is taken, and the arrival takes
one off all the same: the manual gives a refusal for BAR.REF only, the model's choice (log 31). -/
def Barrier.take_ (b : Barrier) : Barrier := { b with refcnt := sat16 (b.refcnt + 1), infl := sat16 (b.infl + 1) }
def Barrier.give (b : Barrier) : Barrier := { b with refcnt := b.refcnt - 1, infl := b.infl - 1 }

/-! ### The records and units of a command -/

/-- OPCODE of a command (R320, R322, R332). -/
def CopyOp.opcode : CopyOp → Nat
  | .cp => 1 | .mc => 2 | .x _ => 3 | .pk _ => 4 | .un => 5 | .stamp => 6 | .netPut _ => 0x38 | .netGet => 0x39

/-- Codec of a NET.PUT or CP.PK by its code (R320, R332). -/
def codecNum : Codec → Nat
  | .raw => 0 | .zr => 1 | .bp => 2

def Cmd.so (c : Cmd) : List Int := originOf c.org 0
def Cmd.do_ (c : Cmd) : List Int := originOf c.org 8
/-- First chunk slot of CP.UN and of CP.PK (R183, R320). -/
def Cmd.firstSlot (c : Cmd) : Nat := (laneAt c.org (if c.op = .un then 0 else 8)).toNat
/-- The barrier that counts on the issuer's side: BAR, or LBAR of a NET.PUT (R319, R332). -/
def Cmd.barIx (c : Cmd) : Nat := match c.op with | .netPut _ => wf c.aux 16 10 | _ => wf c.cmd 32 10
/-- The formats of a CP.X quantise (R180). -/
def Cmd.quantises (c : Cmd) : Bool := match c.op with | .x _ => fmtMx (recFmt c.dst) | _ => false
/-- Address of slot i of a stream (R181). -/
def slotAddr (r : Rec) (i : Nat) : Nat := (recBase r + 4160 * i) % 2 ^ 64

/-- Bytes of a row of a packed window that hold at least one of its elements, counting a possible unaligned end. -/
def rowSpan (r : Rec) : Nat := recBox r 0 * fmtBits (recFmt r) / 8 + 1
/-- Element units of a destination window: elements, or the bytes of its rows where the format is packed. -/
def elemUnits (r : Rec) : Nat := if fmtPacked (recFmt r) then winSize r / recBox r 0 * rowSpan r else winSize r

/-- Units of a command (R172, R173, R183, R185). -/
def Cmd.total (c : Cmd) : Nat :=
  match c.op with
  | .stamp => 1
  | .un => chunkCount c.dst
  | .pk _ | .netPut _ => chunkCount c.src
  | .netGet => streamSize c.dst
  | _ => if c.quantises then winSize c.dst / 32
    else elemUnits c.dst + (if fmtMx (recFmt c.dst) then winSize c.dst / 32 else 0)

/-- The elements of a packed row that lie in byte j of the row's span: those whose bits fall into that byte. -/
def packedElems (r : Rec) (org : List Int) (row j : Nat) : List What :=
  let bits := fmtBits (recFmt r)
  let box := recBox r 0
  let start := elemBit r (coordsAt r org (row * box)) / 8 + j
  (List.range box).filterMap fun e =>
    if elemBit r (coordsAt r org (row * box + e)) / 8 = start then some (.elem (row * box + e) 0 bits) else none

/-- The pieces of unit u of a command, by destination window positions. -/
def Cmd.pieces (c : Cmd) (u : Nat) : List What :=
  let r := c.dst
  match c.op with
  | .stamp | .pk _ | .netPut _ => []
  | .un => (List.range (chunkShare r u)).flatMap fun j => streamByte r (4096 * u + j)
  | .netGet => streamByte r u
  | _ =>
    if c.quantises then (List.range 32).map (fun e => .elem (32 * u + e) 0 (fmtBits (recFmt r))) ++ [.scale u]
    else if u < elemUnits r then
      if fmtPacked (recFmt r) then packedElems r c.do_ (u / rowSpan r) (u % rowSpan r) else [.elem u 0 (fmtBits (recFmt r))]
    else [.scale (u - elemUnits r)]

/-- Where a piece goes in a window: bit offset from BASE; none outside the tensor. A scale is written where its block has a position in the tensor. -/
def placeBit (r : Rec) (org : List Int) : What → Option Int
  | .elem i lo _ => let x := coordsAt r org i; if insideT r x then some (elemBit r x + lo) else none
  | .scale b =>
    let x := coordsAt r org (blockFirst b)
    if (List.range 32).any fun e => insideT r (coordsAt r org (blockFirst b + e)) then some (8 * scaleAt r x) else none

/-- Byte offsets from BASE that a piece touches. -/
def touchBytes (bit : Int) (n : Nat) : List Int := (List.range ((n + 7) / 8)).map fun (i : Nat) => bit / 8 + (i : Int)

/-- Every destination byte of unit u, without repetition, as an offset from BASE. -/
def Cmd.unitOffs (c : Cmd) (u : Nat) : List Int :=
  ((c.pieces u).flatMap fun p => match placeBit c.dst c.do_ p with
    | some b => touchBytes b p.bits
    | none => []).foldl (fun l x => if l.contains x then l else l ++ [x]) []

/-- Places that unit u writes. -/
def Cmd.unitLocs (c : Cmd) (u : Nat) : List Loc :=
  match c.op with
  | .stamp => (List.range 8).map fun i => .g ((c.cmd.toNat + i) % 2 ^ 64)
  | .pk _ => (List.range 4160).map fun i => .g ((slotAddr c.dst (c.firstSlot + u) + i) % 2 ^ 64)
  | .netPut _ => []
  | _ => (c.unitOffs u).map fun o => byteLoc c.dst o

/-- Source positions that the command may read: in the tensor, or clamped under replicate edge (R101, R102). -/
def srcCoords (r : Rec) (org : List Int) (i : Nat) : Option (List Int) :=
  let x := coordsAt r org i
  if insideT r x then some x else if recFillMode r = 2 then some (clampT r x) else none
/-- Places of the source window's bytes, scales among them. A conversion also reads the scale of a block that holds only some positions of the tensor
(R102). -/
def srcLocs (r : Rec) (org : List Int) (conv : Bool) : List Loc :=
  let bits := fmtBits (recFmt r)
  (List.range (winSize r)).flatMap fun i =>
    let x := coordsAt r org i
    (match srcCoords r org i with
     | some y => ((touchBytes (elemBit r y) bits).map fun o => byteLoc r o) ++ (if fmtMx (recFmt r) then [byteLoc r (scaleAt r y)] else [])
     | none => if conv && fmtMx (recFmt r) && blockIn r x then [byteLoc r (scaleAt r x)] else [])
/-- Places of the destination window's bytes. -/
def dstLocs (c : Cmd) : List Loc := (List.range c.total).flatMap c.unitLocs

/-! ### The probe (R170, R321, R322, R333) -/

/-- A page the probe needs: an address, the class it must have, and what it must permit. -/
structure Need where
  va : Nat
  cls : Nat
  r : Bool
  w : Bool
  deriving DecidableEq, Repr

/-- One address for each page a list of places touches. -/
def pageNeeds (cls : Nat) (r w : Bool) (l : List Loc) : List Need :=
  l.foldl (fun acc x => match x with
    | .g va => if acc.any fun n => n.va / 4096 = va / 4096 then acc else acc ++ [{ va := va, cls := cls, r := r, w := w }]
    | _ => acc) []
/-- One address for each page of n bytes at va. -/
def spanNeeds (cls : Nat) (r w : Bool) (va n : Nat) : List Need :=
  if n = 0 then []
  else (List.range ((va + n - 1) / 4096 + 1 - va / 4096)).map fun i =>
    { va := (if i = 0 then va else (va / 4096 + i) * 4096) % 2 ^ 64, cls := cls, r := r, w := w }

/-- Code 0 and the translation of a needed page, or code 1 or 2 (R170). A leaf with a KEYID that the module or the partition does not admit has code 2,
which the table leaves open (log 31). -/
def State.probePage (s : State) (n : Need) : Nat × Option Probed :=
  match s.xlate (word n.va) with
  | .error c =>
    if c.code ≠ cXLATE then (2, none)
    else match s.findLeaf s.die s.cur (wf s.h.asid 0 16) s.h.ptroot (n.va % 2 ^ 57) with
      | .noPolicy _ => (if canonical (word n.va) then 2 else 1, none)
      | _ => (1, none)
  | .ok p =>
    if p.cls ≠ n.cls ∨ (n.r ∧ !p.r) ∨ (n.w ∧ !p.w) then (2, none)
    else (0, some { vpn := n.va / 4096, ppn := p.pa / 4096, cpol := p.cpol, key := p.key, size := p.size })

/-- A scratchpad place the command may use (code 3). `src` refuses FIFO banks; `anyMode` leaves the mode to the delivery (CP.MC). -/
def State.spotUsable (s : State) (src anyMode : Bool) (x : Loc) : Bool :=
  let ok (b : Nat) (m : BankMode) : Bool := b < s.h.scr && (anyMode || m = .scratch || (!src && m = .fifo))
  match x with
  | .g _ => true
  | .beyond _ => false
  | .l o => ok (o / bankSize) (s.h.bank (o / bankSize)).mode
  | .c o =>
    match s.h_launch, s.h.lid with
    | some l, some lid =>
      let lc := s.h.lcore.toNat / 32 * 32 + o / 2 ^ 21
      if !l.fixed ∨ l.phase = .done ∨ l.phase = .retired ∨ l.nlcore ≤ lc then false
      else
        let st := s.storage (some lid) lc s.cur
        st ≠ .gone && ok (o % 2 ^ 21 / bankSize) (s.stBank st (o % 2 ^ 21 / bankSize)).mode
    | _, _ => false

def locAddr : Loc → Nat
  | .g a | .l a | .c a | .beyond a => a

/-- A failed probe: CPPROBE with its code and address (R170). -/
def probeFail (code : Nat) (addr : Nat) : Except (Cause × Word) (List Probed) := .error ({ code := cCPPROBE, detail := code }, word addr)

/-- Check pages, then scratchpad places, then the given later codes, lowest first; the translations on success. -/
def State.probe (s : State) (needs : List Need) (src dst : List Loc) (anyMode : Bool) (later : Nat × Nat) : Except (Cause × Word) (List Probed) :=
  if needs.any fun n => s.walkHeld (word n.va) then .error ({ code := cWAIT, detail := 0 }, 0)
  else match needs.find? fun n => (s.probePage n).1 = 1 with
  | some n => probeFail 1 n.va
  | none =>
    match needs.find? fun n => (s.probePage n).1 = 2 with
    | some n => probeFail 2 n.va
    | none =>
      match src.find? fun x => !s.spotUsable true false x with
      | some x => probeFail 3 (locAddr x)
      | none =>
        match dst.find? fun x => !s.spotUsable false anyMode x with
        | some x => probeFail 3 (locAddr x)
        | none => if later.1 ≠ 0 then probeFail later.1 later.2 else .ok (needs.filterMap fun n => (s.probePage n).2)

/-- Format and space combinations (R169, R180): code 5 where refused. -/
def Cmd.formOk (c : Cmd) : Bool :=
  let fs := recFmt c.src
  let fd := recFmt c.dst
  match c.op with
  | .cp => fs = fd
  | .mc => fs = fd && recSpace c.dst = 1
  | .x _ => ((fs = 0x01 || fs = 0x03) && fmtMx fd) || (fmtMx fs && (fd = 0x01 || fd = 0x03))
  | .pk _ => recSpace c.dst = 0
  | .un => recSpace c.src = 0 && recSpace c.dst ≠ 0
  | _ => true

/-- The bad-chunk list's pages (R321): the descriptor and its array. -/
def State.listNeeds (s : State) (c : Cmd) : List Need :=
  if c.op ≠ .un ∨ c.aux = 0 then []
  else
    let d := spanNeeds 0 true true c.aux.toNat 32
    match s.xlate c.aux with
    | .ok p => d ++ spanNeeds 0 true true (s.numSeen p.key p.pa 8) (8 * s.numSeen p.key (p.pa + 8) 8)
    | .error _ => d

/-- An entry of a die's session table (R412). -/
def sessionPa (die n : Nat) : Nat := ctlBase die + offSessions + 64 * n
/-- STATE of a session. -/
def State.sessionState (s : State) (die n : Nat) : Nat := fld (s.ctlNum (sessionPa die n) 8) 0 2
def State.setSessionState (s : State) (die n st : Nat) : State :=
  let w := s.ctlNum (sessionPa die n) 8
  s.setCtl (sessionPa die n) 8 (w / 4 * 4 + st)
/-- Key state of a session. -/
def SessKey.none_ : SessKey := { key := 0, old := none, expiry := 0, acked := 0 }
def State.sessKey (s : State) (die n : Nat) : SessKey := Tab.get SessKey.none_ (s.dieAt die).keys n
def State.setSessKey (s : State) (die n : Nat) (x : SessKey) : State := s.setDie die { s.dieAt die with keys := Tab.put (s.dieAt die).keys n x }
/-- A packet's nonce (R415): the salt, which follows the 32 bytes of the key, then TXPKT as 8 bytes (log 15). -/
def SessKey.nonce (x : SessKey) (txpkt : Nat) : BitVec 96 := BitVec.ofNat 96 (x.key.toNat / 2 ^ 256 + txpkt * 2 ^ 32)
/-- A packet under a key is accepted: the session's key, or the one before it until that expires (R415). -/
def SessKey.accepts (x : SessKey) (key : BitVec 288) (time : Nat) : Bool := key = x.key || (x.old = some key && time < x.expiry)
/-- A session the partition owns (R404, R412). -/
def State.sessionOwned (s : State) (die n : Nat) : Bool :=
  let w := s.descWord die 10
  fld w 0 16 ≤ n && n < fld w 0 16 + fld w 16 16 && n < 4096
/-- The session of a NET command is the partition's, open, and granted to the launch (R412): code 8 of CPPROBE otherwise. -/
def State.sessionOk (s : State) (n : Nat) : Bool :=
  s.sessionOwned s.die n && (s.sessionState s.die n = 1 || s.sessionState s.die n = 2)
    && s.h.lid.map (· % 2 ^ 32) = some (fld (s.ctlNum (sessionPa s.die n) 8) 32 32)

/-- The whole probe of a command. -/
def State.probeCmd (s : State) (c : Cmd) (sessionOk : Bool) : Except (Cause × Word) (List Probed) :=
  let mxOrg : Bool := fmtMx (recFmt c.dst) && c.do_.getD 0 0 % 32 ≠ 0
  match c.op with
  | .stamp => s.probe (if canonical c.cmd then pageNeeds 0 false true [.g c.cmd.toNat] else []) [] [] false
      (if canonical c.cmd ∧ c.cmd.toNat % 8 = 0 then 0 else 7, c.cmd.toNat)
  | .pk _ =>
    let src := srcLocs c.src c.so false
    -- A stream record outside G space has no pages: code 5 alone.
    let dst := if recSpace c.dst ≠ 0 then [] else (List.range c.total).flatMap fun k => spanNeeds 2 false true (slotAddr c.dst (c.firstSlot + k)) 4160
    s.probe (pageNeeds 0 true false src ++ dst) src [] false (if c.formOk then 0 else 5, 0)
  | .un =>
    let src := if recSpace c.src ≠ 0 then [] else (List.range c.total).flatMap fun k => spanNeeds 2 true false (slotAddr c.src (c.firstSlot + k)) 4160
    let dst := dstLocs c
    s.probe (src ++ pageNeeds 0 false true dst ++ s.listNeeds c) [] dst false
      (if !c.formOk then (5, 0) else if mxOrg then (6, 0) else if c.aux.toNat % 32 ≠ 0 then (7, c.aux.toNat) else (0, 0))
  | .netPut _ =>
    let src := srcLocs c.src c.so false
    s.probe (pageNeeds 0 true false src) src [] false (if sessionOk then 0 else 8, 0)
  | .netGet =>
    let dst := dstLocs c
    s.probe (pageNeeds 0 false true dst) [] dst false (if mxOrg then 6 else if sessionOk then 0 else 8, 0)
  | _ =>
    let conv : Bool := match c.op with | .x _ => true | _ => false
    let src := srcLocs c.src c.so conv
    let dst := dstLocs c
    s.probe (pageNeeds 0 true false src ++ pageNeeds 0 false true dst) src dst (c.op = .mc)
      (if winSize c.src ≠ winSize c.dst then 4 else if !c.formOk then 5 else if mxOrg then 6 else 0, 0)

/-! ### Issue -/

/-- Commands that occupy the queue of 64 (R168). -/
def Hart.copyBusy (h : Hart) : Nat := (h.copyq.filter fun c => !c.finished).length

/-- The grant window of the task (R100, R356 LTGRANT). -/
def Hart.granted (h : Hart) (ix : Nat) : Bool := wf h.ltgrant 0 16 ≤ ix && ix < wf h.ltgrant 0 16 + wf h.ltgrant 16 17
/-- An installed record, or LREC 12 or 13 (R100). -/
def State.record (s : State) (ix : Nat) : Except Cause Rec :=
  if !s.h.granted ix then .error { code := cLREC, detail := 12 }
  else match (s.h_launch.bind fun l => Tab.find l.lrecs ix) with
    | some r => .ok r
    | none => .error { code := cLREC, detail := 13 }

/-- The group check of R35 without membership: code 2 of BARRIER. -/
def State.groupOk (s : State) (g : Nat) : Bool :=
  match s.h_launch with
  | some l => l.fixed && g < l.groupCount
  | none => false

def Part.fresh (dest : Option Nat) : Part := { dest := dest, begun := false, held := false, next := 0, moved := [], buf := [], lost := 0, arrived := false }

/-- A command as its bundle captures it (R104, R321). -/
def State.command (s : State) (op : CopyOp) (nb : Bool) (cmd aux : Word) (org : VReg) (src dst : Rec) : Cmd :=
  let h := s.h
  let dest : List (Option Nat) := match op with
    | .mc => ((s.h_launch.map fun l => l.groupMembers (wf aux 0 8)).getD []).map some
    | _ => [none]
  { id := 0, op := op, nb := nb, cmd := cmd, aux := aux, org := org, src := src, dst := dst, pages := [], asid := wf h.asid 0 16, wrote := [], seen := [], lid := h.lid, member := h.member,
    lcore := h.lcore.toNat, core := s.cur, started := false, parts := dest.map Part.fresh, errs := [], finished := false, confirmed := 0, closed := false }

/-- Enqueue a probed command, whose probe has walked for its pages (R387, R393); a counting one but CP.MC takes a reference and an INFL count on its barrier (R173). -/
def State.enqueue (s : State) (c : Cmd) (pages : List Probed) : State :=
  let (id, s) := (s.walksOn s.cur (pages.map fun p => word (p.vpn * 4096))).fresh
  s.onH fun h =>
    let counts : Bool := !(c.nb || c.op = .mc || c.op = .stamp)
    let h := { h with copyq := h.copyq ++ [{ c with id := id, pages := pages, parts := c.parts.map fun p => { p with held := counts } }] }
    match (if counts then h.bar c.barIx else none) with
    | some b => h.setBar c.barIx b.take_
    | none => h

/-- Issue of CP, CP.MC, CP.X, CP.PK and CP.UN (R321). -/
def copyIssue (i : Instr) (op : CopyOp) (nb : Bool) (org cmd aux : Nat) (s : State) : Out :=
  issue i (fun s =>
    let w := s.rdS cmd
    wf w 42 22 ≠ 0 || (nb && wf w 32 10 ≠ 0) || (op = .mc && wf (s.rdS aux) 8 56 ≠ 0)) s fun s =>
  if s.h.copyBusy ≥ 64 then .hold 7
  else
    let w := s.rdS cmd
    match s.record (wf w 0 16) with
    | .error c => .exc c (word (wf w 0 16))
    | .ok src =>
      match s.record (wf w 16 16) with
      | .error c => .exc c (word (wf w 16 16))
      | .ok dst =>
        if !nb && (s.h.bar (wf w 32 10)).isNone then .exc { code := cBARRIER, detail := 1 } 0
        else if op = .mc && !s.groupOk (wf (s.rdS aux) 0 8) then .exc { code := cBARRIER, detail := 2 } 0
        else
          let c := s.command op nb w (s.rdS aux) (s.rdV org) src dst
          match s.probeCmd c true with
          | .error x => faultRes x
          | .ok pages => .ok (s.enqueue c pages)

def execCp (nb : Bool) (org cmd aux : Nat) (s : State) : Out := copyIssue (.cp nb org cmd aux) .cp nb org cmd aux s
def execCpMc (org cmd aux : Nat) (s : State) : Out := copyIssue (.cpMc org cmd aux) .mc false org cmd aux s
def execCpX (nb sr : Bool) (org cmd aux : Nat) (s : State) : Out := copyIssue (.cpX nb sr org cmd aux) (.x sr) nb org cmd aux s
def execCpPk (nb : Bool) (k : Codec) (org cmd aux : Nat) (s : State) : Out := copyIssue (.cpPk nb k org cmd aux) (.pk k) nb org cmd aux s
def execCpUn (nb : Bool) (org cmd aux : Nat) (s : State) : Out := copyIssue (.cpUn nb org cmd aux) .un nb org cmd aux s

/-- CP.STAMP (R322): the command word is the address, the auxiliary word the value. -/
def execCpStamp (a v : Nat) (s : State) : Out := issue (.cpStamp a v) noIll s fun s =>
  if s.h.copyBusy ≥ 64 then .hold 7
  else
    let c := s.command .stamp true (s.rdS a) (s.rdS v) 0 0 0
    match s.probeCmd c true with
    | .error x => faultRes x
    | .ok pages => .ok (s.enqueue c pages)

/-- Issue of NET.PUT and NET.GET (R332, R333): the local record and barrier, then the probe of the local side. -/
def netIssue (i : Instr) (op : CopyOp) (nb : Bool) (org cmd aux : Nat) (s : State) : Out :=
  let get : Bool := op = .netGet
  issue i (fun s =>
    let w := s.rdS cmd
    let x := s.rdS aux
    wf x 26 38 ≠ 0 || wf x 12 4 ≠ 0 || (get && wf x 16 10 ≠ 0) || (nb && (if get then wf w 32 10 ≠ 0 else wf x 16 10 ≠ 0))) s fun s =>
  if s.h.copyBusy ≥ 64 then .hold 7
  else
    let w := s.rdS cmd
    match s.record (if get then wf w 16 16 else wf w 0 16) with
    | .error c => .exc c (word (if get then wf w 16 16 else wf w 0 16))
    | .ok r =>
      let c := s.command op nb w (s.rdS aux) (s.rdV org) (if get then 0 else r) (if get then r else 0)
      if !nb && (s.h.bar c.barIx).isNone then .exc { code := cBARRIER, detail := 1 } 0
      else match s.probeCmd c (s.sessionOk (wf w 48 16)) with
        | .error x => faultRes x
        | .ok pages => .ok (s.enqueue c pages)

def execNetPut (nb : Bool) (k : Codec) (org cmd aux : Nat) (s : State) : Out := netIssue (.netPut nb k org cmd aux) (.netPut k) nb org cmd aux s
def execNetGet (nb : Bool) (org cmd aux : Nat) (s : State) : Out := netIssue (.netGet nb org cmd aux) .netGet nb org cmd aux s

/-! ### Layout records -/

/-- LREC.PUT (R100, R323): the lowest code; the record is installed whole in the cycle of issue. The fault address is the index (R356). -/
def execLrecPut (v ix : Nat) (s : State) : Out := issue (.lrecPut v ix) noIll s fun s =>
  let n := s.rdS ix
  let r := recOf (s.rdV v)
  if recCode r ≠ 0 then .exc { code := cLREC, detail := recCode r } n
  else if wf n 16 48 ≠ 0 ∨ !s.h.granted (wf n 0 16) then .exc { code := cLREC, detail := 12 } n
  else match s.h.lid, s.h_launch with
    | some lid, some l => .ok (s.setLaunch lid { l with lrecs := Tab.put l.lrecs (wf n 0 16) r })
    | _, _ => .ok s

/-- LREC.GET (R324), latency 8. -/
def execLrecGet (v ix : Nat) (s : State) : Out := issue (.lrecGet v ix) noIll s fun s =>
  let n := s.rdS ix
  if wf n 16 48 ≠ 0 then .exc { code := cLREC, detail := 12 } n
  else match s.record (wf n 0 16) with
    | .error c => .exc c n
    | .ok r => .ok (s.putV 8 v (r.setWidth 2048))

end Sys2Proof.Machine
end

