-- ==== Sys2Proof/Machine/CopyRun.lean ====
section
/-! DEFINITION. The copy engine at work: moving units, counting them, completing (09 R168–R185), and the events COMMAND_START, COPY_WRITE,
MULTICAST_DELIVERY, COMMAND_COMPLETE, STAMP_WRITE and BARRIER_DEADLINE. -/

namespace Sys2Proof.Machine

/-! ### Reading and writing bytes of a command -/

/-- What a place of a command is now (R171, R174, R175): physical bytes by the probed translation, scratchpad of a member, or a member that has
ended. -/
inductive Site where
  | pa (a cpol key : Nat)
  | sp (st : Storage) (off : Nat)
  | gone (lc : Nat)
  deriving DecidableEq, Repr

def State.siteOf (s : State) (c : Cmd) (dest : Option Nat) (x : Loc) : Site :=
  match x with
  | .g va =>
    match c.pages.find? fun p => p.vpn = va / 4096 with
    | some p => .pa (p.ppn * 4096 + va % 4096) p.cpol p.key
    | none => .gone c.member
  | .l o =>
    match dest with
    | some m => .sp (s.storage c.lid m c.core) o
    | none => match s.storage c.lid c.member c.core with
      | .gone => .gone c.member
      | st => .sp st o
  | .c o =>
    match s.storage c.lid (c.lcore / 32 * 32 + o / 2 ^ 21) c.core with
    | .gone => .gone (c.lcore / 32 * 32 + o / 2 ^ 21)
    | st => .sp st (o % 2 ^ 21)
  | .beyond _ => .gone c.member

/-- The byte at a site, or zero with the copy error it is: code and word 4 of R399. A granule has no physical address: its entry names its scratchpad
offset, which R175 leaves open (log 31). -/
def State.readSite (s : State) (x : Site) : Byte × Option (Nat × Nat) :=
  match x with
  | .pa a _ key => if (s.badSector a 1 key).isSome then (0, some (1, a / 64 * 64)) else (s.readByte key a, none)
  | .sp st o =>
    match s.spStore st with
    | .live k => if (s.hartAt k).spBad.contains (o / 16) then (0, some (1, o / 16 * 16)) else ((s.hartAt k).spByte o, none)
    | .image a _ => if (s.badSector (imgSp a o) 1 0).isSome then (0, some (1, imgSp a o / 64 * 64)) else (s.byteAt (imgSp a o), none)
    | .gone => (0, none)
  | .gone lc => (0, some (6, lc))

/-- The 64-byte sector of a site. -/
def Site.sector : Site → Site
  | .pa a _ _ => .pa (a / 64 * 64) 0 0
  | .sp st o => .sp st (o / 64 * 64)
  | x => x
/-- The places of the sector that holds a place. -/
def Loc.sector : Loc → List Loc
  | .g a => (List.range 64).map fun i => .g (a / 64 * 64 + i)
  | .l o => (List.range 64).map fun i => .l (o / 64 * 64 + i)
  | .c o => (List.range 64).map fun i => .c (o / 64 * 64 + i)
  | .beyond _ => []
def mixByte (m new old : Byte) : Byte := (new &&& m) ||| (old &&& ~~~ m)

/-! ### Old and new values (R168, R172) -/

/-- What a command has written at a site. -/
def State.wroteAt (s : State) (c : Cmd) (x : Site) : Option Wrote := c.wrote.find? fun w => s.siteOf c w.dest w.loc = x
/-- A byte as it stood before a command wrote it. -/
def State.undo (s : State) (x : Site) (c : Cmd) (b : Byte) : Byte := match s.wroteAt c x with | some w => mixByte w.mask w.old b | none => b
/-- Destination sites of a command. -/
def State.dstSites (s : State) (c : Cmd) : List Site := c.parts.flatMap fun p => (dstLocs c).map (s.siteOf c p.dest)
/-- A command has bytes of the sector still to write. -/
def State.writesIn (s : State) (c : Cmd) (sec : Site) : Bool := (s.dstSites c).any fun x => x.sector = sec && (s.wroteAt c x).isNone
/-- The byte at a scratchpad site as the command's engine sees it where C stores of its core to it are not performed for it yet (R114): what stood there before
the oldest of them. -/
def State.hidden (s : State) (c : Cmd) (x : Site) : Option Byte :=
  match (match x with | .sp st o => some (s.spStore st, o) | _ => none) with
  | some (.live k, o) =>
    let l := (s.hartAt c.core).cst.filter fun e => e.hart = k && e.off = o && (s.hartAt k).member = e.member
    match l.head?, l.getLast? with
    | some a, some b => if c.id ≠ 0 ∧ (s.hartAt k).spByte o = b.new then some a.old else none
    | _, _ => none
  | _ => none
/-- The byte at a site as the command's engine reads it now. -/
def State.readNow (s : State) (c : Cmd) (x : Site) : Byte := (s.hidden c x).getD (s.readSite x).1
/-- Some of the core's C stores, freely chosen, are performed for its copy engine from now on: one with every older store to its bytes (R114, log 4). -/
def State.showC (s : State) (k : Nat) : State :=
  let h := s.hartAt k
  let ids := (h.cst.map (·.id)).eraseDups
  if ids.isEmpty then s
  else
    let seen := (ids.zipIdx.filter fun (_, i) => Config.coin (s.nfree + i)).map (·.1)
    let keep (e : CStore) : Bool := !seen.contains e.id && !h.cst.any fun f => f.hart = e.hart && f.off = e.off && e.id < f.id && seen.contains f.id
    State.setHart { s with nfree := s.nfree + ids.length } k { h with cst := h.cst.filter keep }

/-- The command reads the sectors of places, each at one moment (R168, R345, R350): every byte as it stood before the command's own writes, and before those of
an earlier command of its queue that has not yet written its whole share of the sector. -/
def State.prime (s : State) (k : Nat) (c : Cmd) (l : List Loc) : Cmd :=
  let earlier := ((s.hartAt k).copyq.takeWhile fun e => e.id ≠ c.id).filter fun e => !e.finished
  l.foldl (fun c x =>
    if c.seen.any fun y => y.1 = x then c
    else
      let sec := (s.siteOf c none x).sector
      let es := (earlier.filter fun e => s.writesIn e sec) ++ [c]
      { c with seen := c.seen ++ x.sector.map fun y => let z := s.siteOf c none y; (y, es.foldr (s.undo z) (s.readNow c z)) }) c

/-- A source byte as the command reads it: zero where the place is damaged or its member has ended (R175). -/
def State.srcByte (s : State) (c : Cmd) (x : Loc) : Byte :=
  let y := s.siteOf c none x
  if (s.readSite y).2.isSome then 0
  else match c.seen.find? fun z => z.1 = x with
    | some z => z.2
    | none => s.undo y c (s.readNow c y)

/-- A value read for a piece, with the places it came from. -/
structure Got where
  val : Nat
  locs : List Loc
  deriving DecidableEq, Repr

/-- n bits at a bit offset from BASE of the source record. -/
def State.srcBits (s : State) (c : Cmd) (bit : Int) (n : Nat) : Got :=
  let locs := (touchBytes bit n).map (byteLoc c.src)
  { val := numOf (locs.map (s.srcByte c)) / 2 ^ (bit % 8).toNat % 2 ^ n, locs := locs }

/-- The source element at linear index i: read, clamped or filled (R101, R102, R172). -/
def State.srcElem (s : State) (c : Cmd) (i : Nat) : Got :=
  match srcCoords c.src c.so i with
  | some y => s.srcBits c (elemBit c.src y) (fmtBits (recFmt c.src))
  | none => { val := fillCode c.src, locs := [] }
/-- The scale that goes with the position at linear index i (R172): its block's, or that of a block wholly outside. -/
def State.srcScale (s : State) (c : Cmd) (i : Nat) : Got :=
  match srcCoords c.src c.so i with
  | some y => s.srcBits c (8 * scaleAt c.src y) 8
  | none => { val := fillScale c.src, locs := [] }
/-- The scale of the block that holds a position: a block partly outside keeps its stored scale (R102). -/
def State.blockScale (s : State) (c : Cmd) (i : Nat) : Got :=
  let x := coordsAt c.src c.so i
  match srcCoords c.src c.so i with
  | some y => s.srcBits c (8 * scaleAt c.src y) 8
  | none => if blockIn c.src x then s.srcBits c (8 * scaleAt c.src x) 8 else { val := fillScale c.src, locs := [] }

/-- A source element's value for a conversion (R180). A value beyond the range of the result is rounded to it, to nearest, though the table calls the
conversion to FP32 exact (log 31). -/
def srcFmt (f : Nat) : Fmt := if f = 0x01 then fp32 else bf16
def State.dequant (s : State) (c : Cmd) (i : Nat) : Got :=
  let e := s.srcElem c i
  let sc := s.blockScale c i
  let f := if recFmt c.dst = 0x01 then fp32 else bf16
  -- A damaged scale leaves zeros (R175).
  if sc.locs.any fun x => (s.readSite (s.siteOf c none x)).2.isSome then { val := 0, locs := e.locs ++ sc.locs }
  else { val := (roundFp f .rn false (mxValue (fmtElem (recFmt c.src)) sc.val e.val)).1, locs := e.locs ++ sc.locs }

/-- The 16 random bits of a source element (R55 stream 2, R56). -/
def srcRandom (c : Cmd) (i : Nat) : Nat :=
  let x := coordsAt c.src c.so i
  let a : Int := (x.zipIdx.map fun (v, d) =>
    if d = 0 then 0 else v * (((List.range d).foldl (fun p e => if e = 0 then p else p * recExt c.src e) 1 : Nat) : Int)).foldl (· + ·) 0
  (gRand c.aux (rngCtr 2 a (x.getD 0 0))).toNat % 65536

/-- Block u of a quantising CP.X (R180): its scale and codes. -/
def State.quantBlock (s : State) (c : Cmd) (u : Nat) : MxBlock × List Got :=
  let ix := (List.range 32).map fun e => 32 * u + e
  let dstIn (i : Nat) : Bool := insideT c.dst (coordsAt c.dst c.do_ i)
  let got := ix.map fun i => if dstIn i then s.srcElem c i else { val := 0, locs := [] }
  let vals := (got.zip ix).map fun (g, i) => if dstIn i then (srcFmt (recFmt c.src)).value g.val else (srcFmt (recFmt c.src)).value 0
  let el := fmtElem (recFmt c.dst)
  let sr : Bool := c.op = .x true
  let near := mxQuantise el false vals []
  let far := mxQuantise el sr vals (ix.map (srcRandom c))
  -- A position outside the source tensor is a fill under every FILLMODE, and takes no random bits.
  let filled (i : Nat) : Bool := !insideT c.src (coordsAt c.src c.so i)
  ({ far with codes := (List.range 32).map fun e => if filled (32 * u + e) then near.codes.getD e 0 else far.codes.getD e 0 }, got)

/-- The value of a destination piece of CP, CP.MC or CP.X. -/
def State.pieceVal (s : State) (c : Cmd) (w : What) : Got :=
  match w with
  | .elem i lo n =>
    let g := if fmtMx (recFmt c.src) && !fmtMx (recFmt c.dst) then s.dequant c i else s.srcElem c i
    { g with val := g.val / 2 ^ lo % 2 ^ n }
  | .scale b => s.srcScale c (blockFirst b)

/-- A piece of the source window's stream (R183, R185). -/
def State.streamVal (s : State) (c : Cmd) (j : Nat) : Got :=
  (streamByte c.src j).foldr (fun w g =>
    let x : Got := match w with
      | .elem i lo n => { s.srcElem c i with val := (s.srcElem c i).val / 2 ^ lo % 2 ^ n }
      | .scale b => s.srcScale c (blockFirst b)
    { val := x.val + 2 ^ w.bits * g.val, locs := x.locs ++ g.locs }) { val := 0, locs := [] }

/-- Values for a stream's bytes spread over the pieces of the destination window (R183). -/
def spreadStream (r : Rec) (first : Nat) (d : List Byte) : List (What × Nat) :=
  d.zipIdx.flatMap fun (b, j) =>
    ((streamByte r (first + j)).foldl (fun (acc, x) w => (acc ++ [(w, x % 2 ^ w.bits)], x / 2 ^ w.bits)) ([], b.toNat)).1

/-- Effects of reading sites (R394, R393): cache fills and one UECC per damaged sector or granule that the command has not met. -/
def State.touchSites (s : State) (c : Cmd) (l : List Site) : State :=
  let l := l.foldl (fun acc x =>
    let y : Site := match x with
      | .pa a cp k => .pa (a / 64 * 64) cp k
      | .sp st o => .sp st (o / 16 * 16)
      | z => z
    if acc.contains y then acc else acc ++ [y]) []
  l.foldl (fun s x =>
    let known : Bool := match (s.readSite x).2 with
      | some (1, w) => c.errs.any fun e => e.code = 1 && e.w4 = w
      | _ => false
    if known then s
    else match x with
    | .pa a cp k => s.touch a 64 cp k 1 (hartRid c.core)
    | .sp st o =>
      match s.spStore st with
      | .live k =>
        if (s.hartAt k).spBad.contains (o / 16) then s.log .event 0x11 (srcCore c.core) [word o, word (hartRid c.core * 2 ^ 16 + 2 ^ 8)]
        else s.spCorrect k [o / 16]
      | .image a _ => s.touch (imgSp a o) 16 0 0 1 (hartRid c.core)
      | .gone => s
    | .gone _ => s) s

/-- Errors of a set of sites, each with its bytes. -/
def State.siteErrs (s : State) (l : List Site) : List (Nat × Nat) := l.filterMap fun x => (s.readSite x).2

/-- Join errors into a command's entries (R399): bytes add up, and the first affected window index is the lowest. -/
def addErrs (errs l : List CopyErr) : List CopyErr :=
  l.foldl (fun es x =>
    if es.any fun e => e.code = x.code && e.w4 = x.w4 then
      es.map fun e : CopyErr => if e.code = x.code ∧ e.w4 = x.w4 then { e with bytes := e.bytes + x.bytes, first := min e.first x.first } else e
    else es ++ [x]) errs
/-- Window index of a piece's element. -/
def What.index : What → Nat
  | .elem i _ _ => i
  | .scale b => blockFirst b
/-- Window index of the element of byte j of a window's stream. -/
def streamIx (r : Rec) (j : Nat) : Nat := ((streamByte r j).head?.map What.index).getD 0
/-- The destination bytes that damaged or missing source bytes spoil among valued pieces (R175, R399): each once for an error, with the lowest index. A
converted or packed element is spoilt whole. -/
def State.valErrs (s : State) (c : Cmd) (conv : Bool) (l : List (What × Got)) : List CopyErr :=
  let hits : List (Nat × Nat × Int × Nat) := l.flatMap fun (w, g) =>
    match placeBit c.dst c.do_ w with
    | none => []
    | some bit =>
      let bad := g.locs.map fun x => (s.readSite (s.siteOf c none x)).2
      let at_ := touchBytes bit w.bits
      if conv || w.bits < 8 || bad.length ≠ at_.length then (bad.filterMap id).eraseDups.flatMap fun e => at_.map fun o => (e.1, e.2, o, w.index)
      else (bad.zip at_).filterMap fun (e, o) => e.map fun e => (e.1, e.2, o, w.index)
  let once := hits.foldl (fun (acc : List (Nat × Nat × Int × Nat)) x => if acc.any fun y => y.1 = x.1 && y.2.1 = x.2.1 && y.2.2.1 = x.2.2.1 then acc else acc ++ [x]) []
  addErrs [] (once.map fun x => { code := x.1, w4 := x.2.1, bytes := 1, first := x.2.2.2 })

/-! ### The queue -/

def Hart.cmd? (h : Hart) (id : Nat) : Option Cmd := h.copyq.find? fun c => c.id = id
def State.setCmd (s : State) (k : Nat) (c : Cmd) : State :=
  let h := s.hartAt k
  s.setHart k { h with copyq := h.copyq.map fun x => if x.id = c.id then c else x }
def Cmd.setPart (c : Cmd) (p : Part) : Cmd := { c with parts := c.parts.map fun x => if x.dest = p.dest then p else x }
def Cmd.part? (c : Cmd) (dest : Option Nat) : Option Part := c.parts.find? fun p => p.dest = dest

def Part.did (p : Part) (u : Nat) : Bool := u < p.next || p.moved.contains u
/-- Record unit u as moved. -/
def Part.markFrom : Nat → Part → Part
  | 0, p => p
  | n + 1, p => if p.moved.contains p.next then Part.markFrom n { p with moved := p.moved.filter (· ≠ p.next), next := p.next + 1 } else p
def Part.mark (p : Part) (u : Nat) : Part :=
  let q : Part := { p with moved := p.moved ++ [u] }
  q.markFrom q.moved.length

/-- Bits of a site that later commands of the same queue have written already: their values stay (R168). -/
def State.laterBits (s : State) (k : Nat) (c : Cmd) (x : Site) : Byte :=
  (((s.hartAt k).copyq.dropWhile fun e => e.id ≠ c.id).drop 1).foldl (fun m e => match s.wroteAt e x with | some w => m ||| w.mask | none => m) 0

/-! ### Writing -/

/-- A destination byte: its place, value and the bits it replaces. -/
structure ByteOut where
  loc : Loc
  val : Byte
  mask : Byte
  /-- Window index of its first element. -/
  ix : Nat := 0
  deriving DecidableEq, Repr

/-- Destination bytes of valued pieces: inside the tensor only, pieces of one byte joined. -/
def outBytes (r : Rec) (org : List Int) (l : List (What × Nat)) : List ByteOut :=
  l.foldl (fun acc (w, v) =>
    match placeBit r org w with
    | none => acc
    | some bit =>
      (touchBytes bit w.bits).zipIdx.foldl (fun acc (o, i) =>
        let x := v / 256 ^ i * 2 ^ (bit % 8).toNat
        let m := if 8 ≤ w.bits then 255 else (2 ^ w.bits - 1) * 2 ^ (bit % 8).toNat
        let at_ := byteLoc r o
        if acc.any fun b => b.loc = at_ then
          acc.map fun b => if b.loc = at_ then { b with val := b.val ||| BitVec.ofNat 8 x, mask := b.mask ||| BitVec.ofNat 8 m } else b
        else acc ++ [{ loc := at_, val := BitVec.ofNat 8 x, mask := BitVec.ofNat 8 m, ix := w.index }]) acc) []

/-- The site takes appends: its bank is in FIFO mode (R81). -/
def State.ringSite (s : State) (x : Site) : Bool :=
  match x with
  | .sp st o => (s.stBank st (o / bankSize)).mode = .fifo
  | _ => false
/-- Bytes of one bank in a part's buffer, and the buffer without its first n of them. -/
def bufOf (b : Nat) (l : List (Nat × Byte × BitVec 4)) : List (Nat × Byte × BitVec 4) := l.filter fun x => x.1 = b
def bufDrop (b : Nat) : Nat → List (Nat × Byte × BitVec 4) → List (Nat × Byte × BitVec 4)
  | _, [] => []
  | 0, l => l
  | n + 1, x :: t => if x.1 = b then bufDrop b n t else x :: bufDrop b (n + 1) t
/-- A bank of the buffer has a whole granule. -/
def Part.whole (p : Part) : Bool := p.buf.any fun x => 16 ≤ (bufOf x.1 p.buf).length

/-- One byte into scratchpad that is not in SCRATCH mode: a FIFO bank queues it, a member's bank refuses a multicast (R174). -/
def State.putSp (s : State) (c : Cmd) (p : Part) (b : ByteOut) (flags : BitVec 4) (st : Storage) (off : Nat) : Part × List CopyErr :=
  if c.op = .mc then (p, [{ code := 3, w4 := off / bankSize + 65536 * p.dest.getD 0, bytes := 1, first := b.ix }])
  else if (s.stBank st (off / bankSize)).mode = .fifo then ({ p with buf := p.buf ++ [(locAddr b.loc / bankSize * bankSize, b.val, flags)] }, [])
  else (p, [])
/-- Consecutive bytes of one scratchpad, as runs: an element is written whole (R61). -/
def runsOf (l : List (Storage × Nat × Byte)) : List (Storage × Nat × List Byte) :=
  l.foldr (fun (st, o, b) acc => match acc with
    | (st', o', d) :: t => if st = st' ∧ o + 1 = o' then (st, o, b :: d) :: t else (st, o, [b]) :: acc
    | [] => [(st, o, [b])]) []
/-- Bytes into SCRATCH banks. -/
def State.putScratch (s : State) (l : List (Site × ByteOut)) : State :=
  let g := l.filterMap fun (x, b) => match x with
    | .sp st o => if (s.stBank st (o / bankSize)).mode = .scratch then some (st, o, mixByte b.mask b.val (s.readSite x).1) else none
    | _ => none
  (runsOf g).foldl (fun s (st, o, d) => s.stWrite st o d) s

/-- Bytes into G space, one write for each sector (R107). -/
def State.putG (s : State) (c : Cmd) (l : List (Site × ByteOut)) : State :=
  let g := l.filterMap fun (x, b) => match x with
    | .pa a cp k => some (a, cp, k, mixByte b.mask b.val (s.readSite x).1)
    | _ => none
  let secs := (g.map fun e => e.1 / 64).eraseDups
  secs.foldl (fun s sec =>
    let mine := g.filter fun e => e.1 / 64 = sec
    let m := mine.foldl (fun m e => m ||| BitVec.ofNat 64 (2 ^ (e.1 % 64))) (0 : BitVec 64)
    let d := BitVec.ofNat 512 (mine.foldl (fun x e => x + e.2.2.2.toNat * 256 ^ (e.1 % 64)) 0)
    s.applySector sec m d ((mine.map (·.2.1)).headD 0) ((mine.map (·.2.2.1)).headD 0) (hartRid c.core) none) s

/-- Note a byte that a command writes. -/
def Cmd.note (c : Cmd) (dest : Option Nat) (b : ByteOut) (old : Byte) : Cmd :=
  if c.wrote.any fun w => w.dest = dest && w.loc = b.loc then
    { c with wrote := c.wrote.map fun w : Wrote => if w.dest = dest ∧ w.loc = b.loc then { w with mask := w.mask ||| b.mask } else w }
  else { c with wrote := c.wrote ++ [{ dest := dest, loc := b.loc, old := old, mask := b.mask }] }

/-- Write the bytes of a unit, which count with these flags; the errors met. -/
def State.putAll (s : State) (k : Nat) (c : Cmd) (p : Part) (l : List ByteOut) (flags : BitVec 4) : State × Cmd × Part × List CopyErr :=
  let l := (l.map fun b => (s.siteOf c p.dest b.loc, b)).filterMap fun (x, b) =>
    if s.ringSite x then some (x, b)
    else
      let m := b.mask &&& ~~~ s.laterBits k c x
      if m = 0 then none else some (x, { b with mask := m })
  let c := l.foldl (fun c (x, b) => match x with
    | .gone _ | .sp .gone _ => c
    | _ => if s.ringSite x then c else c.note p.dest b (s.readSite x).1) c
  let (p, es) := l.foldl (fun (p, es) (x, b) => match x with
    | .sp .gone _ | .pa _ _ _ => (p, es)
    | .sp st o => if (s.stBank st (o / bankSize)).mode = .scratch then (p, es) else let (p, e) := s.putSp c p b flags st o; (p, es ++ e)
    | .gone lc => (p, es ++ [({ code := 6, w4 := lc, bytes := 1, first := b.ix } : CopyErr)])) (p, [])
  ((s.putG c l).putScratch l, c, p, es)

/-! ### Counting -/

/-- Count into a barrier where it stands; none if it is not allocated (R174, R177). -/
def State.countBar (s : State) (st : Storage) (n bytes arrivals : Nat) (contrib : Option Nat) (flags : BitVec 4) : Option State :=
  (s.stBar st n).map fun b => s.stSetBar st n (b.update bytes arrivals contrib flags)

/-- Where a part counts. -/
def State.partStore (s : State) (c : Cmd) (p : Part) : Storage := s.storage c.lid (p.dest.getD c.member) c.core

/-- Count bytes of a part (R173, R174). -/
def State.countPart (s : State) (c : Cmd) (p : Part) (bytes : Nat) (flags : BitVec 4) : State × Part :=
  if c.nb ∨ c.op = .stamp ∨ (bytes = 0 ∧ flags = 0) then (s, p)
  else
    let contrib := if c.op = .netGet then some (wf c.cmd 42 6) else none
    match s.countBar (s.partStore c p) c.barIx bytes 0 contrib flags with
    | some s => (s, p)
    | none => (s, { p with lost := p.lost + bytes })

/-- ERROR and BADCHUNK of FLAGS (R176). -/
def fError : BitVec 4 := 2
def fBadChunk : BitVec 4 := 1

/-- Push granules of the buffer into their FIFO banks while these have room, each bank's in the order of its bytes; they count as they are written (R81,
R173). With `last` a partial granule goes too, its other bytes zero (log 20). -/
def State.flush (c : Cmd) (last : Bool) : Nat → State → Part → State × Part
  | 0, s, p => (s, p)
  | n + 1, s, p =>
    let try_ (b : Nat) : Option (State × Nat) :=
      let g := (bufOf b p.buf).take 16
      if g.length < 16 ∧ !last then none
      else
        let st : Storage := match s.siteOf c p.dest (if recSpace c.dst = 1 then .l b else .c b) with
          | .sp st _ => st
          | _ => .gone
        (s.stAppend st (b % 2 ^ 21 / bankSize) (g.map (·.2.1) ++ List.replicate (16 - g.length) 0)).map fun t => (t, b)
    match (p.buf.map (·.1)).eraseDups.findSome? try_ with
    | none => (s, p)
    | some (t, b) =>
      let g := (bufOf b p.buf).take 16
      let (t, p) := t.countPart c { p with buf := bufDrop b g.length p.buf } g.length (g.foldl (fun f x => f ||| x.2.2) 0)
      State.flush c last n t p
/-- The buffer as far as its banks have room. -/
def State.flushAll (s : State) (c : Cmd) (last : Bool) (p : Part) : State × Part := State.flush c last (p.buf.length + 1) s p

/-- First window index of a unit. -/
def Cmd.firstIx (c : Cmd) (u : Nat) : Nat :=
  match c.op with
  | .pk _ | .netPut _ => streamIx c.src (4096 * u)
  | _ => ((c.pieces u).head?.map What.index).getD 0

/-- What one unit of a command comes to: the command after its reads, the bytes it writes, how many it counts, the errors met and the flags. -/
structure UnitOut where
  cmd : Cmd
  outs : List ByteOut
  bytes : Nat
  errs : List CopyErr
  flags : BitVec 4
  deriving DecidableEq, Repr

/-- Write one unit's bytes, count those that are written, and mark it moved. Bytes that wait for a granule count when they are written. -/
def State.finishUnit (s : State) (k : Nat) (p : Part) (u : Nat) (o : UnitOut) : State :=
  let flags := o.flags ||| (if o.errs.isEmpty then 0 else fError)
  let (s, c, q, es) := s.putAll k o.cmd p o.outs flags
  let now := o.bytes - (q.buf.length - p.buf.length)
  let (s, q) := s.countPart c q now (flags ||| (if es.isEmpty then 0 else fError))
  let (s, q) := s.flushAll c false q
  s.setCmd k (({ c with errs := addErrs c.errs (o.errs ++ es), slots := c.slots.filter fun x => x.part ≠ p.dest ∨ x.unit ≠ u }).setPart (q.mark u))

/-! ### CP.UN and CP.PK -/

/-- Places of n bytes of a slot. -/
def slotLocs (r : Rec) (i n : Nat) : List Loc := (List.range n).map fun j => .g ((slotAddr r i + j) % 2 ^ 64)
/-- Sites of source places. -/
def State.sitesOf (s : State) (c : Cmd) (l : List Loc) : List Site := l.map (s.siteOf c none)

/-- A dword of the command at a G address, byte by byte by the probed pages. -/
def State.putDword (s : State) (c : Cmd) (va x : Nat) : State :=
  let n := min 8 (4096 - va % 4096)
  let put (s : State) (va : Nat) (d : List Byte) : State := match s.siteOf c none (.g (va % 2 ^ 64)) with
    | .pa a cp key => s.applyWrite a d cp key (hartRid c.core) none
    | _ => s
  put (put s va ((bytesOf 8 x).take n)) (va + n) ((bytesOf 8 x).drop n)
/-- Sites of a bad-chunk list's descriptor. -/
def State.listSites (s : State) (c : Cmd) : List Site := if c.aux = 0 then [] else (List.range 32).map fun i => s.siteOf c none (.g ((c.aux.toNat + i) % 2 ^ 64))
/-- Enter a bad chunk in the list (R184), or log UNBAD (R320). A damaged descriptor reads as zeros (R175). -/
def State.badChunk (s : State) (c : Cmd) (slot : Nat) : State :=
  if c.aux = 0 then s.log .event 0x41 (srcCore c.core) [word slot, word (recBase c.src)]
  else
    let d := (s.listSites c).map fun x => (s.readSite x).1
    let s := s.touchSites c (s.listSites c)
    let w (i : Nat) : Nat := numOf ((d.drop (8 * i)).take 8)
    if w 2 < w 1 then (s.putDword c (w 0 + 8 * w 2) slot).putDword c (c.aux.toNat + 16) (w 2 + 1)
    else s.putDword c (c.aux.toNat + 24) (w 3 + 1)

/-- Bytes of chunk u's share that lie in the tensor: those that count (R183). -/
def Cmd.shareBytes (c : Cmd) (u : Nat) : Nat :=
  ((List.range (chunkShare c.dst u)).filter fun j => (streamByte c.dst (4096 * u + j)).any fun w => (placeBit c.dst c.do_ w).isSome).length
/-- Expand chunk u of a CP.UN into its share (R183). -/
def State.unUnit (s : State) (k : Nat) (c : Cmd) (u : Nat) : State × UnitOut :=
  let slot := c.firstSlot + u
  let c := s.prime k c (slotLocs c.src slot 16)
  let head := (slotLocs c.src slot 16).map (s.srcByte c)
  let locs := slotLocs c.src slot (min 4160 ((16 + min 4096 (numOf ((head.drop 8).take 4)) + 63) / 64 * 64))
  let c := s.prime k c locs
  let bad : Bool := !(s.siteErrs (s.sitesOf c locs)).isEmpty
  let out := if bad then none else expandChunk (locs.map (s.srcByte c))
  let s := s.touchSites c (s.sitesOf c locs)
  let listErrs := if out.isNone then s.siteErrs (s.listSites c) else []
  let s := if out.isNone then s.badChunk c slot else s
  (s, { cmd := c, outs := outBytes c.dst c.do_ (spreadStream c.dst (4096 * u) (shareOf (chunkShare c.dst u) out)), bytes := c.shareBytes u,
        errs := listErrs.map fun e => { code := e.1, w4 := e.2, bytes := 1, first := c.firstIx u }, flags := if out.isNone then fBadChunk else 0 })

/-- Bytes of chunk u of the source stream, with their sites. -/
def State.chunkBytes (s : State) (c : Cmd) (u : Nat) : List Got :=
  (List.range (chunkShare c.src u)).map fun j => s.streamVal c (4096 * u + j)

/-- Read chunk u of the source stream: the state and the command after it, its bytes and its errors. -/
def State.readChunk (s : State) (k : Nat) (c : Cmd) (u : Nat) : State × Cmd × List Byte × List CopyErr :=
  let locs := (s.chunkBytes c u).flatMap (·.locs)
  let c := s.prime k c locs
  let errs := (s.chunkBytes c u).zipIdx.flatMap fun (g, j) => (s.siteErrs (s.sitesOf c g.locs)).eraseDups.map fun e =>
    ({ code := e.1, w4 := e.2, bytes := 1, first := streamIx c.src (4096 * u + j) } : CopyErr)
  (s.touchSites c (s.sitesOf c locs), c, (s.chunkBytes c u).map fun g => BitVec.ofNat 8 g.val, addErrs [] errs)

/-- Pack chunk u of a CP.PK (R185); it counts DECL bytes. -/
def State.pkUnit (s : State) (k : Nat) (c : Cmd) (u : Nat) (codec : Codec) : State × UnitOut :=
  let (t, c, d, errs) := s.readChunk k c u
  let l : List ByteOut := (packChunk codec d).zipIdx.map fun (b, j) =>
    { loc := .g ((slotAddr c.dst (c.firstSlot + u) + j) % 2 ^ 64), val := b, mask := 255 }
  (t, { cmd := c, outs := l, bytes := chunkShare c.src u, errs := errs, flags := 0 })

/-! ### NET.PUT: chunks handed to the port (R332, R333) -/

/-- A message leaves on a session, in one packet or more: the port's queue and TXPKT (R412). The manual gives no size of a packet, so how many there are is free
(log 21). -/
def State.netSend (s : State) (die session tag : Nat) (data : List Byte) : State :=
  let pa := sessionPa die session + 56
  let n := s.ctlNum pa 8
  { s.setCtl pa 8 (n + 1 + Config.choice s.nchoice % max 1 data.length) with
    netOut := s.netOut ++ [{ die := die, session := session, tag := tag, nonce := (s.sessKey die session).nonce n, data := data }], nchoice := s.nchoice + 1 }
/-- The peer has acknowledged a packet (R414). -/
def State.ackSession (s : State) (die n : Nat) : State := s.setSessKey die n { s.sessKey die n with acked := s.time }

def Cmd.session (c : Cmd) : Nat := wf c.cmd 48 16

def Cmd.network (c : Cmd) : Bool := match c.op with | .netPut _ | .netGet => true | _ => false
/-- A command of the session waits for its peer. -/
def State.netBusy (s : State) (die n : Nat) : Bool :=
  s.harts.any fun x : Nat × Hart => x.2.copyq.any fun c => c.network && c.started && !c.finished && hartDie c.core = die && c.session = n

/-- Chunk u of a NET.PUT (R333, R395): damaged source bytes go as zeros under ERROR; with a codec the chunk is sent as a bad one, which the receiver fills with
zeros and reports. -/
def State.netUnit (s : State) (k : Nat) (c : Cmd) (p : Part) (u : Nat) (codec : Codec) : State :=
  let (s, c, d, errs) := s.readChunk k c u
  let s := s.netSend (hartDie c.core) c.session c.id (if codec = .raw then d else if errs.isEmpty then packChunk codec d else List.replicate 16 0)
  let (s, p) := if errs.isEmpty then (s, p) else s.countPart c p 0 fError
  s.setCmd k (({ c with errs := addErrs c.errs errs, slots := c.slots.filter fun x => x.part ≠ p.dest ∨ x.unit ≠ u }).setPart (p.mark u))

/-! ### Moving a unit -/

/-- The valued pieces of unit u of CP, CP.MC or CP.X, and the pieces with the values read for them. -/
def State.unitVals (s : State) (c : Cmd) (u : Nat) : List (What × Nat) × List (What × Got) :=
  if c.quantises then
    let (b, got) := s.quantBlock c u
    ((c.pieces u).map fun w => match w with
      | .elem i _ _ => (w, b.codes.getD (i % 32) 0)
      | .scale _ => (w, b.scale), (c.pieces u).zip got)
  else
    let live := (c.pieces u).filter fun w => (placeBit c.dst c.do_ w).isSome
    let got := live.map fun w => (w, s.pieceVal c w)
    (got.map fun e => (e.1, e.2.val), got)

/-- Where source and destination overlap, a source element whose bytes the command has overwritten whole may be read as it is now; which, is a free
choice (R172, log 4). The command as this unit reads. -/
def State.renew (s : State) (c : Cmd) (l : List Got) : State × Cmd :=
  let hit := l.filter fun g => g.locs.any fun x => (s.wroteAt c (s.siteOf c none x)).isSome
  if hit.isEmpty then (s, c)
  else
    let dst := s.dstSites c
    hit.foldl (fun (s, d) g =>
      let done : Bool := (s.sitesOf c g.locs).all fun y => !dst.contains y || (s.wroteAt c y).isSome
      if !done then (s, d)
      else
        let (n, s) := s.draw
        (s, if Config.coin n then { d with seen := (g.locs.map fun x => (x, s.readNow c (s.siteOf c none x))) ++ d.seen } else d)) (s, c)

/-- Unit u of CP, CP.MC or CP.X. -/
def State.cpUnit (s : State) (k : Nat) (c : Cmd) (u : Nat) : State × UnitOut :=
  let got := (s.unitVals c u).2
  let locs := got.flatMap (·.2.locs)
  let c := s.prime k c locs
  let (s, d) := s.renew c (got.map (·.2))
  let conv : Bool := match c.op with | .x _ => true | _ => false
  let l := outBytes c.dst c.do_ (s.unitVals d u).1
  (s.touchSites c (s.sitesOf c locs), { cmd := c, outs := l, bytes := l.length, errs := s.valErrs c conv got, flags := 0 })

/-- What unit u of a command that copies comes to. -/
def State.unitOut (s : State) (k : Nat) (c : Cmd) (u : Nat) : State × UnitOut :=
  match c.op with
  | .un => s.unUnit k c u
  | .pk codec => s.pkUnit k c u codec
  | _ => s.cpUnit k c u

/-- Unit u of a part goes to a FIFO bank, which takes the units in the command's order (R81). -/
def State.ringUnit (s : State) (c : Cmd) (p : Part) (u : Nat) : Bool :=
  recSpace c.dst ≠ 0 && (c.unitLocs u).any fun x => s.ringSite (s.siteOf c p.dest x)

/-- Move unit u of a part: nothing where it is moved already, beyond the end, out of order for CP.UN or a FIFO bank, or blocked by a full one. -/
def State.moveUnit (s : State) (k : Nat) (c : Cmd) (p : Part) (u : Nat) : State :=
  if p.did u ∨ c.total ≤ u ∨ p.whole then s
  else match c.op with
  | .stamp | .netGet => s
  | .netPut codec => if u = p.next then s.netUnit k c p u codec else s
  | _ =>
    if u ≠ p.next ∧ (c.op = .un ∨ s.ringUnit c p u) then s
    else
      let s := s.showC k
      let (t, o) := s.unitOut k c u
      t.finishUnit k p u o

/-- Count unit u without moving it (R175, R383): its bytes under ERROR, with an error of the given code and word 4 for each. -/
def Cmd.unitSize (c : Cmd) (u : Nat) : Nat :=
  match c.op with
  | .pk _ => chunkShare c.src u
  | .un => c.shareBytes u
  | .stamp | .netPut _ => 0
  | _ => (c.unitOffs u).length
def State.skipUnit (s : State) (k : Nat) (c : Cmd) (p : Part) (u code w4 : Nat) : State :=
  let n := c.unitSize u
  let (s, p) := if n = 0 then (s, p) else s.countPart c p n fError
  s.setCmd k (({ c with errs := if n = 0 then c.errs else addErrs c.errs [{ code := code, w4 := w4, bytes := n, first := c.firstIx u }] }).setPart (p.mark u))

/-! ### Completion -/

/-- Log a command's errors (R399). The source of MCBANK is the member's core. -/
def State.logErrs (s : State) (c : Cmd) (which : CopyErr → Bool) : State :=
  (c.errs.filter which).foldl (fun s e =>
    s.log .copy e.code (srcCore c.core)
      [word (c.lid.getD 0 % 2 ^ 32 + c.lcore % 2 ^ 32 * 2 ^ 32), word (c.barIx + c.op.opcode * 2 ^ 16), word e.w4, word e.bytes, word e.first]) s

/-- The core of a member, for log entries about it. -/
def State.memberCore (s : State) (c : Cmd) (dest : Option Nat) : Nat :=
  match s.storage c.lid (dest.getD c.member) c.core with
  | .live k | .image _ k => k
  | .gone => c.core

/-- A part's arrival (R173, R174): the arrival, the reference given back; a dropped count is logged as BARFREE. Bytes that still wait for a FIFO bank, as
an aborted command may have, count with ERROR. -/
def State.arrive (s : State) (k : Nat) (c : Cmd) (p : Part) (flags : BitVec 4) : State :=
  -- Entries of kind MCBANK come from the member's core (R174, R399).
  let mine (e : CopyErr) : Bool := e.code = 3 && some (e.w4 / 65536) = p.dest
  let s := (c.errs.filter mine).foldl (fun (s : State) (e : CopyErr) =>
    s.log .copy 3 (srcCore (s.memberCore c p.dest))
      [word (c.lid.getD 0 % 2 ^ 32 + c.lcore % 2 ^ 32 * 2 ^ 32), word (c.barIx + c.op.opcode * 2 ^ 16), word (e.w4 % 65536), word e.bytes, word e.first]) s
  let c : Cmd := { c with errs := c.errs.filter fun e => !mine e }
  let (s, p) := if p.buf.isEmpty then (s, p) else s.countPart c { p with buf := [] } p.buf.length fError
  let p := { p with arrived := true }
  let st := s.partStore c p
  let contrib := if c.op = .netGet then some (wf c.cmd 42 6) else none
  let s := if c.nb ∨ c.op = .stamp then s
    else match s.countBar st c.barIx 0 1 contrib flags with
    | some t =>
      let t := match t.stBar st c.barIx with
        | some b => if p.held then t.stSetBar st c.barIx b.give else t
        | none => t
      if p.lost = 0 then t else t.log .event 0x40 (srcCore c.core) [word c.barIx, word (hartRid c.core), word p.lost]
    | none => if c.op = .mc then s.log .event 0x40 (srcCore c.core) [word c.barIx, word (hartRid c.core), word p.lost] else s
  s.setCmd k (c.setPart p)

/-- Drop finished commands from the head of a queue: a finished one stays behind an unfinished one (R168). -/
def State.prune (s : State) (k : Nat) : State :=
  let h := s.hartAt k
  s.setHart k { h with copyq := h.copyq.dropWhile fun c => c.finished }

/-- All units of a part are moved and its buffer holds no whole granule. -/
def Cmd.partDone (c : Cmd) (p : Part) : Bool := p.arrived || (c.total ≤ p.next && !p.whole)
/-- The command can complete: every part is done, and a network command's peer has answered the last. -/
def Cmd.ready (c : Cmd) : Bool :=
  c.started && !c.finished && c.op ≠ .stamp && (match c.op with
    | .netPut _ | .netGet => c.closed && c.parts.all fun p => !p.whole
    | .mc => c.parts.all (·.arrived)
    | _ => c.parts.all c.partDone)

/-- End a command: errors logged, arrivals added, the queue pruned. -/
def State.endCmd (s : State) (k : Nat) (c : Cmd) (flags : BitVec 4) : State :=
  let s := s.logErrs c fun e => e.code ≠ 3
  let s := (c.parts.filter fun p => !p.arrived).foldl (fun s p =>
    match (s.hartAt k).cmd? c.id with
    | some c => s.arrive k c p flags
    | none => s) s
  match (s.hartAt k).cmd? c.id with
  | some c => (s.setCmd k { c with finished := true }).prune k
  | none => s

/-- Units of a command that are still to be moved, with the destination of their part. -/
def Cmd.todo (c : Cmd) : List (Option Nat × Nat) :=
  c.parts.flatMap fun p => if p.arrived then [] else ((List.range c.total).filter fun u => !p.did u).map fun u => (p.dest, u)
/-- The sectors that an interrupted command still delivers: of those it has left, each is delivered or not by choice, one whose delivery has begun
is (R175, log 4). -/
def State.delivered (s : State) (c : Cmd) : State × List Site :=
  let secs := (c.todo.flatMap fun x => (c.unitLocs x.2).map fun y => (s.siteOf c x.1 y).sector).eraseDups
  let begun := c.wrote.map fun w => (s.siteOf c w.dest w.loc).sector
  secs.foldl (fun (s, l) x => if begun.contains x then (s, l ++ [x]) else let (n, s) := s.draw; (s, if Config.coin n then l ++ [x] else l)) (s, [])
/-- Unit u of an interrupted command: its bytes count with ERROR, and those of the sectors still delivered are written (R175). -/
def State.cutUnit (s : State) (k id code w4 : Nat) (keep : List Site) (dest : Option Nat) (u : Nat) : State :=
  match (s.hartAt k).cmd? id with
  | none => s
  | some c => match c.part? dest with
    | none => s
    | some p =>
      let kept (x : Loc) : Bool := keep.contains (s.siteOf c dest x).sector
      let copies : Bool := match c.op with | .netGet | .netPut _ | .stamp => false | _ => true
      if copies && (c.unitLocs u).any kept then
        let (t, o) := s.unitOut k c u
        t.finishUnit k p u { o with outs := o.outs.filter fun b => kept b.loc, flags := o.flags ||| fError, errs := o.errs ++ [{ code := code, w4 := w4, bytes := o.bytes, first := c.firstIx u }] }
      else s.skipUnit k c p u code w4

/-- End a command before its time (R175, R383, R414): what remains is counted with ERROR and the arrivals added; with `free` each sector left is
delivered or not by choice. -/
def State.abortCmd (s : State) (k id code w4 : Nat) (free : Bool) : State :=
  match (s.hartAt k).cmd? id with
  | none => s
  | some c =>
    let (s, keep) := if free then s.delivered c else (s, [])
    let s := c.todo.foldl (fun s x => s.cutUnit k id code w4 keep x.1 x.2) s
    let rest : Nat := match c.op with
      | .netPut _ => streamSize c.src - c.confirmed
      | _ => 0
    let counted : Bool := rest ≠ 0 || c.todo.any fun x => c.unitSize x.2 ≠ 0
    match (s.hartAt k).cmd? id with
    | none => s
    | some c =>
      let (s, c) := match c.part? none with
        | some p => if rest = 0 then (s, c) else
          let (s, p) := s.countPart c p rest fError
          (s, ({ c with errs := addErrs c.errs [{ code := code, w4 := w4, bytes := rest, first := streamIx c.src c.confirmed }] }).setPart p)
        | none => (s, c)
      -- A stamp has no bytes to count; its entry stands all the same (R383).
      let c : Cmd := if c.op = .stamp then { c with errs := addErrs c.errs [{ code := code, w4 := w4, bytes := 0, first := 0 }] } else c
      let c : Cmd := { c with closed := true }
      -- ERROR goes into the phase of the bytes; a command without any left takes it with its arrival.
      (s.setCmd k c).endCmd k c (if counted then 0 else fError)

/-! ### Events -/

/-- COMMAND_START (R168): the next command in queue order, once the acquires issued before it have taken effect (R346). A NET.PUT or NET.GET hands its request to the port (R332). -/
def execCommandStart (k : Nat) (s : State) : Out :=
  match (s.hartAt k).copyq.find? fun c => !c.started with
  | none => .next s
  | some c =>
    if s.acqBefore k c.id then .next s
    else
    -- Packets of the session have been acknowledged until this one is sent (R414, log 21).
    let s := if c.network && !s.netBusy (hartDie c.core) c.session then s.ackSession (hartDie c.core) c.session else s
    let s := s.setCmd k { c with started := true }
    let request : List Byte := bytesOf 1 c.op.opcode ++ bytesOf 8 c.cmd.toNat ++ bytesOf 8 c.aux.toNat
      ++ (c.do_ ++ c.so).flatMap (fun x => bytesOf 4 (BitVec.ofInt 32 x).toNat) ++ bytesOf 8 (c.lid.getD 0) ++ bytesOf 2 c.lcore
    .next (match c.op with
      | .netPut _ | .netGet => s.netSend (hartDie c.core) c.session c.id request
      | _ => s)

/-- Source places of unit u of a command. -/
def State.unitSrc (s : State) (c : Cmd) (u : Nat) : List Loc :=
  match c.op with
  | .un => slotLocs c.src (c.firstSlot + u) 4160
  | .pk _ | .netPut _ => (s.chunkBytes c u).flatMap (·.locs)
  | .stamp | .netGet => []
  | _ => (s.unitVals c u).2.flatMap (·.2.locs)
/-- Physical addresses of unit u of a part. -/
def State.unitPas (s : State) (c : Cmd) (p : Part) (u : Nat) : List Nat :=
  let pa? (x : Site) : Option Nat := match x with | .pa a _ _ => some a | _ => none
  ((c.unitLocs u).filterMap fun x => pa? (s.siteOf c p.dest x)) ++ (s.unitSrc c u).filterMap fun x => pa? (s.siteOf c none x)
/-- The calendar slot of a D2 task's copy engine in which a slice is now serves blocks of unit u (R129, R130): one 256-byte move in a slot. -/
def State.noteSlots (s : State) (k : Nat) (c : Cmd) (p : Part) (u : Nat) : Cmd :=
  if !s.d2Core k then c
  else
    let others := ((s.hartAt k).copyq.filter fun e => e.id ≠ c.id).flatMap (·.slots)
    ((s.unitPas c p u).filter calendared).foldl (fun c a =>
      let b := a / 256
      let taken : Bool := (others ++ c.slots).any fun x => x.at_ / 2 = s.time / 2 && sliceOf (256 * x.block) = sliceOf a && x.block ≠ b
      if slotOwner s.time (sliceOf a) ≠ .engine k ∨ taken ∨ c.slots.any (fun x => x.part = p.dest && x.unit = u && x.block = b) then c
      else { c with slots := c.slots ++ [{ part := p.dest, unit := u, block := b, at_ := s.time, ready := s.time + d2Latency k a }] }) c
/-- A unit waits: a bank engine holds one of its channels (R200), or a slice's slot is another's (R129); a D2 task's waits until the declared latency of every slot
it needs is over (R130). -/
def State.unitHeld (s : State) (k : Nat) (c : Cmd) (p : Part) (u : Nat) : Bool :=
  (s.unitPas c p u).any fun a => s.deferred a 1 ||
    (if s.d2Core k ∧ calendared a then !c.slots.any fun x => x.part = p.dest && x.unit = u && x.block = a / 256 && x.ready ≤ s.time else !s.mayUse k true a)
/-- Number of the link to die e among the seven of die d (R399). -/
def linkOf (d e : Nat) : Nat := if e < d then e else e - 1
/-- Dies a command still reads or writes: those of its pages and of the members it delivers to. -/
def State.cmdDies (s : State) (c : Cmd) : List Nat :=
  (c.pages.map fun p => (region (p.ppn * 4096)).2) ++ c.parts.filterMap fun p => match s.partStore c p with
    | .live k => some (hartDie k)
    | .image a _ => some (region a).2
    | .gone => none
/-- A copy command is not rerouted (R411): the number of the link, or 7 for a host link, that it needs and that is down (R399). -/
def State.cutLink (s : State) (c : Cmd) : Option Nat :=
  match (s.cmdDies c).find? fun e => e ≠ hartDie c.core && !s.linkUp (hartDie c.core) e with
  | some e => some (linkOf (hartDie c.core) e)
  | none => if c.pages.any fun p => (region (p.ppn * 4096)).1 = .host && !(s.dieAt (region (p.ppn * 4096)).2).hostUp then some 7 else none

/-- COPY_WRITE (R172, R173): unit u of command id of a hart's queue. -/
def execCopyWrite (k id u : Nat) (s : State) : Out :=
  match (s.hartAt k).cmd? id with
  | none => .next s
  | some c => match c.started, c.part? none with
    | true, some p =>
      match s.cutLink c with
      | some n => .next (s.abortCmd k id 2 n true)
      | none =>
      -- bytes that wait for an empty granule go first (R81)
      let (s, p) := s.flushAll c false p
      let c := s.noteSlots k (c.setPart p) p u
      let s := s.setCmd k c
      .next (if s.unitHeld k c p u then s else s.moveUnit k c p u)
    | _, _ => .next s

/-- MULTICAST_DELIVERY (R174): unit u to a member; its reference and INFL count are taken when its delivery starts and given back at its arrival. -/
def execMulticastDelivery (k id m u : Nat) (s : State) : Out :=
  match (s.hartAt k).cmd? id with
  | none => .next s
  | some c => match c.started, c.part? (some m) with
    | true, some p =>
      match if p.arrived then none else s.cutLink c with
      | some n => .next (s.abortCmd k id 2 n true)
      | none =>
      let c := s.noteSlots k c p u
      let s := s.setCmd k c
      if p.arrived || s.unitHeld k c p u then .next s
      else
        let st := s.partStore c p
        let (s, p) := if p.begun then (s, p)
          else match s.stBar st c.barIx with
            | some b => (s.stSetBar st c.barIx b.take_, { p with begun := true, held := true })
            | none => (s, { p with begun := true })
        let s := s.setCmd k (c.setPart p)
        let s := s.moveUnit k (c.setPart p) p u
        match (s.hartAt k).cmd? id with
        | none => .next s
        | some c => match c.part? (some m) with
          | none => .next s
          | some p => .next (if c.partDone p ∧ !p.arrived then
              s.arrive k c p 0
            else s)
    | _, _ => .next s

/-- COMMAND_COMPLETE (R173): the first command of the queue that has written all its bytes; a last partial granule waits for room in its FIFO bank (R81). -/
def execCommandComplete (k : Nat) (s : State) : Out :=
  match (s.hartAt k).copyq.find? Cmd.ready with
  | none => .next s
  | some c =>
    let (s, c) := c.parts.foldl (fun (s, c) p => let (s, p) := s.flushAll c true p; (s, c.setPart p)) (s, c)
    let s := s.setCmd k c
    .next (if c.parts.any fun p => !p.buf.isEmpty then s else s.endCmd k c 0)

/-- Commands ahead of a stamp: earlier in its queue, or issued earlier by the same task on another core (R118, R348). -/
def State.stampWaits (s : State) (k : Nat) (c : Cmd) : Bool :=
  ((s.hartAt k).copyq.takeWhile fun e => e.id ≠ c.id).any (fun e => !e.finished)
    || s.harts.any fun (n, h) => n ≠ k && h.copyq.any fun e => !e.finished && e.started && e.id < c.id && e.lid = c.lid && e.member = c.member

/-- STAMP_WRITE (R118, R322, R348): the first stamp of the queue, once every command ahead of it is done. -/
def execStampWrite (k : Nat) (s : State) : Out :=
  match (s.hartAt k).copyq.find? fun c => c.op = .stamp && c.started && !c.finished with
  | none => .next s
  | some c =>
    let c := s.noteSlots k c (Part.fresh none) 0
    let s := s.setCmd k c
    if s.stampWaits k c ∨ s.unitHeld k c (Part.fresh none) 0 then .next s
    else
      let s := match s.siteOf c none (.g c.cmd.toNat) with
        | .pa a cp key =>
          if !s.reaches (hartDie k) a then s.uecc (hartRid k) (a / 64 * 64) 3 (hartRid k)
          else
            -- What a later command of the queue has written already stays (R168).
            let data := (bytesOf 8 c.aux.toNat).zipIdx.map fun (b, i) =>
              let x : Site := .pa (a + i) cp key
              mixByte (~~~ s.laterBits k c x) b (s.readSite x).1
            s.applyWrite a data cp key (hartRid k) none
        | _ => s
      .next ((s.setCmd k { c with finished := true, wrote := [], seen := [] }).prune k)

/-- BARRIER_DEADLINE (R177). -/
def execBarrierDeadline (k b : Nat) (s : State) : Out :=
  match (s.hartAt k).bar b with
  | some x => .next (if x.deadline ≠ BitVec.allOnes 64 ∧ x.deadline.toNat ≤ s.time then s.setHart k ((s.hartAt k).setBar b (x.complete true)) else s)
  | none => .next s

end Sys2Proof.Machine
end

