-- ==== Sys2Proof/Machine/Vector.lean ====
section
/-! DEFINITION. Vector instructions (14 R270–R292): lane-wise results merged under a mask, mask results, reductions, lane movement, MX blocks and the
random function. -/

namespace Sys2Proof.Machine

/-- One value and its exception bits per lane. -/
abbrev LaneOut := Lane × Flags

/-- The 64 lanes of a lane-wise function. -/
def each (g : Nat → LaneOut) : List LaneOut := (List.range 64).map g
/-- A lane result without exception bits. -/
def plain (x : Lane) : LaneOut := (x, 0)

/-- Lane outputs under a mask: inactive lanes keep the old value and raise no bit (R272). -/
def mergeLanes (act : Word) (old : VReg) (out : List LaneOut) : List LaneOut :=
  (List.range 64).map fun i => if act.getLsbD i then out.getD i (0, 0) else (laneAt old i, 0)

/-- The exception bits of all lanes. -/
def joinFlags (l : List LaneOut) : Flags := l.foldl (fun f x => f ||| x.2) 0

/-- A merge instruction (R272): the result and the sticky bits come lat cycles after issue (R274). -/
def merge (i : Instr) (lat d msk : Nat) (f : State → List LaneOut) (s : State) : Out := issue i noIll s fun s =>
  let r := mergeLanes (s.rdM msk) (s.rdV d) (f s)
  .ok ((s.putV lat d (vreg (r.map (·.1)))).stick lat (joinFlags r))

/-- An instruction that writes every lane (R272: source select, none). -/
def whole (i : Instr) (lat d : Nat) (f : State → List LaneOut) (s : State) : Out := issue i noIll s fun s =>
  let r := f s
  .ok ((s.putV lat d (vreg (r.map (·.1)))).stick lat (joinFlags r))

/-- A word with bit i set where a lane predicate holds. -/
def bitsWhere (p : Nat → Bool) : Word := word ((List.range 64).foldl (fun x i => if p i then x + 2 ^ i else x) 0)

/-- A mask result (R272): bits of inactive lanes are 0. -/
def maskResult (i : Instr) (lat d msk : Nat) (p : State → Nat → Bool) (s : State) : Out := issue i noIll s fun s =>
  .ok (s.putM lat d (bitsWhere fun k => (s.rdM msk).getLsbD k && p s k))

/-- Lane i of vector register a. -/
def State.va (s : State) (a i : Nat) : Lane := laneAt (s.rdV a) i

/-- A merge of two sources, of one, of three. -/
def merge2 (i : Instr) (lat d a : Nat) (b : VB) (msk : Nat) (f : Lane → Lane → LaneOut) (s : State) : Out :=
  merge i lat d msk (fun s => each fun k => f (s.va a k) (s.vbLane b k)) s
def merge1 (i : Instr) (lat d a msk : Nat) (f : Lane → LaneOut) (s : State) : Out :=
  merge i lat d msk (fun s => each fun k => f (s.va a k)) s
def merge3 (i : Instr) (lat d a : Nat) (b : VB) (c msk : Nat) (f : Lane → Lane → Lane → LaneOut) (s : State) : Out :=
  merge i lat d msk (fun s => each fun k => f (s.va a k) (s.vbLane b k) (s.va c k)) s

/-! ### Floating point (R275–R279) -/

def fmaLane (rm : Rm) (negP negC : Bool) (a b c : Lane) : LaneOut :=
  let va := laneVal a
  let vc := laneVal c
  laneOf rm (Val.fma rm (if negP then va.neg else va) (laneVal b) (if negC then vc.neg else vc))

/-- VFSCL (R275). -/
def sclLane (rm : Rm) (a b : Lane) : LaneOut := laneOf rm ((laneVal a).scale b.toInt, 0)

/-- VFABS and VFNEG (R277). -/
def absLane (a : Lane) : Lane := if (laneVal a).isNan then 0x7FC00000 else a &&& 0x7FFFFFFF
def negLane (a : Lane) : Lane := if (laneVal a).isNan then 0x7FC00000 else a ^^^ 0x80000000

/-- The elementary functions (R279). -/
inductive Elementary where
  | rcp | rsq | sqrt | exp2 | log2
  deriving DecidableEq, Repr

/-- The value of an elementary function and the bits its special cases set (R279). -/
def elementary (f : Elementary) (x : Val) : Val × Flags :=
  match f, x with
  | _, .nan => (.nan, 0)
  | .rcp, .inf n => (.num n 0 0, 0)
  | .rcp, .num n m e => if m = 0 then (.inf n, fDZ) else (recipVal n m e, 0)
  | .rsq, .inf n => if n then (.nan, fINV) else (.num false 0 0, 0)
  | .rsq, .num n m e => if m = 0 then (.inf n, fDZ) else if n then (.nan, fINV) else (rsqrtVal m e, 0)
  | .sqrt, .inf n => if n then (.nan, fINV) else (.inf false, 0)
  | .sqrt, .num n m e => if m = 0 then (.num n 0 0, 0) else if n then (.nan, fINV) else (sqrtVal m e, 0)
  | .exp2, .inf n => if n then (.num false 0 0, 0) else (.inf false, 0)
  | .exp2, .num n m e => if m = 0 then (.num false 1 0, 0) else (exp2Val n m e, 0)
  | .log2, .inf n => if n then (.nan, fINV) else (.inf false, 0)
  | .log2, .num n m e => if m = 0 then (.inf true, fDZ) else if n then (.nan, fINV) else (log2Val m e, 0)

def elemLane (f : Elementary) (rm : Rm) (a : Lane) : LaneOut := laneOf rm (elementary f (laneVal a))

def execVfadd (rm : Rm) (d a : Nat) (b : VB) (k : Nat) (s : State) : Out := merge2 (.vfadd rm d a b k) 4 d a b k (fpAdd rm) s
def execVfsub (rm : Rm) (d a : Nat) (b : VB) (k : Nat) (s : State) : Out := merge2 (.vfsub rm d a b k) 4 d a b k (fpSub rm) s
def execVfmul (rm : Rm) (d a : Nat) (b : VB) (k : Nat) (s : State) : Out := merge2 (.vfmul rm d a b k) 4 d a b k (fpMul rm) s
def execVfma (rm : Rm) (d a : Nat) (b : VB) (c k : Nat) (s : State) : Out :=
  merge3 (.vfma rm d a b c k) 4 d a b c k (fmaLane rm false false) s
def execVfms (rm : Rm) (d a : Nat) (b : VB) (c k : Nat) (s : State) : Out :=
  merge3 (.vfms rm d a b c k) 4 d a b c k (fmaLane rm false true) s
def execVfnma (rm : Rm) (d a : Nat) (b : VB) (c k : Nat) (s : State) : Out :=
  merge3 (.vfnma rm d a b c k) 4 d a b c k (fmaLane rm true false) s
def execVfmin (d a : Nat) (b : VB) (k : Nat) (s : State) : Out :=
  merge2 (.vfmin d a b k) 4 d a b k (fun x y => plain (fpMinMax false x y)) s
def execVfmax (d a : Nat) (b : VB) (k : Nat) (s : State) : Out :=
  merge2 (.vfmax d a b k) 4 d a b k (fun x y => plain (fpMinMax true x y)) s
def execVfabs (d a k : Nat) (s : State) : Out := merge1 (.vfabs d a k) 4 d a k (fun x => plain (absLane x)) s
def execVfneg (d a k : Nat) (s : State) : Out := merge1 (.vfneg d a k) 4 d a k (fun x => plain (negLane x)) s
def execVfcmp (c : FCond) (d a : Nat) (b : VB) (k : Nat) (s : State) : Out :=
  maskResult (.vfcmp c d a b k) 4 d k (fun s i => fcondHolds c (laneVal (s.va a i)) (laneVal (s.vbLane b i))) s
def execVfrcp (rm : Rm) (d a k : Nat) (s : State) : Out := merge1 (.vfrcp rm d a k) 12 d a k (elemLane .rcp rm) s
def execVfrsq (rm : Rm) (d a k : Nat) (s : State) : Out := merge1 (.vfrsq rm d a k) 12 d a k (elemLane .rsq rm) s
def execVfexp2 (rm : Rm) (d a k : Nat) (s : State) : Out := merge1 (.vfexp2 rm d a k) 12 d a k (elemLane .exp2 rm) s
def execVflog2 (rm : Rm) (d a k : Nat) (s : State) : Out := merge1 (.vflog2 rm d a k) 12 d a k (elemLane .log2 rm) s
def execVfsqrt (rm : Rm) (d a k : Nat) (s : State) : Out := merge1 (.vfsqrt rm d a k) 12 d a k (elemLane .sqrt rm) s
def execVfscl (rm : Rm) (d a : Nat) (b : VB) (k : Nat) (s : State) : Out := merge2 (.vfscl rm d a b k) 4 d a b k (sclLane rm) s

/-! ### Integers (R280, R281) -/

/-- An integer into a lane: wrapped, or clamped to the i32 or the n32 range. -/
def satLane (k : Sat) (x : Int) : Lane :=
  match k with
  | .wrap => BitVec.ofInt 32 x
  | .sat => BitVec.ofInt 32 (min (max x (-(2 ^ 31))) (2 ^ 31 - 1))
  | .satu => BitVec.ofInt 32 (min (max x 0) (2 ^ 32 - 1))
/-- A lane as the range of a saturation reads it: n32 for .satu, i32 otherwise. -/
def laneInt (k : Sat) (x : Lane) : Int := if k = .satu then x.toNat else x.toInt
/-- Shift counts use b[4:0] (R280). -/
def lsh (b : Lane) : Nat := b.toNat % 32

def execVadd (t : Sat) (d a : Nat) (b : VB) (k : Nat) (s : State) : Out :=
  merge2 (.vadd t d a b k) 2 d a b k (fun x y => plain (satLane t (laneInt t x + laneInt t y))) s
def execVsub (t : Sat) (d a : Nat) (b : VB) (k : Nat) (s : State) : Out :=
  merge2 (.vsub t d a b k) 2 d a b k (fun x y => plain (satLane t (laneInt t x - laneInt t y))) s
def execVmul (d a : Nat) (b : VB) (k : Nat) (s : State) : Out := merge2 (.vmul d a b k) 2 d a b k (fun x y => plain (x * y)) s
def execVmulh (u : Bool) (d a : Nat) (b : VB) (k : Nat) (s : State) : Out :=
  merge2 (.vmulh u d a b k) 2 d a b k (fun x y =>
    plain (if u then BitVec.ofNat 32 (x.toNat * y.toNat / 2 ^ 32) else BitVec.ofInt 32 (x.toInt * y.toInt / 2 ^ 32))) s
def execVand (d a : Nat) (b : VB) (k : Nat) (s : State) : Out := merge2 (.vand d a b k) 2 d a b k (fun x y => plain (x &&& y)) s
def execVor (d a : Nat) (b : VB) (k : Nat) (s : State) : Out := merge2 (.vor d a b k) 2 d a b k (fun x y => plain (x ||| y)) s
def execVxor (d a : Nat) (b : VB) (k : Nat) (s : State) : Out := merge2 (.vxor d a b k) 2 d a b k (fun x y => plain (x ^^^ y)) s
def execVshl (d a : Nat) (b : VB) (k : Nat) (s : State) : Out := merge2 (.vshl d a b k) 2 d a b k (fun x y => plain (x <<< lsh y)) s
def execVshr (d a : Nat) (b : VB) (k : Nat) (s : State) : Out := merge2 (.vshr d a b k) 2 d a b k (fun x y => plain (x >>> lsh y)) s
def execVsar (d a : Nat) (b : VB) (k : Nat) (s : State) : Out :=
  merge2 (.vsar d a b k) 2 d a b k (fun x y => plain (x.sshiftRight (lsh y))) s
def execVmin (u : Bool) (d a : Nat) (b : VB) (k : Nat) (s : State) : Out :=
  merge2 (.vmin u d a b k) 2 d a b k (fun x y => plain (if u then minU x y else minS x y)) s
def execVmax (u : Bool) (d a : Nat) (b : VB) (k : Nat) (s : State) : Out :=
  merge2 (.vmax u d a b k) 2 d a b k (fun x y => plain (if u then maxU x y else maxS x y)) s
def execVcmp (c : Cond) (d a : Nat) (b : VB) (k : Nat) (s : State) : Out :=
  maskResult (.vcmp c d a b k) 2 d k (fun s i => condHolds c (s.va a i) (s.vbLane b i)) s
def execVsel (d a : Nat) (b : VB) (c k : Nat) (s : State) : Out :=
  merge (.vsel d a b c k) 2 d k (fun s => each fun i => plain (if (s.rdM c).getLsbD i then s.va a i else s.vbLane b i)) s
/-- VABS (R280): the absolute value of 0x8000_0000 wraps to itself or saturates. -/
def execVabs (t : Bool) (d a k : Nat) (s : State) : Out :=
  merge1 (.vabs t d a k) 2 d a k (fun x => plain (if x.msb then (if t ∧ x = 0x80000000 then 0x7FFFFFFF else -x) else x)) s
def execVpopc (d a k : Nat) (s : State) : Out := merge1 (.vpopc d a k) 2 d a k (fun x => plain (BitVec.ofNat 32 (popcount x))) s

/-! ### Conversions and MX blocks (R282–R285, R52) -/

/-- Range of an integer type of width w. -/
def intLo (sg : Bool) (w : Nat) : Int := if sg then -(2 ^ (w - 1)) else 0
def intHi (sg : Bool) (w : Nat) : Int := if sg then 2 ^ (w - 1) - 1 else 2 ^ w - 1
/-- Low w bits of an integer, sign- or zero-extended into the lane. -/
def narrow (sg : Bool) (w : Nat) (x : Int) : Lane :=
  let y := x % 2 ^ w
  BitVec.ofInt 32 (if sg ∧ 2 ^ (w - 1) ≤ y then y - 2 ^ w else y)
def clamp (sg : Bool) (w : Nat) (x : Int) : Int := min (max x (intLo sg w)) (intHi sg w)

/-- FP32 to an integer type (R52). -/
def toInteger (sg : Bool) (w : Nat) (rm : Rm) (sat : Bool) (x : Lane) : LaneOut :=
  match laneVal x with
  | .nan => (0, fINV)
  | .inf neg => (narrow sg w (if neg then intLo sg w else intHi sg w), fINV)
  | .num neg m e =>
    let (n, inexact) := roundUnits rm neg m e 0
    let v : Int := if neg then -(n : Int) else n
    if v < intLo sg w ∨ intHi sg w < v then (narrow sg w (if sat then clamp sg w v else v), fINV)
    else (narrow sg w v, if inexact then fINX else 0)

/-- An integer to FP32 (R52). -/
def ofInteger (rm : Rm) (x : Int) : LaneOut := laneOf rm (.num (x < 0) x.natAbs 0, 0)

/-- FP32 to a narrower format (R52): an infinity is kept in FP16 and BF16 with or without .sat, and is invalid in E4M3. -/
def toFormat (f : Fmt) (rm : Rm) (sat : Bool) (x : Lane) : LaneOut :=
  match laneVal x with
  | .inf neg =>
    if !f.inf then (BitVec.ofNat 32 f.cnan, fINV)
    else (BitVec.ofNat 32 (f.signed neg (if sat ∧ f.width = 8 then f.top else f.infCode)), 0)
  | v =>
    let (c, fl) := roundFp f rm sat v
    (BitVec.ofNat 32 c, fl)

/-- A narrower format to FP32, exactly (R52). -/
def ofFormat (f : Fmt) (x : Lane) : LaneOut := plain (BitVec.ofNat 32 (roundFp fp32 .rn false (f.value (x.toNat % 2 ^ f.width))).1)

/-- Narrowing and widening of integers (R52). -/
def narrowInt (sg : Bool) (w : Nat) (sat : Bool) (x : Lane) : LaneOut :=
  let v : Int := if sg then x.toInt else x.toNat
  plain (narrow sg w (if sat then clamp sg w v else v))
def widenInt (sg : Bool) (w : Nat) (x : Lane) : LaneOut := plain (narrow sg w x.toNat)

/-- One lane of VCVT (R282). -/
def cvtLane (p : CvtPair) (rm : Rm) (sat : Bool) (x : Lane) : LaneOut :=
  match p with
  | .f32i32 => toInteger true 32 rm sat x
  | .f32n32 => toInteger false 32 rm sat x
  | .f32i16 => toInteger true 16 rm sat x
  | .f32n16 => toInteger false 16 rm sat x
  | .f32i8 => toInteger true 8 rm sat x
  | .f32n8 => toInteger false 8 rm sat x
  | .i32f32 => ofInteger rm x.toInt
  | .n32f32 => ofInteger rm x.toNat
  | .f32bf16 => toFormat bf16 rm sat x
  | .f32f16 => toFormat fp16 rm sat x
  | .f32e4m3 => toFormat e4m3 rm true x
  | .f32e5m2 => toFormat e5m2 rm sat x
  | .bf16f32 => ofFormat bf16 x
  | .f16f32 => ofFormat fp16 x
  | .e4m3f32 => ofFormat e4m3 x
  | .e5m2f32 => ofFormat e5m2 x
  | .i32i16 => narrowInt true 16 sat x
  | .i32i8 => narrowInt true 8 sat x
  | .n32n16 => narrowInt false 16 sat x
  | .n32n8 => narrowInt false 8 sat x
  | .i16i32 => widenInt true 16 x
  | .i8i32 => widenInt true 8 x
  | .n16n32 => widenInt false 16 x
  | .n8n32 => widenInt false 8 x

def execVcvt (p : CvtPair) (rm : Rm) (sat : Bool) (d a k : Nat) (s : State) : Out :=
  merge1 (.vcvt p rm sat d a k) 4 d a k (cvtLane p rm sat) s

/-- An exact value differs from another that is not NaN. -/
def Val.differs (a b : Val) : Bool := Val.cmp a b ≠ 0

/-- VQMX of one half of a register (R283): inactive lanes enter as +0. -/
def qmxHalf (el : Elem) (sr : Bool) (xs : List Lane) (rs : List Nat) : List LaneOut :=
  let vs := xs.map laneVal
  let b := mxQuantise el sr vs rs
  (vs.zip b.codes).map fun (v, c) =>
    (BitVec.ofNat 32 (b.scale * 256 + c), if b.scale ≠ 0xFF ∧ (mxValue el b.scale c).differs v then fINX else 0)

def execVqmx (el : Elem) (d a : Nat) (sr : Option VB) (k : Nat) (s : State) : Out :=
  merge (.vqmx el d a sr k) 6 d k (fun s =>
    let x : List Lane := (List.range 64).map fun i => if (s.rdM k).getLsbD i then s.va a i else 0
    let r : List Nat := match sr with
      | some b => (List.range 64).map fun i => (s.vbLane b i).toNat % 65536
      | none => []
    qmxHalf el sr.isSome (x.take 32) (r.take 32) ++ qmxHalf el sr.isSome (x.drop 32) (r.drop 32)) s

/-- One lane of VDQMX (R284). -/
def dqmxLane (el : Elem) (rm : Rm) (x : Lane) : LaneOut :=
  laneOf rm (mxValue el (x.toNat / 256 % 256) (x.toNat % 2 ^ (elemFmt el).width), 0)
def execVdqmx (el : Elem) (rm : Rm) (d a k : Nat) (s : State) : Out := merge1 (.vdqmx el rm d a k) 6 d a k (dqmxLane el rm) s

/-- Packed width in bits (R285). -/
def packBits : PackW → Nat
  | .h => 16 | .b => 8 | .q => 4
def execVpack (w : PackW) (d a b k : Nat) (s : State) : Out :=
  merge (.vpack w d a b k) 3 d k (fun s =>
    let n := packBits w
    let all := (List.range 128).foldl (fun x i =>
      x + (if i < 64 then s.va a i else s.va b (i - 64)).toNat % 2 ^ n * 2 ^ (n * i)) 0
    each fun i => plain (BitVec.ofNat 32 (all / 2 ^ (32 * i)))) s
def execVunpk (w : PackW) (sg : Bool) (part d a k : Nat) (s : State) : Out :=
  merge (.vunpk w sg part d a k) 3 d k (fun s =>
    let n := packBits w
    each fun i => plain (narrow sg n ((s.rdV a).toNat / 2 ^ (n * (64 * part + i)) % 2 ^ n : Nat))) s

/-! ### Lane movement (R286, R288, R289) -/

def execVperm (d a : Nat) (b : VB) (k : Nat) (s : State) : Out :=
  merge (.vperm d a b k) 3 d k (fun s => each fun i =>
    plain (if (s.vbLane b i).toNat < 64 then s.va a (s.vbLane b i).toNat else 0)) s
/-- Lane i of a VSHUF (R286). -/
def shufLane (p : Shuf) (a b : Nat → Lane) (i : Nat) : Lane :=
  let c (j : Nat) : Lane := if j < 64 then a j else b (j - 64)
  match p with
  | .ilo => if i % 2 = 0 then a (i / 2) else b (i / 2)
  | .ihi => if i % 2 = 0 then a (32 + i / 2) else b (32 + i / 2)
  | .even => c (2 * i)
  | .odd => c (2 * i + 1)
  | .rev => a (63 - i)
def execVshuf (p : Shuf) (d a b k : Nat) (s : State) : Out :=
  merge (.vshuf p d a b k) 3 d k (fun s => each fun i => plain (shufLane p (s.va a) (s.va b) i)) s
def execVbcast (d : Nat) (src : BcastSrc) (k : Nat) (s : State) : Out :=
  merge (.vbcast d src k) 3 d k (fun s => each fun _ => plain (match src with
    | .lane a c => s.va a c
    | .scalar b => (s.rdS b).setWidth 32)) s
def execVins (dw : Bool) (d a lane : Nat) (s : State) : Out :=
  whole (.vins dw d a lane) 3 d (fun s => each fun i => plain
    (if i = lane then (s.rdS a).setWidth 32 else if dw ∧ i = lane + 1 then (s.rdS a >>> 32).setWidth 32 else s.va d i)) s
def execVext (form : ExtForm) (d a lane : Nat) (s : State) : Out :=
  alu (.vext form d a lane) 3 d (fun s => match form with
    | .zero => (s.va a lane).setWidth 64
    | .sign => (s.va a lane).signExtend 64
    | .dword => (s.va a (lane + 1)).setWidth 64 <<< 32 ||| (s.va a lane).setWidth 64) s
def execViota (d k : Nat) (s : State) : Out :=
  whole (.viota d k) 2 d (fun s => each fun i => plain (BitVec.ofNat 32 (popcount ((s.rdM k).setWidth i)))) s
def execVcomp (d a k : Nat) (s : State) : Out :=
  whole (.vcomp d a k) 3 d (fun s =>
    let l := ((List.range 64).filter fun i => (s.rdM k).getLsbD i).map (s.va a)
    each fun i => plain (l.getD i 0)) s

/-! ### Reductions, Hadamard, random numbers (R287, R290, R291) -/

def redIdentity : RedOp → Lane
  | .fadd => 0x80000000 | .fmax => 0xFF800000 | .fmin => 0x7F800000 | .add => 0 | .max => 0x80000000 | .min => 0x7FFFFFFF | .maxu => 0
  | .minu => 0xFFFFFFFF
def redOp (op : RedOp) (x y : Lane) : LaneOut :=
  match op with
  | .fadd => fpAdd .rn x y
  | .fmax => plain (fpMinMax true x y)
  | .fmin => plain (fpMinMax false x y)
  | .add => plain (x + y)
  | .max => plain (maxS x y)
  | .min => plain (minS x y)
  | .maxu => plain (maxU x y)
  | .minu => plain (minU x y)

/-- One level of VRED's tree on neighbouring pairs. -/
def redLevel (op : RedOp) : List Lane → List LaneOut
  | x :: y :: t => redOp op x y :: redLevel op t
  | [x] => [plain x]
  | [] => []
/-- VRED's fixed tree (R287). -/
def redTree (op : RedOp) : Nat → List Lane → Lane × Flags
  | 0, l => (l.headD 0, 0)
  | n + 1, l =>
    let r := redLevel op l
    let (x, f) := redTree op n (r.map (·.1))
    (x, f ||| joinFlags r)
/-- VSCAN's stages (R287). -/
def scanStages (op : RedOp) : List Nat → List Lane → List Lane × Flags
  | [], l => (l, 0)
  | st :: t, l =>
    let r := each fun i => if 2 ^ st ≤ i then redOp op (l.getD (i - 2 ^ st) 0) (l.getD i 0) else plain (l.getD i 0)
    let (x, f) := scanStages op t (r.map (·.1))
    (x, f ||| joinFlags r)
/-- Source lanes, with the identity in inactive ones (R287). -/
def redSource (op : RedOp) (a k : Nat) (s : State) : List Lane :=
  (List.range 64).map fun i => if (s.rdM k).getLsbD i then s.va a i else redIdentity op
/-- Lane outputs that share their exception bits. -/
def sharing (l : List Lane) (f : Flags) : List LaneOut := l.map fun x => (x, f)

def execVred (op : RedOp) (d a k : Nat) (s : State) : Out :=
  whole (.vred op d a k) 8 d (fun s =>
    let (x, f) := redTree op 6 (redSource op a k s)
    sharing (List.replicate 64 x) f) s
def execVscan (op : RedOp) (d a k : Nat) (s : State) : Out :=
  whole (.vscan op d a k) 8 d (fun s =>
    let (l, f) := scanStages op [0, 1, 2, 3, 4, 5] (redSource op a k s)
    sharing l f) s

/-- log2 of VHAD's block (R290). -/
def hadLog : HadN → Nat
  | .n16 => 4 | .n32 => 5 | .n64 => 6
/-- fwht of each block of 2^k lanes. -/
def hadBlocks (k : Nat) : Nat → List Lane → List LaneOut
  | 0, _ => []
  | n + 1, l =>
    let (v, f) := fwht k 0 (l.take (2 ^ k))
    sharing v f ++ hadBlocks k n (l.drop (2 ^ k))
def execVhad (n : HadN) (d a : Nat) (s : State) : Out :=
  whole (.vhad n d a) 8 d (fun s => hadBlocks (hadLog n) (2 ^ (6 - hadLog n)) ((List.range 64).map (s.va a))) s

/-- One lane of VRNG (R291). -/
def rngLane (o : RngOut) (key : Word) (x y : Lane) : Lane :=
  let stream := match o with
    | .sra => 0
    | .srb => 1
    | .sign => 4
    | _ => 3
  let g := gRand key (rngCtr stream x.toNat y.toNat)
  match o with
  | .lo => g.setWidth 32
  | .hi => (g >>> 32).setWidth 32
  | .sr | .sra | .srb => (g &&& 0xFFFF).setWidth 32
  | .unif => BitVec.ofNat 32 (roundFp fp32 .rn false (.num false (g.toNat / 2 ^ 40) (-24))).1
  | .sign => if g.getLsbD 0 then 0xBF800000 else 0x3F800000
def execVrng (o : RngOut) (d a : Nat) (b : VB) (key k : Nat) (s : State) : Out :=
  merge (.vrng o d a b key k) 6 d k (fun s => each fun i => plain (rngLane o (s.rdS key) (s.va a i) (s.vbLane b i))) s

/-! ### Masks (R292) -/

def execMlog (t : BitVec 4) (d a b : Nat) (s : State) : Out := issue (.mlog t d a b) noIll s fun s =>
  .ok (s.putM 2 d (bitsWhere fun i => truth t ((s.rdM a).getLsbD i) ((s.rdM b).getLsbD i)))
def execMpopc (d a : Nat) (s : State) : Out := alu (.mpopc d a) 2 d (fun s => word (popcount (s.rdM a))) s
def execMfirst (d a : Nat) (s : State) : Out := alu (.mfirst d a) 2 d (fun s => ctzW (s.rdM a)) s
def execMset (d a : Nat) (s : State) : Out := issue (.mset d a) noIll s fun s => .ok (s.putM 2 d (s.rdS a))
def execMget (d a : Nat) (s : State) : Out := alu (.mget d a) 2 d (fun s => s.rdM a) s

end Sys2Proof.Machine
end

