-- ==== Sys2Proof/Machine/Matrix.lean ====
section
/-! DEFINITION. The matrix unit (04 R58–R73, 15 R293–R303, 17 R344): configuration, operand preparation, accumulation, drains and quantisation,
and the completions of its instructions. -/

namespace Sys2Proof.Machine

/-! ### Configuration (R62, R63) -/

/-- The five words of mc n in force. -/
def Hart.mcWords (h : Hart) (n : Nat) : List Word := (List.range 5).map fun i => Tab.get 0 h.mc (5 * n + i)

/-- A field of w0, and the words. -/
def cfgF (c : List Word) (lo n : Nat) : Nat := wf (c.getD 0 0) lo n
def cfgFmt (c : List Word) (sideB : Bool) : Nat := if sideB then cfgF c 8 4 else cfgF c 4 4
def cfgQ (c : List Word) (sideB : Bool) : Nat := if sideB then cfgF c 14 2 else cfgF c 12 2
def cfgElem (c : List Word) (sideB : Bool) : Elem :=
  match cfgQ c sideB with
  | 0 => .e2m1
  | 1 => .e4m3
  | _ => .e5m2
/-- log2 of the rotation size, 0 for none. -/
def cfgRot (c : List Word) : Nat := if cfgF c 18 3 = 0 then 0 else cfgF c 18 3 + 3
def cfgInner (c : List Word) : Bool := cfgF c 21 1 = 1
def cfgOuter (c : List Word) : Nat := cfgF c 22 2
def cfgRbx (c : List Word) : Bool := cfgF c 25 1 = 1
/-- This side is rotated across its lines (R67). -/
def cfgAcross (c : List Word) (sideB : Bool) : Bool := cfgOuter c = if sideB then 2 else 1
/-- Stochastic rounding of a side (R64). -/
def cfgSr (c : List Word) (sideB : Bool) : Bool :=
  match cfgF c 0 4 with
  | 0 => if sideB then cfgF c 17 1 = 1 else cfgF c 16 1 = 1
  | 1 => false
  | _ => !sideB
def cfgKorg (c : List Word) : Nat := wf (c.getD 3 0) 0 32
def cfgOrg (c : List Word) (sideB : Bool) : Nat := if sideB then wf (c.getD 4 0) 0 32 else wf (c.getD 3 0) 32 32
/-- Scratchpad offset of the rounding table (R62). -/
def cfgTable (c : List Word) : Nat := wf (c.getD 2 0) 0 21

/-- Configurations MCFG refuses (R63). -/
def cfgBad (c : List Word) : Bool :=
  cfgF c 26 38 ≠ 0 || wf (c.getD 4 0) 32 32 ≠ 0 || cfgF c 0 4 > 3 || cfgF c 4 4 > 5 || cfgF c 8 4 > 5 || cfgF c 12 2 = 3 || cfgF c 14 2 = 3
    || cfgF c 18 3 > 4 || cfgOuter c = 3 || (cfgF c 0 4 ≠ 0 && cfgF c 16 2 ≠ 0)
    || (cfgF c 4 4 ≥ 3 && cfgF c 12 2 ≠ cfgF c 4 4 - 3) || (cfgF c 8 4 ≥ 3 && cfgF c 14 2 ≠ cfgF c 8 4 - 3)
    || ((cfgInner c || cfgOuter c ≠ 0) && cfgF c 18 3 = 0) || (cfgF c 24 1 = 1 && (cfgF c 18 3 = 0 || cfgF c 18 3 = 4))
    || (cfgRbx c && (wf (c.getD 2 0) 0 1 = 1 || wf (c.getD 2 0) 21 43 ≠ 0))

/-! ### Operand registers (R293) -/

def pLines (w : Word) : Nat := wf w 48 8
def pPitch (w : Word) : Nat := wf w 32 16
def pAddr (w : Word) : Nat := wf w 0 21
/-- A panel register outside its valid values. -/
def panelBad (w : Word) : Bool := wf w 56 8 ≠ 0 || pLines w = 0 || pLines w > 128 || wf w 21 11 ≠ 0
/-- A tile-window register with ROWS and COLS zero, outside its valid values. -/
def windowBad (w : Word) : Bool := wf w 48 16 ≠ 0 || wf w 21 11 ≠ 0
def skewed (w : Word) : Bool := pPitch w % 16 ≠ 0 || pAddr w % 16 ≠ 0
def kBad (w : Word) : Bool := w.toNat < 32 || w.toNat > 2048 || w.toNat % 32 ≠ 0

/-- Bytes of a panel row of k elements (R295, R59). -/
def rowBytes (fmt k : Nat) : Nat :=
  match fmt with
  | 0 => 2 * k
  | 1 => 4 * k
  | 2 => 2 * k
  | 3 => 17 * k / 32
  | _ => 33 * k / 32
/-- Bits of the element to which byte i of a panel of rows of k elements belongs, as R61 reads it: a scale byte is one element (R59). -/
def elemBits (fmt k i : Nat) : Nat :=
  match fmt with
  | 0 => 16
  | 1 => 32
  | 2 => 16
  | 3 => if i % rowBytes 3 k < k / 2 then 4 else 8
  | _ => 8

/-- Offsets of a panel's lines. -/
def lineOffs (w : Word) : List (Option Nat) := (List.range (pLines w)).map fun l => some (pAddr w + l * pPitch w)
/-- Row number of output row i in a gather vector (R71). -/
def gatherRow (g : VReg) (i : Nat) : Nat := g.toNat / 2 ^ (16 * i) % 65536
/-- Offsets of gathered rows: none for a row that reads as zero (R71). -/
def gatherOffs (g : VReg) (w : Word) (n scr : Nat) : List (Option Nat) :=
  (List.range (pLines w)).map fun i =>
    let o := pAddr w + gatherRow g i * pPitch w
    if gatherRow g i = 0xFFFF ∨ o + n > scr * bankSize then none else some o

/-- Offsets of the rows of panel A of an MMA, gathered or not (R71). -/
def mmaOffs (c : List Word) (g : Option VReg) (wa : Word) (k scr : Nat) : List (Option Nat) :=
  match g with
  | some v => gatherOffs v wa (rowBytes (cfgFmt c false) k) scr
  | none => lineOffs wa

/-- Bytes of a panel's lines, zero rows included. -/
def Hart.lineBytes (h : Hart) (offs : List (Option Nat)) (n : Nat) : List Byte :=
  offs.flatMap fun o => match o with
    | some a => h.spBytes a n
    | none => List.replicate n 0

/-- The spans of scratchpad an instruction reads. -/
def spansOf (offs : List (Option Nat)) (n : Nat) : List (Nat × Nat) := offs.filterMap fun o => o.map fun a => (a, n)
/-- Rounding-table entries read, as a span (R344): none for a pre-quantised side, which is not rounded (R67). -/
def tableSpan (c : List Word) (first count : Nat) (sideB : Bool) : List (Nat × Nat) :=
  if cfgRbx c ∧ cfgSr c sideB ∧ cfgFmt c sideB < 3 ∧ count ≠ 0 then [(cfgTable c + 2 * first, 2 * count)] else []

/-- The first byte of the spans that no SCRATCH bank of the task holds (R294). -/
def State.spanFault (s : State) (l : List (Nat × Nat)) : Option Nat :=
  l.findSome? fun (o, n) =>
    ((List.range ((o + n - 1) / bankSize + 1 - o / bankSize)).find? fun i =>
      !(decide (o / bankSize + i < s.h.scr) && (s.h.bank (o / bankSize + i)).mode = .scratch)).map fun i => max o ((o / bankSize + i) * bankSize)
/-- A granule of the spans with an uncorrectable error (R86). -/
def State.spanBad (s : State) (l : List (Nat × Nat)) : Option Nat :=
  l.findSome? fun (o, n) => (granules o n).find? s.h.spBad.contains
/-- Corrected errors of the granules of the spans are counted (R86). -/
def State.spanCorrect (s : State) (l : List (Nat × Nat)) : State := s.spCorrect s.cur (l.flatMap fun (o, n) => granules o n)
/-- The last checks of a matrix instruction that reads and writes the spans (R294, R86), and its start. -/
def State.matStart (s : State) (skew : Bool) (reads writes : List (Nat × Nat)) (go : State → State) : Res :=
  if skew then .exc { code := cALIGN, detail := 0 } 0
  else match s.spanFault (reads ++ writes) with
    | some o => .exc { code := cSPACE, detail := 0 } (word o)
    | none => match s.spanBad reads with
      | some g => .exc { code := cDATA, detail := 1 } (word (16 * g))
      | none => .ok ((go s).spanCorrect reads)

/-- A span lies in bytes that an MDRAIN or MQNT has still to write (R301). -/
def Hart.willWrite (h : Hart) (l : List (Nat × Nat)) : Bool :=
  h.matq.any fun m => m.outs.any fun (o, d) => l.any fun (a, n) => o < a + n && a < o + d.length
/-- The tile has an earlier matrix instruction that is not complete (R60). -/
def Hart.tileBusy (h : Hart) (z : Nat) : Bool :=
  (h.matq.any fun m => m.tile = z && (match m.kind with | .mqnt _ => false | _ => true)) || h.pend.any fun e => e.w = .z z
/-- The matrix slot is busy (R239). -/
def Hart.mBusy (h : Hart) : Bool := h.cyc < h.mFree
/-- A matrix instruction enters the unit. -/
def Hart.startMat (h : Hart) (busy due : Nat) (m : MatOp) : Hart :=
  { h with mFree := h.cyc + busy, matq := h.matq ++ [{ m with due := h.cyc + due, seen := h.spLog.length }] }

/-! ### Rotation and quantisation (R65–R67) -/

/-- rot_sign (R65): true for −1. -/
def rotSign (c : List Word) (coord p : Nat) : Bool :=
  if cfgF c 24 1 = 1 then (c.getD 1 0).getLsbD p else (gRand (c.getD 1 0) (rngCtr 4 0 coord)).getLsbD 0
def flipIf (b : Bool) (x : Lane) : Lane := if b then x ^^^ 0x80000000 else x
/-- The signs of a line along the rotated axis. -/
def signLine (c : List Word) (org : Nat) (v : List Lane) : List Lane :=
  v.zipIdx.map fun (x, i) => flipIf (rotSign c (org + i) (i % 2 ^ cfgRot c)) x
/-- fwht of each block of a line (R66). -/
def fwhtLine (c : List Word) (v : List Lane) : List Lane × Flags :=
  let o := hadBlocks (cfgRot c) (v.length / 2 ^ cfgRot c) v
  (o.map (·.1), joinFlags o)
/-- rotate_line (R66). -/
def rotateLine (c : List Word) (org : Nat) (v : List Lane) : List Lane × Flags := fwhtLine c (signLine c org v)
/-- Columns of a list of lines of length n. -/
def columns (n : Nat) (m : List (List Lane)) : List (List Lane) := (List.range n).map fun k => m.map fun l => l.getD k 0
/-- A line function applied to each line, with the flags joined. -/
def onLines (f : List Lane → List Lane × Flags) (m : List (List Lane)) : List (List Lane) × Flags :=
  let o := m.map f
  (o.map (·.1), o.foldl (fun a x => a ||| x.2) 0)

/-- The FP32 elements of a panel line (R67). -/
def lineElems (fmt k : Nat) (b : List Byte) : List Lane :=
  (List.range k).map fun i => match fmt with
    | 0 => BitVec.ofNat 32 (numOf ((b.drop (2 * i)).take 2) * 65536)
    | 1 => BitVec.ofNat 32 (numOf ((b.drop (4 * i)).take 4))
    | _ => (ofFormat fp16 (BitVec.ofNat 32 (numOf ((b.drop (2 * i)).take 2)))).1
/-- The blocks of a pre-quantised line: scale and codes (R59). -/
def lineCodes (fmt k : Nat) (b : List Byte) : List (Nat × List Nat) :=
  (List.range (k / 32)).map fun kb =>
    if fmt = 3 then
      ((b.getD (k / 2 + kb) 0).toNat,
       (List.range 32).map fun t => (b.getD (16 * kb + t / 2) 0).toNat / 16 ^ (t % 2) % 16)
    else ((b.getD (k + kb) 0).toNat, (List.range 32).map fun t => (b.getD (32 * kb + t) 0).toNat)

/-- sr_value (R67); `base` is M × K for side B of an MMA, 0 otherwise; the table holds the entries from `base` on. -/
def srValue (c : List Word) (sideB : Bool) (table : List Byte) (l k n : Nat) : Nat :=
  if cfgRbx c then numOf ((table.drop (2 * (l * n + k))).take 2)
  else if sideB then (gRand (c.getD 2 0) (rngCtr 1 (cfgKorg c + k) (cfgOrg c true + l))).toNat % 65536
  else (gRand (c.getD 2 0) (rngCtr 0 (cfgOrg c false + l) (cfgKorg c + k))).toNat % 65536

/-- prepare (R67): the blocks of each line, the flags of the rotations, and whether an element saturated. -/
def prepare (c : List Word) (sideB : Bool) (k : Nat) (lines : List (List Byte)) (table : List Byte) :
    List (List (Nat × List Nat)) × Flags × Bool :=
  let fmt := cfgFmt c sideB
  if fmt ≥ 3 then (lines.map (lineCodes fmt k), 0, false)
  else
    let x := lines.map (lineElems fmt k)
    let (x, f1) := if cfgAcross c sideB then
        let (cols, f) := onLines (rotateLine c (cfgOrg c sideB)) (columns k x)
        (columns x.length cols, f)
      else (x, 0)
    let (x, f2) := if cfgInner c then onLines (rotateLine c (cfgKorg c)) x else (x, 0)
    let sr := cfgSr c sideB
    let q := x.zipIdx.map fun (line, l) => (List.range (k / 32)).map fun kb =>
      mxQuantise (cfgElem c sideB) sr (((line.drop (32 * kb)).take 32).map laneVal)
        (if sr then (List.range 32).map fun t => srValue c sideB table l (32 * kb + t) k else [])
    (q.map fun bl => bl.map fun b => (b.scale, b.codes), f1 ||| f2, q.any fun bl => bl.any fun b => b.sat)

/-! ### Accumulation (R69) -/

/-- A finite element value in units of its format's last place. -/
def mxUnits (f : Fmt) : Val → Int
  | .num neg m e => let x : Int := m * 2 ^ (e - f.qmin).toNat; if neg then -x else x
  | _ => 0
def Val.isInf : Val → Bool
  | .inf _ => true
  | _ => false
def Val.isZero : Val → Bool
  | .num _ m _ => m = 0
  | _ => false
def Val.isNeg : Val → Bool
  | .num n _ _ => n
  | .inf n => n
  | .nan => false

/-- mma_accumulate (R69) of one k-block; flags as MSTAT's. -/
def accumulate (ea eb : Elem) (z : Lane) (a b : Nat × List Nat) : Lane × Flags :=
  let fa := elemFmt ea
  let fb := elemFmt eb
  let va := a.2.map fa.value
  let vb := b.2.map fb.value
  let vz := laneVal z
  if a.1 = 0xFF ∨ b.1 = 0xFF ∨ vz.isNan ∨ va.any Val.isNan ∨ vb.any Val.isNan then (0x7FC00000, if vz.isNan then 0 else fINV)
  else
    let ps := va.zip vb
    let infs := ps.filter fun (x, y) => x.isInf || y.isInf
    if infs.isEmpty then
      let p : Int := ps.foldl (fun t (x, y) => t + mxUnits fa x * mxUnits fb y) 0
      if vz.isInf then (z, 0)
      else laneOf .rn (Val.add .rn vz (.num (p < 0) p.natAbs (fa.qmin + fb.qmin + a.1 + b.1 - 254)))
    else
      let neg := infs.map fun (x, y) => x.isNeg != y.isNeg
      if infs.any (fun (x, y) => x.isZero || y.isZero) ∨ (neg.contains true ∧ neg.contains false) ∨ (vz.isInf ∧ !neg.contains vz.isNeg)
      then (0x7FC00000, fINV)
      else (if neg.contains true then 0xFF800000 else 0x7F800000, 0)

/-- All k-blocks of one tile element, in ascending order. -/
def accumulateLine (ea eb : Elem) (z : Lane) (a b : List (Nat × List Nat)) : Lane × Flags :=
  (a.zip b).foldl (fun (z, f) (x, y) =>
    let (z', g) := accumulate ea eb z x y
    (z', f ||| g)) (z, 0)

/-- Tile elements (R58). -/
def Hart.zAt (h : Hart) (t i j : Nat) : Lane := Tab.get 0 h.z ((t * 128 + i) * 128 + j)
/-- Write tile elements (i, j). -/
def Hart.zPut (h : Hart) (t : Nat) (l : List (Nat × Nat × Lane)) : Hart :=
  { h with z := l.foldl (fun m (i, j, x) => Tab.set 0 m ((t * 128 + i) * 128 + j) x) h.z }
/-- Indices (i, j) of an m × n window. -/
def window (m n : Nat) : List (Nat × Nat) := (List.range m).flatMap fun i => (List.range n).map fun j => (i, j)
/-- Cut bytes into lines of n. -/
def cutLines (n count : Nat) (b : List Byte) : List (List Byte) := (List.range count).map fun l => (b.drop (l * n)).take n

/-- The new tile elements of an MMA and its MSTAT bits (R295, R70). A rotation's INV shows through the scale it gives. -/
def mmaResult (h : Hart) (t : Nat) (c : List Word) (m n k : Nat) (pa pb ta tb : List Byte) : List (Nat × Nat × Lane) × BitVec 6 :=
  let (a, fa, qa) := prepare c false k (cutLines (rowBytes (cfgFmt c false) k) m pa) ta
  let (b, fb, qb) := prepare c true k (cutLines (rowBytes (cfgFmt c true) k) n pb) tb
  let r := (window m n).map fun (i, j) => (i, j, accumulateLine (cfgElem c false) (cfgElem c true) (h.zAt t i j) (a.getD i []) (b.getD j []))
  (r.map fun (i, j, x) => (i, j, x.1),
   mstatOf (((fa ||| fb) &&& 0x1C) ||| r.foldl (fun f (_, _, x) => f ||| x.2) 0) (qa || qb))

/-- The new tile elements of an MBIN (R73). -/
def mbinResult (h : Hart) (t m n k : Nat) (xor : Bool) (pa pb : List Byte) : List (Nat × Nat × Lane) :=
  let a := cutLines (k / 8) m pa
  let b := cutLines (k / 8) n pb
  (window m n).map fun (i, j) =>
    let c := (List.zipWith (fun (x y : Byte) => popcount (if xor then x ^^^ y else x &&& y)) (a.getD i []) (b.getD j [])).foldl (· + ·) 0
    (i, j, h.zAt t i j + BitVec.ofNat 32 c)

/-! ### Reads that a concurrent write may change (R61) -/

/-- The offset of each byte of a panel's lines: none in a row that reads as zero. -/
def byteOffs (offs : List (Option Nat)) (n : Nat) : List (Option Nat) := offs.flatMap fun o => (List.range n).map fun i => o.map (· + i)
/-- What a panel's bytes become when d is written at offset o. -/
def overwrite (at_ : List (Option Nat)) (p : List Byte) (o : Nat) (d : List Byte) : List Byte :=
  (at_.zip p).map fun (a, x) => match a with
    | some a => if o ≤ a ∧ a < o + d.length then d.getD (a - o) x else x
    | none => x
/-- What a panel has held since the operation began, in order, without repeats. -/
def Hart.held (h : Hart) (m : MatOp) (at_ : List (Option Nat)) (p : List Byte) : List (List Byte) :=
  ((h.spLog.drop m.seen).foldl (fun l (o, d) => overwrite at_ (l.headD p) o d :: l) [p]).reverse.eraseDups
/-- A panel as the operation reads it: each element is one of those its place has held, and which is free; `bits i` are the bits of the element that
byte i belongs to. -/
def State.mixRead (s : State) (bits : Nat → Nat) (held : List (List Byte)) : List Byte × State :=
  match held with
  | [] => ([], s)
  | [p] => (p, s)
  | p :: _ =>
    let pick (j i : Nat) : Byte := (held.getD ((Config.freeWord (s.nfree + j)).toNat % held.length) p).getD i 0
    ((List.range p.length).map fun i =>
      if bits i ≥ 8 then pick (8 * (i / (bits i / 8) * (bits i / 8))) i
      else (List.range (8 / bits i)).foldl (fun b q =>
        b ||| (pick (8 * i + q * bits i) i &&& (BitVec.ofNat 8 (2 ^ bits i - 1) <<< (q * bits i)))) 0,
     { s with nfree := s.nfree + 8 * p.length })
/-- Panel `ix` of an operation, whose lines of n bytes lie at the offsets, as the operation reads it. -/
def State.panel (s : State) (h : Hart) (m : MatOp) (ix : Nat) (bits : Nat → Nat) (offs : List (Option Nat)) (n : Nat) : List Byte × State :=
  s.mixRead bits (h.held m (byteOffs offs n) (m.panels.getD ix []))
/-- A rounding table as the operation reads it. -/
def State.table (s : State) (h : Hart) (m : MatOp) (ix : Nat) (span : List (Nat × Nat)) : List Byte × State :=
  s.panel h m ix (fun _ => 16) (span.map fun x => some x.1) ((span.headD (0, 0)).2)

/-! ### Drain and quantisation (R72, R300) -/

/-- The inverse rotation of a line: butterfly, then signs. -/
def unrotateLine (c : List Word) (org : Nat) (v : List Lane) : List Lane × Flags :=
  let (w, f) := fwhtLine c v
  (signLine c org w, f)

/-- drain (R72): the code of each element, row by row, and the flags. -/
def drainTile (c : List Word) (bf : Bool) (t : List (List Lane)) : List (List Nat) × Flags :=
  let cols := (t.headD []).length
  let (t, f1) := if cfgOuter c = 1 then
      let (x, f) := onLines (unrotateLine c (cfgOrg c false)) (columns cols t)
      (columns t.length x, f)
    else if cfgOuter c = 2 then onLines (unrotateLine c (cfgOrg c true)) t else (t, 0)
  let u := (if cfgInner c then 1 else 0) + (if cfgOuter c ≠ 0 then 1 else 0)
  let o := t.map fun line => line.map fun x =>
    let (y, f) := roundFp fp32 .rn false ((laneVal x).scale (-((u * cfgRot c : Nat) : Int)))
    if bf then
      let (y2, f2) := roundFp bf16 .rn false (fp32.value y)
      (y2, f ||| f2)
    else (y, f)
  (o.map fun l => l.map (·.1), o.foldl (fun a l => l.foldl (fun a x => a ||| x.2) a) f1)

/-- A quantised line in the layout of R59. -/
def packLine (el : Elem) (bl : List (Nat × List Nat)) : List Byte :=
  let codes := bl.flatMap (·.2)
  (if el = .e2m1 then (List.range (codes.length / 2)).map fun j => BitVec.ofNat 8 (codes.getD (2 * j) 0 + 16 * codes.getD (2 * j + 1) 0)
   else codes.map (BitVec.ofNat 8)) ++ bl.map fun b => BitVec.ofNat 8 b.1

/-- MQNT's lines and MSTAT bits (R300). -/
def mqntResult (c : List Word) (sideB : Bool) (n k : Nat) (src table : List Byte) : List (List Byte) × BitVec 6 :=
  let (q, f, sat) := prepare c sideB k (cutLines (rowBytes (cfgFmt c sideB) k) n src) table
  let nan := q.any fun l => l.any fun b => b.1 = 0xFF
  (q.map (packLine (cfgElem c sideB)), mstatOf (f ||| (if nan then fINV else 0)) sat)

/-! ### M-slot instructions -/

/-- MMA and MMA.G (R295, R296): issue. -/
def mma (i : Instr) (z a b c mc : Nat) (e : Option Nat) (s : State) : Out :=
  issue i (fun s =>
    let g := s.h.mcWords mc
    let wa := s.rdS a
    let wb := s.rdS b
    let k := s.rdS c
    panelBad wa || panelBad wb || kBad k || (cfgInner g && k.toNat % 2 ^ cfgRot g ≠ 0)
      || (cfgOuter g = 1 && pLines wa % 2 ^ cfgRot g ≠ 0) || (cfgOuter g = 2 && pLines wb % 2 ^ cfgRot g ≠ 0)) s fun s =>
  let h := s.h
  let g := h.mcWords mc
  let wa := s.rdS a
  let wb := s.rdS b
  let k := (s.rdS c).toNat
  let na := rowBytes (cfgFmt g false) k
  let nb := rowBytes (cfgFmt g true) k
  let offs := mmaOffs g (e.map s.rdV) wa k h.scr
  let m := pLines wa
  let n := pLines wb
  let spA := tableSpan g 0 (m * k) false
  let spB := tableSpan g (m * k) (n * k) true
  let reads := spansOf offs na ++ spansOf (lineOffs wb) nb ++ spA ++ spB
  if h.mBusy ∨ h.willWrite reads then .hold 0
  else s.matStart (skewed wa || skewed wb) reads [] fun s =>
    let busy := if cfgQ g false = 0 ∧ cfgQ g true = 0 then k else 4 * k
    s.onH fun h => h.startMat busy (48 + busy)
      { kind := .mma (e.map s.rdV), tile := z, ops := [wa, wb, word k], cfg := g,
        panels := [h.lineBytes offs na, h.lineBytes (lineOffs wb) nb, spA.flatMap (fun x => h.spBytes x.1 x.2), spB.flatMap (fun x => h.spBytes x.1 x.2)],
        outs := [], mstat := 0, due := 0, seen := 0 }

def execMma (z a b c mc : Nat) (s : State) : Out := mma (.mma z a b c mc) z a b c mc none s
def execMmaG (z a b c e mc : Nat) (s : State) : Out := mma (.mmaG z a b c e mc) z a b c mc (some e) s

def execMbin (xor : Bool) (z a b c : Nat) (s : State) : Out :=
  issue (.mbin xor z a b c) (fun s =>
    let k := (s.rdS c).toNat
    panelBad (s.rdS a) || panelBad (s.rdS b) || k < 256 || k > 2048 || k % 256 ≠ 0) s fun s =>
  let h := s.h
  let wa := s.rdS a
  let wb := s.rdS b
  let k := (s.rdS c).toNat
  let reads := spansOf (lineOffs wa) (k / 8) ++ spansOf (lineOffs wb) (k / 8)
  if h.mBusy ∨ h.willWrite reads then .hold 0
  else s.matStart (skewed wa || skewed wb) reads [] fun s => s.onH fun h => h.startMat (k / 8) (48 + k / 8)
    { kind := .mbin xor, tile := z, ops := [wa, wb, word k], cfg := [],
      panels := [h.lineBytes (lineOffs wa) (k / 8), h.lineBytes (lineOffs wb) (k / 8)], outs := [], mstat := 0, due := 0, seen := 0 }

/-- MZERO (R298): the tile is ready at issue + 2. -/
def execMzero (z : Nat) (s : State) : Out := issue (.mzero z) noIll s fun s =>
  if s.h.mBusy ∨ s.h.tileBusy z then .hold 0 else .ok (s.later 2 (.z z))

/-- MLOADZ (R298). -/
def execMloadz (bf : Bool) (z a : Nat) (s : State) : Out :=
  issue (.mloadz bf z a) (fun s =>
    let w := s.rdS a
    let cols := wf w 56 8
    wf w 21 11 ≠ 0 || cols = 0 || cols > 128 || pLines w = 0 || pLines w > 128 || pPitch w < cols * (if bf then 2 else 4)) s fun s =>
  let w := s.rdS a
  let n := wf w 56 8 * (if bf then 2 else 4)
  if s.h.mBusy ∨ s.h.tileBusy z ∨ s.h.willWrite (spansOf (lineOffs w) n) then .hold 0
  else s.matStart (skewed w) (spansOf (lineOffs w) n) [] fun s => s.onH fun h => h.startMat (pLines w) (40 + pLines w)
    { kind := .mloadz bf, tile := z, ops := [w], cfg := [], panels := [h.lineBytes (lineOffs w) n], outs := [], mstat := 0, due := 0, seen := 0 }

/-- The bank of an offset is declared and in FIFO mode. -/
def Hart.inFifo (h : Hart) (o : Nat) : Bool := o / bankSize < h.scr && (h.bank (o / bankSize)).mode = .fifo

/-- MDRAIN (R299, R72): it reads the finished tile at issue. -/
def execMdrain (bf : Bool) (z a b mc : Nat) (s : State) : Out :=
  issue (.mdrain bf z a b mc) (fun s =>
    let g := s.h.mcWords mc
    let w := s.rdS a
    let rows := wf (s.rdS b) 0 8
    let cols := wf (s.rdS b) 8 8
    windowBad w || wf (s.rdS b) 16 48 ≠ 0 || rows = 0 || rows > 128 || cols = 0 || cols > 128
      || (!s.h.inFifo (pAddr w) && pPitch w < cols * (if bf then 2 else 4))
      || (cfgOuter g = 1 && rows % 2 ^ cfgRot g ≠ 0) || (cfgOuter g = 2 && cols % 2 ^ cfgRot g ≠ 0)) s fun s =>
  let h := s.h
  let g := h.mcWords mc
  let w := s.rdS a
  let rows := wf (s.rdS b) 0 8
  let cols := wf (s.rdS b) 8 8
  let n := cols * (if bf then 2 else 4)
  let spans := (List.range rows).map fun i => (pAddr w + i * pPitch w, n)
  if h.mBusy ∨ h.tileBusy z then .hold 0
  else if !skewed w ∧ h.inFifo (pAddr w) ∧ n % 16 ≠ 0 then .exc { code := cSPACE, detail := 0 } (word (pAddr w))
  else s.matStart (skewed w) [] (if h.inFifo (pAddr w) then [] else spans) fun s =>
    let (o, f) := drainTile g bf ((List.range rows).map fun i => (List.range cols).map fun j => h.zAt z i j)
    let lines := o.map fun l => l.flatMap fun x => bytesOf (if bf then 2 else 4) x
    s.onH fun h => h.startMat rows (40 + rows)
      { kind := .mdrain bf, tile := z, ops := [w], cfg := g, panels := [],
        outs := if h.inFifo (pAddr w) then [(pAddr w / bankSize * bankSize, lines.flatten)] else (spans.map (·.1)).zip lines,
        mstat := mstatOf f false, due := 0, seen := 0 }

/-- MQNT (R300). -/
def execMqnt (sideB : Bool) (a b c mc : Nat) (s : State) : Out :=
  issue (.mqnt sideB a b c mc) (fun s =>
    let g := s.h.mcWords mc
    let k := s.rdS c
    panelBad (s.rdS a) || windowBad (s.rdS b) || kBad k || cfgFmt g sideB ≥ 3 || (cfgInner g && k.toNat % 2 ^ cfgRot g ≠ 0)
      || (cfgAcross g sideB && pLines (s.rdS a) % 2 ^ cfgRot g ≠ 0) || pPitch (s.rdS b) < rowBytes (cfgQ g sideB + 3) k.toNat) s fun s =>
  let h := s.h
  let g := h.mcWords mc
  let wa := s.rdS a
  let wb := s.rdS b
  let k := (s.rdS c).toNat
  let n := pLines wa
  let src := spansOf (lineOffs wa) (rowBytes (cfgFmt g sideB) k)
  let tab := tableSpan g 0 (n * k) sideB
  let dst := (List.range n).map fun l => (pAddr wb + l * pPitch wb, rowBytes (cfgQ g sideB + 3) k)
  if h.mBusy ∨ h.willWrite (src ++ tab) then .hold 0
  else s.matStart (skewed wa || skewed wb) (src ++ tab) dst fun s =>
    let p := src.flatMap fun x => h.spBytes x.1 x.2
    let t := tab.flatMap fun x => h.spBytes x.1 x.2
    let (o, f) := mqntResult g sideB n k p t
    let dur := 40 + (n * k + 127) / 128
    s.onH fun h => h.startMat dur dur
      { kind := .mqnt sideB, tile := 0, ops := [wa, wb, word k], cfg := g, panels := [p, t], outs := (dst.map (·.1)).zip o, mstat := f, due := 0, seen := 0 }

/-- MCFG (R302). -/
def execMcfg (mc a : Nat) (s : State) : Out :=
  let five (s : State) : List Word := (List.range 5).map fun i => s.rdS (a + i)
  issue (.mcfg mc a) (fun s => cfgBad (five s)) s fun s => if s.h.mBusy then .hold 0 else .ok (s.later 1 (.mc mc (five s)))

def execMcfgr (d mc : Nat) (s : State) : Out := issue (.mcfgr d mc) noIll s fun s =>
  if s.h.mBusy then .hold 0 else .ok ((s.h.mcWords mc).zipIdx.foldl (fun t (w, i) => t.putS 3 (d + i) w) s)

/-- MSTAT reads and clears in one step (R303). -/
def execMstat (d : Nat) (s : State) : Out := issue (.mstat d) noIll s fun s =>
  if s.h.mBusy then .hold 0 else .ok ((s.putS 3 d (s.h.mstat.setWidth 64)).onH fun h => { h with mstat := 0 })

/-! ### Completions -/

/-- The first matrix instruction of a kind whose completion cycle has come. -/
def Hart.matDue (h : Hart) (k : MatKind → Bool) : Option MatOp := h.matq.find? fun m => k m.kind && m.due ≤ h.cyc
def Hart.matDone (h : Hart) (m : MatOp) : Hart :=
  let q := h.matq.erase m
  { h with matq := q, spLog := if q.isEmpty then [] else h.spLog }
def isAccum : MatKind → Bool
  | .mma _ | .mbin _ => true
  | _ => false
def isDrain : MatKind → Bool
  | .mdrain _ => true
  | _ => false
def isLoadz : MatKind → Bool
  | .mloadz _ => true
  | _ => false
def isQnt : MatKind → Bool
  | .mqnt _ => true
  | _ => false

/-- MMA_READY (R295, R297): the accumulation from the panels as R61 lets them be read. -/
def execMmaReady (k : Nat) (s : State) : Out :=
  let h := s.hartAt k
  match h.matDue isAccum with
  | none => .next s
  | some m =>
    let wa := m.ops.getD 0 0
    let wb := m.ops.getD 1 0
    let kk := (m.ops.getD 2 0).toNat
    match m.kind with
    | .mbin x =>
      let (pa, s) := s.panel h m 0 (fun _ => 1) (lineOffs wa) (kk / 8)
      let (pb, s) := s.panel h m 1 (fun _ => 1) (lineOffs wb) (kk / 8)
      .next (s.setHart k ((h.zPut m.tile (mbinResult h m.tile (pLines wa) (pLines wb) kk x pa pb)).matDone m))
    | .mma g =>
      let c := m.cfg
      let (pa, s) := s.panel h m 0 (elemBits (cfgFmt c false) kk) (mmaOffs c g wa kk h.scr) (rowBytes (cfgFmt c false) kk)
      let (pb, s) := s.panel h m 1 (elemBits (cfgFmt c true) kk) (lineOffs wb) (rowBytes (cfgFmt c true) kk)
      let (ta, s) := s.table h m 2 (tableSpan c 0 (pLines wa * kk) false)
      let (tb, s) := s.table h m 3 (tableSpan c (pLines wa * kk) (pLines wb * kk) true)
      let (z, f) := mmaResult h m.tile c (pLines wa) (pLines wb) kk pa pb ta tb
      .next (s.setHart k (((h.zPut m.tile z).joinMstat f).matDone m))
    | _ => .next s

/-- MLOADZ completes (R298). -/
def execMloadzComplete (k : Nat) (s : State) : Out :=
  let h := s.hartAt k
  match h.matDue isLoadz with
  | none => .next s
  | some m =>
    let w := m.ops.getD 0 0
    let bf := m.kind = .mloadz true
    let e := if bf then 2 else 4
    let cols := wf w 56 8
    let (p, s) := s.panel h m 0 (fun _ => 8 * e) (lineOffs w) (cols * e)
    let lines := cutLines (cols * e) (pLines w) p
    let z := (window (pLines w) cols).map fun (i, j) =>
      let x := BitVec.ofNat 32 (numOf (((lines.getD i []).drop (e * j)).take e))
      (i, j, if bf then (ofFormat bf16 x).1 else x)
    .next (s.setHart k ((h.zPut m.tile z).matDone m))

/-- Append whole granules to a FIFO bank while its TAIL granule is empty (R81); what is left waits. -/
def Hart.fifoAppend (h : Hart) (b : Nat) : Nat → List Byte → Hart × List Byte
  | 0, d => (h, d)
  | n + 1, d =>
    if d.isEmpty then (h, d)
    else
      let x := h.bank b
      let t := x.tail.toNat
      if Tab.get false x.full t then (h, d)
      else Hart.fifoAppend ((h.engineWrite (b * bankSize + 16 * t) (d.take 16)).setBank b
        { x with tail := x.tail + 1, full := Tab.set false x.full t true }) b n (d.drop 16)

/-- The first drain that is due and, into a FIFO bank, finds the granule at TAIL empty and no earlier drain of the bank waiting (R81, R299). -/
def Hart.drainReady (h : Hart) : Option MatOp :=
  let bank (m : MatOp) : Option Nat := match m.outs with
    | [(o, _)] => if isDrain m.kind && h.inFifo o then some (o / bankSize) else none
    | _ => none
  h.matq.zipIdx.findSome? fun (m, i) =>
    if !(isDrain m.kind && decide (m.due ≤ h.cyc)) then none
    else match bank m with
      | none => some m
      | some b =>
        if (h.matq.take i).any (fun x => bank x = some b) || Tab.get false (h.bank b).full (h.bank b).tail.toNat then none else some m

/-- MDRAIN's writes complete (R299): granules become full; into a FIFO bank whole granules append as their places empty. -/
def execMdrainComplete (k : Nat) (s : State) : Out :=
  let h := s.hartAt k
  match h.drainReady with
  | none => .next s
  | some m =>
    match m.outs with
    | [(o, d)] =>
      if h.inFifo o then
        let (h', rest) := h.fifoAppend (o / bankSize) (d.length / 16) d
        if rest.isEmpty then .next (s.setHart k ((h'.joinMstat m.mstat).matDone m))
        else .next (s.setHart k { h' with matq := h'.matq.map fun x => if x = m then { m with outs := [(o, rest)] } else x })
      else .next (s.setHart k (((h.engineWrite o d).joinMstat m.mstat).matDone m))
    | l => .next (s.setHart k (((l.foldl (fun h (o, d) => h.engineWrite o d) h).joinMstat m.mstat).matDone m))

/-- MQNT completes (R300). -/
def execMqntComplete (k : Nat) (s : State) : Out :=
  let h := s.hartAt k
  match h.matDue isQnt with
  | none => .next s
  | some m =>
    let wa := m.ops.getD 0 0
    let kk := (m.ops.getD 2 0).toNat
    let sideB := m.kind = .mqnt true
    let c := m.cfg
    let n := pLines wa
    let (p, s) := s.panel h m 0 (elemBits (cfgFmt c sideB) kk) (lineOffs wa) (rowBytes (cfgFmt c sideB) kk)
    let (t, s) := s.table h m 1 (tableSpan c 0 (n * kk) sideB)
    let (o, f) := if p = m.panels.getD 0 [] ∧ t = m.panels.getD 1 [] then (m.outs.map (·.2), m.mstat) else mqntResult c sideB n kk p t
    let h := ((m.outs.map (·.1)).zip o).foldl (fun h (o, d) => h.engineWrite o d) h
    .next (s.setHart k ((h.joinMstat f).matDone m))

end Sys2Proof.Machine
end

