-- ==== Sys2Proof/Machine/Carafe.lean ====
section
/-! DEFINITION. The TS family and its service at the home slices (07 R132–R148, 16 R326–R328, 19 R352). -/

namespace Sys2Proof.Machine

/-! ### Descriptors (R132–R134) -/

/-- A carafe descriptor: four words. -/
structure Carafe where
  w0 : Word
  w1 : Word
  w2 : Word
  w3 : Word
  deriving DecidableEq, Repr

def Carafe.cid (c : Carafe) : Nat := wf c.w0 0 16
def Carafe.pinned (c : Carafe) : Bool := wf c.w0 16 2 = 1
def Carafe.scopeNum (c : Carafe) : Nat := wf c.w0 18 2
def Carafe.state (c : Carafe) : Nat := wf c.w0 20 2
def Carafe.mask (c : Carafe) : Nat := wf c.w0 24 8
def Carafe.pdie (c : Carafe) : Nat := wf c.w0 32 3
def Carafe.pslice (c : Carafe) : Nat := wf c.w0 35 4
def Carafe.size (c : Carafe) : Nat := wf c.w2 0 32
def Carafe.scope (c : Carafe) : Scope := if c.scopeNum = 1 then .die else if c.scopeNum = 2 then .system else .module

/-- The descriptor of a carafe id in a table (R132, R356 CRFTAB). -/
def State.carafe (s : State) (table : Word) (cid : Nat) : Carafe :=
  let a := table.toNat + 32 * cid
  { w0 := s.dwordAt a, w1 := s.dwordAt (a + 8), w2 := s.dwordAt (a + 16), w3 := s.dwordAt (a + 24) }
/-- The carafe table of a die's partition: the partition descriptor's CRFTAB (R404). -/
def State.partTable (s : State) (die : Nat) : Word := word (s.descWord die 6)

/-- Dies of the partition in DIEMASK, ascending. -/
def State.carafeDies (s : State) (die : Nat) (c : Carafe) : List Nat := (s.partDies (s.partOf die)).filter fun d => c.mask / 2 ^ d % 2 = 1
/-- Number of home slices (R133). -/
def State.carafeHomes (s : State) (die : Nat) (c : Carafe) : Nat := if c.pinned then 1 else 16 * (s.carafeDies die c).length

/-- A descriptor that R132 admits. A PINNED one whose PDIE lies outside the partition is taken as invalid, which the rule leaves open (log 30). -/
def State.carafeOk (s : State) (die : Nat) (c : Carafe) : Bool :=
  let dies := s.partDies (s.partOf die)
  let stray : Bool := (List.range 8).any fun d => c.mask / 2 ^ d % 2 = 1 && !dies.contains d
  c.w3 = 0 && wf c.w2 32 32 = 0 && wf c.w0 39 25 = 0 && wf c.w0 22 2 = 0 && c.state ≤ 2 && c.scopeNum ≤ 2 && wf c.w0 16 2 ≤ 1
    && canonical c.w1 && c.w1.toNat % 2 ^ 21 = 0 && c.size ≠ 0
    && (if c.pinned then c.mask = 0 && dies.contains c.pdie else c.mask ≠ 0 && !stray && c.pdie = 0 && c.pslice = 0)
    && (s.carafeHomes die c ≠ 0 && c.size % s.carafeHomes die c = 0)

/-- carafe_home (R133): the slice as die × 16 + h. -/
def State.carafeHome (s : State) (die : Nat) (c : Carafe) (tag : Nat) (f1 : Word) : Nat :=
  if c.pinned then c.pdie * 16 + c.pslice
  else
    let x := gRand (word c.cid) (f1 ^^^ word (tag * 2 ^ 40))
    match s.carafeDies die c with
    | [] => s.lowestDie (s.partOf die) * 16
    | dies => dies.getD (wf x 32 32 % dies.length) 0 * 16 + wf x 0 4

/-- Tuples a carafe's share holds at one home slice (R133). -/
def State.carafeCap (s : State) (die : Nat) (c : Carafe) : Nat :=
  let n := s.carafeHomes die c
  if n = 0 then 0 else c.size * 2 ^ 21 / n / 64

/-- The share of the backing range at a home slice: its first address and its bytes (R133). Shares of a KEYED carafe lie in increasing order of (die, h);
none where the slice is no home of it. -/
def State.carafeShare (s : State) (die : Nat) (c : Carafe) (home : Nat) : Option (Nat × Nat) :=
  let n := s.carafeHomes die c
  let bytes := c.size * 2 ^ 21 / n
  if n = 0 then none
  else if c.pinned then (if home = c.pdie * 16 + c.pslice then some (c.w1.toNat, bytes) else none)
  else ((s.carafeDies die c).findIdx? fun d => d = home / 16).map fun i => (c.w1.toNat + (16 * i + home % 16) * bytes, bytes)
/-- Where a stored tuple lies in the backing range (R133). -/
def State.tupleAddr (s : State) (home : Nat) (c : Carafe) (t : Tuple) : Option Nat := (s.carafeShare (home / 16) c home).map fun x => x.1 + 64 * t.place
/-- A free place of a carafe's share at a slice: the lowest, where the rule names none (log 30). -/
def Slice.freePlace (sl : Slice) (cid cap : Nat) : Option Nat := (List.range cap).find? fun i => !sl.tuples.any fun t => t.cid = cid ∧ t.place = i

/-- Reading a descriptor at its home slice: counters and error events (R204, R394). -/
def State.touchCarafe (s : State) (table : Word) (cid agent rid : Nat) : State := s.touch (table.toNat + 32 * cid) 32 1 0 agent rid

/-- The table a hart resolves handles in: CRFTAB of a core, the partition's for an executor. -/
def State.hartTable (s : State) : Word := if s.h.mode = .remote then s.partTable s.die else s.h.crftab

/-- CARAFE with its code (R137). -/
def carafeFault (code : Nat) (addr : Word) : Except (Cause × Word) Carafe := .error ({ code := cCARAFE, detail := code }, addr)

/-- Resolve a handle (R134). -/
def State.resolve (s : State) (handle : Word) : Except (Cause × Word) Carafe :=
  match s.xlate handle with
  | .error c => .error (c, handle)
  | .ok p =>
    if p.cls ≠ 1 then .error ({ code := cPROT, detail := 2 }, handle)
    else
      let all := ((s.h_launch.map (·.carafes)).getD []).map (s.carafe s.hartTable)
      match all.find? fun c => c.w1.toNat ≤ handle.toNat ∧ handle.toNat < c.w1.toNat + c.size * 2 ^ 21 with
      | none => carafeFault 5 handle
      | some c => if c.state = 1 then .ok c else carafeFault 6 handle

/-! ### Tuples and patterns (R135–R137) -/

/-- Word w of a tuple. -/
def tword (t : Sector) (w : Nat) : Word := BitVec.ofNat 64 (t.toNat / 2 ^ (64 * w))
def tupTag (t : Sector) : Nat := wf (tword t 0) 0 24
def tupArity (t : Sector) : Nat := wf (tword t 0) 24 3
/-- The mode of field f. -/
def fieldMode (mode : Word) (f : Nat) : Nat := wf mode (2 * f - 2) 2

/-- A tuple matches a pattern (R136). -/
def tupMatches (t p : Sector) (mode : Word) : Bool :=
  tupTag t = tupTag p && tupArity t = tupArity p && (List.range 7).all fun i => fieldMode mode (i + 1) ≠ 1 || tword t (i + 1) = tword p (i + 1)

/-- The lowest code of R137 that applies, 0 for none. `dep`: a tuple to deposit, without a mode. -/
def tupCode (c : Carafe) (t : Sector) (mode : Word) (dep : Bool) : Nat :=
  let n := tupArity t
  let fields := (List.range 7).map (· + 1)
  if wf (tword t 0) 27 37 ≠ 0 ∨ n = 0 then 1
  else if fields.any fun f => n < f && tword t f ≠ 0 && (dep || fieldMode mode f = 1) then 2
  else if !dep && (wf mode 14 50 ≠ 0 || fields.any fun f => fieldMode mode f ≥ 2 || (n < f && fieldMode mode f ≠ 0)) then 3
  else if !dep && !c.pinned && fieldMode mode 1 ≠ 1 then 4
  else 0

/-! ### Issue (R326–R328) -/

/-- The tuple or template operand: lanes 0–15 of a vector register, eight scalar registers in remote code (R135, R157). -/
def State.tupleOf (s : State) (v : Nat) : Sector :=
  if s.h.mode = .remote then BitVec.ofNat 512 ((List.range 8).foldl (fun x w => x + (s.rdS (v + w)).toNat * 2 ^ (64 * w)) 0)
  else (s.rdV v).setWidth 512

def Hart.destP (h : Hart) (pd : Nat) : Option Reg := if pd = 0 then none else some (h.regP pd)
/-- The destination of a tuple reply. -/
def Hart.destT (h : Hart) (v : Nat) : Reg := if h.mode = .remote then .s v else h.regV v
/-- Registers of a tuple reply: the vector register, or nine scalar registers. -/
def tupleRegs : Reg → List Reg
  | .s n => (List.range 9).map fun i => .s (n + i)
  | r => [r]

/-- Send a TS request (R327): its landing entry and its message; the entry's number. -/
def State.tsSend (s : State) (op : TsOp) (c : Carafe) (t : Sector) (mode dl : Word) (land : Nat) (regs : List Reg) (req : LandReq) : Nat × State :=
  let (id, s) := s.fresh
  let s := s.onH fun h => h.land_ id land regs req none []
  (id, s.send { id := 0, hart := s.cur, landing := id, rid := s.rid, lid := s.h.lid.getD 0, member := s.h.member,
                home := s.carafeHome s.die c (tupTag t) (tword t 1), time := 0, body := .ts op c.cid t mode dl,
                limit := if s.h.mode = .remote then s.time + 2 * (s.h.rcbudget.toNat - s.h.cyc) else 0 })

/-- What resolving a handle reads: its walk, and the descriptors of the launch's carafes (R134). -/
def State.resolveReads (s : State) (handle : Word) : State :=
  ((s.h_launch.map (·.carafes)).getD []).foldl (fun s c => s.touchCarafe s.hartTable c (readAgent s.rid) s.rid) (s.walkOn s.cur handle)

/-- The checks of R327 in order, then the request. -/
def tsIssue (op : TsOp) (v hd : Nat) (mode : Word) (go : State → Carafe → Sector → Res) (s : State) : Res :=
  if s.h.lbusy ≥ 64 then .hold 7
  else match s.resolve (s.rdS hd) with
    | .error x => faultRes x
    | .ok c =>
      let t := s.tupleOf v
      if tupCode c t mode (op = .dep) ≠ 0 then .exc { code := cCARAFE, detail := tupCode c t mode (op = .dep) } 0
      else go (s.resolveReads (s.rdS hd)) c t

/-- TS.DEP (R140, R144): a release at the carafe's scope, then the request; its predicate lands. -/
def execTsDep (pd v hd : Nat) (s : State) : Out := issue (.tsDep pd v hd) noIll s fun s =>
  tsIssue .dep v hd 0 (fun s c t =>
    if s.relHeld s.cur true then .hold 0
    else .ok ((s.release s.cur true).tsSend .dep c t 0 0 0 (s.h.destP pd).toList (.dep (s.h.destP pd))).2) s

/-- The request a bundle has sent has been served or ended: its entry holds a reply or has landed (R143). -/
def Hart.answered (h : Hart) (id : Nat) : Bool :=
  match h.entry id with
  | some l => l.got.isSome
  | none => true

/-- The request's reply is there: a tuple that was returned acquires before the next bundle issues (R110, R121, R144). -/
def State.tsAcquire (s : State) (id : Nat) : State :=
  match (s.h.entry id).bind (·.acq) with
  | some sc => s.acquire s.cur (wideScope sc)
  | none => s

/-- A blocking request (R143, R327, R352): sent once, then the bundle waits under kind 5. A bundle that issues again after a switch with a reply kept for it
sends none: it waits for that reply's landing. -/
def tsBlocking (i : Instr) (op : TsOp) (pd v hd mode dl : Nat) (s : State) : Out := issue i noIll s fun s =>
  match s.h.wLand with
  | some id => if s.h.answered id ∧ (s.h.waiting.isSome ∨ (s.h.entry id).isNone) then .ok (s.tsAcquire id) else .wait 5 s
  | none =>
    tsIssue op v hd (s.rdS mode) (fun s c t =>
      let d := s.h.destT v
      let (id, s) := s.tsSend op c t (s.rdS mode) (s.rdS dl) 0 (tupleRegs d ++ (s.h.destP pd).toList) (.tuple d (s.h.destP pd))
      .wait 5 (s.onH fun h => { h with wLand := some id })) s

def execTsRd (pd v hd mode dl : Nat) (s : State) : Out := tsBlocking (.tsRd pd v hd mode dl) .rd pd v hd mode dl s
def execTsTake (pd v hd mode dl : Nat) (s : State) : Out := tsBlocking (.tsTake pd v hd mode dl) .take pd v hd mode dl s

/-- A request that does not park. -/
def tsProbe (op : TsOp) (pd v hd mode land : Nat) (s : State) : Res :=
  tsIssue op v hd (s.rdS mode) (fun s c t =>
    let d := s.h.destT v
    .ok (s.tsSend op c t (s.rdS mode) 0 land (tupleRegs d ++ (s.h.destP pd).toList) (.tuple d (s.h.destP pd))).2) s

def execTsRdp (pd v hd mode land : Nat) (s : State) : Out := issue (.tsRdp pd v hd mode land) noIll s (tsProbe .rdp pd v hd mode land)
def execTsTakep (pd v hd mode land : Nat) (s : State) : Out := issue (.tsTakep pd v hd mode land) noIll s (tsProbe .takep pd v hd mode land)

def execTsCnt (pd d hd mode v land : Nat) (s : State) : Out := issue (.tsCnt pd d hd mode v land) noIll s fun s =>
  tsIssue .cnt v hd (s.rdS mode) (fun s c t =>
    .ok (s.tsSend .cnt c t (s.rdS mode) 0 land (regsOf (s.h.destS d) ++ (s.h.destP pd).toList) (.cnt (s.h.destS d) (s.h.destP pd))).2) s

/-! ### Replies (R142) -/

/-- The writes of a tuple reply. -/
def tupleWrites (d : Reg) (pd : Option Reg) (status : Nat) (t : Sector) : List Write :=
  (match d with
   | .v n => [.v n (t.setWidth 2048 ||| BitVec.ofNat 2048 (status * 2 ^ 512))]
   | .s n => (List.range 8).map (fun w => .s (n + w) (tword t w)) ++ [.s (n + 8) (word status)]
   | _ => []) ++ predWrite pd (status = 0)

/-- What a slice answers: a tuple with its status, a deposit's predicate, a count. -/
inductive TsAnswer where
  | tuple (status : Nat) (t : Sector)
  | dep (p : Bool)
  | count (n : Nat) (p : Bool)
  deriving DecidableEq, Repr

/-- The writes an answer makes at a landing entry. -/
def LandReq.answer (r : LandReq) (a : TsAnswer) : List Write :=
  match r, a with
  | .tuple d pd, .tuple st t => tupleWrites d pd st t
  | .dep pd, .dep x => predWrite pd x
  | .cnt d pd, .count n x => scalarWrite d (word n) ++ predWrite pd x
  | _, _ => []

/-- A reply to a request: a status OK reply acquires at the carafe's scope (R144), before any access that was issued after the request (R110). -/
def State.tsReply (s : State) (m : Msg) (a : TsAnswer) (sc : Scope) : State :=
  let t := s.fill m.hart m.landing fun l => { l with got := some (l.req.answer a), acq := match a with | .tuple 0 _ => some sc | _ => none }
  match a, s.entryHart m.hart m.landing with
  | .tuple 0 _, some k => t.acquire k (wideScope sc)
  | _, _ => t

/-! ### Service (R138–R141, R147, R148) -/

/-- The body of a TS message. -/
structure TsReq where
  op : TsOp
  cid : Nat
  t : Sector
  mode : Word
  dl : Word
  deriving DecidableEq, Repr
def Msg.ts? (m : Msg) : Option TsReq :=
  match m.body with
  | .ts op cid t mode dl => some { op := op, cid := cid, t := t, mode := mode, dl := dl }
  | _ => none

/-- Starting module time of the current slice cycle (R6). -/
def State.sliceTime (s : State) : Nat := s.time / 2 * 2

/-- Requests of one requester to one home slice arrive in issue order, and requests of one slice cycle in increasing requester id (R138). -/
def State.mayServe (s : State) (m : Msg) : Bool :=
  let earlier : Bool := (s.msgs.takeWhile fun x => x.id ≠ m.id).any fun x =>
    x.rid = m.rid && x.home = m.home && (x.isTs || (match x.body with | .cancel _ => true | _ => false))
  let sl := s.sliceAt m.home
  s.msgMay m && !earlier && !(sl.served.1 = s.sliceTime && m.rid < sl.served.2)

/-- Take a message off its way and note its service. -/
def State.takeTs (s : State) (m : Msg) : State :=
  let s := { s with msgs := s.msgs.filter fun x => x.id ≠ m.id }
  let sl := s.sliceAt m.home
  s.setSlice m.home { sl with served := (s.sliceTime, m.rid) }

/-- The answer of a gone carafe (R142). -/
def goneAnswer : TsOp → TsAnswer
  | .dep => .dep false
  | .cnt => .count 0 false
  | _ => .tuple 4 0

/-- Destruction at a slice (R147): parked requests leave with GONE, tuples are discarded. -/
def State.destroyAt (s : State) (k cid : Nat) : State :=
  let sl := s.sliceAt k
  let (out, stay) := sl.parked.partition fun m => (m.ts?.map (·.cid)) = some cid
  let s := s.setSlice k { sl with parked := stay, tuples := sl.tuples.filter (fun t => t.cid ≠ cid), gone := (sl.gone.filter (· ≠ cid)) ++ [cid] }
  out.foldl (fun s m => s.tsReply m (.tuple 4 0) .module) s

/-- The destruction of a carafe that is on its way to a slice is served (R147). -/
def State.doomServe (s : State) (k cid : Nat) : State :=
  let s : State := { s with dooms := s.dooms.filter (· ≠ (k, cid)) }
  let s := s.setSlice k { s.sliceAt k with crfbad := (s.sliceAt k).crfbad.filter (· ≠ cid) }
  s.destroyAt k cid

/-- How a slice finds a carafe for a requester of a die: live, or gone (R147, R148); an invalid live descriptor is served as destroyed, and logged. A
destruction on its way comes before a request that finds the descriptor in use again. The rules leave open that a descriptor whose CID field is not its index
counts as invalid, that a carafe is gone until its descriptor reads valid with STATE 1 again, and what a request finds while STATE reads 0 or 3 without a
destruction: it is answered as gone, and stored tuples and parked requests stay (log 30). -/
def State.findCarafe (s : State) (k die cid : Nat) : Option Carafe × State :=
  let s := s.touchCarafe (s.partTable die) cid 0 (512 + k)
  let c := s.carafe (s.partTable die) cid
  let s := if c.state ≠ 2 ∧ s.dooms.contains (k, cid) then s.doomServe k cid else s
  let sl := s.sliceAt k
  if c.state = 1 then
    if s.carafeOk die c ∧ c.cid = cid then (some c, s.setSlice k { sl with gone := sl.gone.filter (· ≠ cid), crfbad := sl.crfbad.filter (· ≠ cid) })
    else if sl.crfbad.contains cid then (none, s)
    else
      let s := s.destroyAt k cid
      (none, (s.setSlice k { s.sliceAt k with crfbad := (s.sliceAt k).crfbad ++ [cid] }).log .event 0x22 (srcSlice k) [word cid])
  else if c.state = 2 ∧ !sl.gone.contains cid then (some c, s)
  else (none, s)

/-- The stored match with the lowest stamp (R139). -/
def Slice.lookup (sl : Slice) (q : TsReq) : Option Tuple :=
  (sl.tuples.filter fun t => t.cid = q.cid && tupMatches t.words q.t q.mode).foldl (fun best t => match best with
    | some b => if t.stamp.toNat < b.stamp.toNat then some t else some b
    | none => some t) none

/-- A deposit's scan of the parked requests in arrival order (R140): copies for RDs, the first matching TAKE takes it. -/
def State.scan (s : State) (k : Nat) (q : TsReq) (sc : Scope) : List Msg → Bool → State × Bool × Bool
  | [], copied => (s, copied, false)
  | m :: rest, copied =>
    match m.ts? with
    | some r =>
      if r.cid = q.cid && tupMatches q.t r.t r.mode then
        let sl := s.sliceAt k
        let s := s.setSlice k { sl with parked := sl.parked.filter fun x => x.id ≠ m.id }
        let s := s.tsReply m (.tuple 0 q.t) sc
        if r.op = .take then (s, copied, true) else State.scan s k q sc rest true
      else State.scan s k q sc rest copied
    | none => State.scan s k q sc rest copied

/-- Serve a deposit (R140). -/
def State.serveDep (s : State) (m : Msg) (q : TsReq) (c : Carafe) : State :=
  let k := m.home
  let stamp := (s.sliceAt k).stamp
  let s := s.setSlice k { s.sliceAt k with stamp := stamp + 1 }
  let (s, copied, taken) := s.scan k q c.scope (s.sliceAt k).parked false
  if taken then s.tsReply m (.dep true) c.scope
  else
    let sl := s.sliceAt k
    match sl.freePlace q.cid (s.carafeCap (k / 16) c) with
    | some i => (s.setSlice k { sl with tuples := sl.tuples ++ [{ cid := q.cid, words := q.t, stamp := stamp, place := i }] }).tsReply m (.dep true) c.scope
    | none => s.tsReply m (.dep copied) c.scope

/-- Serve a read or a take (R140). -/
def State.serveMatch (s : State) (m : Msg) (q : TsReq) (c : Carafe) : State :=
  let k := m.home
  let sl := s.sliceAt k
  match sl.lookup q with
  | some t =>
    let s := if q.op = .take ∨ q.op = .takep then s.setSlice k { sl with tuples := sl.tuples.erase t } else s
    s.tsReply m (.tuple 0 t.words) c.scope
  | none =>
    if q.op = .rdp ∨ q.op = .takep then s.tsReply m (.tuple 1 0) c.scope
    else if q.dl ≠ BitVec.allOnes 64 ∧ q.dl.toNat ≤ s.sliceTime then s.tsReply m (.tuple 2 0) c.scope
    else if 4096 ≤ sl.parked.length then s.tsReply m (.tuple 3 0) c.scope
    else s.setSlice k { sl with parked := sl.parked ++ [m] }

/-- Serve a count (R140). -/
def State.serveCnt (s : State) (m : Msg) (q : TsReq) (c : Carafe) : State :=
  let n := ((s.sliceAt m.home).tuples.filter fun t => t.cid = q.cid && tupMatches t.words q.t q.mode).length
  s.tsReply m (.count n true) c.scope

/-- A parked request's deadline has passed (R141). -/
def State.parkDue (s : State) (m : Msg) : Bool :=
  match m.ts? with
  | some q => q.dl ≠ BitVec.allOnes 64 && q.dl.toNat ≤ s.sliceTime
  | none => false
/-- A parked request leaves its table with TIMEOUT. -/
def State.timeOut (s : State) (k : Nat) (m : Msg) : State :=
  let sl := s.sliceAt k
  (s.setSlice k { sl with parked := sl.parked.filter fun x => x.id ≠ m.id }).tsReply m (.tuple 2 0) .module
/-- Requests whose deadline has passed leave before any request of the cycle is served (R141). -/
def State.timeOuts (s : State) (k : Nat) : State := ((s.sliceAt k).parked.filter s.parkDue).foldl (fun s m => s.timeOut k m) s

/-- Serve the travelling request with this number if it is of the kind and may be served now. -/
def serve (id : Nat) (kind : TsOp → Bool) (f : State → Msg → TsReq → Carafe → State) (s : State) : State :=
  match s.msgs.find? fun m => m.id = id with
  | none => s
  | some m =>
    match m.ts? with
    | none => s
    | some q =>
      if !kind q.op || !s.mayServe m then s
      else if (s.route (hartDie m.hart) (m.home / 16)).isNone then (s.takeTs m).tsReply m (goneAnswer q.op) .module
      else
        let (c, s) := ((s.takeTs m).timeOuts m.home).findCarafe m.home (hartDie m.hart) q.cid
        match c with
        | none => s.tsReply m (goneAnswer q.op) .module
        | some c => f s m q c

/-- SERVE_DEP, SERVE_RD_TAKE, SERVE_RDP_TAKEP, SERVE_CNT (R138, R140). -/
def execServeDep (id : Nat) (s : State) : Out := .next (serve id (fun o => o = .dep) State.serveDep s)
def execServeRdTake (id : Nat) (s : State) : Out := .next (serve id (fun o => o = .rd || o = .take) State.serveMatch s)
def execServeRdpTakep (id : Nat) (s : State) : Out := .next (serve id (fun o => o = .rdp || o = .takep) State.serveMatch s)
def execServeCnt (id : Nat) (s : State) : Out := .next (serve id (fun o => o = .cnt) State.serveCnt s)

/-- PARK_TIMEOUT (R141). -/
def execParkTimeout (k id : Nat) (s : State) : Out :=
  match (s.sliceAt k).parked.find? fun m => m.id = id with
  | some m => .next (if s.parkDue m then s.timeOut k m else s)
  | none => .next s

/-- A cancelled blocking request gives its landing entry back, on the core where its task is now or kept for one that is switched out; its bundle sends the
request again. -/
def State.dropLanding (s : State) (k id : Nat) : State :=
  match s.entryHart k id with
  | some n =>
    let h := (s.hartAt n).dropEntry id
    s.setHart n { h with wLand := if h.wLand = some id then none else h.wLand }
  | none => { s with away := s.away.map fun a => { a with land := a.land.filter fun l => l.id ≠ id } }

/-- CANCEL (R145): message id of a hart's cancel is served behind its request. A parked request is removed and its bundle will send it again; a served
one keeps its reply. -/
def execCancel (k id : Nat) (s : State) : Out :=
  match s.msgs.find? fun m => m.id = id && m.hart = k with
  | none => .next s
  | some m =>
    match m.body with
    | .cancel target =>
      if !s.mayServe m then .next s
      else
        let s := (s.takeTs m).timeOuts m.home
        let sl := s.sliceAt m.home
        .next (if sl.parked.any fun x => x.landing = target then
            (s.setSlice m.home { sl with parked := sl.parked.filter fun x => x.landing ≠ target }).dropLanding k target
          else s)
    | _ => .next s

/-- CARAFE_DESTROY (R147): a slice serves the destruction of a carafe, after the requests whose deadline has passed (R141). -/
def execCarafeDestroy (k cid : Nat) (s : State) : Out :=
  let c := s.carafe (s.partTable (k / 16)) cid
  .next (if s.dooms.contains (k, cid) ∨ (c.state = 2 ∧ !(s.sliceAt k).gone.contains cid) then (s.timeOuts k).doomServe k cid else s)

end Sys2Proof.Machine
end

