-- ==== Sys2Proof/Machine/Remote.lean ====
section
/-! DEFINITION. Remote calls (08 R149–R167, 16 R329, R330): issue, the executors' queues and contexts, replies, and the calls' events. -/

namespace Sys2Proof.Machine

/-! ### Issue -/

/-- RCALL with its code (R150). -/
def rcallFault (code : Nat) : Res := .exc { code := cRCALL, detail := code } 0

/-- The lowest code of R150 that applies: the payload, the reply registers (RCALL only), the entry. -/
def callCode (count first : Nat) (reply : Option Nat) (entry : Word) : Nat :=
  if count = 0 ∨ 8 < count ∨ 32 < first + count then 1
  else if (match reply with | some d => d = 0 || 28 < d | none => false : Bool) then 2
  else if entry.toNat % 64 ≠ 0 ∨ !canonical entry then 3
  else 0

/-- Where the target of a call leads: a translation without the checks of a page's class (R149). -/
def State.target (s : State) (ea : Word) : Except Cause Page :=
  if s.walkHeld ea then .error { code := cWAIT, detail := 0 } else s.located s.die s.cur (wf s.h.asid 0 16) s.h.ptroot ea

/-- Send a call (R149, R151, R329). -/
def sendCall (rel trap post : Bool) (count d tgt ent pay : Nat) (s : State) : Res :=
  let code := callCode count pay (if post then none else some d) (s.rdS ent)
  if code ≠ 0 then rcallFault code
  else match s.target (s.rdS tgt) with
    | .error c => .exc c (s.rdS tgt)
    | .ok p =>
      if s.h.outst.length ≥ 16 ∨ (!post ∧ s.h.lbusy ≥ 64) then .hold 7
      else if rel ∧ s.relHeld s.cur true then .hold 0
      else
        let s := s.walkOn s.cur (s.rdS tgt)
        let s := if rel then s.release s.cur true else s
        let h := s.h
        let e := sliceOf p.pa
        let dl := (s.time + h.rcto.toNat) % 2 ^ 64
        let (id, s) := s.fresh
        let regs := (List.range 4).map fun i => Reg.s (d + i)
        let s := s.onH fun h =>
          let o : Outstanding := { caller := s.rid, target := s.rdS tgt, seq := h.seqctr, time := s.time, deadline := dl, exec := e, post := post, trap := trap, landing := id }
          let h := if post then h else h.land_ id 0 regs (.call d trap) none []
          { h with outst := h.outst ++ [o], seqctr := (h.seqctr + 1) % 65536 }
        let c : Call := { caller := s.rid, hart := s.cur, lid := h.lid.getD 0, member := h.member, seq := h.seqctr, time := s.time, entry := s.rdS ent,
                          target := s.rdS tgt, payload := (List.range count).map fun i => s.rdS (pay + i), task := h.task, post := post, trap := trap,
                          deadline := dl, rel := rel, budget := h.rcbudget.toNat, ptroot := h.ptroot, asid := wf h.asid 0 16, die := s.die }
        .ok (s.send { id := 0, hart := s.cur, landing := id, rid := s.rid, lid := h.lid.getD 0, member := h.member, home := e, time := 0, body := .call c })

def execRcall (rel trap : Bool) (count d tgt ent pay : Nat) (s : State) : Out :=
  issue (.rcall rel trap count d tgt ent pay) noIll s (sendCall rel trap false count d tgt ent pay)
def execRpost (rel : Bool) (count f0 tgt ent pay : Nat) (s : State) : Out :=
  issue (.rpost rel count f0 tgt ent pay) noIll s (sendCall rel false true count f0 tgt ent pay)

/-- A tuple request that bundles of hart k have sent and not waited for is still on its way. -/
def State.tsOut (s : State) (k : Nat) : Bool := s.msgs.any fun m => m.hart = k && m.isTs && !m.blocks

/-- RRET (R158, R330): the call's deposits have reached their slices, a release at module scope, then the call's end with status OK. -/
def execRret (a b c : Nat) (s : State) : Out := issue (.rret a b c) noIll s fun s =>
  if s.tsOut s.cur ∨ s.relHeld s.cur true then .hold 0
  else .ok ((s.release s.cur true).endCall s.cur [0, s.rdS a, s.rdS b, s.rdS c])

/-! ### Executors (R153–R156, R164) -/

/-- The identity of a call (R164). -/
def Call.same (a b : Call) : Bool := a.caller = b.caller && a.seq = b.seq && a.time = b.time
/-- Contexts of executor e, as harts. -/
def execHarts (e : Nat) : List Nat := (List.range 16).map fun i => 512 + 16 * e + i
/-- The call a context runs, or holds because 1,024 records are kept (R164). -/
def State.ctxCall (s : State) (k : Nat) : Option Call := (s.hartAt k).call

/-- RCSTALE (R398). -/
def State.stale (s : State) (e : Nat) (c : Call) : State := s.log .event 0x30 (srcSlice e) [word (c.caller % 2 ^ 11 + c.seq * 2 ^ 16), c.entry]

/-- An outstanding call is this one (R164). -/
def Outstanding.is (o : Outstanding) (c : Call) : Bool := o.caller = c.caller && o.seq = c.seq && o.time = c.time
/-- An accepted RPOST no longer counts as outstanding, wherever its task is (R152). -/
def dropOutst (c : Call) (l : List Outstanding) : List Outstanding := l.filter fun o => !o.is c
def State.accepted (s : State) (c : Call) : State :=
  if !c.post then s
  else { s with harts := s.harts.map fun x : Nat × Hart => (x.1, { x.2 with outst := dropOutst c x.2.outst }),
                away := s.away.map fun a : Away => { a with outst := dropOutst c a.outst } }
/-- The outstanding call a reply belongs to. -/
def callOf (c : Call) (l : List Outstanding) : Option Outstanding := l.find? fun o => o.is c
/-- The caller still waits for the call's reply. -/
def State.awaited (s : State) (c : Call) : Bool :=
  (s.harts.any fun x : Nat × Hart => (callOf c x.2.outst).isSome) || s.away.any fun a : Away => (callOf c a.outst).isSome

/-- The call was issued before another of the same caller, by less than half the range of module time. -/
def Call.before (a b : Call) : Bool := a.caller = b.caller && a.time ≠ b.time && (b.time + 2 ^ 64 - a.time) % 2 ^ 64 < 2 ^ 63
/-- A call of the same caller to the same executor is on its way that was issued earlier (R153). -/
def State.callBehind (s : State) (e : Nat) (c : Call) : Bool :=
  s.msgs.any fun m => m.home = e && match m.body with | .call d => d.before c | _ => false

/-- CALL_ARRIVAL (R153, R154, R164): calls of one caller arrive in issue order; duplicates are discarded or answered from their record, a call past its
deadline is discarded, a full queue refuses it for now. -/
def execCallArrival (id : Nat) (s : State) : Out :=
  match s.msgs.find? fun m => m.id = id with
  | none => .next s
  | some m =>
    match m.body with
    | .call c =>
      let e := m.home
      let x := s.execAt e
      let gone : State := { s with msgs := s.msgs.filter fun x => x.id ≠ id }
      -- Without a route the call is lost (R411).
      if (s.route c.die (e / 16)).isNone then .next gone
      else if s.callBehind e c ∨ !s.msgMay m then .next s
      else if c.deadline ≤ s.time then .next (gone.stale e c)
      else if (x.queue.any c.same) ∨ ((execHarts e).any fun k => match s.ctxCall k with | some d => c.same d | none => false) then .next gone
      else match x.records.find? fun r => c.same r.call with
        | some r => .next (match r.reply with
          | some w => gone.send { id := 0, hart := c.hart, landing := 0, rid := 512 + e, lid := c.lid, member := c.member, home := 0, time := 0,
                                  body := .reply c w (!s.awaited c) }
          | none => gone)
        | none =>
          if 1024 ≤ x.queue.length then .next s
          else .next ((gone.setExec e { x with queue := x.queue ++ [c] }).accepted c)
    | _ => .next s

/-- The first queued call that no running call of its caller holds back (R153). -/
def State.nextCall (s : State) (e : Nat) : Option Call :=
  (s.execAt e).queue.find? fun c => !(execHarts e).any fun k => match s.ctxCall k with
    | some d => d.caller = c.caller
    | none => false

/-- Whether the next call of executor e leaves the queue: a context is free for it, or its deadline has passed. -/
def State.callReady (s : State) (e : Nat) : Bool :=
  match s.nextCall e with
  | none => false
  | some c => c.deadline ≤ s.time || (execHarts e).any fun k => (s.hartAt k).mode = .idle

/-- Registers of a context at call start (R155). -/
def callRegs (c : Call) : Tab Word :=
  let pay := c.payload.zipIdx.foldl (fun t (x, i) => Tab.set 0 t (i + 1) x) ([] : Tab Word)
  Tab.set 0 (Tab.set 0 pay 9 c.target) 10 (word (c.task.toNat % 2 ^ 32 * 2 ^ 32 + c.caller % 1024 * 2 ^ 16 + c.seq))

/-- A context starting a call (R155). -/
def contextOf (c : Call) : Hart :=
  { Hart.reset with mode := .remote, pc := c.entry, npc := c.entry, r := { Regs.reset with s := callRegs c }, ptroot := c.ptroot, asid := word c.asid,
                    rcbudget := word c.budget, lid := some c.lid, member := c.member, launch := word (c.lid % 2 ^ 32 + c.lid / 2 ^ 32 % 8 * 2 ^ 56),
                    call := some c }

/-- CALL_START (R153–R155): the next queued call starts in the lowest free context; past its deadline it is discarded. -/
def execCallStart (e : Nat) (s : State) : Out :=
  match s.nextCall e with
  | none => .next s
  | some c =>
    let x := s.execAt e
    let s' := s.setExec e { x with queue := x.queue.erase c }
    if c.deadline ≤ s.time then .next (s'.stale e c)
    else match (execHarts e).find? fun k => (s.hartAt k).mode = .idle with
      | none => .next s
      | some k => .next (s'.setHart k (contextOf c))

/-- The budget of a context's call is used up: it issues no further bundle (R159). -/
def Hart.overBudget (h : Hart) : Bool :=
  match h.mode, h.call with
  | .remote, some c => c.budget ≤ h.cyc
  | _, _ => false

/-- A bundle of the hart has begun to act and goes on without waiting (R234). -/
def Hart.midway (h : Hart) : Bool := h.going.isSome && h.heldKind = 0
/-- The call of a context ends by its budget now: the budget is used up and bundles already issued are complete (R159). -/
def State.budgetDue (s : State) (k : Nat) : Bool := (s.hartAt k).overBudget && !s.tsOut k && !(s.hartAt k).midway

/-- BUDGET_EXHAUSTED (R159): slice cycles from call start have reached the budget, and bundles already issued are complete. A bundle that waits has
issued (R36), so the next bundle is the one after it. -/
def execBudgetExhausted (k : Nat) (s : State) : Out :=
  let h := s.hartAt k
  .next (if s.budgetDue k then (s.release k true).endCall k [2, word h.cyc, 0, if h.waiting.isSome ∨ h.going.isSome then h.pc + 64 else h.pc] else s)

/-- A freed record lets a held call end (R164). -/
def State.settleEnded (s : State) (e : Nat) : State :=
  let x := s.execAt e
  if 1024 ≤ x.records.length then s
  else match x.ended with
  | [] => s
  | (k, r) :: rest => ((s.setExec e { x with ended := rest }).callSend e r.call (r.reply.getD [])).setHart k Hart.reset

def State.dropRecord (s : State) (e : Nat) (p : CallRecord → Bool) : State :=
  let x := s.execAt e
  (s.setExec e { x with records := x.records.filter fun r => !p r }).settleEnded e

/-- RELEASE_NOTICE (R164). A copy of the call that was sent again travels ahead of it. -/
def execReleaseNotice (e id : Nat) (s : State) : Out :=
  match s.msgs.find? fun m => m.id = id && m.home = e with
  | some m =>
    match m.body with
    | .notice _ c =>
      let copied : Bool := s.msgs.any fun x => match x.body with | .call d => c.same d | _ => false
      .next (if copied ∨ !s.msgMay m then s else { s with msgs := s.msgs.filter fun x => x.id ≠ id }.dropRecord e fun r => c.same r.call)
    | _ => .next s
  | none => .next s

/-- RECORD_DEADLINE (R164): the record with this sequence number whose call's reply deadline has passed. -/
def execRecordDeadline (e seq : Nat) (s : State) : Out :=
  .next (s.dropRecord e fun r => r.call.seq = seq && r.call.deadline ≤ s.time)

/-! ### Replies (R161–R166) -/

/-- The caller's side sends the release notice (R164). -/
def State.sendNotice (s : State) (e : Nat) (c : Call) : State :=
  s.send { id := 0, hart := c.hart, landing := 0, rid := c.caller, lid := c.lid, member := c.member, home := e, time := 0, body := .notice e c }

/-- The four registers of a reply. -/
def replyWrites (d : Nat) (w : List Word) : List Write := (List.range 4).map fun i => .s (d + i) (w.getD i 0)

/-- The trap of a FAULT reply (R162): code 5 with the callee's cause, and its address. -/
def trapOf (trap : Bool) (w : List Word) : Option (Nat × Word) :=
  if trap ∧ w.getD 0 0 = 1 then some (5 + wf (w.getD 1 0) 0 8 * 256, w.getD 2 0) else none

/-- A reply's values reach the registers of a hart, after results issued before the call (R96): the entry is released, the call no longer outstanding;
every status but LOST acquires (R162). -/
def State.landReply (s : State) (k : Nat) (o : Outstanding) (w : List Word) : State :=
  match (s.hartAt k).entry o.landing with
  | none => s
  | some l =>
    let d := match l.req with | .call d _ => d | _ => 0
    let h := (replyWrites d w).foldl (fun h x => h.perform x) (((s.hartAt k).settleRegs l.issued).dropEntry o.landing)
    let s := s.setHart k { h with outst := h.outst.erase o, trapPend := h.trapPend ++ (trapOf o.trap w).toList }
    if w.getD 0 0 = 3 then s else s.acquire k true

/-- Any other reply of the call is a second one (R164). -/
def Msg.secondReply (m : Msg) (c : Call) : Msg :=
  match m.body with
  | .reply d w again => { m with body := .reply d w (again || c.same d) }
  | _ => m
/-- An exact landing has to be written before the reply of an outstanding call (R96). -/
def Hart.replyBehind (h : Hart) (o : Outstanding) : Bool := match h.entry o.landing with | some l => h.exactBefore l | none => false

/-- A held reply in its landing entry. -/
def Landing.hold (l : Landing) (w : List Word) : Landing :=
  match l.req with
  | .call d _ => { l with got := some (replyWrites d w), acq := if w.getD 0 0 = 3 then none else some .module }
  | _ => l
def Away.hold (a : Away) (o : Outstanding) (w : List Word) : Away :=
  { a with outst := a.outst.erase o, land := a.land.map fun l : Landing => if l.id = o.landing then l.hold w else l }
/-- The first register of a reply. -/
def Away.replyReg (a : Away) (o : Outstanding) : Nat :=
  match (a.land.find? fun l : Landing => l.id = o.landing).map Landing.req with
  | some (.call d _) => d
  | _ => 0

/-- A reply for a task that is switched out is held (R166, R382). -/
def State.holdCall (s : State) (a : Away) (o : Outstanding) (w : List Word) : State :=
  let s : State := { s with away := s.away.map fun x => if x = a then x.hold o w else x }
  match s.placeOf a.lid a.member with
  | .saved area _ => s.holdReply area 1 (a.replyReg o) 0 (w.flatMap fun x => bytesOf 8 x.toNat)
  | _ => s

/-- REPLY (R161, R163, R164, R166): the reply lands, is held for a task that is switched out, or is discarded, and logged where LOST has landed. -/
def execReply (id : Nat) (s : State) : Out :=
  match s.msgs.find? fun m => m.id = id with
  | none => .next s
  | some m =>
    match m.body with
    | .reply c w again =>
      let e := m.rid - 512
      let gone : State := { s with msgs := (s.msgs.filter fun x => x.id ≠ id).map fun x => if s.awaited c then x.secondReply c else x }
      if !s.msgMay m then .next s
      else if (s.route (e / 16) (hartDie c.hart)).isNone then .next { s with msgs := s.msgs.filter fun x => x.id ≠ id }
      else
      let t := gone.sendNotice e c
      -- The caller's task runs on a core, the one that sent the call or another; or it is switched out.
      match s.harts.findSome? fun x : Nat × Hart => (callOf c x.2.outst).map fun o => (x.1, o) with
      | some (k, o) => .next (if (s.hartAt k).replyBehind o then s else t.landReply k o w)
      | none =>
        match s.away.findSome? fun a : Away => (callOf c a.outst).map fun o => (a, o) with
        | some (a, o) => .next (t.holdCall a o w)
        | none => .next (if again then t else t.log .event 0x31 (srcCore c.hart) [word c.seq, c.target])
    | _ => .next s

/-- LOST (R163): the reply deadline of an outstanding RCALL has come and no reply has arrived. -/
def execLost (k id : Nat) (s : State) : Out :=
  match (s.hartAt k).outst.find? fun o => o.landing = id && !o.post with
  | some o => .next (if o.deadline ≤ s.time ∧ !(s.hartAt k).replyBehind o then s.landReply k o [3, 0, 0, 0] else s)
  | none =>
    match s.away.find? fun a => a.hart = k ∧ a.outst.any fun o => o.landing = id ∧ !o.post ∧ o.deadline ≤ s.time with
    | some a => .next (match a.outst.find? fun o => o.landing = id with | some o => s.holdCall a o [3, 0, 0, 0] | none => s)
    | none => .next s

def Away.drop (a : Away) (o : Outstanding) : Away := { a with outst := a.outst.erase o }

/-- RPLOST (R165): an RPOST not accepted by its reply deadline. -/
def execRplost (k seq : Nat) (s : State) : Out :=
  let h := s.hartAt k
  let late (o : Outstanding) : Bool := o.seq = seq && o.post && o.deadline ≤ s.time
  match h.outst.find? late with
  | some o => .next ((s.setHart k { h with outst := h.outst.erase o }).log .event 0x33 (srcCore k) [word seq, o.target])
  | none =>
    -- The sender has left its core.
    match s.away.findSome? fun a : Away => if a.hart = k then a.outst.find? late else none with
    | some o => .next (State.log { s with away := s.away.map fun a => if a.hart = k then a.drop o else a } .event 0x33 (srcCore k) [word seq, o.target])
    | none => .next s

end Sys2Proof.Machine
end

