-- ==== Sys2Proof/Machine/System.lean ====
section
/-! DEFINITION. Handler-mode instructions: ERET, CSRR, CSRW, TLB.INV, TLB.PRB and WFE (13 R269, 20 R356–R367, 22 R391, R392). CTX.SV and CTX.LD are in
Context. -/

namespace Sys2Proof.Machine

/-- ERET (R366); an EPC that is 0 or misaligned is a handler fault, recorded as ILLEGAL (log 17). -/
def execEret (s : State) : Out := issue .eret noIll s fun s =>
  if s.h.epc = 0 ∨ s.h.epc.toNat % 64 ≠ 0 then .exc { code := cILLEGAL, detail := 0 } 0 else .ok s.eretTask


/-- NMDEBTn (R365). -/
def State.nmdebt (s : State) (die n : Nat) : Word :=
  word ((List.range 16).foldl (fun x k => x + (s.engineAt (64 * die + 16 * n + k)).debt % 16 * 2 ^ (4 * k)) 0)

/-- A privileged register as CSRR reads it (R356). -/
def State.privVal (s : State) (r : PReg) : Word :=
  let h := s.h
  match r with
  | .cctl => h.cctl
  | .fcause => h.fcause
  | .faddr => h.faddr
  | .fpc => h.fpc
  | .epc => h.epc
  | .estat => h.estat
  | .hbase => h.hbase
  | .rbanks => h.rbanks
  | .ltgrant => h.ltgrant
  | .crftab => h.crftab
  | .ptroot => h.ptroot
  | .asid => h.asid
  | .rcto => h.rcto
  | .rcbudget => h.rcbudget
  | .nmdebt n => s.nmdebt s.die n
  | .wstat => word (h.heldKind + (if h.frozen then 16 else 0))
  | .wcnt k => word (Tab.get 0 h.wcnt k)

def execCsrr (d : Nat) (r : PReg) (s : State) : Out := issue (.csrr d r) noIll s fun s => .ok (s.putS 1 d (s.privVal r))

/-- Bits of a privileged register that are marked zero or reserved (R356, R357, R360, R361, R364). -/
def zeroBits : PReg → Word
  | .cctl => 0x00000000FFFFFFF0
  | .fcause => 0xFFFFFFFFE0000000
  | .estat => 0xFFFFFFFFFFE0FF04
  | .hbase | .ptroot => 0xFFF0000000000FFF
  | .rbanks => 0xFFFFFFFFFF070000
  | .ltgrant => 0xFFFFFFFE00000000
  | .crftab => 0xFFF000000000001F
  | .asid => 0xFFFFFFFFFFFF0000
  | _ => 0

/-- A CSRW value the register refuses: zero fields (R356), DETLVL 3 (R357), power state 3 (R364). -/
def refuses (r : PReg) (x : Word) : Bool :=
  (x &&& zeroBits r) ≠ 0 || (r = .cctl && wf x 1 2 = 3) || (r = .rbanks && (List.range 8).any fun i => wf x (2 * i) 2 = 3)

/-- Core cycles for which a CSRW of RBANKS stalls issue (R364). -/
def bankStall (old new : Word) : Nat :=
  let moved (st : Nat) : Bool := (List.range 8).any fun i => wf old (2 * i) 2 = st ∧ wf new (2 * i) 2 ≠ st
  if moved 0 then 200 else if moved 2 then 20 else 0

def execCsrw (r : PReg) (a : Nat) (s : State) : Out := issue (.csrw r a) (fun s => refuses r (s.rdS a)) s fun s =>
  let x := s.rdS a
  .ok ((s.later 1 (.csr r x)).onH fun h => if r = .rbanks then { h with hdr := h.hdr + bankStall h.rbanks x } else h)

/-- Which translations a TLB.INV covers (R391). -/
def TlbEntry.covered (e : TlbEntry) (asid va : Option Nat) : Bool :=
  (match asid with | some a => e.asid = a | none => true) && (match va with | some v => e.va = v / e.size * e.size | none => true)

/-- A copy, CP.STAMP or NET command of a hart that was issued before a number holds a probed translation that the TLB.INV covers (R391 step 5). -/
def Hart.holdsProbe (h : Hart) (mark : Nat) (asid va : Option Nat) : Bool :=
  h.copyq.any fun c => c.id < mark && !c.finished && (match asid with | some a => c.asid = a | none => true)
    && c.pages.any fun p => match va with | some v => p.vpn * 4096 % 2 ^ 57 / p.size = v / p.size | none => true

/-- Harts of the dies of the current hart's partition that exist in the state. -/
def State.partHarts (s : State) : List Nat := (s.harts.map (·.1)).filter fun k => s.partOf (hartDie k) = s.partOf s.die

/-- Dirty L1 lines of a hart leave as stores in flight. -/
def State.flushLines (s : State) (k : Nat) : State := ((s.hartAt k).l1.map (·.1)).foldl (fun s line => s.flushLine k line) s

/-- TLB.INV (R391). Steps 1 to 3: the core's own stores are performed, and the entries are dropped in every die of the partition. Steps 4 and 5: it waits for
the accesses and probes issued before, whatever translation they used (log 8); no new one prolongs the wait. -/
def tlbInv (asid va : Option Nat) (s : State) : Res :=
  if s.h.invMark = 0 then
    if s.relHeld s.cur true then .hold 0
    else
      let t := s.partHarts.foldl (fun s k => s.flushLines k) (s.release s.cur true)
      let (id, t) := State.fresh { t with tlb := t.tlb.filter fun e => !(s.partOf e.die = s.partOf s.die && e.covered asid va) }
      .wait 0 (t.onH fun h => { h with invMark := id })
  else
    let mark := s.h.invMark
    if s.partHarts.any fun k => s.accsHeld k (fun a => a.id < mark) || (s.hartAt k).holdsProbe mark asid va then .wait 0 s
    else .ok ((s.partHarts.foldl (fun s k => s.performSome k fun a => a.id < mark) s).onH fun h => { h with invMark := 0 })

def execTlbInvAll (s : State) : Out := issue .tlbInvAll noIll s fun s => tlbInv none none s
def execTlbInvAsid (b : Nat) (s : State) : Out := issue (.tlbInvAsid b) noIll s fun s => tlbInv (some (wf (s.rdS b) 0 16)) none s
def execTlbInvVa (a b : Nat) (s : State) : Out := issue (.tlbInvVa a b) noIll s fun s =>
  tlbInv (some (wf (s.rdS b) 0 16)) (some (wf (s.rdS a) 0 57)) s

/-- Level of a leaf by its page size (R384, R386). -/
def leafLevel (size : Nat) : Nat := if size = 2 ^ 30 then 2 else if size = 2 ^ 21 then 1 else 0

/-- The result of TLB.PRB (R392). -/
def State.probeVa (s : State) (va : Nat) : Word :=
  let miss (detail level : Nat) : Word := word (detail * 2 + level * 16)
  match s.walk s.die s.h.ptroot va with
  | .fail d l => miss d l
  | .noPolicy l => miss 3 l
  | .damaged _ l | .elided _ l => miss 2 l
  | .leaf w size =>
    let pa := ptePpn w + va % size
    if !s.installed pa ∨ s.partOf (region pa).2 ≠ s.partOf s.die then miss 3 (leafLevel size)
    else word (wf w 52 12 * 2 ^ 52 + pa / 4096 % 2 ^ 40 * 4096 + wf w 1 11 * 2 + 1)

/-- TLB.PRB (R392): it stalls until its walk ends, which may have to wait for a bank engine (R200). -/
def execTlbPrb (d a : Nat) (s : State) : Out := issue (.tlbPrb d a) noIll s fun s =>
  let va := wf (s.rdS a) 0 57
  if s.walkDefers va 4 false (wf s.h.ptroot 12 40 * 4096) then .hold 0
  else .ok ((s.walked s.die s.rid s.h.ptroot va).putS 1 d (s.probeVa va))

/-- WFE (R367). -/
def execWfe (s : State) : Out := issue .wfe noIll s fun s =>
  if s.h.eventHeld then .ok (s.onH fun h => { h with eventHeld := false })
  else if s.switchReq s.cur then .ok s else .hold 0

end Sys2Proof.Machine
end

