-- ==== Sys2Proof/Machine/Results.lean ====
section
/-! DEFINITION. Results and landings of a hart as they arrive (12 R236, R237; 05 R93–R96; 20 R356, R364), the L1's fills and write-backs (05 R80,
18 R350), plain stores reaching their home slices (06 R127), the D2 calendar (06 R129, R130), and entry to handler mode for a pending trap or switch
request (20 R362). -/

namespace Sys2Proof.Machine

/-! ### Fixed-latency results -/

/-- An exact landing is due in this running cycle or is late (R95). -/
def Hart.exactDue (h : Hart) : Bool := h.land.any fun l => match l.due with | some d => d ≤ h.cyc | none => false

/-- FIXED_LATENCY_WRITE (R236, R237): results whose latency has expired are written, in issue order. Those of a cycle with an exact landing come around
it in issue order, so they wait for it (R96). -/
def execFixedLatencyWrite (k : Nat) (s : State) : Out :=
  .next (if (s.hartAt k).exactDue then s else s.setHart k ((s.hartAt k).settle .result ((s.hartAt k).cyc + 1)))

/-- RBANKS (R364): a CSRW of RBANKS takes effect; a bank that is OFF has lost its contents. -/
def execRbanks (k : Nat) (s : State) : Out := .next (s.setHart k ((s.hartAt k).settle .banks ((s.hartAt k).cyc + 1)))

/-- REGISTER_WRITE (R356): the other CSRWs take effect. -/
def execRegisterWrite (k : Nat) (s : State) : Out := .next (s.setHart k ((s.hartAt k).settle .priv ((s.hartAt k).cyc + 1)))

/-! ### Landings -/

/-- A piece of a load may be read now (R107, R110, R129, R130, R200). -/
def State.pieceMay (s : State) (k : Nat) (l : Landing) (p : Piece) : Bool :=
  match l.req with
  | .load f _ => s.accMay k (.load { l with req := .load f [p] })
  | _ => false
/-- Something of an entry may happen now: pieces of its load may be read, or its value under land=any be written, which an exact landing issued before
comes before (R96). -/
def State.mayArrive (s : State) (k : Nat) (l : Landing) : Bool :=
  match l.req, l.got with
  | .load _ ps, none => ps.any (s.pieceMay k l)
  | _, some _ =>
    -- A reply that is kept for the resume does not land while the handler runs (R352).
    l.due.isNone && !(s.hartAt k).exactBefore l && !((s.hartAt k).mode = .handler && (l.kept || (s.hartAt k).wLand = some l.id))
  | _, none => false

/-- Words of a reply held in a landing entry. -/
def replyWords (ws : List Write) : List Word := ws.map fun w => match w with | .s _ x => x | _ => 0

/-- DATA at a landing (R363): the registers are not written. A request of the task stops the task in whatever mode the core is; the slot is that of the
request, L or W. -/
def State.landFault (s : State) (k : Nat) (l : Landing) (detail : Nat) : State :=
  let h := (s.hartAt k).dropEntry l.id
  let slot := match l.req with | .load _ _ => 4 | .atomic _ => 5 | _ => 6
  (s.setHart k (if h.mode = .handler ∧ l.byTask then { h with mode := .task } else h)).takeData k detail slot l.pc

/-- An entry's value is written and the entry released (R94, R95), results issued before it first (R96); an acquire takes place (R110). -/
def State.landEntry (s : State) (k : Nat) (l : Landing) : State :=
  match l.bad, l.got with
  | some d, _ => s.landFault k l d
  | none, none => s
  | none, some ws =>
    let h := (s.hartAt k).settleRegs l.issued
    match h.outst.find? fun o => o.landing = l.id && !o.post with
    | some o => (s.setHart k h).landReply k o (replyWords ws)
    | none =>
      let h := ws.foldl (fun h w => h.perform w) (h.dropEntry l.id)
      -- A reply that was held for the resume (R166): its trap.
      let trap : List (Nat × Word) := match l.req with | .call _ t => (trapOf t (replyWords ws)).toList | _ => []
      let s := s.setHart k { h with trapPend := h.trapPend ++ trap }
      match l.acq with
      | some sc => s.acquire k (wideScope sc)
      | none => s

/-- LANDING (R93, R96): data of an entry arrives: one of the pieces of a load that may be read now, or all of them, by free choice (R311, log 4). Under
land=any the value is written at once; an exact landing waits in its entry. -/
def execLanding (k id : Nat) (s : State) : Out :=
  match (s.hartAt k).entry id with
  | none => .next s
  | some l =>
    match l.req, l.got with
    | .load _ ps, none =>
      let may := ps.filter (s.pieceMay k l)
      if may.isEmpty then .next s
      else
        let n := Config.choice s.nchoice % (may.length + 1)
        let s : State := if may.length = 1 then s else { s with nchoice := s.nchoice + 1 }
        let (s, l) := s.arrivePieces k l fun p => may.contains p && (may.length = 1 || n = may.length || may[n]? = some p)
        let s := s.setHart k ((s.hartAt k).setEntry l)
        .next (if s.mayArrive k l ∧ l.got.isSome then s.landEntry k l else s)
    | _, _ => .next (if s.mayArrive k l then s.landEntry k l else s)

/-- The first exact landing that is due. -/
def Hart.firstDue (h : Hart) : Option Landing := h.land.find? fun l => match l.due with | some d => d ≤ h.cyc | none => false
/-- An exact landing is due and its data has not arrived (R95). -/
def Hart.late (h : Hart) : Bool := h.land.any fun l => (match l.due with | some d => d ≤ h.cyc | none => false) && l.got.isNone

/-- EXACT_LANDING (R95, R96): at its cycle the destination is written, after those issued before it, or the clock domain freezes until the data arrives. -/
def execExactLanding (k id : Nat) (s : State) : Out :=
  let h := s.hartAt k
  match h.firstDue.filter fun l => l.id = id with
  | none => .next s
  | some l =>
    match l.due, l.got with
    | some d, some _ =>
      if d ≤ h.cyc then
        let s := s.landEntry k l
        .next (s.setHart k { s.hartAt k with frozen := (s.hartAt k).late })
      else .next s
    | some d, none => .next (if d ≤ h.cyc then s.setHart k { h with frozen := true } else s)
    | none, _ => .next s

/-! ### L1 and stores -/

/-- L1_FILL (R80): the fill of an allocated line arrives and supplies the bytes that no store has written. A damaged sector fills nothing. -/
def execL1Fill (k line : Nat) (s : State) : Out :=
  match Tab.find (s.hartAt k).l1 line with
  | some l =>
    .next (if l.valid = BitVec.allOnes 64 ∨ s.deferred (64 * line) 64 ∨ !s.mayUse k false (64 * line) ∨ (s.badSector (64 * line) 64 l.key).isSome
        ∨ s.ownAtomic k line ∨ !s.reaches (hartDie k) (64 * line) then s
      else (s.touch (64 * line) 64 0 l.key (readAgent (hartRid k)) (hartRid k)).l1FillLine k line l.key)
  | none => .next s

/-- WRITE_BACK (R350), after the core's own stores and atomics on the sector (R107); a D2 task's write-back is a store in flight with a slot of its own
(R130). -/
def execWriteBack (k line : Nat) (s : State) : Out :=
  .next (if s.d2Core k ∧ calendared (64 * line) then s.flushLine k line
    else if s.deferred (64 * line) 64 ∨ !s.mayUse k false (64 * line) ∨ s.acqBefore k (s.nextId + 1) ∨ (s.accs k).any fun a => a.on line then s
    else s.writeBack k line)

/-- PLAIN_STORE_ARRIVAL (R127): a store in flight reaches its home slice when it may (R107, R129, R130, R200), or cache maintenance in progress acts there
(R325). -/
def execPlainStoreArrival (k id : Nat) (s : State) : Out :=
  match (s.hartAt k).stq.find? fun e => e.id = id with
  | none => match (s.hartAt k).mnts.find? fun m => m.id = id with
    | some m => .next (if s.accMay k (.maint m) then s.performAcc k (.maint m) else s)
    | none => .next s
  | some e => .next (if s.accMay k (.store e) then s.performAcc k (.store e) else s)

/-! ### The D2 calendar -/

/-- At module time t the slice of an address is in a slot that core k owns for its accesses (R129). -/
def inSlot (t k pa : Nat) : Bool := slotOwner t (sliceOf pa) = .core k

/-- CALENDAR_SLOT (R130): the slice reaches the owner's slot, and the declared latency of the addresses it serves begins. -/
def Landing.calendar (l : Landing) (t k : Nat) : Landing :=
  { l with slots := l.slots.filter fun pa => !inSlot t k pa,
           ready := (l.slots.filter fun pa => inSlot t k pa).foldl (fun r pa => max r (t + d2Latency k pa)) l.ready }
/-- A D2 task's store or atomic without an entry that still needs its slot has it now (R130). -/
def Store.slotNow (e : Store) (t k : Nat) : Bool := e.ready = 0 && calendared (64 * e.sector) && inSlot t k (64 * e.sector)
def Msg.slotNow (m : Msg) (t k : Nat) : Bool := m.hart = k && m.landing = 0 && m.ready = 0 && m.atomicOf k fun pa => calendared pa && inSlot t k pa
def Msg.begin_ (m : Msg) (t k : Nat) : Msg :=
  match m.body with
  | .atomic _ pa _ _ _ _ _ => { m with ready := t + d2Latency k pa }
  | _ => m
/-- CALENDAR_SLOT (R130): the slot of a landing entry, of a store in flight or of an atomic without an entry. -/
def execCalendarSlot (k id : Nat) (s : State) : Out :=
  let h := s.hartAt k
  match h.entry id with
  | some l => .next (s.setHart k (h.setEntry (l.calendar s.time k)))
  | none =>
    if !s.d2Core k then .next s
    else if h.stq.any fun e => e.id = id then
      .next (s.setHart k { h with stq := h.stq.map fun e => if e.id = id ∧ e.slotNow s.time k then { e with ready := s.time + d2Latency k (64 * e.sector) } else e })
    else .next { s with msgs := s.msgs.map fun m => if m.id = id ∧ m.slotNow s.time k then m.begin_ s.time k else m }

/-! ### Handler entry -/

/-- The page of the bundle at the PC (R224, R354). -/
def State.fetchPage (s : State) : Except Cause Page :=
  match s.xlate s.h.pc with
  | .error c => .error c
  | .ok p => match p.refuse .fetch with
    | some c => .error c
    | none => .ok p

/-- A bundle has SAFE = 1 (R38) and no END in its S slot: an END bundle is not a switch point (R41). -/
def safeWord (w : Nat) : Bool := w / 2 ^ 506 % 2 = 1 && fld w 488 8 ≠ 0x39
/-- The bundle at the PC of a hart can be fetched and decoded and is a switch point. -/
def State.atSafePoint (s : State) (k : Nat) : Bool :=
  let safe (w : Nat) : Bool := safeWord w && (decodeBundle w).toOption.isSome
  match (s.hartAt k).fetched with
  | some w => safe w
  | none => match State.fetchPage { s with cur := k } with
    | .ok p => safe (s.numSeen p.key p.pa 64)
    | .error _ => false

/-- STALL cycles that have not elapsed (R361): in the cycle of a bundle's issue, all of them. -/
def Hart.stallRem (h : Hart) : Nat := if h.tried then h.stall - 1 else h.stall
/-- A switch request may be taken before the bundle at the PC (R36, R38): in task mode, at a safe point, and not while the bundle is held under kind 6
or 7, some of its slots have taken effect, or it holds an END (R41). The bundle waits, having passed its checks, or STALL cycles keep it from them: once it
stands before its checks its issue decides, so that a fault comes first (R362). -/
def State.switchable (s : State) (k : Nat) : Bool :=
  let h := s.hartAt k
  h.mode = .task && !h.frozen && h.going.isNone && s.switchReq k && h.heldKind ≠ 6 && h.heldKind ≠ 7 && (h.waiting.isSome || h.stallRem ≠ 0)
    && s.atSafePoint k

/-- A blocking request of a hart, travelling or parked: its home slice. -/
def State.requestHome (s : State) (id : Nat) : Option Nat :=
  match s.msgs.find? fun m => m.landing = id && m.isTs with
  | some m => some m.home
  | none => s.slices.findSome? fun z : Nat × Slice => if z.2.parked.any fun m => m.landing = id then some z.1 else none

/-- A cancel behind the hart's blocking request (R145), once. -/
def State.sendCancel (s : State) (k : Nat) : State :=
  match (s.hartAt k).wLand with
  | none => s
  | some id =>
    let sent : Bool := s.msgs.any fun m => match m.body with | .cancel x => x = id | _ => false
    match s.requestHome id with
    | some home =>
      if sent then s
      else s.send { id := 0, hart := k, landing := id, rid := hartRid k, lid := ((s.hartAt k).lid).getD 0, member := (s.hartAt k).member, home := home,
                    time := 0, body := .cancel id }
    | none => s

/-- The switch entry (R362): FCAUSE and FADDR are 0, ESTAT holds the STALL remainder and the wait kind; the windows it finds open are kept (R39). -/
def Hart.switchEntry (h : Hart) (time : Nat) : Hart :=
  Hart.enter { h with stopTime := time, fcause := 0, faddr := 0, fpc := h.pc, epc := h.pc, estat := estatOf h h.stallRem 1, shut := h.windows } 32

/-- The switch entry of a hart, with the cancel of its blocking request (R145). STATE of its bind record shows that the task is being saved from here on (R376;
log 12). -/
def State.takeSwitch (s : State) (k : Nat) : State := ((s.sendCancel k).setHart k ((s.hartAt k).switchEntry s.time)).setBindState k 2
/-- HANDLER_ENTRY (R362, R162): a RCALL trap pending before the next bundle, or a switch request at a safe point. -/
def execHandlerEntry (k : Nat) (s : State) : Out :=
  let h := s.hartAt k
  match h.trapPend with
  | (detail, addr) :: rest =>
    if h.mode = .task ∧ h.going.isNone ∧ h.waiting.isNone then
      let t := (s.setHart k { h with trapPend := rest })
      let t := State.takeFault { t with cur := k } { code := cRCALL, detail := detail } 6 false addr 0
      .next { t with cur := s.cur }
    else .next s
  | [] => .next (if s.switchable k then s.takeSwitch k else s)

end Sys2Proof.Machine
end

