-- ==== Sys2Proof/Machine/Sync.lean ====
section
/-! DEFINITION. The Y slot: barriers, GBAR, fences, the monitor and LWAIT (16 R334–R343), with the events that end a wait at its deadline; cache
maintenance (16 R325, 18 R349). -/

namespace Sys2Proof.Machine

/-- BARRIER with its code (R334). -/
def barFault (code : Nat) : Res := .exc { code := cBARRIER, detail := code } 0

/-- An instruction on an allocated barrier; code 1 otherwise (R334). -/
def State.onBar (s : State) (ix : BarIx) (f : Nat → Barrier → Res) : Res :=
  match s.h.bar (s.ixVal ix) with
  | some b => f (s.ixVal ix) b
  | none => barFault 1

/-! ### Allocation (R178, R335) -/

/-- The lowest free index of 1,024. -/
def Hart.freeBar (h : Hart) : Option Nat := (List.range 1024).find? fun i => (h.bar i).isNone

/-- Take index i, if there is one and the task may hold another barrier. -/
def State.takeBar (s : State) (pd d : Nat) (i : Option Nat) : State :=
  match i with
  | some i =>
    if s.h.bmax ≤ s.h.bars.length then s.putP 2 pd false
    else ((s.onH fun h => h.setBar i Barrier.fresh).putS 2 d (word i)).putP 2 pd true
  | none => s.putP 2 pd false

def execBarAlloc (pd d : Nat) (s : State) : Out := issue (.barAlloc pd d) noIll s fun s => .ok (s.takeBar pd d s.h.freeBar)
def execBarAllocAt (pd d : Nat) (ix : BarIx) (s : State) : Out := issue (.barAllocAt pd d ix) noIll s fun s =>
  .ok (s.takeBar pd d (if (s.h.bar (s.ixVal ix)).isNone then some (s.ixVal ix) else none))

def execBarFree (ix : BarIx) (s : State) : Out := issue (.barFree ix) noIll s fun s => s.onBar ix fun i b =>
  .ok (s.onH fun h => h.setBar i { b with refcnt := b.refcnt - 1 })
def execBarRef (ix : BarIx) (s : State) : Out := issue (.barRef ix) noIll s fun s => s.onBar ix fun i b =>
  if b.refcnt = 65535 then barFault 3 else .ok (s.onH fun h => h.setBar i { b with refcnt := b.refcnt + 1 })

/-! ### Expectations, arrivals, waits (R336–R339) -/

/-- BAR.INIT's new state and predicate (R336). -/
def Barrier.init (b : Barrier) (e n t : Word) : Barrier × Bool :=
  if b.infl ≠ 0 then (b, false)
  else ({ b with expb := sat48 e.toNat, expa := sat16 n.toNat, deadline := t, arrb := 0, arra := 0, cmask := 0, flags := 0 },
        e.toNat < 2 ^ 48 && n.toNat < 2 ^ 16)
/-- BAR.EXPECT's new state and predicate (R336), before the completion test. -/
def Barrier.expect (b : Barrier) (e n t : Word) : Barrier × Bool :=
  ({ b with expb := sat48 (b.expb + e.toNat), expa := sat16 (b.expa + n.toNat), deadline := if t = BitVec.allOnes 64 then b.deadline else t },
   b.expb + e.toNat < 2 ^ 48 && b.expa + n.toNat < 2 ^ 16)

def execBarInit (pd a : Nat) (ix : BarIx) (s : State) : Out := issue (.barInit pd a ix) noIll s fun s => s.onBar ix fun i b =>
  let (b, p) := b.init (s.rdS a) (s.rdS (a + 1)) (s.rdS (a + 2))
  .ok ((s.onH fun h => h.setBar i b).putP 2 pd p)
def execBarExpect (pd a : Nat) (ix : BarIx) (s : State) : Out := issue (.barExpect pd a ix) noIll s fun s => s.onBar ix fun i b =>
  let (b, p) := b.expect (s.rdS a) (s.rdS (a + 1)) (s.rdS (a + 2))
  .ok ((s.onH fun h => h.setBar i (b.update 0 0 none 0)).putP 2 pd p)

/-- BAR.ARRIVE (R109, R337): a release, then one arrival with its bytes. -/
def execBarArrive (a : Nat) (ix : BarIx) (s : State) : Out := issue (.barArrive a ix) noIll s fun s => s.onBar ix fun i _ =>
  if s.relHeld s.cur true then .hold 0
  else
    let x := s.rdS a
    let t := s.release s.cur true
    .ok (t.onH fun h => match h.bar i with
      | some b => h.setBar i (b.update x.toNat 1 none 0)
      | none => h)

/-- The phase asked for has completed (R338). -/
def Barrier.passed (b : Barrier) (x : Word) : Bool := b.phase ≠ x.getLsbD 0

def execBarWait (a : Nat) (ix : BarIx) (s : State) : Out := issue (.barWait a ix) noIll s fun s => s.onBar ix fun _ b =>
  if b.passed (s.rdS a) then .ok (s.acquire s.cur true) else .wait 1 s
def execBarTest (pd a : Nat) (ix : BarIx) (s : State) : Out := issue (.barTest pd a ix) noIll s fun s => s.onBar ix fun _ b =>
  if b.passed (s.rdS a) then .ok ((s.acquire s.cur true).putP 2 pd true) else .ok (s.putP 2 pd false)

/-- BAR.INFO's word (R339): word 7 is the pool. -/
def Hart.barWord (h : Hart) (b : Barrier) (w : Nat) : Word :=
  if w = 7 then word ((h.bmax - h.bars.length) * 2 ^ 16 + h.bars.length) else b.info w
def execBarInfo (d : Nat) (ix : BarIx) (w : Nat) (s : State) : Out := issue (.barInfo d ix w) noIll s fun s => s.onBar ix fun _ b =>
  -- The deadline check of the issue cycle is one of its updates (R177).
  let b := if b.deadline ≠ BitVec.allOnes 64 ∧ b.deadline.toNat ≤ s.time then b.complete true else b
  .ok (s.putS 2 d (s.h.barWord b w))

/-! ### GBAR (R340) -/

def Launch.gbar (l : Launch) (g : Nat) : GroupBar := Tab.get { gens := [] } l.gbars g
/-- Generation count of a member. -/
def Launch.gen (l : Launch) (g m : Nat) : Nat := Tab.get 0 (l.gbar g).gens m
/-- Record a member's arrival for its current generation. -/
def Launch.arriveAt (l : Launch) (g m : Nat) : Launch :=
  { l with gbars := Tab.put l.gbars g { gens := Tab.put (l.gbar g).gens m (l.gen g m + 1) } }
/-- Every member has arrived for generation n. -/
def Launch.genDone (l : Launch) (g n : Nat) : Bool := (l.groupMembers g).all fun m => n < l.gen g m
/-- Stores of a launch that a GBAR completion separates from later ones take part in no conflict (R127). -/
def State.dropSeen (s : State) (lid : Nat) : State :=
  { s with slices := s.slices.map fun z : Nat × Slice => (z.1, { z.2 with seen := z.2.seen.filter fun e => e.lid ≠ lid }) }

/-- The group a GBAR names is one of the task's (R35). -/
def State.gbarGroup (s : State) (g : Nat) : Option (Nat × Launch) :=
  match s.h.lid, s.h_launch with
  | some lid, some l => if s.groupOk g && l.inGroup g s.h.member then some (lid, l) else none
  | _, _ => none

/-- At its first issue GBAR releases and records its arrival, also where the bundle waits for another of its slots (R37); a bundle that re-issues after a
switch has done so (GBARPEND). The wait ends when the generation is complete or the deadline has come. -/
def execGbar (pd a g : Nat) (s : State) : Out := issue (.gbar pd a g) noIll s fun s =>
  match s.gbarGroup g with
  | none => barFault 2
  | some (lid, l) =>
    let first : Bool := s.h.waiting.isNone && !s.h.gbarPend
    if first && s.relHeld s.cur true then .hold 0
    else
      let l' := if first then l.arriveAt g s.h.member else l
      let t := if first then (s.release s.cur true).setLaunch lid l' else s
      let done := l'.genDone g (l'.gen g s.h.member - 1)
      let t := if first && done then t.dropSeen lid else t
      if !t.h.firstOnly ∧ (done ∨ t.h.wExp ∨ (t.h.waiting.isNone ∧ (t.rdS a).toNat ≤ t.time)) then
        .ok (((t.acquire t.cur true).putP 1 pd done).onH fun h => { h with gbarPend := false })
      else .wait 2 (t.onH fun h => { h with gbarPend := true, wDl := s.rdS a })

/-! ### Fences (R112, R115, R117, R341) -/

def execFence (sc : Scope) (s : State) : Out := issue (.fence sc) noIll s fun s =>
  if s.relHeld s.cur (wideScope sc) then .hold 0 else .ok ((s.release s.cur (wideScope sc)).acquire s.cur (wideScope sc))

/-- XFENCE (R115): the core's G stores and its dirty L1 lines reach their home slices, with the accesses that come before them, and its C stores are seen
by its later copy commands. -/
def execXfence (s : State) : Out := issue .xfence noIll s fun s =>
  let mine (a : Acc) : Bool := match a with | .store _ => true | .atomic _ pa => s.h.dirtyAt (pa / 64) | .maint m => s.h.dirtyAt m.sector | .load _ => false
  if s.accsHeld s.cur mine ∨ s.linesHeld s.cur then .hold 0
  else .ok ((((s.performSome s.cur mine).performSome s.cur Acc.isStore).writeBackAll s.cur).onH fun h => { h with cst := [] })

/-- NMFENCE (R117, R341): it stalls until maintenance that the core has issued is complete. -/
def execNmfence (s : State) : Out := issue .nmfence noIll s fun s =>
  if s.accsHeld s.cur Acc.isMaint then .hold 0 else .ok (s.performSome s.cur Acc.isMaint)

/-! ### The monitor (R119, R342) -/

/-- MON.ARM: the page must be NORMAL with R. -/
def execMonArm (a : Nat) (s : State) : Out := issue (.monArm a) noIll s fun s =>
  let ea := s.rdS a
  match s.xlate ea with
  | .error c => .exc c ea
  | .ok p =>
    if p.cls ≠ 0 then .exc { code := cPROT, detail := 2 } ea
    else if !p.r then .exc { code := cPROT, detail := 1 } ea
    else
      let t := (s.walkOn s.cur ea).evictLine s.cur (p.pa / 64)
      .ok (t.onH fun h => { h with monitor := some { sector := p.pa / 64, hit := false } })

/-- MON.WAIT, which waits out the cycle of its deadline: without a monitor PD is false at once; a write ends the wait with PD true, before a deadline of the same cycle; one after the deadline's
cycle comes too late (R347). -/
def execMonWait (pd a : Nat) (s : State) : Out := issue (.monWait pd a) noIll s fun s =>
  match s.h.monitor with
  | none => .ok (s.putP 1 pd false)
  | some m =>
    if m.hit ∧ !s.h.wExp then .ok ((s.putP 1 pd true).onH fun h => { h with monitor := none })
    else if !s.h.firstOnly ∧ (s.h.wExp ∨ (s.h.waiting.isNone ∧ (s.rdS a).toNat < s.time)) then .ok ((s.putP 1 pd false).onH fun h => { h with monitor := none })
    else .wait 3 (s.onH fun h => { h with wDl := s.rdS a })

/-- LWAIT (R343). -/
def execLwait (s : State) : Out := issue .lwait noIll s fun s => if s.h.land.isEmpty then .ok s else .hold 6

/-! ### Deadlines of waits -/

/-- Module time has reached the deadline of a wait of the kind. -/
def Hart.waitDue (h : Hart) (kind time : Nat) : Bool :=
  (match h.waiting with | some w => w.kinds.contains kind | none => false) && !h.wExp && h.wDl.toNat ≤ time
/-- A wait whose deadline has come ends at the bundle's next retry. -/
def State.expire (s : State) (k kind : Nat) : State :=
  let h := s.hartAt k
  if h.waitDue kind s.time then s.setHart k { h with wExp := true } else s

/-- GBAR_DEADLINE (R340). -/
def execGbarDeadline (k : Nat) (s : State) : Out := .next (s.expire k 2)
/-- MON_WAIT_DEADLINE (R119, R347): nothing where a write has come by the end of the deadline's cycle. -/
def execMonWaitDeadline (k : Nat) (s : State) : Out :=
  .next (match (s.hartAt k).monitor with
    | some m => if m.hit then s else s.expire k 3
    | none => s.expire k 3)

/-! ### Cache maintenance (R325, R349) -/

/-- The parts of a range of n bytes by pages: address and bytes. -/
def rangeParts (a : Word) (n : Nat) : List (Word × Nat) :=
  if n = 0 then []
  else (List.range ((a.toNat % 4096 + n + 4095) / 4096)).map fun i =>
    if i = 0 then (a, min n (4096 - a.toNat % 4096))
    else (a + word (4096 * i - a.toNat % 4096), min 4096 (n - (4096 * i - a.toNat % 4096)))
/-- One page of a range, or its fault. -/
def State.maintPage (s : State) (m : MaintOp) (x : Word × Nat) : Except (Cause × Word) (Nat × Nat × Nat) :=
  match s.xlate x.1 with
  | .error c => .error (c, x.1)
  | .ok p =>
    if p.cls = 1 ∨ p.cls = 3 then .error ({ code := cPROT, detail := 2 }, x.1)
    else if (m = .cln ∧ !p.r) ∨ (m ≠ .cln ∧ !p.w) then .error ({ code := cPROT, detail := 1 }, x.1)
    else .ok (p.pa, x.2, p.cpol)
/-- The pages of a range, each with its first address in the range, or the fault: every page translates before any is refused (R325, R247). -/
def State.maintPages (s : State) (m : MaintOp) (a : Word) (n : Nat) : Except (Cause × Word) (List (Nat × Nat × Nat)) :=
  allElts ((rangeParts a n).map (s.maintPage m))

/-- Sectors of a page piece that the core, its accesses on their way or the memory-side caches hold: the others are not affected. -/
def State.heldSectors (s : State) (pa n : Nat) : List Nat :=
  let inside (k : Nat) : Bool := pa / 64 ≤ k && k ≤ (pa + n - 1) / 64
  let atomics := s.msgs.filterMap fun m => match m.body with
    | .atomic _ pa _ _ _ _ _ => if m.hart = s.cur then some (pa / 64) else none
    | _ => none
  ((atomics ++ (s.h.stq.map (·.sector)) ++ (s.h.l1.map (·.1)) ++ (s.msc.map (·.1))).filter inside).eraseDups

/-- Maintenance of one sector is issued (R325, R349): earlier loads of it are performed, the L1 line goes or its dirty bytes leave for the home slice, and the
slice's part follows the core's earlier accesses to the sector. -/
def State.maintain (s : State) (m : MaintOp) (sec : Nat) : State :=
  let s := s.performSome s.cur fun a => match a with | .load l => l.loads sec | _ => false
  let s := match m with
    | .cln => s.flushLine s.cur sec
    | .inv => s.dropLine s.cur sec
    | .clninv => s.evictLine s.cur sec
  let (id, s) := s.fresh
  s.onH fun h => { h with mnts := h.mnts ++ [{ id := id, op := m, sector := sec }] }

/-- After its checks the instruction proceeds without holding issue; only an earlier load of a sector that cannot be performed yet keeps its line in the L1. -/
def maint (m : MaintOp) (a len : Word) (s : State) : Res :=
  match s.maintPages m a len.toNat with
  | .error x => faultRes x
  | .ok l =>
    let secs := (l.filter fun x => x.2.2 ≠ 2).flatMap fun x => s.heldSectors x.1 x.2.1
    let s := s.walksOn s.cur ((rangeParts a len.toNat).map (·.1))
    if s.accsHeld s.cur fun a => match a with | .load l => secs.any l.loads && (s.h.l1.any fun e => l.loads e.1) | _ => false then .hold 0
    else .ok (secs.foldl (fun s k => s.maintain m k) s)

/-- A length above 2^32 is ILLEGAL (R325). -/
def lenBad (n : Nat) (s : State) : Bool := (s.rdS n).toNat > 2 ^ 32
def execCln (a len : Nat) (s : State) : Out := issue (.cln a len) (lenBad len) s fun s => maint .cln (s.rdS a) (s.rdS len) s
def execInv (a len : Nat) (s : State) : Out := issue (.inv a len) (lenBad len) s fun s => maint .inv (s.rdS a) (s.rdS len) s
def execClninv (a len : Nat) (s : State) : Out := issue (.clninv a len) (lenBad len) s fun s => maint .clninv (s.rdS a) (s.rdS len) s

end Sys2Proof.Machine
end

