-- ==== Sys2Proof/Machine/Home.lean ====
section
/-! DEFINITION. What the home slices do: atomics (06 R113, R123–R126, 15 R312–R315), the host's accesses (05 R92, 06 R122, 23 R408), replacement in the
memory-side caches (05 R88), completed page walks (22 R388–R390) and row elision (10 R205). -/

namespace Sys2Proof.Machine

/-! ### Atomics -/


/-- ATOMIC_AT_HOME_SLICE (R113): a travelling atomic reaches its home slice when it may (R107, R129, R130, R200). -/
def execAtomicAtHomeSlice (k id : Nat) (s : State) : Out :=
  match s.msgs.find? fun m => m.id = id && m.hart = k with
  | none => .next s
  | some m =>
    match m.body with
    | .atomic (.amofSeq _ _ _ _) _ _ _ _ _ _ => .next s
    | .atomic _ pa _ _ _ _ _ => .next (if s.accMay k (.atomic m pa) then s.atomicNow m else s)
    | _ => .next s

/-! ### Sequenced atomics -/

/-- A travelling or refused message of a hart. -/
def State.seqMsg (s : State) (k id : Nat) : Option Msg :=
  (s.msgs ++ s.slices.flatMap fun z : Nat × Slice => z.2.refused).find? fun m => m.id = id && m.hart = k

/-- SEQUENCED_APPLY (R123): a sequenced AMOF arrives, or a refused one is retried. -/
def execSequencedApply (k id : Nat) (s : State) : Out :=
  match s.seqMsg k id with
  | none => .next s
  | some m =>
    match m.body with
    | .atomic (.amofSeq _ _ _ _) pa _ _ _ _ _ => .next (if s.accMay k (.atomic m pa) then s.atomicNow m else s)
    | _ => .next s

/-! ### The host -/

/-- The port of the partition's lowest die exposes the partition's HBM and control regions (R407). In decaf mode BAR0 maps die 0's control region only; the
host also reaches die 0's HBM, where the logs that it may read lie (R396, R422) and the image that IMGLOAD takes (R424; log 14). -/
def State.hostReach (s : State) (pa : Nat) : Bool :=
  if s.sec.stage = .decaf then region pa = (.control, 0) || region pa = (.hbm, 0)
  else ((region pa).1 = .hbm || (region pa).1 = .control) && s.installed pa && (s.dieAt (s.lowestDie (s.partOf (region pa).2))).hostUp

/-- A 64-bit AtomicOp of the host at the home slice: it reads, and writes at once or, by free choice, later; a module atomic may fall between where its
page has ATOMSYS = 0 (R92, R408). -/
def State.hostAtomic (s : State) (op : AtomOp) (pa : Nat) : State :=
  if s.hostReach pa ∧ pa % 8 = 0 then
    let s := s.hostFinish.touch pa 8 1 0 0 0
    if (s.badSector pa 8 0).isSome then s
    else
      let (n, s) := s.draw
      let t : State := { s with hostRmw := some (op, pa, s.numAt pa 8) }
      if Config.coin n then t else t.hostFinish
  else s

/-- The addresses of a host access to module memory. -/
def hostSpan : HostOp → Option (Nat × Nat)
  | .read pa n => some (pa, n)
  | .write pa d => some (pa, d.length)
  | .fetchAdd pa _ | .swap pa _ | .cas pa _ _ => some (pa, 8)
  | .hostMem _ _ => none
/-- A host access waits: a bank engine holds a channel (R200), or the slot of one of its slices belongs to a D2 task (R129). -/
def State.hostHeld (s : State) (op : HostOp) : Bool :=
  match hostSpan op with
  | some (pa, n) => s.hostReach pa && (s.deferred pa n || (sectorsOf pa n).any fun k => !s.mayUse 512 false (64 * k))
  | none => false
/-- A host access arrives at its home slice. -/
def State.hostDo (s : State) (op : HostOp) : State :=
  match op with
  | .read pa n => if s.hostReach pa then s.touch pa n 1 0 0 0 else s
  | .write pa d => if s.hostReach pa then s.applyWrite pa d 1 0 0 none else s
  | .fetchAdd pa v => s.hostAtomic (.amo .add v) pa
  | .swap pa v => s.hostAtomic (.amo .swap v) pa
  | .cas pa x v => s.hostAtomic (.cas x v) pa
  | .hostMem a d => { s with hostMem := (List.range d.length).foldl (fun t i => Tab.set 0 t (a + i) (d.getD i 0)) s.hostMem }
/-- The first of the host accesses that wait, if it waits no longer. -/
def State.hostNext (s : State) : State :=
  match s.hostIn with
  | op :: rest => if s.hostHeld op then s else State.hostDo { s with hostIn := rest } op
  | [] => s

/-- HOST_ACCESS (R122, R408): reads and writes of module memory through the host port, AtomicOps, and the host's writes to its own memory. They arrive in
order; one that has to wait keeps the later ones behind it. -/
def execHostAccess (op : HostOp) (s : State) : Out :=
  .next (if (hostSpan op).isSome ∧ (!s.hostIn.isEmpty ∨ s.hostHeld op) then { s with hostIn := s.hostIn ++ [op] } else s.hostDo op)

/-! ### Memory-side caches, walks, row elision -/

/-- MEMORY_SIDE_CACHE_WRITE_BACK (R88): a slice's own choice; a DRAM write waits for a run of the channel's bank engine (R200). -/
def execMemorySideCacheWriteBack (pa : Nat) (drop : Bool) (s : State) : Out :=
  let k := pa / 64
  match Tab.find s.msc k with
  | none => .next s
  | some e =>
    if e.dirty ∧ s.runs pa then .next s
    else .next (if drop then (s.mscClean k).mscDrop k else s.mscClean k)

/-- The entry of the last-level TLB that holds a translation (R388): up to 16 aligned consecutive pages of one size with equal attributes and consecutive
page numbers; a page of 1 GiB has an entry alone. -/
structure TlbGroup where
  asid : Nat
  size : Nat
  first : Nat
  attrs : Nat
  page : Int
  deriving DecidableEq, Repr
def TlbEntry.group (e : TlbEntry) : TlbGroup :=
  let n := if e.size = 2 ^ 30 then 1 else 16
  let i := e.va / e.size % n
  { asid := e.asid, size := e.size, first := e.va / e.size - i, attrs := e.leaf.toNat - ptePpn e.leaf, page := (ptePpn e.leaf : Int) - ((i * e.size : Nat) : Int) }
/-- Entries of a die's last-level TLB. -/
def State.tlbGroups (s : State) (die : Nat) : List TlbGroup := ((s.tlb.filter fun e => e.die = die && e.at_ = .last).map TlbEntry.group).eraseDups
/-- The set of an entry in its TLB: a micro-TLB has one, a cluster TLB 512 of 8 ways (R388). Which address bits number the set the manual does not say
(log 26). -/
def TlbEntry.set (e : TlbEntry) : Nat := match e.at_ with | .cluster _ => e.va / e.size % 512 | _ => 0
def TlbAt.ways : TlbAt → Nat
  | .micro _ => 64
  | .cluster _ => 8
  | .last => 16384
/-- A translation comes into a TLB in place of the entry for that page; from a full set, or a full last-level TLB, another leaves, freely chosen (R388,
log 4). -/
def State.tlbFill (s : State) (e : TlbEntry) : State :=
  let s : State := { s with tlb := e :: s.tlb.filter fun x => !(x.die = e.die ∧ x.at_ = e.at_ ∧ x.asid = e.asid ∧ x.va = e.va ∧ x.size = e.size) }
  match e.at_ with
  | .last =>
    let gs := (s.tlbGroups e.die).filter fun g => g ≠ e.group
    if gs.length < 16384 then s
    else
      let out := gs[Config.choice s.nchoice % gs.length]?
      { s with nchoice := s.nchoice + 1, tlb := s.tlb.filter fun x => !(x.die = e.die ∧ x.at_ = .last ∧ some x.group = out) }
  | _ =>
    let l := s.tlb.filter fun x => x ≠ e ∧ x.die = e.die ∧ x.at_ = e.at_ ∧ x.set = e.set
    if l.length < e.at_.ways then s
    else
      let out := l[Config.choice s.nchoice % l.length]?
      { s with nchoice := s.nchoice + 1, tlb := s.tlb.filter fun x => some x ≠ out }
/-- The TLBs that a completed walk of a hart fills (R388): a core's own, its cluster's and its die's; an executor's die's. -/
def tlbsOf (k : Nat) : List TlbAt := if k < 512 then [.micro (hartPcore k), .cluster (hartPcore k / 32), .last] else [.last]

/-- The harts of a die whose accesses use this root under this ASID: those whose misses of a page one walk serves (R390). -/
def State.walkers (s : State) (die asid : Nat) (root : Word) : List Nat :=
  (s.harts.filter fun x => hartDie x.1 = die && wf x.2.asid 0 16 = asid && x.2.ptroot = root).map (·.1)
/-- WALK (R388–R390): a completed walk for the requesters of a die that use its root and ASID fills the TLBs that serve them. Its reads at the slices are counted
(R204, R393), a damaged entry is logged (R387), and its reads of DRAM wait for a run of a bank engine (R200). -/
def execWalk (die asid : Nat) (root va : Word) (s : State) : Out :=
  let v := va.toNat % 2 ^ 57
  match s.walkers die asid root with
  | [] => .next s
  | k :: ks =>
    if s.walkDefers v 4 false (wf root 12 40 * 4096) then .next s
    else
      let t := s.walked die (hartRid k) root v
      match s.walk die root v with
      | .leaf w size =>
        .next (((k :: ks).flatMap tlbsOf).foldl (fun s a => s.tlbFill { die := die, at_ := a, asid := asid, va := v / size * size, size := size, leaf := w }) t)
      | _ => .next t

/-- ROW_ELISION_WRITE (R205): a write of one word of a die's row-elision ranges. -/
def execRowElisionWrite (die off : Nat) (v : Word) (s : State) : Out :=
  .next (if die < s.ndie ∧ off < 0x1000 then s.elisionWrite (ctlBase die + offElision + off / 8 * 8) v else s)

/-- ROW_CLEAR_DONE (R205): the rows of range k of a slice that became live are zero, and BUSY clears. -/
def execRowClearDone (sl k : Nat) (s : State) : Out :=
  if s.clearing.any fun c => c.1 = sl ∧ c.2.1 = k then
    let pa := elisionPa sl k
    let w := s.ctlNum pa 8
    .next { s.setCtl pa 8 (w - fld w 1 1 * 2) with clearing := s.clearing.filter fun c => !(c.1 = sl ∧ c.2.1 = k) }
  else .next s

end Sys2Proof.Machine
end

