-- ==== Sys2Proof/Machine/Near.lean ====
section
/-! DEFINITION. The bank engines (10 R186–R205): NM.LOAD, NM.GO, NM.STOP, NM.STAT (16 R331), served when they issue (log 22), and the steps of a
timetable. -/

namespace Sys2Proof.Machine

/-! ### Timetable words (R189–R191) -/

def ttKind (w : Word) : Nat := wf w 60 4

/-- The code a word at index x of a timetable is refused with, 0 for none (R189–R192): 3 BADIMAGE, 4 BADLOOP. -/
def ttCode (tt : List Word) (x : Nat) : Nat :=
  let w := tt.getD x 0
  let aop := wf w 28 4
  match ttKind w with
  | 1 =>
    if wf w 0 7 ≠ 0 ∨ 7 < aop ∨ (aop = 6 ∧ wf w 12 2 = 3) ∨ (aop ≠ 6 ∧ wf w 12 2 ≠ 0) then 3
    else if wf w 59 1 = 1 ∧ aop ≠ 0 ∧ (wf w 56 3 = wf w 25 3 ∨ (aop = 7 ∧ wf w 56 3 = wf w 16 3)) then 3 else 0
  | 2 => if wf w 0 40 ≠ 0 then 3 else 0
  | 3 => if wf w 0 54 ≠ 0 then 3 else 0
  | 4 | 7 => if wf w 0 60 ≠ 0 then 3 else 0
  | 5 => if wf w 20 40 ≠ 0 ∨ wf w 0 20 = 0 then 3 else 0
  | 6 =>
    let start := wf w 50 10
    if wf w 0 15 ≠ 0 ∨ wf w 30 20 = 0 then 3
    else if x < start ∨ ((List.range x).any fun y => start ≤ y ∧ ttKind (tt.getD y 0) = 6) then 4 else 0
  | _ => 3

/-- The LOOP whose body holds word x, if any: row and column steps (R191). -/
def ttSteps (tt : List Word) (x : Nat) : Nat × Nat :=
  match (List.range tt.length).find? fun y => x ≤ y ∧ ttKind (tt.getD y 0) = 6 ∧ wf (tt.getD y 0) 50 10 ≤ x with
  | some y => (wf (tt.getD y 0) 20 10, wf (tt.getD y 0) 15 5)
  | none => (0, 0)

/-! ### The engine's run -/

def Engine.cur (e : Engine) : Word := e.tt.getD e.pc 0
def Engine.reg (e : Engine) (i : Nat) : Sector := Tab.get 0 e.b i
def Engine.setReg (e : Engine) (i : Nat) (x : Sector) : Engine := { e with b := Tab.set 0 e.b i x }

/-- End of a run: the queue of column reads is dropped (R196, R197). -/
def Engine.endRun (e : Engine) (st : EngState) (code pc : Nat) : Engine :=
  { e with st := st, code := code, pc := pc, flight := [], rows := [], busy := 0, wait := false, stop := false, force := false }

/-- The word takes n slice cycles; the next one is at pc; a run past the last word ends FAULTED (R197). -/
def Engine.goto_ (e : Engine) (pc n : Nat) : Engine :=
  if e.tt.length ≤ pc then e.endRun .faulted 3 (e.tt.length - 1) else { e with pc := pc, busy := n }

/-- The engine may take its next word: RUNNING, the last word's time over, no forced REF and no stop pending. -/
def Engine.free (e : Engine) : Bool := e.st = .running && e.busy = 0 && !e.wait && !e.force && !e.stop

/-- The word at PC is of this kind and may be taken. -/
def Engine.at_ (e : Engine) (kind : Nat) : Bool := e.free && ttKind e.cur = kind

/-- Slice and channel of engine g. -/
def engSlice (g : Nat) : Nat := g / 4
def engLine (g bank row : Nat) : Nat := dramLine (g / 64) (g / 4 % 16) (g % 4) bank row

/-! ### Operations (R193, R194) -/

def secHalf (x : Sector) (t : Nat) : Nat := fld x.toNat (16 * t) 16
def secWord (x : Sector) (t : Nat) : Nat := fld x.toNat (32 * t) 32
def secByte (x : Sector) (t : Nat) : Nat := fld x.toNat (8 * t) 8
/-- A column from its lanes of n bits. -/
def secOf (n : Nat) (l : List Nat) : Sector := BitVec.ofNat 512 (l.foldr (fun x a => x % 2 ^ n + 2 ^ n * a) 0)

/-- FLAGS from rounding exceptions and saturation (R70, R199): INV, OVF, QSAT. -/
def engFlags (f : Flags) (sat : Bool) : BitVec 5 :=
  (if f &&& fINV ≠ 0 then 1 else 0) ||| (if f &&& fOVF ≠ 0 then 2 else 0) ||| (if sat then 4 else 0)

/-- A lane result with the exceptions of its operation and of its rounding. -/
def laneRound (f : Fmt) (v : Val × Flags) : Nat × Flags :=
  let (c, g) := roundFp f .rn false v.1
  (c, v.2 ||| g)
/-- A column of n-bit lanes from lane results. -/
def colOf (n : Nat) (l : List (Nat × Flags)) : Sector × BitVec 5 :=
  (secOf n (l.map (·.1)), engFlags (l.foldl (fun f x => f ||| x.2) 0) false)

def bfAt (x : Sector) (t : Nat) : Val := bf16.value (secHalf x t)
def addbCol (a b : Sector) : Sector × BitVec 5 := colOf 16 ((List.range 32).map fun t => laneRound bf16 (Val.add .rn (bfAt a t) (bfAt b t)))
def addfCol (a b : Sector) : Sector × BitVec 5 :=
  colOf 32 ((List.range 16).map fun t => laneRound fp32 (Val.add .rn (fp32.value (secWord a t)) (fp32.value (secWord b t))))
def mulbCol (a b : Sector) : Sector × BitVec 5 := colOf 16 ((List.range 32).map fun t => laneRound bf16 (Val.mul (bfAt a t) (bfAt b t)))
def fmabCol (a b : Sector) (k : BitVec 32) : Sector × BitVec 5 :=
  colOf 16 ((List.range 32).map fun t => laneRound bf16 (Val.fma .rn (bfAt a t) (laneVal k) (bfAt b t)))
def maxbCol (a b : Sector) : Sector × BitVec 5 :=
  (secOf 16 ((List.range 32).map fun t =>
    (fpMinMax true (BitVec.ofNat 32 (secHalf a t * 65536)) (BitVec.ofNat 32 (secHalf b t * 65536))).toNat / 65536), 0)
/-- BF16 to FP32, exact; NaN is the canonical one. -/
def widenBf (c : Nat) : Nat := if (bf16.value c).isNan then 0x7FC00000 else c * 65536
def cvtCol (sub : Nat) (a b : Sector) : Sector × BitVec 5 :=
  if sub < 2 then (secOf 32 ((List.range 16).map fun t => widenBf (secHalf a (t + 16 * sub))), 0)
  else colOf 16 ((List.range 32).map fun t => laneRound bf16 (fp32.value (if t < 16 then secWord a t else secWord b (t - 16)), 0))

/-- A column with byte i replaced. -/
def putByte (x : Sector) (i v : Nat) : Sector := (x &&& ~~~ BitVec.ofNat 512 (255 * 256 ^ i)) ||| BitVec.ofNat 512 (v % 256 * 256 ^ i)
/-- PAIRUPD (R194): the new pair column, block j's two new scales, and the flags. -/
def pairupd (a b c : Sector) (k : BitVec 32) (j : Nat) : Sector × (Nat × Nat) × BitVec 5 :=
  let w := (List.range 32).map fun t => laneRound fp32 (Val.add .rn (mxValue .e4m3 (secByte c (2 * j)) (secByte a t))
    (mxValue .e4m3 (secByte c (2 * j + 1)) (secByte a (32 + t))))
  let w2 := w.zipIdx.map fun (x, t) => laneRound fp32 (Val.fma .rn (laneVal k).neg (bfAt b t) (fp32.value x.1))
  let m := mxQuantise .e4m3 false (w2.map fun x => fp32.value x.1) []
  let d := (w2.zip m.codes).map fun (x, q) => laneRound fp32 (Val.add .rn (fp32.value x.1) (mxValue .e4m3 m.scale q).neg)
  let r := mxQuantise .e4m3 false (d.map fun x => fp32.value x.1) []
  let f := (w ++ w2 ++ d).foldl (fun f x => f ||| x.2) (0 : Flags)
  (secOf 8 (m.codes ++ r.codes), (m.scale, r.scale),
   engFlags (if m.scale = 0xFF ∨ r.scale = 0xFF then f ||| fINV else f) (m.sat || r.sat))

/-- Put an A result in its register and gather its flags. -/
def Engine.result (e : Engine) (ad : Nat) (r : Sector × BitVec 5) : Engine := { e.setReg ad r.1 with flags := e.flags ||| r.2 }
def Engine.konst (e : Engine) (i : Nat) : BitVec 32 := Tab.get 0 e.k i
/-- PAIRUPD on the engine's registers: AD first, then two bytes of AC in place, which may be the same register. -/
def Engine.pair (e : Engine) (ad aa ab ac ksel j : Nat) : Engine :=
  let (p, c, f) := pairupd (e.reg aa) (e.reg ab) (e.reg ac) (e.konst ksel) (j % 32)
  let e := e.setReg ad p
  { e.setReg ac (putByte (putByte (e.reg ac) (2 * (j % 32)) c.1) (2 * (j % 32) + 1) c.2) with flags := e.flags ||| f }

def execAddb (g ad aa ab : Nat) (s : State) : Out :=
  .next (s.setEngine g ((s.engineAt g).result ad (addbCol ((s.engineAt g).reg aa) ((s.engineAt g).reg ab))))
def execAddf (g ad aa ab : Nat) (s : State) : Out :=
  .next (s.setEngine g ((s.engineAt g).result ad (addfCol ((s.engineAt g).reg aa) ((s.engineAt g).reg ab))))
def execMulb (g ad aa ab : Nat) (s : State) : Out :=
  .next (s.setEngine g ((s.engineAt g).result ad (mulbCol ((s.engineAt g).reg aa) ((s.engineAt g).reg ab))))
def execFmab (g ad aa ab ksel : Nat) (s : State) : Out :=
  .next (s.setEngine g ((s.engineAt g).result ad (fmabCol ((s.engineAt g).reg aa) ((s.engineAt g).reg ab) ((s.engineAt g).konst ksel))))
def execMaxb (g ad aa ab : Nat) (s : State) : Out :=
  .next (s.setEngine g ((s.engineAt g).result ad (maxbCol ((s.engineAt g).reg aa) ((s.engineAt g).reg ab))))
def execCvt (g sub ad aa ab : Nat) (s : State) : Out :=
  .next (s.setEngine g ((s.engineAt g).result ad (cvtCol sub ((s.engineAt g).reg aa) ((s.engineAt g).reg ab))))
def execPairupd (g ad aa ab ac ksel idx : Nat) (s : State) : Out := .next (s.setEngine g ((s.engineAt g).pair ad aa ab ac ksel idx))

/-! ### COL (R190, R192, R203) -/

/-- Registers a COL word reads or writes. -/
def colRegs (w : Word) : List Nat :=
  let aop := wf w 28 4
  (if wf w 59 1 = 1 then [wf w 56 3] else []) ++ (if wf w 45 1 = 1 then [wf w 42 3] else [])
    ++ (if aop = 0 then [] else [wf w 25 3, wf w 22 3, wf w 19 3]) ++ (if aop = 7 then [wf w 16 3] else [])

/-- The A slot of a COL word with iteration index i. -/
def Engine.colA (e : Engine) (w : Word) (i : Nat) : Engine :=
  let ad := wf w 25 3
  let a := e.reg (wf w 22 3)
  let b := e.reg (wf w 19 3)
  match wf w 28 4 with
  | 1 => e.result ad (addbCol a b)
  | 2 => e.result ad (addfCol a b)
  | 3 => e.result ad (mulbCol a b)
  | 4 => e.result ad (fmabCol a b (e.konst (wf w 14 2)))
  | 5 => e.result ad (maxbCol a b)
  | 6 => e.result ad (cvtCol (wf w 12 2) a b)
  | 7 => e.pair ad (wf w 22 3) (wf w 19 3) (wf w 16 3) (wf w 14 2) (wf w 7 5 + i)
  | _ => e

/-- The F slot reads a column (R203, R204): the value, and what the read does besides. -/
def State.engRead (s : State) (g line col bank row : Nat) : State × Sector :=
  let k := line / 64 + col
  let e := s.engineAt g
  if s.notLive line then (s.countElided line, 0)
  else if s.bad.contains k then
    let s := (s.log .event 0x11 (srcEngine g) [word (64 * k), word (2 * 256 + 3)]).log .engine 1 (srcEngine g)
      [word line, word (row * 2 ^ 10 + bank * 2 ^ 5 + col), word ((e.owner.getD 0) % 2 ^ 32), word (e.iter * 2 ^ 20 + e.pc)]
    (s.setEngine g { s.engineAt g with flags := (s.engineAt g).flags ||| 8 }, 0)
  else if s.corr.contains k then
    ((({ s with corr := s.corr.filter (· ≠ k) } : State).setEngine g { e with bece := sat32 (e.bece + 1) }).ceccLog k 2, s.dramSector k)
  else (s, s.dramSector k)

/-- The W slot writes a column with fresh check bits, beneath the memory-side cache (R203, R204). -/
def State.engWrite (s : State) (line col : Nat) (x : Sector) : State :=
  let k := line / 64 + col
  if s.notLive line then s.countElided line
  else { s.setDramSector k x with bad := s.bad.filter (· ≠ k), corr := s.corr.filter (· ≠ k), sealed_ := Tab.del s.sealed_ k }

/-- One COL word: registers are read as they stand before it; F reads its column before W writes; A's result is written at once, F's lands later. -/
def State.colWord (s : State) (g : Nat) (w : Word) : State :=
  let e := s.engineAt g
  let i := e.iter
  let step := (ttSteps e.tt e.pc).2
  let fen : Bool := wf w 59 1 = 1
  let wen : Bool := wf w 45 1 = 1
  let fb := wf w 51 5
  let wb := wf w 37 5
  if (fen && (Tab.find e.rows fb).isNone) || (wen && (Tab.find e.rows wb).isNone) then s.setEngine g (e.endRun .faulted 10 e.pc)
  else
    let out := e.reg (wf w 42 3)
    let fr := Tab.get 0 e.rows fb
    let (s, x) := if fen then s.engRead g (engLine g fb fr) ((wf w 46 5 + i * step) % 32) fb fr else (s, 0)
    let s := if wen then s.engWrite (engLine g wb (Tab.get 0 e.rows wb)) ((wf w 32 5 + i * step) % 32) out else s
    let e := (s.engineAt g).colA w i
    let e := if fen then { e with flight := e.flight ++ [(wf w 56 3, x)] } else e
    s.setEngine g (e.goto_ (e.pc + 1) 1)

/-- COL (R190): a word whose registers wait for a column read is not taken yet (R192). -/
def execCol (g : Nat) (s : State) : Out :=
  let e := s.engineAt g
  if e.at_ 1 ∧ !((colRegs e.cur).any fun r => e.flight.any fun f => f.1 = r) then .next (s.colWord g e.cur) else .next s

/-- COLUMN_READ_LANDING (R192): the oldest column read lands. -/
def execColumnReadLanding (g : Nat) (s : State) : Out :=
  let e := s.engineAt g
  match e.flight with
  | (r, x) :: t => .next (s.setEngine g { e.setReg r x with flight := t })
  | [] => .next s

/-! ### The other words -/

/-- ENGINE_START (R197): in the first slice cycle at or after the start time. -/
def execEngineStart (g : Nat) (s : State) : Out :=
  let e := s.engineAt g
  .next (if e.st = .armed ∧ e.startAt ≤ s.time ∧ s.time % 2 = 0 then s.setEngine g { e with st := .running } else s)

/-- ACT (R189, R191, R197): it opens a row inside the windows. -/
def execAct (g : Nat) (s : State) : Out :=
  let e := s.engineAt g
  let w := e.cur
  let bank := wf w 55 5
  let row := (wf w 40 15 + e.iter * (ttSteps e.tt e.pc).1) % 2 ^ 15
  .next (if !e.at_ 2 then s
    else if e.win.contains (engLine g bank row / 4096) then s.setEngine g (Engine.goto_ { e with rows := Tab.put e.rows bank row } (e.pc + 1) 1)
    else s.setEngine g (e.endRun .faulted 9 e.pc))

/-- PRE (R189). -/
def execPre (g : Nat) (s : State) : Out :=
  let e := s.engineAt g
  .next (if e.at_ 3 then
      s.setEngine g (Engine.goto_ { e with rows := if wf e.cur 54 1 = 1 then [] else Tab.del e.rows (wf e.cur 55 5) } (e.pc + 1) 1)
    else s)

/-- REF (R192, R201): open banks are precharged first, DEBT falls by one. -/
def execRef (g : Nat) (s : State) : Out :=
  let e := s.engineAt g
  .next (if e.at_ 4 then s.setEngine g (Engine.goto_ { e with rows := [], debt := e.debt - 1 } (e.pc + 1) 630) else s)

/-- TIMETABLE_WAIT (R189): the next word waits N slice cycles. -/
def execTimetableWait (g : Nat) (s : State) : Out :=
  let e := s.engineAt g
  .next (if e.at_ 5 then s.setEngine g { e with pc := e.pc + 1, busy := wf e.cur 0 20, wait := true } else s)

/-- WAIT_EXPIRY (R189): execution continues; a run past the last word ends (R197). -/
def execWaitExpiry (g : Nat) (s : State) : Out :=
  let e := s.engineAt g
  .next (if e.st = .running ∧ e.wait ∧ e.busy = 0 ∧ !e.force then s.setEngine g (Engine.goto_ { e with wait := false } e.pc 0) else s)

/-- TIMETABLE_LOOP (R191). -/
def execTimetableLoop (g : Nat) (s : State) : Out :=
  let e := s.engineAt g
  let w := e.cur
  .next (if !e.at_ 6 then s
    else if e.iter + 1 < wf w 30 20 then s.setEngine g (Engine.goto_ { e with iter := e.iter + 1 } (wf w 50 10) 1)
    else s.setEngine g (Engine.goto_ { e with iter := 0 } (e.pc + 1) 1))

/-- HALT (R196): every W has been performed; PC stays at the HALT word. -/
def execHalt (g : Nat) (s : State) : Out :=
  let e := s.engineAt g
  .next (if e.at_ 7 then s.setEngine g (e.endRun .halted 0 e.pc) else s)

/-! ### Refresh (R201, R202) -/

/-- REFRESH_INTERVAL (R201): a boundary during a run raises DEBT, at most to 8. A channel always holds a live row: the 16 ranges of a slice name at
most 16 of its 32 banks (R205). -/
def execRefreshInterval (g : Nat) (s : State) : Out :=
  let e := s.engineAt g
  .next (if e.st = .running ∧ s.time % 14040 = 0 then
      s.setEngine g { e with debt := min 8 (e.debt + 1), force := e.force || 8 ≤ e.debt + 1 }
    else s)

/-- FORCED_REF (R201): before the next word, or at once within a WAIT; open rows stay open for the words to come, since it changes only timing. -/
def execForcedRef (g : Nat) (s : State) : Out :=
  let e := s.engineAt g
  .next (if e.st = .running ∧ e.force ∧ (e.busy = 0 ∨ e.wait) then
      s.setEngine g { e with debt := e.debt - 1, flags := e.flags ||| 16, force := false, busy := e.busy + 630 }
    else s)

/-- REFRESH_MANAGER_REFRESH (R201, R202): outside runs a refresh repays DEBT; otherwise its only effect is timing. -/
def execRefreshManagerRefresh (g : Nat) (s : State) : Out :=
  let e := s.engineAt g
  .next (if e.st = .running then s else s.setEngine g { e with debt := e.debt - 1 })

/-- One slice cycle of a running engine passes; a stop takes place after the current word (R196). -/
def Engine.tick (e : Engine) : Engine :=
  if e.st ≠ .running then e
  else
    let e := { e with busy := e.busy - 1 }
    if e.stop ∧ e.busy = 0 then e.endRun .halted 11 e.pc else e

/-! ### NM instructions (R186, R195–R199, R331) -/

/-- The engine an address selects, or the fault (R186, R331, R359). -/
def State.nmTarget (s : State) (va : Word) : Except (Cause × Word) Nat :=
  let no (c d : Nat) : Except (Cause × Word) Nat := .error ({ code := c, detail := d }, va)
  if !s.hasNme then .error ({ code := cFEAT, detail := 2 }, 0)
  else if s.walkHeld va then no cWAIT 0
  else match s.leafOf s.die s.cur (wf s.h.asid 0 16) s.h.ptroot va with
    | .error c => no c.code c.detail
    | .ok p =>
      if !s.installed p.pa then no cXLATE 3
      else if (region p.pa).1 ≠ .control ∧ s.partOf (region p.pa).2 ≠ s.partOf s.die then no cNMREF 1
      else if (region p.pa).1 ≠ .hbm then no cPROT 4
      else if !s.keyOk s.die p.key then no cPROT 1
      else .ok (engineOf p.pa)

/-- The issue of an NM instruction: an entry if it has a result, then its engine. -/
def nmIssue (entry : Bool) (eng : Nat) (go : State → Nat → State) (s : State) : Res :=
  if entry ∧ s.h.lbusy ≥ 64 then .hold 7
  else match s.nmTarget (s.rdS eng) with
    | .error x => faultRes x
    | .ok g => .ok (go (s.walkOn s.cur (s.rdS eng)) g)

/-- A result that lands (R331). -/
def State.nmLand (s : State) (regs : List Reg) (req : LandReq) (ws : List Write) : State :=
  let (id, s) := s.fresh
  s.onH fun h =>
    let h := h.land_ id 0 regs req none []
    { h with land := h.land.map fun l : Landing => if l.id = id then { l with got := some ws } else l }

/-- The requester owns the engine, or nobody does (R196). -/
def State.nmOwns (s : State) (e : Engine) : Bool := e.owner.isNone || e.owner = s.h.lid

/-- Addresses of n consecutive pages from the page of a. -/
def pageList (a : Word) (n : Nat) : List Word := (List.range n).map fun i => a - word (a.toNat % 4096) + word (4096 * i)
/-- Pages of n bytes at a. -/
def pageSpan (a : Word) (n : Nat) : Nat := (a.toNat % 4096 + n + 4095) / 4096
/-- The translation of a page of an image or a window (R195). -/
def State.nmPage (s : State) (a : Word) : Except Cause Page := s.translate s.die s.cur (wf s.h.asid 0 16) s.h.ptroot a
/-- Every answer, or none if one is missing. -/
def allSome {α : Type} (l : List (Option α)) : Option (List α) := if l.all Option.isSome then some (l.filterMap id) else none

/-- The pages of an image of n bytes: NORMAL with R (R195 check 3). -/
def State.nmImage (s : State) (a : Word) (n : Nat) : Option (List Page) :=
  allSome ((pageList a (pageSpan a n)).map fun v => match s.nmPage v with
    | .ok p => if p.cls = 0 ∧ p.r then some p else none
    | .error _ => none)
/-- The page of byte i of an image and its physical address. -/
def imageAt (a : Word) (l : List Page) (i : Nat) : Page :=
  let o := a.toNat % 4096 + i
  match l[o / 4096]? with
  | some p => { p with pa := p.pa + o % 4096 }
  | none => { pa := 0, leaf := 0 }
/-- Word i of an image. -/
def State.nmWord (s : State) (a : Word) (l : List Page) (i : Nat) : Word := word (s.numSeen (imageAt a l (8 * i)).key (imageAt a l (8 * i)).pa 8)
/-- A sector of an image is uncorrectable. -/
def State.nmBad (s : State) (a : Word) (l : List Page) (n : Nat) : Bool :=
  (List.range ((n + 63) / 64)).any fun i => (s.badSector (imageAt a l (64 * i)).pa 64 (imageAt a l (64 * i)).key).isSome
/-- Words of an image that are fetched: as many as its header says, NWORDS [10:0], at most 1,024. With 0 or more than 1,024 the manual does not say how many, and
so which pages must translate before the header's own refusal: the model's choice (log 22). -/
def State.nmCount (s : State) (a : Word) (l : List Page) : Nat := min ((s.nmWord a l 0).toNat % 2 ^ 11) 1024

/-- A header that R188 admits. -/
def nmHeaderOk (h : Nat → Word) : Bool :=
  (h 0).toNat ≤ 1024 && h 0 ≠ 0 && (List.range 4).all (fun w => canonical (h (3 + 2 * w)) && (h (3 + 2 * w)).toNat % 4096 = 0 && (h (4 + 2 * w)).toNat % 4096 = 0)
    && (List.range 5).all fun i => h (11 + i) = 0
/-- The constants K0–K3 of a header. -/
def nmConsts (h : Nat → Word) : Tab (BitVec 32) :=
  (List.range 4).foldl (fun t i => Tab.set 0 t i (BitVec.ofNat 32 ((h (1 + i / 2)).toNat / 2 ^ (32 * (i % 2))))) []

/-- All windows' pages, or the code that refuses them: every page's translation first, then every page's class, permissions and key (R195 checks 5
and 6). -/
def State.nmWindows (s : State) (h : Nat → Word) : Except Nat (List Page) :=
  let l := ((List.range 4).flatMap fun w => pageList (h (3 + 2 * w)) ((h (4 + 2 * w)).toNat / 4096)).map s.nmPage
  if l.any fun x => match x with | .error c => c.code = cXLATE | .ok _ => false then .error 5
  else match allSome (l.map fun x => match x with
    | .ok p => if p.cls = 0 ∧ p.r ∧ p.w ∧ p.nmok ∧ p.key = 0 then some p else none
    | .error _ => none) with
    | some ps => .ok ps
    | none => .error 6

/-- A fetched image at the engine (R195 checks 4 to 6). -/
def State.nmAccept (s : State) (e : Engine) (h : Nat → Word) (n : Nat) : Engine × Bool :=
  let tt := (List.range n).map fun i => h (16 + i)
  if !nmHeaderOk h then ({ e with code := 3, pc := 0 }, false)
  else match (List.range n).find? fun x => ttCode tt x ≠ 0 with
    | some x => ({ e with code := ttCode tt x, pc := x }, false)
    | none => match s.nmWindows h with
      | .error c => ({ e with code := c }, false)
      | .ok win => ({ e with tt := tt, win := win.map (fun p => p.pa / 4096), owner := s.h.lid, code := 0, st := .loaded, k := nmConsts h }, true)

/-- NM.LOAD at the engine (R195, R196): the state after its fetch, the engine after it and the predicate. Code 2 changes nothing. -/
def State.nmLoad (s : State) (g : Nat) (image : Word) : State × Engine × Bool :=
  let e := s.engineAt g
  let no (code : Nat) : State × Engine × Bool := (s, { e with code := code }, false)
  if !s.nmOwns e then (s, e, false)
  else if e.st = .armed ∨ e.st = .running then no 1
  else if !canonical image ∨ image.toNat % 64 ≠ 0 then no 5
  else
    let s := s.walksOn s.cur (pageList image (pageSpan image 128))
    let no (code : Nat) : State × Engine × Bool := (s, { e with code := code }, false)
    match s.nmImage image 128 with
    | none => no 5
    | some f0 =>
      let size := 128 + 8 * s.nmCount image f0
      let s := s.walksOn s.cur (pageList image (pageSpan image size))
      match s.nmImage image size with
      | none => no 5
      | some l =>
        let t := (List.range ((size + 63) / 64)).foldl (fun s i =>
          let p := imageAt image l (64 * i)
          s.touch p.pa 64 p.cpol p.key 1 s.rid) s
        if s.nmBad image l size then (t, { e with code := 5 }, false)
        else
          let h := s.nmWord image l
          (t.walksOn s.cur ((List.range 4).flatMap fun w => pageList (h (3 + 2 * w)) ((h (4 + 2 * w)).toNat / 4096)), s.nmAccept e h (s.nmCount image f0))

/-- The fetch of an image waits: a walk for it or for a window or a sector of it is deferred by a bank engine (R200), or a slice is in a slot that a D2 task owns
(R129). -/
def State.nmLoadHeld (s : State) (image : Word) : Bool :=
  let sectors (n : Nat) (l : List Page) : Bool := (List.range ((n + 63) / 64)).any fun i =>
    s.deferred (imageAt image l (64 * i)).pa 64 || !s.mayUse 512 false (imageAt image l (64 * i)).pa
  match s.nmImage image 128 with
  | none => (pageList image (pageSpan image 128)).any s.walkHeld
  | some f0 =>
    let size := 128 + 8 * s.nmCount image f0
    let h := s.nmWord image f0
    (pageList image (pageSpan image size)).any s.walkHeld
      || ((List.range 4).any fun w => (pageList (h (3 + 2 * w)) ((h (4 + 2 * w)).toNat / 4096)).any s.walkHeld)
      || match s.nmImage image size with
        | some l => sectors size l
        | none => sectors 128 f0
/-- NM.LOAD on engine g fetches its image: the caller may use it, and it is neither armed nor running (R195 checks 1 and 2). -/
def State.nmFetches (s : State) (g : Nat) : Bool := s.nmOwns (s.engineAt g) && (s.engineAt g).st ≠ .armed && (s.engineAt g).st ≠ .running

/-- NM.LOAD reads its image after the core's earlier acquires have taken effect (R346). -/
def execNmLoad (pd eng img : Nat) (s : State) : Out := issue (.nmLoad pd eng img) noIll s fun s =>
  let waits : Bool := match s.nmTarget (s.rdS eng) with
    | .ok g => s.nmFetches g && ((!s.h.commit && s.acqBefore s.cur (s.nextId + 1)) || s.nmLoadHeld (s.rdS img))
    | .error _ => false
  if waits then .hold 0
  else nmIssue true eng (fun s g =>
    let (t, e, p) := s.nmLoad g (s.rdS img)
    (t.setEngine g e).nmLand (s.h.destP pd).toList (.nmPred (s.h.destP pd)) (predWrite (s.h.destP pd) p)) s

/-- NM.GO at the engine (R196, R197). -/
def State.nmGo (s : State) (g : Nat) (t : Word) : Engine × Bool :=
  let e := s.engineAt g
  if !s.nmOwns e then (e, false)
  else if e.st = .empty then ({ e with code := 8 }, false)
  else if e.st = .armed ∨ e.st = .running then ({ e with code := 1 }, false)
  else if 8 ≤ e.debt then ({ e with code := 7 }, false)
  else ({ e.endRun .armed e.code 0 with b := [], flags := 0, iter := 0, startAt := t.toNat }, true)

def execNmGo (pd eng t : Nat) (s : State) : Out := issue (.nmGo pd eng t) noIll s (nmIssue true eng fun s g =>
  let (x, p) := s.nmGo g (s.rdS t)
  (s.setEngine g x).nmLand (s.h.destP pd).toList (.nmPred (s.h.destP pd)) (predWrite (s.h.destP pd) p))

/-- A stop (R196, R198): an armed run is halted at once, a running one after its current word. -/
def Engine.halt_ (e : Engine) : Engine :=
  match e.st with
  | .armed => e.endRun .halted 11 e.pc
  | .running => if e.busy = 0 ∧ !e.wait then e.endRun .halted 11 e.pc else { e with stop := true }
  | _ => e

def execNmStop (eng : Nat) (s : State) : Out := issue (.nmStop eng) noIll s (nmIssue false eng fun s g =>
  if s.nmOwns (s.engineAt g) then s.setEngine g (s.engineAt g).halt_ else s)

def EngState.number : EngState → Nat
  | .empty => 0 | .loaded => 1 | .armed => 2 | .running => 3 | .halted => 4 | .faulted => 5
/-- The status word (R199). -/
def Engine.status (e : Engine) : Word :=
  word (e.iter % 2 ^ 20 * 2 ^ 44 + e.pc % 2 ^ 10 * 2 ^ 34 + e.flags.toNat * 2 ^ 22 + e.code % 256 * 256 + e.st.number)

/-- NM.STAT (R196, R199, R331): a halted report acquires at die scope, when the engine serves it (R110). -/
def execNmStat (d eng : Nat) (s : State) : Out := issue (.nmStat d eng) noIll s (nmIssue true eng fun s g =>
  let e := s.engineAt g
  let own := s.nmOwns e
  let s := if own ∧ (e.st = .halted ∨ e.st = .faulted) then s.acquire s.cur true else s
  s.nmLand (regsOf (s.h.destS d)) (.nmStat (s.h.destS d)) (scalarWrite (s.h.destS d) (if own then e.status else 0x200)))

end Sys2Proof.Machine
end

