-- ==== Sys2Proof/Machine/Retire.lean ====
section
/-! DEFINITION. END (02 R41, 13 R267) and BANKMODE (05 R82, 13 R267). -/

namespace Sys2Proof.Machine

/-! ### BANKMODE -/

/-- Bytes of a window that satisfy p, at source coordinates or at the destination's own. -/
def recUses (r : Rec) (at_ : Nat → Option (List Int)) (p : Loc → Bool) : Bool :=
  (List.range (winSize r)).any fun i => match at_ i with
    | none => false
    | some x => ((touchBytes (elemBit r x) (fmtBits (recFmt r))).any fun o => p (byteLoc r o)) || (fmtMx (recFmt r) && p (byteLoc r (scaleAt r x)))

/-- A copy command reads or writes bank b of its own core (R82): a CP.MC writes it where its own core is of the group. -/
def Cmd.usesBank (c : Cmd) (b : Nat) : Bool :=
  let p (l : Loc) : Bool := match l with
    | .l o => o / bankSize = b
    | .c o => o / 2 ^ 21 = c.lcore % 32 && o % 2 ^ 21 / bankSize = b
    | _ => false
  c.op ≠ .stamp && (recUses c.src (srcCoords c.src c.so) p
    || ((c.op ≠ .mc || c.parts.any fun p => p.dest = some c.lcore)
        && recUses c.dst (fun i => let x := coordsAt c.dst c.do_ i; if insideT c.dst x then some x else none) p))

/-- The spans of scratchpad that an MMA, MMA.G, MQNT or MDRAIN in progress reads and writes. -/
def MatOp.spans (m : MatOp) (scr : Nat) : List (Nat × Nat) :=
  let w (i : Nat) : Word := m.ops.getD i 0
  let k := (w 2).toNat
  let reads := match m.kind with
    | .mma g => spansOf (mmaOffs m.cfg g (w 0) k scr) (rowBytes (cfgFmt m.cfg false) k) ++ spansOf (lineOffs (w 1)) (rowBytes (cfgFmt m.cfg true) k)
        ++ tableSpan m.cfg 0 (pLines (w 0) * k) false ++ tableSpan m.cfg (pLines (w 0) * k) (pLines (w 1) * k) true
    | .mqnt b => spansOf (lineOffs (w 0)) (rowBytes (cfgFmt m.cfg b) k) ++ tableSpan m.cfg 0 (pLines (w 0) * k) b
    | _ => []
  reads ++ m.outs.map fun (o, d) => (o, d.length)

/-- Work of the core that BANKMODE waits for: copy commands and matrix instructions that read or write the bank (R82). -/
def Hart.bankBusy (h : Hart) (b : Nat) : Bool :=
  (h.copyq.any fun c => !c.finished && c.usesBank b)
    || h.matq.any fun m => (m.spans h.scr).any fun (o, n) => n ≠ 0 && o / bankSize ≤ b && b ≤ (o + n - 1) / bankSize

/-- Another core's SETFE goes on in a hart's scratchpad, in a bank of it or in any (R82 step 3, R316). -/
def State.setfeInto (s : State) (k : Nat) (bank : Option Nat) : Bool :=
  s.harts.any fun x : Nat × Hart => x.1 ≠ k && x.2.setfe.any fun (n, g, count, _) =>
    n = k && match bank with | some b => g / 8192 ≤ b && b ≤ (g + count - 1) / 8192 | none => true

/-- The lines of an L1 way. -/
def Hart.wayLines (h : Hart) (b : Nat) : List Nat := (h.l1.filter fun e => e.2.bank = b).map (·.1)

/-- The switch itself (R82 steps 2 to 5): dirty lines of the way leave for their home slices, and zeroing the bank is a write that a matrix instruction in
progress may meet (R61). -/
def State.switchBank (s : State) (b : Nat) (m : BankMode) : State :=
  let s := if (s.h.bank b).mode = .cache then (s.h.wayLines b).foldl (fun s line => s.evictLine s.cur line) s else s
  let lo := b * bankSize
  let mine (g : Nat) : Bool := lo ≤ 16 * g && 16 * g < lo + bankSize
  s.onH fun h =>
    if m = .cache then h.setBank b { Bank.reset with mode := .cache }
    else Hart.setBank { h with spLog := if h.matq.isEmpty then [] else h.spLog ++ [(lo, List.replicate bankSize 0)],
                               sp := h.sp.filter (fun e => !(lo ≤ e.1 && e.1 < lo + bankSize)), spBad := h.spBad.filter (fun g => !mine g),
                               spCorr := h.spCorr.filter (fun g => !mine g) } b { Bank.reset with mode := m }

def execBankmode (bank : Nat) (mode : BankMode) (s : State) : Out := issue (.bankmode bank mode) noIll s fun s =>
  if s.h.scr ≤ bank then .exc { code := cSPACE, detail := 0 } 0
  else if s.h.bankBusy bank ∨ s.setfeInto s.cur (some bank) then .hold 0
  else .ok (s.switchBank bank mode)

/-! ### END -/

/-- The task's commands still running, on this core or on the one it was switched out from. -/
def State.copiesOf (s : State) (lid : Option Nat) (m : Nat) : Bool :=
  s.harts.any fun e : Nat × Hart => e.2.copyq.any fun c => !c.finished && c.lid = lid && c.member = m

/-- What stays in a core when its task has left: the handler file, the privileged registers, commands still running and cache maintenance in progress
(R325); a switch request has been met. -/
def Hart.leave (h : Hart) : Hart :=
  { Hart.reset with hs := h.hs, hp := h.hp, cctl := h.cctl &&& ~~~ 8, fcause := h.fcause, faddr := h.faddr, fpc := h.fpc, epc := h.epc, estat := h.estat, hbase := h.hbase,
                    ltgrant := h.ltgrant, crftab := h.crftab, ptroot := h.ptroot, asid := h.asid, rcto := h.rcto, rcbudget := h.rcbudget,
                    cyc := h.cyc, copyq := h.copyq, eventHeld := h.eventHeld, sp := h.sp, mnts := h.mnts }

/-- What is left of the SETFEs of other cores in a hart's scratchpad goes with the task. -/
def State.dropSetfe (s : State) (k : Nat) : State :=
  { s with harts := s.harts.map fun x : Nat × Hart => (x.1, { x.2 with setfe := x.2.setfe.filter fun e => e.1 ≠ k }) }

/-- Outstanding posts of a task that has gone, which may still be reported lost (R165). -/
def postsLeft (lid member hart : Nat) (l : List Outstanding) : List Away :=
  let posts := l.filter (·.post)
  if posts.isEmpty then [] else [{ lid := lid, member := member, hart := hart, land := [], outst := posts, wLand := none, trap := [], shut := [] }]
def Hart.postsAway (h : Hart) (lid k : Nat) : List Away := postsLeft lid h.member k h.outst
/-- Retirement after the release (R41): the barriers freed, the monitor disarmed (R342), the core returned. Posts not yet accepted are still delivered
or reported lost (R165). -/
def State.retired (s : State) : State :=
  let h := s.h
  let s := s.setBindState s.cur 4
  let s := match h.lid with
    | none => s
    | some lid => match s.launch? lid with
      | some l => s.setLaunch lid { l.setPlace h.member .retired with retired := l.retired + 1 }
      | none => s
  let s : State := { s with away := s.away ++ h.postsAway (h.lid.getD 0) s.cur }
  (s.onH Hart.leave).dropSetfe s.cur

/-- Retirement (R41): the release at module scope first; DATA instead where it meets damage (R86, R394). -/
def State.retireTask (s : State) : State :=
  let t := s.release s.cur true
  if t.h.owed.isSome then t.takeOwed t.cur else t.retired

/-- END (R41, R267): it waits under kind 7 for the copy queue, the replies of RCALLs and every landing; its release may have to wait for a bank engine
(R200). -/
def execEndTask (s : State) : Out := issue .endTask noIll s fun s =>
  if s.copiesOf s.h.lid s.h.member ∨ (s.h.outst.any fun o => !o.post) ∨ !s.h.land.isEmpty then .hold 7
  else if s.relHeld s.cur true then .hold 0
  else .ok s.retireTask

end Sys2Proof.Machine
end

