-- ==== Sys2Proof/Machine/Context.lean ====
section
/-! DEFINITION. Context save and restore: the save area, CTX.SV and CTX.LD (21 R380–R383, 02 R38–R40, 11 R219). -/

namespace Sys2Proof.Machine

/-! ### The operand and the save area -/

/-- Bits of s(a) that must be zero (R380): all but [51:12] and [0]. -/
def ctxIll (a : Nat) (s : State) : Bool := (s.rdS a &&& 0xFFF0000000000FFE) ≠ 0
/-- The save area an operand names. -/
def ctxArea (x : Word) : Nat := wf x 12 40 * 4096
/-- The first page or the last page of a save area is not a physical address the core reaches. -/
def State.areaBad (s : State) (area : Nat) : Option Cause :=
  match s.physical s.die (word area), s.physical s.die (word (area + 0x2FFFFF)) with
  | .error c, _ => some c
  | _, .error c => some c
  | _, _ => none
/-- The spans of a save area that a save writes and a restore reads: the scratchpad's only for a task that does not keep it (R380, R381). -/
def areaSpans (area scr : Nat) (keep : Bool) : List (Nat × Nat) :=
  (area, 0x480) :: (area + 0x800, 0x65800 - 0x800 - (if keep then 0x4000 else 0)) :: if keep then [] else [(area + 0x100000, scr * bankSize)]
/-- A bank engine runs: some accesses to DRAM have to wait (R200). -/
def State.anyRuns (s : State) : Bool := s.engines.any fun e : Nat × Engine => e.2.st = .running
/-- An access to the save area has to wait for a bank engine (R200). -/
def State.areaDeferred (s : State) (l : List (Nat × Nat)) : Bool := s.anyRuns && l.any fun (a, n) => s.deferred a n
/-- The first sector of the save area that is damaged (R394). -/
def State.areaDamaged (s : State) (l : List (Nat × Nat)) : Option Nat :=
  if s.bad.isEmpty ∧ s.sealed_.isEmpty ∧ !(l.any fun x => s.expanderLost x.1) then none else l.findSome? fun (a, n) => s.badSector a n 0
/-- What reading the save area leaves at its home slices: counters, corrections and error events (R204, R393, R394). -/
def State.areaTouch (s : State) (l : List (Nat × Nat)) : State := l.foldl (fun s (a, n) => s.touch a n 1 0 0 s.rid) s

/-! ### The live map (R219) -/

/-- Words 0, 1 and 2 of an entry of the safe-point table. -/
structure Live where
  w0 : Word
  w1 : Word
  w2 : Word
  deriving DecidableEq, Repr

/-- A dword of the task's memory at a virtual address, through the task's tables. One that cannot be read, or whose sector is uncorrectable or stored under
another key slot, gives nothing: the manual names no consumer of such a read of the safe-point table, and the model takes the live map as absent there, beside
the events of the read itself (the model's choice: log 32). -/
def State.taskDword (s : State) (va : Word) : Option Word :=
  match s.translate s.die s.cur (wf s.h.asid 0 16) s.h.ptroot va with
  | .ok p => if (s.badSector p.pa 8 p.key).isSome then none else some (word (s.numSeen p.key p.pa 8))
  | .error _ => none
/-- Reading it leaves its traces at the slices (R204, R387, R393, R394). -/
def State.taskRead (s : State) (va : Word) : State :=
  let s := if !canonical va ∨ s.cached s.die s.cur (wf s.h.asid 0 16) (va.toNat % 2 ^ 57) ≠ [] then s else s.walked s.die s.rid s.h.ptroot (va.toNat % 2 ^ 57)
  match s.translate s.die s.cur (wf s.h.asid 0 16) s.h.ptroot va with
  | .ok p => s.touch p.pa 8 p.cpol p.key 0 s.rid
  | .error _ => s
/-- It has to wait for a bank engine (R200). -/
def State.taskWaits (s : State) (va : Word) : Bool :=
  s.walkDefers (va.toNat % 2 ^ 57) 4 false (wf s.h.ptroot 12 40 * 4096)
    || match s.translate s.die s.cur (wf s.h.asid 0 16) s.h.ptroot va with
      | .ok p => s.deferred p.pa 8
      | .error _ => false

/-- The entry of a bundle index from entry i on; entries rise in BIDX. -/
def State.seekLive (s : State) (tab : Word) (bidx : Nat) : Nat → Nat → Option Live
  | _, 0 => none
  | i, fuel + 1 =>
    let a := tab + word (8 + 24 * i)
    match s.taskDword a, s.taskDword (a + 8), s.taskDword (a + 16) with
    | some x, some y, some z =>
      if wf x 0 32 = bidx then some { w0 := x, w1 := y, w2 := z }
      else if bidx < wf x 0 32 then none
      else s.seekLive tab bidx (i + 1) fuel
    | _, _, _ => none

/-- The live map of the bundle at EPC. Where the table cannot be read, or has no entry for that bundle, no register of classes s, v, z and mc counts as
live: the manual gives no map there, and this is the model's choice (log 32). -/
def State.liveMap (s : State) (l : Launch) (bidx : Nat) : Option Live :=
  match s.taskDword (l.w 3) with
  | some n => s.seekLive (l.w 3) bidx 0 n.toNat
  | none => none

/-- The entries of the table that finding a bundle's reads. -/
def State.liveReads (s : State) (tab : Word) (bidx : Nat) : Nat → Nat → List Word
  | _, 0 => []
  | i, fuel + 1 =>
    let a := tab + word (8 + 24 * i)
    [a, a + 8, a + 16] ++ match s.taskDword a with
      | some x => if bidx ≤ wf x 0 32 then [] else s.liveReads tab bidx (i + 1) fuel
      | none => []
/-- The addresses of the dwords of the safe-point table that a save reads. -/
def State.tableReads (s : State) (l : Launch) (bidx : Nat) : List Word := l.w 3 :: s.liveReads (l.w 3) bidx 0 (((s.taskDword (l.w 3)).getD 0).toNat)
/-- BIDX of the bundle at EPC. -/
def State.saveBidx (s : State) : Nat := (s.h.epc - ((s.h_launch.map fun l => l.w 2).getD 0)).toNat / 64

/-- Registers as a live map numbers them: s 0–31, physical v 32–95, z 96–99, mc 100–107. -/
def Hart.liveReg (h : Hart) (e : Live) (j : Nat) : Bool :=
  if j < 32 then e.w1.getLsbD j
  else if j < 96 then (List.range 64).any fun n => e.w2.getLsbD n && h.physV n = j - 32
  else if j < 100 then e.w0.getLsbD (32 + (j - 96))
  else e.w0.getLsbD (36 + (j - 100))

/-- A register the map does not name keeps its value or becomes zero (R39, R381). -/
def State.savedReg (s : State) (live : Option Live) (j : Nat) : Bool :=
  (match live with | some e => s.h.liveReg e j | none => false) || Config.coin (s.nfree + j)

/-! ### Copy commands in the save area -/

def CopyOp.sub : CopyOp → Nat
  | .x sr => if sr then 1 else 0
  | .pk k | .netPut k => codecNum k
  | _ => 0
def codecOf (n : Nat) : Codec := if n = 0 then .raw else if n = 1 then .zr else .bp
def copyOpOf (op sub : Nat) : CopyOp :=
  if op = 1 then .cp else if op = 2 then .mc else if op = 3 then .x (sub = 1) else if op = 4 then .pk (codecOf sub) else if op = 5 then .un
  else if op = 6 then .stamp else if op = 0x38 then .netPut (codecOf sub) else .netGet

/-- A command as 320 bytes (R381): opcode and modifiers, command and auxiliary values, origins, both records. -/
def Cmd.image (c : Cmd) : List Byte :=
  bytesOf 8 (c.op.opcode + (if c.nb then 256 else 0) + c.op.sub * 512 + (if c.parts.any Part.held then 65536 else 0)) ++ bytesOf 8 c.cmd.toNat
    ++ bytesOf 8 c.aux.toNat ++ bytesOf 64 c.org.toNat ++ bytesOf 96 c.src.toNat ++ bytesOf 96 c.dst.toNat ++ bytesOf 40 0

/-- A command of the queue that a context save moves into the image. -/
def Hart.savedCmd (h : Hart) (c : Cmd) : Bool := !c.started && !c.finished && c.lid = h.lid && c.member = h.member

/-! ### Saving -/

/-- A landing entry that a save does not wait for (R380): a tuple or remote reply under land=any. -/
def Landing.holdable (l : Landing) : Bool :=
  l.due.isNone && match l.req with
    | .tuple _ _ | .dep _ | .cnt _ _ | .call _ _ => true
    | _ => false

/-- A cancel of the hart's blocking request is on its way. -/
def State.cancelOut (s : State) (k : Nat) : Bool :=
  s.msgs.any fun m => m.hart = k && (match m.body with | .cancel _ => true | _ => false)
/-- The blocking request of the hart has not been answered and nothing has cancelled it. -/
def State.needsCancel (s : State) : Bool :=
  (match s.h.wLand with | some id => !s.h.answered id | none => false) && !s.cancelOut s.cur
/-- What CTX.SV waits for has come to an end (R380), and no access of it has to wait for a bank engine (R200). -/
def State.saveReady (s : State) (area : Nat) (keep : Bool) : Bool :=
  !s.cancelOut s.cur && s.h.land.all Landing.holdable && s.h.matq.isEmpty && !s.relHeld s.cur true && !s.setfeInto s.cur none
    && !s.areaDeferred (areaSpans area s.h.scr keep)
    && !(s.anyRuns && match s.h_launch with | some l => (s.tableReads l s.saveBidx).any s.taskWaits | none => false)
/-- A granule of the task's declared banks is uncorrectable: the save reads it (R86). -/
def State.saveDamage (s : State) (keep : Bool) : Option Nat := if keep then none else s.h.spBad.find? fun g => g < s.h.scr * 8192
/-- The launch of the hart's task is ending: a task stopped for that is not saved (R428). -/
def State.taskEnding (s : State) : Bool := match s.h_launch with | some l => l.phase = .ending | none => false

/-- The control block (R381): words 0–7, loop levels, and the status words. -/
def State.controlImage (s : State) (keep : Bool) (bidx : Nat) : List Byte :=
  let h := s.h
  let d (x : Word) : List Byte := bytesOf 8 x.toNat
  let level (n : Nat) : List Byte := match h.loops[n]? with
    | some l => d l.start ++ d l.stop ++ bytesOf 8 l.count.toNat ++ bytesOf 8 l.index.toNat
    | none => bytesOf 32 0
  bytesOf 8 (h.lid.getD 0 % 2 ^ 32 + h.lcore.toNat % 2 ^ 32 * 2 ^ 32) ++ d h.epc ++ d h.estat ++ d (rbaseWord h.vrb h.mrb h.prb)
    ++ bytesOf 8 (h.loops.length + bidx % 2 ^ 32 * 2 ^ 32) ++ bytesOf 8 (h.r.p ||| 1).toNat ++ bytesOf 8 (h.seqctr + h.outst.length * 2 ^ 16)
    ++ bytesOf 8 ((if keep then 1 else 0) + (if h.gbarPend then 2 else 0)) ++ (List.range 6).flatMap level

/-- s0–s31 and m0–m15 (R381). -/
def State.scalarImage (s : State) (live : Option Live) : List Byte :=
  (List.range 32).flatMap (fun n => bytesOf 8 (if n ≠ 0 && s.savedReg live n then (Tab.get 0 s.h.r.s n).toNat else 0))
    ++ (List.range 16).flatMap fun n => bytesOf 8 (if n = 0 then 2 ^ 64 - 1 else (Tab.get 0 s.h.r.m n).toNat)

/-- The status words, the matrix configurations and the bank states (R381). -/
def State.statusImage (s : State) (live : Option Live) : List Byte :=
  let h := s.h
  bytesOf 8 h.vstat.toNat ++ bytesOf 8 h.dstat.toNat ++ bytesOf 8 h.mstat.toNat ++ bytesOf 8 h.frzcnt
    ++ (List.range 7).flatMap (fun k => bytesOf 8 (Tab.get 0 h.wcnt (k + 1))) ++ bytesOf 40 0
    ++ (List.range 40).flatMap (fun i => bytesOf 8 (if s.savedReg live (100 + i / 5) then (Tab.get 0 h.mc i).toNat else 0))
    ++ (List.range 16).flatMap fun b => bytesOf 4 (h.bank b).imageWord

def State.vectorImage (s : State) (live : Option Live) : List Byte :=
  (List.range 64).flatMap fun n => bytesOf 256 (if s.savedReg live (32 + n) then (Tab.get 0 s.h.r.v n).toNat else 0)
def State.tileImage (s : State) (live : Option Live) : List Byte :=
  (List.range 65536).flatMap fun i => bytesOf 4 (if s.savedReg live (96 + i / 16384) then (Tab.get 0 s.h.z i).toNat else 0)
def Hart.barImage (h : Hart) : List Byte :=
  (List.range 1024).flatMap fun n => match h.bar n with | some b => b.entry | none => bytesOf 64 0
def Hart.copyImage (h : Hart) : List Byte :=
  let l := h.copyq.filter h.savedCmd
  l.flatMap Cmd.image ++ bytesOf ((64 - l.length) * 320) 0
def Hart.fullImage (h : Hart) : List Byte :=
  (List.range 16384).map fun i => BitVec.ofNat 8 ((List.range 8).foldl (fun x j => if h.fullAt (8 * i + j) then x + 2 ^ j else x) 0)

/-- Write the image (R380, R381). -/
def State.saveImage (s : State) (area : Nat) (keep : Bool) : State :=
  let h := s.h
  let me := some s.cur
  let bidx := s.saveBidx
  let live := s.h_launch.bind fun l => s.liveMap l bidx
  let t := match s.h_launch with
    | some l => (s.tableReads l bidx).foldl State.taskRead s
    | none => s
  -- The save's reads of the scratchpad correct and count what they can (R86, R393).
  let t := if keep then t else (t.onH fun h => { h with spCorr := h.spCorr.filter fun g => h.scr * 8192 ≤ g }).countSpce s.cur (h.spCorr.filter fun g => g < h.scr * 8192).length
  let t := (t.putBytes area (s.controlImage keep bidx) me).putBytes (area + 0x100) (s.scalarImage live) me
  let t := (t.putBytes (area + 0x280) (s.statusImage live) me).putBytes (area + 0x800) (s.vectorImage live) me
  let t := (t.putBytes (area + 0x4800) (s.tileImage live) me).putBytes (area + 0x44800) h.barImage me
  let t := (t.putBytes (area + 0x54800) h.copyImage me).putBytes (area + 0x59800) (bytesOf 0x8000 0) me
  let t := h.land.foldl (fun t l => match l.got with
    | some ws => t.holdReply area (match l.req with | .call _ _ => 1 | _ => 2)
        (match l.req with | .call d _ => d | _ => l.req.names.1) l.req.names.2 (ws.flatMap writeBytes)
    | none => t) t
  let t := if keep then t
    else (t.putBytes (area + 0x61800) h.fullImage me).putBytes (area + 0x100000) (h.spBytes 0 (h.scr * bankSize)) me
  { t with nfree := t.nfree + 108 }

/-- What stays in the core: the handler goes on, the scratchpad of a KEEP task stays with its declared banks (R75, R382). -/
def Hart.unload (h : Hart) : Hart :=
  { h.leave with mode := h.mode, pc := h.pc, npc := h.npc, stall := h.stall, hdr := h.hdr, pend := h.pend, divFree := h.divFree, notBefore := h.notBefore,
                 scr := h.scr, banks := h.banks, spBad := h.spBad, spCorr := h.spCorr, copyq := h.copyq.filter fun c => !h.savedCmd c,
                 commit := h.commit, slot := h.slot, lit := h.lit, sig := h.sig, tried := h.tried }

/-- The task leaves its core: STATE 3, and what stays outstanding for it (R380, R40, R166, R342), with the windows that LATCHK still watches (R39). -/
def State.sendAway (s : State) (h : Hart) (area : Nat) : State :=
  let s := s.setBindState s.cur 3
  let s : State := match h.lid with
    | none => s
    | some lid =>
      let s := match s.launch? lid with
        | some l => s.setLaunch lid { l.setPlace h.member (.saved area s.cur) with stops := Tab.put l.stops h.member h.stopTime }
        | none => s
      { s with monitors := s.monitors ++ (h.monitor.map fun m => (lid, h.member, m)).toList,
               away := if h.land.isEmpty && h.outst.isEmpty && h.trapPend.isEmpty && h.shut.isEmpty then s.away
                 else s.away ++ [{ lid := lid, member := h.member, hart := s.cur, land := h.land, outst := h.outst, wLand := h.wLand, trap := h.trapPend,
                                   shut := h.shut }] }
  s.onH Hart.unload

/-- The image, the release and the departure; DATA where the release meets damage (R380, R86, R394). -/
def State.saveTask (s : State) (area : Nat) (keep : Bool) : State :=
  let t := (s.saveImage area keep).release s.cur true
  if t.h.owed.isSome then t.takeOwed t.cur else t.sendAway s.h area

/-- CTX.SV (R380). A damaged granule of the scratchpad that it reads is DATA in handler mode (R86, R355). A task that is stopped because its launch ends stays
as it is (R428). -/
def execCtxSv (a : Nat) (s : State) : Out := issue (.ctxSv a) (ctxIll a) s fun s =>
  let x := s.rdS a
  match s.areaBad (ctxArea x) with
  | some c => .exc c x
  | none =>
    if s.taskEnding then .ok s
    else if s.needsCancel then .wait 0 (s.sendCancel s.cur)
    else if !s.saveReady (ctxArea x) (x.getLsbD 0) then .hold 0
    else match s.saveDamage (x.getLsbD 0) with
      | some g => .exc { code := cDATA, detail := 1 } (word (16 * g))
      | none => .ok (s.saveTask (ctxArea x) (x.getLsbD 0))

/-! ### Restoring -/

/-- Identity of member m of a launch (R26). -/
def Launch.identify (l : Launch) (lid m : Nat) (h : Hart) : Hart :=
  let f (x : Nat) : Word := if l.fixed then word x else 0
  { h with task := word m, lcore := if l.fixed then word m else BitVec.allOnes 64, nlcore := word l.nlcore, gridx := f (m % l.gx),
           gridy := f (m / l.gx % l.gy), gridz := f (m / (l.gx * l.gy)), launch := word (lid % 2 ^ 32 + l.part * 2 ^ 56), lid := some lid, member := m,
           scr := l.scratch, bmax := l.barriers }

/-- RBANKS of a task: its declarations, every declared bank and tile ON (R364, R371). -/
def Launch.bankWord (l : Launch) : Word :=
  word (l.ztiles * 2 ^ 21 + l.vcode * 2 ^ 19 + (List.range l.ztiles).foldl (fun x n => x + 2 ^ (8 + 2 * n)) 0
    + (List.range (l.vcode + 1)).foldl (fun x b => x + 2 ^ (2 * b)) 0)

/-- The launch and member whose image a save area holds: the logical core in word 0, or the saved ticket-mode member. -/
def State.imageOwner (s : State) (area : Nat) : Option (Nat × Nat) :=
  let w := s.dwordAt area
  (s.launches.find? fun e : Nat × Launch => e.1 = s.partOf s.die * 2 ^ 32 + wf w 0 32).bind fun e =>
    if e.2.fixed then some (e.1, wf w 32 32)
    else (e.2.members.find? fun m : Nat × Place => match m.2 with | .saved a _ => a = area | _ => false).map fun m => (e.1, m.1)

/-- Table entries from a function. -/
def tabOf {α : Type} [DecidableEq α] (d : α) (n : Nat) (f : Nat → α) : Tab α :=
  (List.range n).filterMap fun i => if f i = d then none else some (i, f i)

/-- Word i of the matrix configurations without its reserved bits (R5, R62): w0 [63:26], w4 [63:32]. Where software has edited a save area, a field value that
MCFG would refuse comes back as it stands there: the manual names no check of CTX.LD, the model's choice (log 42). -/
def mcKept (i : Nat) : Word := if i % 5 = 0 then 0x3FFFFFF else if i % 5 = 4 then 0xFFFFFFFF else BitVec.allOnes 64
/-- The registers of an image (R381). Reserved bits of ESTAT, DSTAT, MSTAT and the matrix configurations read as zero (R5), whatever software has written into
the area: that the restore masks them, rather than a later read, is the model's choice (log 42). -/
def State.loadRegs (s : State) (area : Nat) (h : Hart) : Hart :=
  let d (o : Nat) : Word := s.dwordAt (area + o)
  let w3 := d 24
  { h with
    epc := d 8, estat := d 16 &&& 0x1F00FB, vrb := wf w3 0 8, mrb := wf w3 8 8, prb := wf w3 16 8, nvrb := wf w3 0 8, nmrb := wf w3 8 8, nprb := wf w3 16 8,
    loops := (List.range (min 6 (wf (d 32) 0 3))).map fun n =>
      { start := d (0x40 + 32 * n), stop := d (0x48 + 32 * n), count := (d (0x50 + 32 * n)).setWidth 32, index := (d (0x58 + 32 * n)).setWidth 32 },
    seqctr := wf (d 48) 0 16, gbarPend := (d 56).getLsbD 1,
    r := { s := tabOf 0 32 fun n => if n = 0 then 0 else d (0x100 + 8 * n), m := tabOf 0 16 fun n => if n = 0 then 0 else d (0x200 + 8 * n),
           p := (d 40).setWidth 16, v := tabOf 0 64 fun n => BitVec.ofNat 2048 (s.numAt (area + 0x800 + 256 * n) 256) },
    vstat := (d 0x280).setWidth 5, dstat := d 0x288 &&& 0x800FFFFFFFFFFFC0, mstat := (d 0x290).setWidth 6 &&& 0x3D, frzcnt := (d 0x298).toNat,
    wcnt := tabOf 0 8 fun k => if k = 0 then 0 else (d (0x298 + 8 * k)).toNat,
    mc := tabOf 0 40 fun i => d (0x300 + 8 * i) &&& mcKept i,
    z := tabOf 0 65536 fun i => BitVec.ofNat 32 (s.numAt (area + 0x4800 + 4 * i) 4) }

/-- Banks and the scratchpad: a KEEP task's stays as the core holds it (R380, R382). -/
def State.loadSp (s : State) (area : Nat) (h : Hart) : Hart :=
  let keep := (s.dwordAt (area + 56)).getLsbD 0
  let full (b : Nat) : Tab Bool :=
    if keep then (h.bank b).full
    else tabOf false 8192 fun g => (s.byteAt (imgFull area (8192 * b + g))).getLsbD (g % 8)
  let banks := (List.range h.scr).map fun b => (b, { s.imgBankAt area b with full := full b })
  if keep then { h with banks := banks }
  else { h with banks := banks, sp := tabOf 0 (h.scr * bankSize) (fun o => s.byteAt (imgSp area o)), spBad := [], spCorr := [] }

/-- Saved barriers; one whose deadline has passed completes with PARTIAL (R178, R383 step 3). -/
def State.loadBars (s : State) (area : Nat) : Tab Barrier :=
  (List.range 1024).filterMap fun n => (s.stBar (.image area 0) n).map fun b => (n, if b.deadline.toNat ≤ s.time then b.complete true else b)

/-- Held replies and outstanding calls come back (R40, R166, R352), and the open windows (R39); the core's monitor (R342). -/
def Hart.rejoin (h : Hart) (a : Option Away) (m : Option Monitor) : Hart :=
  match a with
  | none => { h with monitor := m }
  | some a => { h with monitor := m, outst := a.outst, wLand := a.wLand, trapPend := a.trap, shut := a.shut,
                       land := h.land ++ a.land.map fun l : Landing => { l with issued := h.cyc, kept := l.got.isSome } }

/-- The spans of a save area that a restore reads. -/
def State.loadSpans (s : State) (area : Nat) : List (Nat × Nat) :=
  areaSpans area (match s.launch? (s.partOf s.die * 2 ^ 32 + wf (s.dwordAt area) 0 32) with | some l => l.scratch | none => s.h.scr) ((s.dwordAt (area + 56)).getLsbD 0)
/-- A state in which the hart acts for its task, whose tables it uses. -/
def State.asTask (s : State) (f : State → State) : State :=
  let m := s.h.mode
  (f (s.onH fun h => { h with mode := .task })).onH fun h => { h with mode := m }
/-- A saved command of the image, if slot n holds one, with its captured values. -/
def State.savedCommand (s : State) (area n : Nat) : Option Cmd :=
  let a := area + 0x54800 + 320 * n
  let w := s.dwordAt a
  if w = 0 then none
  else
    let c := s.command (copyOpOf (wf w 0 8) (wf w 9 7)) (w.getLsbD 8) (s.dwordAt (a + 8)) (s.dwordAt (a + 16)) (BitVec.ofNat 2048 (s.numAt (a + 24) 64))
      (BitVec.ofNat 768 (s.numAt (a + 88) 96)) (BitVec.ofNat 768 (s.numAt (a + 184) 96))
    some { c with parts := c.parts.map fun p => { p with held := w.getLsbD 16 } }
/-- The fresh probe of a saved command through the task's tables. -/
def State.freshProbe (s : State) (c : Cmd) : Except (Cause × Word) (List Probed) :=
  let t := s.onH fun h => { h with mode := .task }
  t.probeCmd c (match c.op with | .netPut _ | .netGet => t.sessionOk (wf c.cmd 48 16) | _ => true)
/-- Re-enqueue a saved command with a fresh probe (R383 step 4). -/
def State.requeue (s : State) (area n : Nat) : State :=
  match s.savedCommand area n with
  | none => s
  | some c =>
    let pages := s.freshProbe c
    let (id, s) := s.fresh
    let c : Cmd := { c with id := id, pages := pages.toOption.getD [] }
    let s := s.asTask fun s => s.walksOn s.cur (match pages with | .ok l => l.map fun p => word (p.vpn * 4096) | .error (_, a) => [a])
    let s := s.onH fun h => { h with copyq := h.copyq ++ [c] }
    match pages with
    | .ok _ => s
    | .error (e, _) => s.abortCmd s.cur id 5 e.detail false

/-- The task comes to its core (R383): everything the area holds is restored and its banks turn ON (R364). An area that is no member's, as that of a ticket-mode
task that runs, restores the task on the core. A task of a launch that has ended meanwhile, or is ending, does not resume: its core is given back (R428). -/
def State.loadTask (s : State) (area : Nat) : State :=
  let lid := s.partOf s.die * 2 ^ 32 + wf (s.dwordAt area) 0 32
  let s := s.areaTouch (s.loadSpans area)
  let requeued (t : State) : State := (List.range 64).foldl (fun t n => t.requeue area n) t
  match s.launch? lid with
  | none => requeued (s.onH fun h => { s.loadSp area (s.loadRegs area h) with bars := s.loadBars area })
  | some l =>
    if s.h.lid.isNone ∧ l.phase ≠ .running then (s.onH Hart.leave).setBindState s.cur 0
    else match (s.imageOwner area).filter fun x => s.h.lid = none ∨ !(s.h.lid = some x.1 ∧ s.h.member = x.2) with
    | none => requeued (s.onH fun h => { s.loadSp area (s.loadRegs area h) with rbanks := l.bankWord, bars := s.loadBars area })
    | some (_, m) =>
      let mine (a : Away) : Bool := a.lid = lid && a.member = m
      let mon := s.monitors.find? fun x : Nat × Nat × Monitor => x.1 = lid && x.2.1 = m
      let h := l.identify lid m s.h
      let h := { s.loadSp area (s.loadRegs area h) with rbanks := l.bankWord, bars := s.loadBars area }
      let t := s.setHart s.cur (h.rejoin (s.away.find? mine) (mon.map fun x => x.2.2))
      let t : State := { t with away := t.away.filter (fun a => !mine a), monitors := t.monitors.filter fun x => !(x.1 = lid && x.2.1 = m) }
      requeued ((t.setLaunch lid (l.setPlace m (.resident s.cur))).setBindState s.cur 1)

/-- A saved command's probe has to wait for a bank engine (R200). -/
def State.requeueWaits (s : State) (area : Nat) : Bool :=
  s.anyRuns && (List.range 64).any fun n => match s.savedCommand area n with
    | some c => match s.freshProbe c with | .error (e, _) => e.code = cWAIT | .ok _ => false
    | none => false
/-- CTX.LD (R383): it waits for accesses that a bank engine defers (R200); damage in the area is DATA in handler mode (R394, R359). -/
def execCtxLd (a : Nat) (s : State) : Out := issue (.ctxLd a) (ctxIll a) s fun s =>
  let x := s.rdS a
  match s.areaBad (ctxArea x) with
  | some c => .exc c x
  | none =>
    let spans := s.loadSpans (ctxArea x)
    if s.areaDeferred spans ∨ s.requeueWaits (ctxArea x) then .hold 0
    else match s.areaDamaged spans with
      | some k => .exc { code := cDATA, detail := s.dataDetail k } (word (64 * k))
      | none => .ok (s.loadTask (ctxArea x))

end Sys2Proof.Machine
end

