-- ==== Sys2Proof/Machine/Barista.lean ====
section
/-! DEFINITION. Work queues, the barista's policy and the dispatch hardware (02 R19–R33, 21 R368–R383, R428): doorbells, launch records, eligibility,
grants, pre-emption, rotations, bind records, tickets, and the end of a launch. -/

namespace Sys2Proof.Machine

/-! ### Partitions (R404) -/

/-- A word of the partition descriptor. -/
def State.partWord (s : State) (p w : Nat) : Nat := s.descWord (s.lowestDie p) w
def State.policy (s : State) (p : Nat) : Policy := Tab.get Policy.reset s.policies p
/-- Translation in a partition's address space, as the barista uses it (log 12). -/
def State.partPage (s : State) (p : Nat) (va : Word) : Except Cause Page := s.translate (s.lowestDie p) 512 (s.policy p).asid (s.policy p).ptroot va
def State.partDword (s : State) (p : Nat) (va : Word) : Option Word := (s.partPage p va).toOption.map fun x => word (s.numSeen x.key x.pa 8)
/-- What a barista's read of physical memory leaves at the slices: counters, corrections, error events (R204, R393, R394), as a read by agent 0 with requester
id 0; it takes the bytes as stored (log 12). -/
def State.baristaRead (s : State) (pa n : Nat) : State := s.touch pa n 1 0 0 0
/-- The same for a read in a partition's address space, with its walk (R387). -/
def State.partRead (s : State) (p : Nat) (va : Word) (n : Nat) : State :=
  let d := s.lowestDie p
  let pol := s.policy p
  let s := if !canonical va ∨ s.cached d 512 pol.asid (va.toNat % 2 ^ 57) ≠ [] then s else s.walked d 0 pol.ptroot (va.toNat % 2 ^ 57)
  match s.partPage p va with
  | .ok x => s.touch x.pa n x.cpol x.key 0 0
  | .error _ => s
/-- An access of the barista has to wait for a bank engine (R200). -/
def State.baristaWaits (s : State) (pa n : Nat) : Bool := s.anyRuns && s.deferred pa n
def State.partWaits (s : State) (p : Nat) (va : Word) (n : Nat) : Bool :=
  s.anyRuns && (s.walkDefers (va.toNat % 2 ^ 57) 4 false (wf (s.policy p).ptroot 12 40 * 4096) || match s.partPage p va with
    | .ok x => s.deferred x.pa n
    | .error _ => false)

/-! ### Queues (R368–R370) -/

/-- Address of a queue's descriptor. -/
def State.queuePa (s : State) (p q : Nat) : Nat := s.partWord p 3 + 32 * (q - fld (s.partWord p 1) 0 16)
def State.queueWord (s : State) (p q i : Nat) : Nat := s.numAt (s.queuePa p q + 8 * i) 8
def State.queueOwned (s : State) (p q : Nat) : Bool :=
  let w := s.partWord p 1
  fld w 0 16 ≤ q && q < fld w 0 16 + fld w 16 17
def State.queueHead (s : State) (p q : Nat) : Nat := s.queueWord p q 2
def State.queueSize (s : State) (p q : Nat) : Nat := 2 ^ fld (s.queueWord p q 1) 32 4
def State.queueBase (s : State) (p q : Nat) : Nat := s.queueWord p q 0 / 2 ^ 32 + s.queueWord p q 1 % 2 ^ 32 * 2 ^ 32
def State.queuePrio (s : State) (p q : Nat) : Nat := fld (s.queueWord p q 3) 0 3
def State.queuePart (s : State) (p q : Nat) : Nat := fld (s.queueWord p q 3) 3 3
def State.queueState (s : State) (p q : Nat) : Nat := fld (s.queueWord p q 3) 6 2
/-- The doorbell word (R369). -/
def State.bell (s : State) (p q : Nat) : Nat := s.ctlNum (ctlBase (s.lowestDie p) + offDoorbells + 8 * q) 8

/-- The doorbell of an enabled queue is out of range (R369). -/
def State.bellBad (s : State) (p q : Nat) : Bool :=
  s.queueState p q = 1 && (s.bell p q < s.queueHead p q || s.queueHead p q + s.queueSize p q < s.bell p q)
/-- A doorbell out of range puts the queue in ERROR and is logged (R369). -/
def State.checkBell (s : State) (p q : Nat) : State :=
  let head := s.queueHead p q
  if s.bellBad p q then
    let w := s.queueWord p q 3
    (s.putBytes (s.queuePa p q + 24) (bytesOf 8 (w - fld w 6 2 * 64 + 128))).log .event 0x50 (srcBarista (s.lowestDie p))
      [word q, word (s.bell p q), word head]
  else s

/-- Doorbell writes arrive from stage 5 on (R419). -/
def State.doorsOpen (s : State) : Bool := s.sec.stage = .host || s.sec.stage = .barista || s.sec.stage = .ready

/-- DOORBELL (R369). -/
def execDoorbell (part q : Nat) (count : Word) (s : State) : Out :=
  .next (if s.doorsOpen ∧ part < s.nparts ∧ s.queueOwned part q then (s.ring part q count).checkBell part q else s)

/-! ### Launch records (R19, R20, R371, R372) -/

def Launch.fresh (words : List Word) (q prio : Nat) : Launch :=
  { words := words, queue := q, phase := .accepted, order := 0, since := 0, prio := none, groups := [], carafes := [], lrecs := [], gbars := [], members := [],
    rots := [], tctr := [], remap := [], retired := 0, stopped := 0, culprit := 0, qprio := prio, aged := 0, stops := [], block := 0, met := none }

/-- Bytes in a partition's address space within one page. -/
def State.partBytes (s : State) (p : Nat) (va : Word) (n : Nat) : Option (List Byte) :=
  (s.partPage p va).toOption.map fun x => (List.range n).map fun i => s.readByte x.key (x.pa + i)

/-- Dword numbers whose fields break R19 or R371 (code 2). -/
def State.brokenDwords (s : State) (p qp : Nat) (l : Launch) : List Nat :=
  let w := l.w
  let no (d : Nat) (b : Bool) : List Nat := if b then [d] else []
  no 0 (!canonical (w 0) || (w 0).toNat % 64 ≠ 0)
    ++ no 1 ((w 1).toNat < 64 || 2 ^ 32 < (w 1).toNat || (w 1).toNat ≤ (w 2 - w 0).toNat)
    ++ no 2 (!canonical (w 2) || (w 2).toNat % 64 ≠ 0)
    ++ no 5 (wf (w 5) 43 21 ≠ 0 || wf (w 5) 23 9 ≠ 0 || wf (w 5) 1 4 ≠ 0 || 1024 < l.barriers || 16 < l.scratch || 4 < l.ztiles || l.detlvl = 3
        || l.part ≠ qp || l.part ≠ p)
    ++ no 6 (if l.fixed then wf (w 6) 12 4 ≠ 0 || wf (w 6) 28 4 ≠ 0 || wf (w 6) 44 20 ≠ 0 || 4096 < l.nlcore else l.count = 0 || wf (w 6) 48 16 ≠ 0)
    ++ no 7 (wf (w 7) 15 49 ≠ 0 || 64 < l.maxcores || l.diemask = 0 || (List.range 8).any fun d => l.diemask / 2 ^ d % 2 = 1 && !(s.partDies p).contains d)
    ++ no 8 (!canonical (w 8) || (w 8).toNat % 512 ≠ 0 || (l.groupCount = 0 && w 8 ≠ 0))
    ++ no 9 (wf (w 9) 49 15 ≠ 0 || wf (w 9) 9 7 ≠ 0 || 65536 < l.ltcount || 256 < l.groupCount)
    ++ no 11 (wf (w 11) 16 48 ≠ 0 || 64 < wf (w 11) 0 16)
    ++ ((List.range 10).map (· + 22)).filter fun d => w d ≠ 0

/-- The group image, if it can be read (R34). -/
def State.readGroups (s : State) (p : Nat) (l : Launch) : Option (List (BitVec 4096)) :=
  (List.range l.groupCount).foldr (fun g acc => match acc, s.partBytes p (l.w 8 + word (512 * g)) 512 with
    | some t, some b => some (BitVec.ofNat 4096 (numOf b) :: t)
    | _, _ => none) (some [])
/-- The dword that a group image breaking R34 names (code 3). R34 does not say what becomes of an image whose address does not translate: the model
rejects it with code 3 and dword 8, GROUPS's address (the model's choice: log 33). -/
def State.groupBreach (s : State) (p : Nat) (l : Launch) : Option Nat :=
  if l.groupCount = 0 then none
  else if !l.fixed then some 9
  else match s.readGroups p l with
    | none => some 8
    | some gs =>
      if (gs.any fun g => g.toNat / 2 ^ l.nlcore ≠ 0) || ((List.range l.nlcore).any fun c => 4 < (gs.filter fun g => g.getLsbD c).length) then some 8 else none

/-- The carafe ids of a record, if they can be read. -/
def State.readCarafes (s : State) (p : Nat) (l : Launch) : Option (List Nat) :=
  (List.range (wf (l.w 11) 0 16)).foldr (fun i acc => match acc, s.partBytes p (l.w 10 + word (2 * i)) 2 with
    | some t, some b => some (numOf b :: t)
    | _, _ => none) (some [])
/-- Every carafe is live and the grant window lies in the partition's layout table; otherwise code 4. -/
def State.grantsOk (s : State) (p : Nat) (l : Launch) : Bool :=
  l.ltfirst + l.ltcount ≤ fld (s.partWord p 5) 0 17 && match s.readCarafes p l with
    | some ids => ids.all fun c => (s.carafe (s.partTable (s.lowestDie p)) c).state = 1
    | none => false

/-- Dependence pairs that are present (R21). -/
def Launch.deps (l : Launch) : List (Word × Word) := ((List.range 4).map fun i => (l.w (12 + 2 * i), l.w (13 + 2 * i))).filter fun x => x.1 ≠ 0
/-- Every dependence address and the DONE address translate; otherwise code 5. -/
def State.stampsOk (s : State) (p : Nat) (l : Launch) : Bool :=
  (l.deps.all fun x => (s.partDword p x.1).isSome) && (l.w 20 = 0 || (s.partDword p (l.w 20)).isSome)

/-- STATUS of a record: the lowest code that applies and its detail (R372). -/
def State.recordStatus (s : State) (p q : Nat) (l : Launch) : Nat × Nat :=
  match s.brokenDwords p (s.queuePart p q) l with
  | d :: _ => (2, d)
  | [] => match s.groupBreach p l with
    | some d => (3, d)
    | none => if !s.grantsOk p l then (4, 0) else if !s.stampsOk p l then (5, 0) else (1, 0)

/-- Accepted launches of a partition that have not written DONE (R370). -/
def State.acceptedCount (s : State) (p : Nat) : Nat := (s.launches.filter fun e => e.1 / 2 ^ 32 = p && e.2.phase ≠ .done).length
/-- The barista serves a queue that holds a record (R370, R419). -/
def State.recordWaits (s : State) (p q : Nat) : Bool :=
  s.sec.stage = .ready && p < s.nparts && s.queueOwned p q && s.queueState p q = 1 && s.queueHead p q < s.bell p q
    && s.bell p q ≤ s.queueHead p q + s.queueSize p q && s.acceptedCount p < 4096

/-- The barista has seen a queue's summary bit (R369). -/
def State.seenBell (s : State) (p q : Nat) : State :=
  let b := ctlBase (s.lowestDie p) + offSummary + q / 8
  s.setDram b (s.dram b &&& ~~~ BitVec.ofNat 8 (2 ^ (q % 8)))

/-- A queue's summary bit is set (R369). -/
def State.summaryBit (s : State) (p q : Nat) : Bool := (s.dram (ctlBase (s.lowestDie p) + offSummary + q / 8)).getLsbD (q % 8)
/-- The barista serves the partition's queue (R370, R419). -/
def State.queueServed (s : State) (p q : Nat) : Bool := s.sec.stage = .ready && p < s.nparts && s.queueOwned p q && !s.baristaWaits (s.queuePa p q) 32
/-- It has something to do there: a summary bit, a doorbell out of range, a record. -/
def State.queueDue (s : State) (p q : Nat) : Bool := s.queueServed p q && (s.summaryBit p q || s.bellBad p q || s.recordWaits p q)
/-- Where the next record of a queue lies. -/
def State.recordPa (s : State) (p q : Nat) : Nat := s.queueBase p q + 256 * (s.queueHead p q % s.queueSize p q)
/-- What judging a record reads in the partition's address space: group image, carafe ids, dependence stamps and the place of the DONE stamp. -/
def Launch.reads (l : Launch) : List (Word × Nat) :=
  (if l.fixed then (List.range l.groupCount).map fun g => (l.w 8 + word (512 * g), 512) else [])
    ++ (List.range (wf (l.w 11) 0 16)).map (fun i => (l.w 10 + word (2 * i), 2)) ++ (l.deps.map fun x => (x.1, 8)) ++ if l.w 20 = 0 then [] else [(l.w 20, 8)]
/-- Its own traces at the slices, with the descriptors of its carafes. -/
def State.recordReads (s : State) (p : Nat) (l : Launch) : State :=
  let ids := (s.readCarafes p l).getD []
  let s := l.reads.foldl (fun s x => s.partRead p x.1 x.2) s
  ids.foldl (fun s c => s.touchCarafe (s.partTable (s.lowestDie p)) c 0 0) s

/-- CONSUME_RECORD (R369, R370, R372): the barista clears the summary bit it has seen, checks the doorbell word behind it, and takes the next record. -/
def execConsumeRecord (part q : Nat) (s : State) : Out :=
  if !s.queueServed part q then .next s
  else
  let s := ((s.seenBell part q).baristaRead (s.queuePa part q) 32).checkBell part q
  if !s.recordWaits part q then .next s
  else
    let pa := s.recordPa part q
    let l := Launch.fresh ((List.range 32).map fun i => s.dwordAt (pa + 8 * i)) q (s.queuePrio part q)
    if s.baristaWaits pa 256 ∨ l.reads.any (fun x => s.partWaits part x.1 x.2) then .next s
    else
    let s := (s.baristaRead pa 256).recordReads part l
    let (code, detail) := s.recordStatus part q l
    let id := Tab.get 1 s.nextLid part
    let (n, s) := s.draw
    let s : State := if code = 1 then
        let l := { l with groups := (s.readGroups part l).getD [], carafes := (s.readCarafes part l).getD [], block := Config.freeWord n }
        { s.setLaunch (part * 2 ^ 32 + id) l with nextLid := Tab.put s.nextLid part ((id + 1) % 2 ^ 32) }
      else s
    let s := s.putBytes (pa + 176) (bytesOf 8 ((if code = 1 then id * 2 ^ 32 else 0) + detail * 256 + code))
    .next (s.putBytes (s.queuePa part q + 16) (bytesOf 8 (s.queueHead part q + 1)))

/-! ### Eligibility and priority (R21, R373, R374) -/

def Launch.prioField (l : Launch) : Nat := wf (l.w 5) 5 3
/-- Effective priority: fixed at the first grant (R374). -/
def Launch.effPrio (l : Launch) : Nat := match l.prio with | some p => p | none => min 7 (min l.prioField l.qprio + l.aged)
def State.lidPart (_s : State) (lid : Nat) : Nat := lid / 2 ^ 32

def State.depsMet (s : State) (lid : Nat) (l : Launch) : Bool :=
  l.deps.all fun x => match s.partDword (lid / 2 ^ 32) x.1 with | some v => x.2.toNat ≤ v.toNat | none => false

/-- Reading a launch's stamps has to wait for a bank engine (R200). -/
def State.stampsWait (s : State) (lid : Nat) (l : Launch) : Bool := l.deps.any fun x => s.partWaits (lid / 2 ^ 32) x.1 8
/-- LAUNCH_ELIGIBLE (R373): the barista reads the stamps and finds them met. -/
def execLaunchEligible (lid : Nat) (s : State) : Out :=
  match s.launch? lid with
  | some l => .next (if l.phase = .accepted ∧ s.depsMet lid l ∧ !s.stampsWait lid l then
      let s := l.deps.foldl (fun s x => s.partRead (lid / 2 ^ 32) x.1 8) s
      { s.setLaunch lid { l with phase := .eligible, order := s.nextOrder, since := s.time } with nextOrder := s.nextOrder + 1 } else s)
  | none => .next s
/-- The module time since which the stamps of each waiting launch are met, noted as time advances (R373). -/
def State.noteMet (s : State) : State :=
  if s.launches.any fun e : Nat × Launch => e.2.phase = .accepted then
    { s with launches := s.launches.map fun e : Nat × Launch =>
        (e.1, if e.2.phase = .accepted then { e.2 with met := if s.depsMet e.1 e.2 then some (e.2.met.getD s.time) else none } else e.2) }
  else s
/-- The barista has observed the stamps of a launch within 360,000 units (100 µs) of their being met (R373). -/
def State.eligibleDue (s : State) (lid : Nat) (l : Launch) : Bool :=
  s.sec.stage = .ready && l.phase = .accepted && s.depsMet lid l && !s.stampsWait lid l && match l.met with | some t => t + 360000 ≤ s.time | none => false

/-- Another aging quantum of waiting is over. -/
def State.ages (s : State) (lid : Nat) (l : Launch) : Bool :=
  l.phase = .eligible && l.aged < 7 && s.partWord (lid / 2 ^ 32) 8 ≠ 0 && l.since + (l.aged + 1) * s.partWord (lid / 2 ^ 32) 8 ≤ s.time
/-- AGING (R374). -/
def execAging (lid : Nat) (s : State) : Out :=
  match s.launch? lid with
  | some l => .next (if s.ages lid l then s.setLaunch lid { l with aged := l.aged + 1 } else s)
  | none => .next s

/-! ### Cores and bind records (R376) -/

def State.bindWord (s : State) (k w : Nat) : Nat := s.ctlNum (bindPa k + 8 * w) 8
def State.bindValid (s : State) (k : Nat) : Bool := fld (s.bindWord k 0) 0 1 = 1
def State.bindKind (s : State) (k : Nat) : Nat := fld (s.bindWord k 0) 1 3
def State.bindSwitch (s : State) (k : Nat) : Bool := fld (s.bindWord k 0) 8 1 = 1
/-- The launch a bind record names. -/
def State.bindLid (s : State) (k : Nat) : Nat := s.partOf (hartDie k) * 2 ^ 32 + s.bindWord k 1 % 2 ^ 32
/-- It names a ticket-mode task. -/
def State.bindTicket (s : State) (k : Nat) : Bool := s.bindWord k 1 / 2 ^ 32 = 2 ^ 32 - 1

/-- Dies of a launch's CORESET. -/
def State.coreset (s : State) (l : Launch) : List Nat := (List.range s.ndie).filter fun d => l.diemask / 2 ^ d % 2 = 1
/-- Blocks of 32 logical cores (R30), and whether every task of a block has retired or will not run. -/
def Launch.blockCount (l : Launch) : Nat := (l.nlcore + 31) / 32
def Launch.blockMembers (l : Launch) (b : Nat) : List Nat := (List.range 32).filterMap fun i => if 32 * b + i < l.nlcore then some (32 * b + i) else none
def Launch.blockOver (l : Launch) (b : Nat) : Bool := (l.blockMembers b).all fun m => l.place m = .retired || l.place m = .dropped
/-- Core of member m when its block is on cluster c. -/
def blockCore (c m : Nat) : Nat := 32 * c + m % 32

/-- A running fixed-grid launch of whose rotation on the cluster a block has a member on the core (R31): such a core is not granted to another launch, so that
the rotation's next block finds its cores (R33; log 12). -/
def State.coreTaken (s : State) (k : Nat) : Bool :=
  s.launches.any fun e : Nat × Launch => e.2.phase = .running && match Tab.find e.2.rots (k / 32) with
    | some r => r.blocks.any fun b => 32 * b + k % 32 < e.2.nlcore && !e.2.blockOver b
    | none => false
/-- A retired ticket-mode task's core draws again unless it is asked to switch (R27). -/
def State.coreDraws (s : State) (k : Nat) : Bool :=
  s.bindTicket k && !s.bindSwitch k && match s.launch? (s.bindLid k) with | some l => l.phase = .running | none => false
/-- The core holds no task and none is on its way to it. -/
def State.coreIdle (s : State) (k : Nat) : Bool :=
  let h := s.hartAt k
  let st := s.bindState k
  h.lid.isNone && (h.mode = .idle || h.mode = .handler) && !s.bindValid k && (st = 0 || st = 3 || (st = 4 && !s.coreDraws k))
/-- The core can be granted. -/
def State.coreFree (s : State) (k : Nat) : Bool := s.coreIdle k && !s.coreTaken k && !(s.dieAt (hartDie k)).bindStop

/-- The first module time from t on that is r modulo 8,192. -/
def nextAt (t r : Nat) : Nat := t + (r % 8192 + 8192 - t % 8192) % 8192
/-- Start of a D2 task, and its resumption on another core (R131); others start at once. The dispatch hardware acts in a later slice cycle (R376), and
the barista leaves 8,192 units for the handler that restores a task (log 12). -/
def State.startTime (s : State) (l : Launch) (k m : Nat) : Nat :=
  if l.detlvl ≠ 2 then s.time
  else match l.place m with
    | .saved _ h => nextAt (s.time + 8192) (Tab.get 0 l.stops m + 8 * (hartPcore k + 8192 - hartPcore h))
    | _ => nextAt (s.time + 2) 0

/-- The barista writes a bind record with VALID = 1. -/
def State.bindCore (s : State) (k kind lid lc area start tctr : Nat) (block : Word) : State :=
  let a := bindPa k
  let st := s.bindState k
  let s : State := { s with boundAt := Tab.put s.boundAt k s.time }
  (((((s.setCtl a 8 (st * 16 + kind * 2 + 1)).setCtl (a + 8) 8 (lid % 2 ^ 32 + lc % 2 ^ 32 * 2 ^ 32)).setCtl (a + 16) 8 block.toNat).setCtl (a + 24) 8 area).setCtl
    (a + 32) 8 start).setCtl (a + 40) 8 tctr

/-- A save area the barista chooses: a free, 4 KiB aligned physical address (R376). -/
def State.freshArea (s : State) : Nat × State :=
  let (n, s) := s.draw
  ((Config.freeWord n).toNat % 2 ^ 52 / 4096 * 4096, s)

/-- Bind member m of a launch to a core: RESUME if it is saved, START if it has not started. -/
def State.bindMember (s : State) (k lid : Nat) (l : Launch) (m tctr : Nat) : State :=
  let lc := if l.fixed then m else 2 ^ 32 - 1
  match l.place m with
  | .saved a _ => s.bindCore k 2 lid lc a (s.startTime l k m) tctr l.block
  | .unstarted =>
    let (a, s) := s.freshArea
    s.bindCore k 1 lid lc a (s.startTime l k m) tctr l.block
  | _ => s

/-! ### Tickets (R27, R28, R377, R378) -/

def ticketPa (die slot : Nat) : Nat := ctlBase die + offTickets + 32 * slot
/-- A ticket counter slot that no launch holds. -/
def State.freeSlot (s : State) (die : Nat) : Option Nat :=
  (List.range 16).find? fun j => !s.launches.any fun e : Nat × Launch => Tab.find e.2.tctr die = some j
/-- Range of index j of n dies (R27). -/
def ticketRange (count j n : Nat) : Nat × Nat := (count * j / n, count * (j + 1) / n)
/-- Assign and program a launch's counters on every die of its CORESET; none where a die has no free slot (R378). -/
def State.giveSlots (s : State) (lid : Nat) (l : Launch) : Option (State × Launch) :=
  if !l.tctr.isEmpty then some (s, l)
  else
    let dies := s.coreset l
    if dies.all fun d => (s.freeSlot d).isSome then
      some (dies.zipIdx.foldl (fun (acc : State × Launch) (x : Nat × Nat) =>
        let (d, j) := x
        let slot := (s.freeSlot d).getD 0
        let (lo, hi) := ticketRange l.count j dies.length
        let a := ticketPa d slot
        (((((acc.1.setCtl a 8 (lid % 2 ^ 32)).setCtl (a + 8) 8 lo).setCtl (a + 16) 8 hi).setCtl (a + 24) 8 l.diemask),
         { acc.2 with tctr := Tab.put acc.2.tctr d slot })) (s, l))
    else none
/-- A counter's NEXT and LIMIT. -/
def State.ticketNext (s : State) (d slot : Nat) : Nat := s.ctlNum (ticketPa d slot + 8) 8
def State.ticketLimit (s : State) (d slot : Nat) : Nat := s.ctlNum (ticketPa d slot + 16) 8
/-- Indices not yet drawn. -/
def State.ticketsOf (s : State) (l : Launch) : Nat :=
  if l.tctr.isEmpty then l.count else (l.tctr.map fun e => s.ticketLimit e.1 e.2 - s.ticketNext e.1 e.2).foldl (· + ·) 0

/-- A draw for a core of die d: its own counter, then the next dies' (R27, R28). -/
def State.drawTicket (s : State) (l : Launch) (d : Nat) : Option (Nat × State) :=
  (((List.range 8).map fun i => (d + i) % 8).findSome? fun e => (Tab.find l.tctr e).bind fun j => if s.ticketNext e j < s.ticketLimit e j then some (e, j) else none).map
    fun (e, j) => (s.ticketNext e j, s.setCtl (ticketPa e j + 8) 8 (s.ticketNext e j + 1))

/-! ### Grants (R374, R375, R378) -/

/-- Saved ticket-mode members that the core may resume, lowest index first (R131). -/
def Launch.savedFor (l : Launch) (k : Nat) (skip : List Nat) : Option Nat :=
  (l.members.find? fun e : Nat × Place => !skip.contains e.1 && match e.2 with
    | .saved _ h => l.detlvl ≠ 2 || hartDie h = hartDie k
    | _ => false).map (·.1)
/-- Members with a RESUME on its way: their save areas stand in valid records. -/
def State.resuming (s : State) (lid : Nat) (l : Launch) : List Nat :=
  (l.members.filter fun e : Nat × Place => match e.2 with
    | .saved a _ => s.harts.any fun x : Nat × Hart => x.1 < 512 && s.bindLid x.1 = lid && s.bindWord x.1 3 = a && (s.bindValid x.1 || s.bindState x.1 = 1)
    | _ => false).map (·.1)

/-- Cores a ticket-mode launch holds on a die. -/
def State.coresHeld (s : State) (lid d : Nat) : Nat :=
  ((List.range 64).filter fun c =>
    let k := 64 * d + c
    s.bindLid k = lid && (s.bindValid k || s.bindState k = 1 || s.bindState k = 2 || s.bindState k = 5 || (s.bindState k = 4 && s.coreDraws k))).length

/-- Cores of a launch that are about to draw an index. -/
def State.drawing (s : State) (lid : Nat) (l : Launch) : Nat :=
  if l.tctr.isEmpty then 0
  else ((s.coreset l).flatMap fun d => (List.range 64).filter fun c =>
    let k := 64 * d + c
    s.bindLid k = lid && ((s.bindValid k && s.bindKind k = 1) || (s.bindState k = 4 && s.coreDraws k))).length

/-- A ticket-mode launch takes free cores of its CORESET, up to MAXCORES per die, and no more than it has tasks for (log 12). -/
def State.grantTicket (s : State) (lid : Nat) (l : Launch) : State :=
  match s.giveSlots lid l with
  | none => s
  | some (t, l) =>
    let t := t.setLaunch lid { l with phase := .running, prio := some l.effPrio }
    let cores := (s.coreset l).flatMap fun d => (List.range 64).map fun c => 64 * d + c
    let r := cores.foldl (fun (acc : State × List Nat × Nat) (k : Nat) =>
      let (s, skip, n) := acc
      if !s.coreFree k ∨ l.maxcores ≤ s.coresHeld lid (hartDie k) then acc
      else match l.savedFor k skip with
        | some m => (s.bindMember k lid l m (Tab.get 0 l.tctr (hartDie k)), m :: skip, n)
        | none =>
          if n = 0 then acc
          else
            let (a, s) := s.freshArea
            (s.bindCore k 1 lid (2 ^ 32 - 1) a (s.startTime l k 0) (Tab.get 0 l.tctr (hartDie k)) l.block, skip, n - 1)) (t, t.resuming lid l, t.ticketsOf l - t.drawing lid l)
    r.1

/-- Clusters a launch may bind on a die (R374). -/
def Launch.clustersPerDie (l : Launch) : Nat := max 1 ((l.maxcores + 31) / 32)
/-- A whole free cluster that no launch holds. -/
def State.clusterFree (s : State) (c : Nat) : Bool :=
  ((List.range 32).all fun i => s.coreFree (32 * c + i)) && !s.launches.any fun e : Nat × Launch => e.2.phase = .running && (Tab.find e.2.rots c).isSome
/-- Clusters a fixed-grid launch can claim, by (die, cluster). -/
def State.claimable (s : State) (l : Launch) : List Nat :=
  (s.coreset l).flatMap fun d =>
    ([2 * d, 2 * d + 1].filter fun c => s.clusterFree c).take (l.clustersPerDie - ([2 * d, 2 * d + 1].filter fun c => (Tab.find l.rots c).isSome).length)

/-- Bind every member of a block that has work left. -/
def State.bindBlock (s : State) (lid : Nat) (l : Launch) (c b : Nat) : State :=
  (l.blockMembers b).foldl (fun s m => s.bindMember (blockCore c m) lid l m 0) s

/-- Blocks of a launch that no rotation holds and that have work left. -/
def Launch.looseBlocks (l : Launch) : List Nat :=
  (List.range l.blockCount).filter fun b => !l.blockOver b && !l.rots.any fun r : Nat × Rotation => r.2.blocks.contains b

/-- The run of blocks of rank r of k (R374). -/
def blockRun (blocks : List Nat) (r k : Nat) : List Nat :=
  let n := blocks.length
  (blocks.drop ((n * r + k - 1) / k)).take ((n * (r + 1) + k - 1) / k - (n * r + k - 1) / k)

/-- The die to which a block of a D2 launch is bound since its tasks started there (R131). -/
def Launch.blockDie (l : Launch) (b : Nat) : Option Nat :=
  if l.detlvl ≠ 2 then none
  else (l.blockMembers b).findSome? fun m => match l.place m with
    | .saved _ h => some (hartDie h)
    | _ => none
/-- Blocks of a launch and the clusters they may share: those bound to a die with clusters of that die, the others with the clusters that are left
(R374, R131). -/
def State.grantPlan (s : State) (l : Launch) : List (List Nat × List Nat) :=
  let cs := s.claimable l
  let loose := l.looseBlocks
  let bound := (loose.filterMap l.blockDie).eraseDups.map fun d => (loose.filter fun b => l.blockDie b = some d, cs.filter fun c => c / 2 = d)
  let bound := bound.map fun x => (x.1, x.2.take x.1.length)
  let free := loose.filter fun b => (l.blockDie b).isNone
  (bound ++ [(free, (cs.filter fun c => !bound.any fun x => x.2.contains c).take free.length)]).filter fun x => !x.2.isEmpty
/-- No member of a block is on a core or on its way to one: the block's context is saved, or it has not started (R32). -/
def State.blockIdle (s : State) (lid : Nat) (l : Launch) (b : Nat) : Bool :=
  (l.blockMembers b).all fun m => (match l.place m with | .resident _ | .stopped _ => false | _ => true)
    && !s.boundAt.any fun e : Nat × Nat => s.bindLid e.1 = lid && s.bindWord e.1 1 / 2 ^ 32 = m && (s.bindValid e.1 || (s.bindState e.1 = 1 && (s.hartAt e.1).lid.isNone))
/-- The rotations a plan makes: each cluster with its run of blocks, the lowest of them resident at once unless members of it have still to leave the cluster
from which it was displaced (R374). -/
def State.planRots (s : State) (lid : Nat) (l : Launch) (p : List (List Nat × List Nat)) : List (Nat × Rotation) :=
  p.flatMap fun x => x.2.zipIdx.map fun (c, i) =>
    let run := blockRun x.1 i x.2.length
    (c, { blocks := run, resident := run.head?.filter fun b => s.blockIdle lid l b, since := s.time })
/-- No task of a launch is resident, nor on its way: the barista may write its remap table (R377). -/
def State.noneResident (s : State) (lid : Nat) (l : Launch) : Bool := (List.range l.blockCount).all fun b => s.blockIdle lid l b
/-- The remap table after its rotations, by block (R31, R377). While a task of the launch is resident it may not be written: blocks that join another cluster's
rotation then (R375) keep the entry of their old cluster, and are bound by the rotation that holds them; the rules leave open how the two go together, the
model's choice (log 12). -/
def State.remapped (s : State) (lid : Nat) (l : Launch) : Launch :=
  if s.noneResident lid l then
    { l with remap := l.rots.foldl (fun t x => x.2.blocks.foldl (fun t b => Tab.put t b (BitVec.ofNat 16 (2 ^ 15 + x.1 % 2 * 8 + x.1 / 2))) t) l.remap }
  else l

/-- A fixed-grid launch binds as many clusters as it has blocks for and can claim (R374). A D2 launch whose tasks have started binds clusters of their
die only (R131). -/
def State.grantFixed (s : State) (lid : Nat) (l : Launch) : State :=
  let rs := s.planRots lid l (s.grantPlan l)
  if rs.isEmpty then s
  else
    let l' : Launch := s.remapped lid { l with phase := .running, prio := some l.effPrio, rots := rs.foldl (fun t x => Tab.put t x.1 x.2) l.rots }
    rs.foldl (fun s x => match x.2.resident with
      | some b => s.bindBlock lid l x.1 b
      | none => s) (s.setLaunch lid l')

/-- A launch that would take a core or a cluster now. -/
def State.canGrant (s : State) (lid : Nat) (l : Launch) : Bool :=
  (l.phase = .eligible || l.phase = .running) &&
    if l.fixed then !(s.grantPlan l).isEmpty
    else
      let more : Bool := 0 < s.ticketsOf l && s.drawing lid l < s.ticketsOf l
      let skip := s.resuming lid l
      (more || l.members.any fun e : Nat × Place => match e.2 with | .saved _ _ => true | _ => false)
        && (s.giveSlots lid l).isSome
        && (s.coreset l).any fun d => s.coresHeld lid d < l.maxcores && (List.range 64).any fun c =>
          s.coreFree (64 * d + c) && (more || (l.savedFor (64 * d + c) skip).isSome)

/-- The launch the barista serves next: the highest priority, then the first to become eligible, then the lower queue (R374). -/
def better (a b : Nat × Launch) : Bool :=
  b.2.effPrio < a.2.effPrio || (a.2.effPrio = b.2.effPrio && (a.2.since < b.2.since || (a.2.since = b.2.since && (a.2.queue < b.2.queue
    || (a.2.queue = b.2.queue && a.2.order < b.2.order)))))
def bestOf (l : List (Nat × Launch)) : Option (Nat × Launch) :=
  l.foldl (fun r x => match r with | none => some x | some y => if better x y then some x else some y) none
def State.grantee (s : State) (part : Nat) : Option (Nat × Launch) :=
  bestOf (s.launches.filter fun e : Nat × Launch => e.1 / 2 ^ 32 = part && s.canGrant e.1 e.2)

/-- CORE_GRANT (R374). -/
def execCoreGrant (part : Nat) (s : State) : Out :=
  match s.grantee part with
  | some (lid, l) => .next (if l.fixed then s.grantFixed lid l else s.grantTicket lid l)
  | none => .next s

/-! ### Switch requests, pre-emption, rotation (R32, R375, R376, R379) -/

/-- SWITCH of a bind record (R376, R357). -/
def State.askSwitch (s : State) (k : Nat) : State :=
  let w := s.bindWord k 0
  let s := s.setCtl (bindPa k) 8 (w - fld w 8 1 * 256 + 256)
  s.setHart k { s.hartAt k with cctl := (s.hartAt k).cctl ||| 8 }
/-- SWITCH (R376): the barista sets SWITCH, which sets CCTL.SWREQ. -/
def execSwitch (k : Nat) (s : State) : Out := .next (if k < 512 then s.askSwitch k else s)

/-- A core that runs or holds a task of a launch and is not yet asked to switch. -/
def State.switchable1 (s : State) (lid k : Nat) : Bool :=
  s.bindLid k = lid && !s.bindSwitch k && !s.bindValid k && (s.bindState k = 1 || (s.bindState k = 4 && s.coreDraws k))

/-- Cores a ticket-mode launch gives up first: the highest PCORE, then the highest die (R375). -/
def victimCores (dies : List Nat) : List Nat := ((List.range 64).reverse).flatMap fun c => (dies.reverse).map fun d => 64 * d + c

/-- The core is on its way to a launch of higher priority: its task has been asked to switch and is not saved yet. -/
def State.coming (s : State) (l : Launch) (k : Nat) : Bool :=
  s.bindSwitch k && (s.bindState k = 1 || s.bindState k = 2) && match s.launch? (s.bindLid k) with
    | some v => v.effPrio < l.effPrio
    | none => false
/-- Cores that a ticket-mode launch can still use on a die, beyond those it holds and those coming to it, and in all (R375). -/
def State.needOn (s : State) (lid : Nat) (l : Launch) (d : Nat) : Nat :=
  l.maxcores - s.coresHeld lid d - ((List.range 64).filter fun c => s.coming l (64 * d + c)).length
def State.needAll (s : State) (lid : Nat) (l : Launch) : Nat :=
  s.ticketsOf l - s.drawing lid l - ((victimCores (s.coreset l)).filter (s.coming l)).length

/-- Move the blocks of a victim's cluster to its remaining rotations (R375), whose clusters may have tasks of the launch resident: the remap table follows when it
may be written (`State.remapped`, log 12). -/
def State.displace (s : State) (lid c : Nat) : State :=
  match s.launch? lid with
  | none => s
  | some l =>
    match Tab.find l.rots c with
    | none => s
    | some r =>
      let rest := Tab.del l.rots c
      let fewest (b : Nat) (t : Tab Rotation) : Option Nat :=
        ((t.filter fun e : Nat × Rotation => l.detlvl ≠ 2 || e.1 / 2 = c / 2 || (l.blockMembers b).all fun m => l.place m = .unstarted).foldl
          (fun (a : Option (Nat × Nat)) (e : Nat × Rotation) => match a with
            | none => some (e.1, e.2.blocks.length)
            | some x => if e.2.blocks.length < x.2 then some (e.1, e.2.blocks.length) else some x) none).map (·.1)
      let join (t : Tab Rotation) (b : Nat) : Tab Rotation := match fewest b t with
        | none => t
        | some n => match Tab.find t n with
          | some x => Tab.put t n { x with blocks := (x.blocks.filter (· < b)) ++ [b] ++ x.blocks.filter (b < ·),
                                           since := if x.blocks.length = 1 ∧ x.resident.isSome then s.time else x.since }
          | none => t
      s.setLaunch lid (s.remapped lid { l with rots := (r.blocks.filter fun b => !l.blockOver b).foldl join rest })

/-- Ask every member of a launch's block on a cluster to switch; other launches' tasks there stay (R31, R32). -/
def State.switchBlock (s : State) (lid c : Nat) : State :=
  (List.range 32).foldl (fun s i =>
    let k := 32 * c + i
    if s.bindLid k = lid ∧ s.bindState k = 1 ∧ !s.bindSwitch k then s.askSwitch k else s) s
/-- Ask every task on a cluster to switch. -/
def State.switchCluster (s : State) (c : Nat) : State :=
  (List.range 32).foldl (fun s i =>
    let k := 32 * c + i
    if (s.bindState k = 1 ∨ (s.bindState k = 4 ∧ s.coreDraws k)) ∧ !s.bindSwitch k then s.askSwitch k else s) s

/-- Launches with a task on a cluster's cores. -/
def State.occupants (s : State) (c : Nat) : List (Nat × Launch) :=
  s.launches.filter fun e : Nat × Launch => e.2.phase = .running && ((Tab.find e.2.rots c).isSome
    || (List.range 32).any fun i => s.bindLid (32 * c + i) = e.1 && (s.bindState (32 * c + i) = 1 || s.bindState (32 * c + i) = 2 || s.coreDraws (32 * c + i)))
def topPrio (l : List (Nat × Launch)) : Nat := (l.map fun e => e.2.effPrio).foldl max 0

/-- The cluster a fixed-grid launch takes (R375). -/
def State.victimCluster (s : State) (l : Launch) : Option Nat :=
  let ok := ((s.coreset l).flatMap fun d => [2 * d, 2 * d + 1]).filter fun c =>
    let o := s.occupants c
    !o.isEmpty && (o.all fun e => e.2.effPrio < l.effPrio) && !(s.dieAt (c / 2)).bindStop
  ok.foldl (fun r c => match r with
    | none => some c
    | some d => if topPrio (s.occupants c) ≤ topPrio (s.occupants d) then some c else some d) none

/-- The victims of a ticket-mode launch: running launches of lower priority, the lowest first, the latest eligible first among equals (R375). -/
def victimOrder (l : List (Nat × Launch)) : List (Nat × Launch) :=
  let before (y x : Nat × Launch) : Bool := y.2.effPrio < x.2.effPrio || (y.2.effPrio = x.2.effPrio && (x.2.since < y.2.since || (x.2.since = y.2.since && x.2.order < y.2.order)))
  l.foldl (fun acc x => acc.takeWhile (fun y => before y x) ++ [x] ++ acc.dropWhile fun y => before y x) []
def State.victims (s : State) (part : Nat) (l : Launch) : List (Nat × Launch) :=
  victimOrder (s.launches.filter fun e : Nat × Launch => e.2.phase = .running && e.2.effPrio < l.effPrio && e.1 / 2 ^ 32 = part)

/-- A victim's cluster that gives cores to a launch: it holds a rotation there, on a die where the launch can use cores. -/
def State.givesCluster (s : State) (lid : Nat) (l : Launch) (v : Nat × Launch) (c : Nat) : Bool :=
  (Tab.find v.2.rots c).isSome && s.needOn lid l (c / 2) ≠ 0 && (List.range 32).any fun i => s.switchable1 v.1 (32 * c + i)
/-- Take cores of one victim for a ticket-mode launch, no more than it can use on each die and in all: whole clusters of a fixed-grid one, the highest first
(R375). -/
def State.takeCores (s : State) (lid : Nat) (l : Launch) (v : Nat × Launch) : State :=
  if v.2.fixed then
    (((s.coreset l).flatMap fun d => [2 * d, 2 * d + 1]).reverse).foldl (fun s c =>
      if s.needAll lid l ≠ 0 && s.givesCluster lid l v c then (s.switchBlock v.1 c).displace v.1 c else s) s
  else
    (victimCores (s.coreset l)).foldl (fun s k =>
      if s.needAll lid l ≠ 0 ∧ s.needOn lid l (hartDie k) ≠ 0 ∧ s.switchable1 v.1 k then s.askSwitch k else s) s
/-- A launch could take a core of one of its victims now. -/
def State.canTake (s : State) (part lid : Nat) (l : Launch) : Bool :=
  if l.fixed then
    !((s.coreset l).any fun d => (List.range 64).any fun c => s.coming l (64 * d + c)) && (s.victimCluster l).isSome
  else s.needAll lid l ≠ 0 && (s.victims part l).any fun v =>
    if v.2.fixed then (s.coreset l).any fun d => s.givesCluster lid l v (2 * d) || s.givesCluster lid l v (2 * d + 1)
    else (s.coreset l).any fun d => s.needOn lid l d ≠ 0 && (List.range 64).any fun c => s.switchable1 v.1 (64 * d + c)

/-- A record that the barista has written for a core of a partition has not been acted on (R376): the barista pre-empts only when none is left. -/
def State.recordsOpen (s : State) (part : Nat) : Bool := s.boundAt.any fun e : Nat × Nat => s.partOf (hartDie e.1) = part && s.bindValid e.1
/-- The best of the launches that wait with no core to serve them and can take one from a running launch of lower priority (R375). -/
def State.starved (s : State) (part : Nat) : Option (Nat × Launch) :=
  if s.recordsOpen part then none
  else bestOf (s.launches.filter fun e : Nat × Launch => e.1 / 2 ^ 32 = part && e.2.phase = .eligible && !s.canGrant e.1 e.2
    && (e.2.fixed || (s.giveSlots e.1 e.2).isSome) && s.canTake part e.1 e.2)

/-- PREEMPT (R375). -/
def execPreempt (part : Nat) (s : State) : Out :=
  match s.starved part with
  | none => .next s
  | some (lid, l) =>
    if l.fixed then
      match s.victimCluster l with
      | none => .next s
      | some c => .next ((s.occupants c).foldl (fun s e => if e.2.fixed then s.displace e.1 c else s) (s.switchCluster c))
    else .next ((s.victims part l).foldl (fun s v => s.takeCores lid l v) s)

/-- Q of a rotation has run out and its resident block still runs (R32, R379). -/
def State.quantumOver (s : State) (lid c : Nat) : Bool :=
  match s.launch? lid with
  | none => false
  | some l => match Tab.find l.rots c with
    | none => false
    | some r => l.phase = .running && r.resident.isSome && 2 ≤ (r.blocks.filter fun b => !l.blockOver b).length
        && r.since + s.partWord (lid / 2 ^ 32) 9 ≤ s.time && (List.range 32).any fun i => s.switchable1 lid (32 * c + i)

/-- QUANTUM_EXPIRY (R379). -/
def execQuantumExpiry (lid cluster : Nat) (s : State) : Out := .next (if s.quantumOver lid cluster then s.switchBlock lid cluster else s)

/-- The block after b in a rotation's increasing order. -/
def nextInTurn (blocks : List Nat) (b : Nat) : Option Nat :=
  match blocks.find? (b < ·) with
  | some x => some x
  | none => blocks.head?

/-- The block whose turn comes in a rotation, of those with work left: the one after its resident block in increasing order, else the lowest. -/
def Rotation.next (r : Rotation) (left : List Nat) : Option Nat :=
  match r.resident with
  | none => left.head?
  | some b => nextInTurn left b

/-- Every record of a rotation's resident block shows STATE 3 or 4 (R379). -/
def State.blockGone (s : State) (l : Launch) (c : Nat) (r : Rotation) : Bool :=
  match r.resident with
  | none => true
  | some b => (l.blockMembers b).all fun m =>
      l.place m = .retired || (!s.bindValid (blockCore c m) && (s.bindState (blockCore c m) = 3 || s.bindState (blockCore c m) = 4)
        && match l.place m with | .saved _ _ => true | _ => false)

/-- BIND_NEXT_BLOCK (R32, R379): the next block in increasing order that has work left, once all of its members have stopped where they were; without one the
rotation gives its cluster back. Another launch's task on a core that the block needs is asked to switch, so that the block comes to its turn (R33; log 12). -/
def execBindNextBlock (lid cluster : Nat) (s : State) : Out :=
  match s.launch? lid with
  | none => .next s
  | some l => match Tab.find l.rots cluster with
    | none => .next s
    | some r =>
      if l.phase ≠ .running ∨ !s.blockGone l cluster r then .next s
      else
        let left := r.blocks.filter fun b => !l.blockOver b
        match r.next left with
        | none => .next (s.setLaunch lid { l with rots := Tab.del l.rots cluster })
        | some b =>
          let cores := (l.blockMembers b).filterMap fun m => if l.place m = .retired then none else some (blockCore cluster m)
          if (s.dieAt (cluster / 2)).bindStop ∨ !s.blockIdle lid l b then .next s
          else if cores.all s.coreIdle then
            .next ((s.setLaunch lid (s.remapped lid { l with rots := Tab.put l.rots cluster { r with blocks := left, resident := some b, since := s.time } })).bindBlock lid l cluster b)
          else .next (cores.foldl (fun s k => if s.bindLid k ≠ lid ∧ s.switchable1 (s.bindLid k) k then s.askSwitch k else s) s)

/-! ### Binding (R24, R358, R376) -/

/-- The task-related registers that the barista sets at a bind (R356–R358). -/
def State.bindRegs (s : State) (k : Nat) (l : Launch) (h : Hart) : Hart :=
  let p := s.policy (s.partOf (hartDie k))
  { h with cctl := word (p.deleg.toNat * 2 ^ 32 + l.detlvl * 2 + (if p.chklat then 1 else 0)), hbase := p.hbase, ptroot := p.ptroot, asid := word p.asid,
           ltgrant := word (l.ltcount * 2 ^ 16 + l.ltfirst), crftab := s.partTable (hartDie k), rbanks := l.bankWord }

/-- The dispatch hardware has acted on a record: VALID clears, STATE is written. -/
def State.bound (s : State) (k st : Nat) : State :=
  let w := s.bindWord k 0
  s.setCtl (bindPa k) 8 (w - fld w 0 1 - fld w 4 4 * 16 + st * 16)

/-- The state of R24. -/
def State.startTask (s : State) (k lid : Nat) (l : Launch) (m : Nat) (start : Nat) : State :=
  let h := { (s.hartAt k).leave with sp := [], spBad := [], spCorr := [] }
  let h := l.identify lid m (s.bindRegs k l h)
  let h := { h with mode := .task, pc := l.w 2, npc := l.w 2, notBefore := start, r := { Regs.reset with s := Tab.set 0 [] 1 (l.w 4), p := 1 } }
  (s.setHart k h).setLaunch lid (l.setPlace m (.resident k))

/-- START (R376): a fixed-grid task starts, once (R23, R30); a ticket-mode core draws when its time comes. -/
def execStart (k : Nat) (s : State) : Out :=
  if !s.bindValid k ∨ s.bindKind k ≠ 1 then .next s
  else
    let lid := s.bindLid k
    match s.launch? lid with
    | none => .next (s.bound k 0)
    | some l =>
      if l.phase ≠ .running then .next (s.bound k 0)
      else if s.bindTicket k then
        let h := { (s.hartAt k).leave with notBefore := s.bindWord k 4 }
        .next ((s.setHart k h).bound k 1)
      else if l.place (s.bindWord k 1 / 2 ^ 32) ≠ .unstarted then .next (s.bound k 0)
      else .next ((s.startTask k lid l (s.bindWord k 1 / 2 ^ 32) (s.bindWord k 4)).bound k 1)

/-- The core may draw an index now: bound and without a task, or its last task has retired (R27). -/
def State.mayDraw (s : State) (k : Nat) : Bool :=
  let h := s.hartAt k
  s.bindTicket k && !s.bindValid k && h.mode = .idle && h.lid.isNone && h.notBefore ≤ s.time
    && (s.bindState k = 1 || (s.bindState k = 4 && !s.bindSwitch k)) && (s.launch? (s.bindLid k)).isSome

/-- TICKET_DRAW (R27, R28): the core starts the index it draws, or leaves the launch. -/
def execTicketDraw (k : Nat) (s : State) : Out :=
  if !s.mayDraw k then .next s
  else
    let lid := s.bindLid k
    match s.launch? lid with
    | none => .next s
    | some l =>
      if l.phase ≠ .running ∨ s.bindSwitch k ∨ (s.dieAt (hartDie k)).bindStop then .next (s.bound k 0)
      else match s.drawTicket l (hartDie k) with
        | none => .next (s.bound k 0)
        | some (m, s) => .next ((s.startTask k lid l m (s.startTime l k m)).bound k 1)

/-- RESUME (R376): the core enters the handler at vector 33, with s1 = SAVEAREA and s2 = the bind record's address. -/
def execResume (k : Nat) (s : State) : Out :=
  if !s.bindValid k ∨ s.bindKind k ≠ 2 then .next s
  else
    match s.launch? (s.bindLid k) with
    | none => .next (s.bound k 0)
    | some l =>
      if l.phase ≠ .running then .next (s.bound k 0)
      else
        let h := s.bindRegs k l { (s.hartAt k).leave with banks := (s.hartAt k).banks, spBad := (s.hartAt k).spBad, spCorr := (s.hartAt k).spCorr }
        let h := Hart.enter { h with notBefore := s.bindWord k 4, hs := Tab.set 0 (Tab.set 0 h.hs 1 (word (s.bindWord k 3))) 2 (word (bindPa k)) } 33
        .next ((s.setHart k h).bound k 1)

/-- EVENT (R367, R376). -/
def execEvent (k : Nat) (s : State) : Out :=
  .next (if s.bindValid k ∧ s.bindKind k = 3 then (s.setHart k { s.hartAt k with eventHeld := true }).bound k (s.bindState k) else s)

/-! ### The end of a launch (R22, R125, R167, R198, R378, R428) -/

/-- NM.STOP on the launch's engines; those that have halted are given up (R198). -/
def State.stopEngines (s : State) (lid : Nat) : State :=
  { s with engines := s.engines.map fun e : Nat × Engine => if e.2.owner = some lid then (e.1, e.2.halt_) else e }
def State.enginesRun (s : State) (lid : Nat) : Bool := s.engines.any fun e : Nat × Engine => e.2.owner = some lid && e.2.st = .running
def State.freeEngines (s : State) (lid : Nat) : State :=
  { s with engines := s.engines.map fun e : Nat × Engine => if e.2.owner = some lid then (e.1, { e.2 with owner := none, st := .empty }) else e }

/-- A call or post of the launch has not ended (R167). -/
def State.callsRun (s : State) (lid : Nat) : Bool :=
  (s.msgs.any fun m => match m.body with | .call c => c.lid = lid | _ => false)
    || (s.execs.any fun e : Nat × Executor => e.2.queue.any fun c => c.lid = lid)
    || s.harts.any fun h : Nat × Hart => match h.2.call with | some c => c.lid = lid | none => false

/-- A word with held operations, or with operations that have been refused for want of an entry and are still retried: what SEQGAP reports (R125). -/
def Slice.gaps (x : Slice) (lid : Nat) : List (Nat × Word) :=
  let refused := x.refused.filterMap fun m => match m.body with
    | .atomic (.amofSeq _ _ q _) pa .. => if m.lid = lid ∧ x.noEntry.contains m.id then some (pa, q) else none
    | _ => none
  let words := (((x.held.filter fun e => e.lid = lid).map fun e => e.pa) ++ refused.map (·.1)).eraseDups
  words.map fun pa => (pa, match x.nextSeq lid pa with
    | some n => n
    | none => (refused.filter fun r => r.1 = pa).foldl (fun m r => if r.2.toNat < m.toNat then r.2 else m) (BitVec.allOnes 64))
def Slice.dropSeq (x : Slice) (lid : Nat) : Slice :=
  { x with held := x.held.filter fun e => e.lid ≠ lid, seqs := x.seqs.filter fun e => e.lid ≠ lid, refused := x.refused.filter fun m => m.lid ≠ lid,
           noEntry := x.noEntry.filter fun n => !x.refused.any fun m => m.lid = lid && m.id = n,
           seqFull := x.seqFull.filter fun n => n ≠ lid, seen := x.seen.filter fun e => e.lid ≠ lid }
/-- Every slice discards the launch's sequenced operations (R125). -/
def State.dropSeqs (s : State) (lid : Nat) : State :=
  s.slices.foldl (fun s z => ((z.2.gaps lid).foldl (fun s g => s.log .event 0x21 (srcSlice z.1) [word g.1, g.2, word (lid % 2 ^ 32)]) s).setSlice z.1
    ((s.sliceAt z.1).dropSeq lid)) s

/-- The launch is over: its engines and sequenced operations are gone, its counters return to their dies (R22, R125, R198, R378). Posts that no executor has
accepted may still be reported lost (R165). -/
def State.closeLaunch (s : State) (lid : Nat) (l : Launch) : State :=
  let s := (s.freeEngines lid).dropSeqs lid
  let s : State := { s with monitors := s.monitors.filter (fun x => x.1 ≠ lid), away := s.away.filterMap fun a => if a.lid ≠ lid then some a else (postsLeft lid a.member a.hart a.outst).head? }
  s.setLaunch lid { l with phase := .done, tctr := [], rots := [], members := l.members.map fun (m, p) => (m, if p = .retired then p else .dropped) }

/-- Every task of a running launch has retired. -/
def Launch.allRetired (l : Launch) : Bool := l.phase = .running && l.retired = l.count

/-- DONE_STAMP (R22, R373): after every retirement, engine stop and call, the 64-bit store with release. -/
def execDoneStamp (lid : Nat) (s : State) : Out :=
  match s.launch? lid with
  | none => .next s
  | some l =>
    if !l.allRetired then .next s
    else
      let s := s.stopEngines lid
      if s.enginesRun lid ∨ s.callsRun lid ∨ (l.w 20 ≠ 0 && s.partWaits (lid / 2 ^ 32) (l.w 20) 8) then .next s
      else
        let s := s.closeLaunch lid l
        .next (if l.w 20 = 0 then s
          else let s := s.partRead (lid / 2 ^ 32) (l.w 20) 0
          match s.partPage (lid / 2 ^ 32) (l.w 20) with
            | .ok p => s.applyWrite p.pa (bytesOf 8 (l.w 21).toNat) p.cpol p.key 0 none
            | .error _ => s)

/-- Tasks of an ending launch that still run, start or stop (R428 step 2). -/
def State.tasksLeft (s : State) (lid : Nat) : Bool :=
  s.harts.any fun x : Nat × Hart => x.1 < 512 && x.2.lid = some lid && !(x.2.mode = .stopped || (x.2.mode = .handler && x.2.estat.getLsbD 0))
/-- Cores that hold a task of the launch, or were about to restore or to draw one, which the end of the launch has discarded. -/
def State.coresOf (s : State) (lid : Nat) : List Nat :=
  (s.harts.filter fun x : Nat × Hart => x.1 < 512 && (x.2.lid = some lid || (x.2.lid.isNone && s.bindLid x.1 = lid && s.bindState x.1 = 1))).map (·.1)
/-- The task that a launch's end names as the one that faulted (R428). -/
def Hart.isCulprit (h : Hart) (l : Launch) (lid : Nat) : Bool :=
  h.lid = some lid && h.mode = .stopped && l.culprit = if h.lcore = BitVec.allOnes 64 then h.task else h.lcore

/-- LAUNCH_END (R428 steps 3 and 4). -/
def execLaunchEnd (lid : Nat) (s : State) : Out :=
  match s.launch? lid with
  | none => .next s
  | some l =>
    if l.phase ≠ .ending ∨ s.tasksLeft lid then .next s
    else
      let s := s.stopEngines lid
      if s.enginesRun lid ∨ s.callsRun lid then .next s
      else
        let die := hartDie (((s.coresOf lid).find? fun k => (s.hartAt k).isCulprit l lid).getD 0)
        let stopped := (l.members.filter fun e : Nat × Place => match e.2 with | .retired | .unstarted => false | _ => true).length
        let s := (s.coresOf lid).foldl (fun s k =>
          (State.bound { s.setHart k (s.hartAt k).leave with away := s.away ++ (s.hartAt k).postsAway lid k } k 0).dropSetfe k) s
        .next ((s.closeLaunch lid l).log .event 0x03 (srcBarista die) [word (lid % 2 ^ 32), word l.retired, word stopped, l.culprit])

end Sys2Proof.Machine
end

