-- ==== Sys2Proof/Machine/EventsNet.lean ====
section
/-! DEFINITION. The network ports, the die links, the expanders and the host links (09 R175, R179, 16 R333, 23 R409–R415): messages received, reads for a
peer, answers to NET commands, sessions lost and rekeyed, links going down. -/

namespace Sys2Proof.Machine

/-! ### Sessions (R412–R415) -/

/-- Units of module time in a second (R6). -/
def second : Nat := 3600000000

/-- The session carries traffic (R412). -/
def State.sessionLive (s : State) (die n : Nat) : Bool := s.sessionState die n = 1 || s.sessionState die n = 2
/-- TXPKT (R412). -/
def State.txpkt (s : State) (die n : Nat) : Nat := s.ctlNum (sessionPa die n + 56) 8

/-- End every command of a selection with LINK (R175): code 2 and word 4. -/
def State.linkCopies (s : State) (which : Cmd → Bool) (w4 : Cmd → Nat) : State :=
  (s.harts.flatMap fun x : Nat × Hart => (x.2.copyq.filter fun c => !c.finished && c.op ≠ .stamp && which c).map fun c => (x.1, c)).foldl
    (fun s (x : Nat × Cmd) => s.abortCmd x.1 x.2.id 2 (w4 x.2) true) s

/-- The exchange's checks hold (R415): the hash of the peer's identity key is PEERID, and its signature of the transcript verifies. -/
def exchangeOk (x : Exchange) (peerid : Nat) : Bool :=
  (Config.digest (bvBytes x.peerKey)).toNat % 2 ^ 256 = peerid && Config.verifies x.peerKey x.transcript x.sig
/-- The key and nonce salt that it yields (R415). -/
def exchangeKey (x : Exchange) : BitVec 288 := (Config.digest (bvBytes x.secret ++ x.transcript)).setWidth 288

/-! ### The peer's side of NET commands (R179, R333) -/

/-- The launch that a message names. -/
def State.peerLid (s : State) (die : Nat) (m : NetMsg) : Nat := s.partOf die * 2 ^ 32 + m.launch % 2 ^ 32
def State.peerLaunch (s : State) (die : Nat) (m : NetMsg) : Option Launch :=
  (s.launch? (s.peerLid die m)).filter fun l => l.phase ≠ .done && l.phase ≠ .retired
/-- The core of the member a message names, the port's own die where it has none. -/
def State.peerCore (s : State) (die : Nat) (m : NetMsg) : Nat :=
  match s.placeOf (s.peerLid die m) m.lcore with
  | .resident k | .stopped k | .saved _ k => k
  | _ => 64 * die
/-- The address space of a peer record (R387): hart, ASID and root of the member's core while it is resident, else the partition's (log 12). -/
def State.peerSpace (s : State) (die : Nat) (m : NetMsg) : Nat × Nat × Word :=
  match s.placeOf (s.peerLid die m) m.lcore with
  | .resident k => (k, wf (s.hartAt k).asid 0 16, (s.hartAt k).ptroot)
  | _ => (512, (s.policy (s.partOf die)).asid, (s.policy (s.partOf die)).ptroot)
/-- Translation of a peer record's G address. -/
def State.peerPage (s : State) (die : Nat) (m : NetMsg) (va : Nat) : Except Cause Page :=
  let (k, asid, root) := s.peerSpace die m
  s.translate (if k < 512 then hartDie k else die) k asid root (word va)

/-- The window of a message as a command that reads (`get`) or writes it. -/
def State.peerCmd (s : State) (die : Nat) (m : NetMsg) (r : Rec) : Cmd :=
  let o := (List.range 6).map fun i => BitVec.ofInt 32 (m.origin.getD i 0)
  { id := 0, op := .netGet, nb := false, cmd := word (m.contrib % 64 * 2 ^ 42 + m.bar % 1024 * 2 ^ 32), aux := 0, org := vreg (o ++ [0, 0] ++ o), src := r, dst := r,
    pages := [], asid := 0, wrote := [], seen := [], lid := some (s.peerLid die m), member := m.lcore, lcore := m.lcore, core := s.peerCore die m, started := true, parts := [], errs := [],
    finished := false, confirmed := 0, closed := false }

/-- The pages of a window, or a translation failure. -/
def State.peerPages (s : State) (die : Nat) (m : NetMsg) (get : Bool) (l : List Loc) : Option (List Probed) :=
  (pageNeeds 0 get (!get) l).foldr (fun n acc => match acc, s.peerPage die m n.va with
    | some t, .ok p =>
      if p.cls = 0 ∧ (if get then p.r else p.w) then some ({ vpn := n.va / 4096, ppn := p.pa / 4096, cpol := p.cpol, key := p.key, size := p.size } :: t) else none
    | _, _ => none) (some [])

/-- What the walks for the pages of places leave at the slices (R387, R393). -/
def State.peerWalks (s : State) (die : Nat) (m : NetMsg) (get : Bool) (l : List Loc) : State :=
  let (k, asid, root) := s.peerSpace die m
  let d := if k < 512 then hartDie k else die
  (pageNeeds 0 get (!get) l).foldl (fun t n => if !canonical (word n.va) ∨ s.cached d k asid (n.va % 2 ^ 57) ≠ [] then t else t.walked d 0 root (n.va % 2 ^ 57)) s

/-- A scratchpad place that the port may use: a declared bank in SCRATCH, or in FIFO for a write. -/
def State.peerSpot (s : State) (c : Cmd) (get : Bool) (scr : Nat) (x : Loc) : Bool :=
  match x with
  | .g _ => true
  | .l o =>
    let st := s.storage c.lid c.member c.core
    st = .gone || (o / bankSize < scr && ((s.stBank st (o / bankSize)).mode = .scratch || (!get && (s.stBank st (o / bankSize)).mode = .fifo)))
  | _ => false

/-- The window that a message names, as a command, or the cause of NETREF: 1 record absent, 2 window outside bounds, 3 translation, 4 launch gone
(the numbers are the model's, log 21). -/
def State.peerWindow (s : State) (die : Nat) (m : NetMsg) (get : Bool) : Except Nat Cmd :=
  match s.peerLaunch die m with
  | none => .error 4
  | some l => match Tab.find l.lrecs m.record with
    | none => .error 1
    | some r =>
      let c := s.peerCmd die m r
      let inside := (List.range (winSize r)).all fun i => insideT r (coordsAt r c.so i)
      let locs := if get then srcLocs r c.so false else dstLocs c
      if recSpace r = 2 ∨ !inside ∨ !locs.all (s.peerSpot c get l.scratch) then .error 2
      else match s.peerPages die m get locs with
        | none => .error 3
        | some pages => .ok { c with pages := pages }

/-- The peer logs NETREF and answers with a refusal (R333). -/
def State.netRefuse (s : State) (die : Nat) (m : NetMsg) (cause : Nat) : State :=
  (s.log .event 0x43 (srcNet die) [word m.session, word cause]).netSend die m.session m.tag [1]

/-- Places of a message's window: where it is written, or read. -/
def Cmd.netLocs (c : Cmd) (get : Bool) : List Loc := if get then srcLocs c.src c.so false else dstLocs c
/-- The port waits for a place: a bank engine holds its channel (R200), or the slot of its slice is a D2 task's (R129). -/
def State.netBlocked (s : State) (l : List Site) : Bool :=
  l.any fun x => match x with
    | .pa a _ _ => s.deferred a 1 || !s.mayUse 512 false a
    | _ => false
/-- A packet or read waits with the others of its port. -/
def State.netHold (s : State) (x : Bool × Nat × NetMsg) : State := if s.netHeld.contains x then s else { s with netHeld := s.netHeld ++ [x] }
def State.netUnhold (s : State) (x : Bool × Nat × NetMsg) : State := { s with netHeld := s.netHeld.filter (· ≠ x) }

/-- The bytes of a packet with their places in the window's stream: as they are sent, or expanded from chunk slots, with the numbers of the bad chunks
(R333). -/
def packetBytes (m : NetMsg) (r : Rec) : List (Nat × Byte) × List Nat :=
  if m.codec = .raw then (((m.stream.take (streamSize r - m.first)).zipIdx m.first).map fun x => (x.2, x.1), [])
  else
    let k0 := m.first / 4096
    let at_ (i : Nat) : Option (List Byte) := expandChunk ((m.stream.drop (4160 * i)).take 4160)
    let is := List.range (min ((m.stream.length + 4159) / 4160) (chunkCount r - k0))
    (is.flatMap fun i => ((shareOf (chunkShare r (k0 + i)) (at_ i)).zipIdx (4096 * (k0 + i))).map fun x => (x.2, x.1),
     (is.filter fun i => (at_ i).isNone).map fun i => k0 + i)

/-- The message that a packet belongs to, as far as it has come. -/
def State.netWait (s : State) (die : Nat) (m : NetMsg) : Option NetWait :=
  s.netIn.find? fun w => w.die = die && w.msg.session = m.session && w.msg.tag = m.tag
def State.setNetWait (s : State) (w : NetWait) : State :=
  { s with netIn := (s.netIn.filter fun x => !(x.die = w.die && x.msg.session = w.msg.session && x.msg.tag = w.msg.tag)) ++ [w] }
def NetWait.fresh (die : Nat) (m : NetMsg) : NetWait :=
  { die := die, msg := { m with stream := [], bad := [] }, got := [], done := false, buf := [], lost := 0, held := false }
/-- The part of a message. -/
def NetWait.part (w : NetWait) : Part := { Part.fresh none with buf := w.buf, lost := w.lost, held := w.held }
/-- Every byte of the window's stream has come. -/
def NetWait.whole (w : NetWait) (r : Rec) : Bool := streamSize r ≤ (w.got.map (·.2)).sum

/-- The INFL count that a message holds is given back (R176): it has been refused, or its session is over (log 21). -/
def State.netGive (s : State) (w : NetWait) : State :=
  let c := s.peerCmd w.die w.msg 0
  let st := s.partStore c (Part.fresh none)
  match if w.held then s.stBar st c.barIx else none with
  | some b => s.stSetBar st c.barIx { b with infl := b.infl - 1 }
  | none => s

/-- Commands of a session end as LINK, network (R175, R414); what has come of its messages stays, and the rest does not come. -/
def State.dropSession (s : State) (die n : Nat) : State :=
  let t := s.linkCopies (fun c => c.network && hartDie c.core = die && c.session = n) fun _ => 8
  let of (w : NetWait) : Bool := w.die = die && w.msg.session = n
  let t := (t.netIn.filter of).foldl State.netGive t
  { t with netIn := t.netIn.filter (fun w => !of w), netHeld := t.netHeld.filter fun x => !(x.2.1 = die && x.2.2.session = n) }

/-- SESSION_LOST (R414): no packet acknowledged for 10 s. -/
def execSessionLost (die session : Nat) (s : State) : Out :=
  .next (if s.sessionLive die session ∧ (s.sessKey die session).acked + 10 * second ≤ s.time then
    (s.setSessionState die session 3).dropSession die session else s)

/-- REKEY (R415): with TXPKT at 2^32 the exchange begins with STATE 2; when it ends a fresh key is installed and the old one stays for 1 s. A failed check leaves
STATE at 0, as at an opening, and commands that run end with the session (log 21). -/
def execRekey (die : Nat) (r : Rekeying) (s : State) : Out :=
  let session := r.session
  .next (if s.sessionState die session = 1 ∧ 2 ^ 32 ≤ s.txpkt die session then s.setSessionState die session 2
    else match r.exchange with
      | some x =>
        if s.sessionState die session ≠ 2 then s
        else if !exchangeOk x (s.ctlNum (sessionPa die session + 24) 32) then (s.setSessionState die session 0).dropSession die session
        else
          let k := s.sessKey die session
          ((s.setSessKey die session { k with key := exchangeKey x, old := some k.key, expiry := s.time + second }).setCtl (sessionPa die session + 56) 8 0).setSessionState die session 1
      | none => s)

/-- OLD_KEY_EXPIRY (R415). -/
def execOldKeyExpiry (die session : Nat) (s : State) : Out :=
  let x := s.sessKey die session
  .next (if x.old.isSome ∧ x.expiry ≤ s.time then s.setSessKey die session { x with old := none } else s)

/-- The last byte of a message is written: its arrival, with bit CONTRIB, the INFL count given back if it was taken (R176), or BARFREE for what no barrier
counted; and the confirmation to the sender (R179, R333). -/
def State.netArrive (s : State) (die : Nat) (m : NetMsg) (c : Cmd) (p : Part) : State :=
  let st := s.partStore c p
  let s := match s.countBar st c.barIx 0 1 (some (m.contrib % 64)) 0 with
    | some t =>
      let t := match t.stBar st c.barIx with
        | some b => if p.held then t.stSetBar st c.barIx { b with infl := b.infl - 1 } else t
        | none => t
      if p.lost = 0 then t else t.log .event 0x40 (srcNet die) [word c.barIx, word (m.contrib % 64), word p.lost]
    | none => s.log .event 0x40 (srcNet die) [word c.barIx, word (m.contrib % 64), word p.lost]
  s.netSend die m.session m.tag [0]

/-- A message goes on: bytes that wait for a FIFO bank as far as it has room (R81); with the last byte of the window its arrival. Until then it holds one INFL count
of its barrier (R176). -/
def State.netGoOn (s : State) (m : NetMsg) (c : Cmd) (w : NetWait) : State :=
  let (s, p) := s.flushAll c (w.whole c.dst) w.part
  -- Copies of the core's own engine come before it in a cycle (R177).
  let s := s.setHart c.core { s.hartAt c.core with barTurn := max 1 (s.hartAt c.core).barTurn }
  if w.whole c.dst ∧ p.buf.isEmpty then (s.netArrive w.die m c p).setNetWait { w with done := true, buf := [], lost := 0, held := false }
  else
    let st := s.partStore c p
    let (s, held) : State × Bool := match s.stBar st c.barIx with
      | some b => if p.held then (s, true) else (s.stSetBar st c.barIx { b with infl := sat16 (b.infl + 1) }, true)
      | none => (s, p.held)
    s.setNetWait { w with buf := p.buf, lost := p.lost, held := held }

/-- Bytes of a packet are written and counted, bad chunks reported (R333); bytes that the sender took from damaged sectors set ERROR and make an entry of the copy error
log, whose sector the receiver does not know (R395; log 21). -/
def State.netWrite (s : State) (die : Nat) (m : NetMsg) (c : Cmd) (w : NetWait) : State × NetWait :=
  let (data, bad) := packetBytes m c.dst
  let l := outBytes c.dst c.do_ (data.flatMap fun x => spreadStream c.dst x.1 [x.2])
  let (t, c, p, es) := s.putAll c.core c w.part l (if bad.isEmpty then 0 else fBadChunk)
  let es := es ++ m.bad.map fun i => ({ code := 1, w4 := 0, bytes := 1, first := streamIx c.dst (m.first + i) } : CopyErr)
  let flags := (if bad.isEmpty then 0 else fBadChunk) ||| (if es.isEmpty then 0 else fError)
  let (t, p) := t.countPart c p (l.length - (p.buf.length - w.buf.length)) flags
  let t := bad.foldl (fun t k => t.log .event 0x42 (srcNet die) [word m.session, word k]) t
  let t := t.logErrs { c with op := .netPut .raw, errs := addErrs [] es } fun _ => true
  (t, { w with got := w.got ++ [(m.first, data.length)], buf := p.buf, lost := p.lost, held := p.held })

/-- NET_RECEIVE (R179, R333, R413): the port takes a packet under a key of the session, writes its bytes and counts them; the arrival follows the last byte of the
message, in whatever order its packets come. A packet written before is discarded, a packet for a FIFO bank that comes before its turn is left to be sent again
(R81, log 21), and one that has to wait for a place comes again. -/
def execNetReceive (die : Nat) (m : NetMsg) (s : State) : Out :=
  let s := s.netUnhold (false, die, m)
  let w := (s.netWait die m).getD (NetWait.fresh die m)
  let again : Bool := w.got.any fun g => g.1 = m.first
  if !s.sessionLive die m.session ∨ w.done ∨ (again ∧ w.buf.isEmpty) ∨ (!again ∧ !(s.sessKey die m.session).accepts m.key s.time) then .next s
  else match s.peerWindow die m false with
    | .error cause => .next (((s.netRefuse die m cause).netGive w).setNetWait { w with done := true, buf := [], held := false })
    | .ok c =>
      if again then .next (s.netGoOn w.msg c w)
      else
        let sites := (outBytes c.dst c.do_ ((packetBytes m c.dst).1.flatMap fun x => spreadStream c.dst x.1 [x.2])).map fun b => s.siteOf c none b.loc
        if s.netBlocked sites then .next (s.netHold (false, die, m))
        else if sites.any s.ringSite ∧ m.first ≠ (w.got.map (·.2)).sum then .next s
        else
          let (t, w) := (if w.got.isEmpty then s.peerWalks die m false (c.netLocs false) else s).netWrite die m c w
          .next (t.netGoOn m c w)

/-- NET_GET_READ (R333): the peer port reads each sector as its home slice holds it; damaged sectors read as zeros, and the places of their bytes follow in an
answer of their own (R395; log 21). -/
def execNetGetRead (die : Nat) (m : NetMsg) (s : State) : Out :=
  let s := s.netUnhold (true, die, m)
  if !s.sessionLive die m.session ∨ !(s.sessKey die m.session).accepts m.key s.time then .next s
  else match s.peerWindow die m true with
    | .error cause => .next (s.netRefuse die m cause)
    | .ok c =>
      let got := (List.range (streamSize c.src)).map fun j => s.streamVal c j
      let sites := s.sitesOf c (got.flatMap fun g => g.locs)
      if s.netBlocked sites then .next (s.netHold (true, die, m))
      else
        let bad := (List.range got.length).filter fun j => (s.siteErrs (s.sitesOf c ((got.map (·.locs)).getD j []))) ≠ []
        let s := ((s.peerWalks die m true (c.netLocs true)).touchSites c sites).netSend die m.session m.tag (got.map fun g => BitVec.ofNat 8 g.val)
        .next (if bad.isEmpty then s else s.netSend die m.session m.tag (2 :: bad.flatMap (bytesOf 8)))

/-! ### Answers to the issuer (R333) -/

/-- The NET command that an answer of the peer names, if it waits for one. -/
def State.netCmd (s : State) (k id : Nat) (get : Bool) : Option Cmd :=
  ((s.hartAt k).cmd? id).filter fun c => c.started && !c.finished && !c.closed && (match c.op with | .netPut _ => !get | .netGet => get | _ => false)

/-- NET_PUT_CONFIRM (R333): the local barrier counts confirmed bytes; the arrival follows when the last is confirmed (COMMAND_COMPLETE). -/
def execNetPutConfirm (k : Nat) (a : NetReply) (s : State) : Out :=
  match s.netCmd k a.cmd false with
  | none => .next s
  | some c =>
    let s := s.ackSession (hartDie c.core) c.session
    match a.what with
    | .refused => .next (s.abortCmd k c.id 4 c.session false)
    | .bytes n last =>
      let p := (c.part? none).getD (Part.fresh none)
      let n := min n (min (streamSize c.src) (4096 * p.next) - c.confirmed)
      let (s, p) := s.countPart c p n 0
      let c : Cmd := { c with confirmed := c.confirmed + n, closed := last && c.confirmed + n = streamSize c.src }
      .next (s.setCmd k (c.setPart p))

/-- NET_GET_DATA (R333): the next bytes of the stream arrive, are written and counted with bit CONTRIB. Those at the places `a.bad` the peer took from damaged
sectors: they are zeros and set ERROR (R395; log 21). -/
def execNetGetData (k : Nat) (a : NetReply) (bytes : List Byte) (s : State) : Out :=
  match s.netCmd k a.cmd true with
  | none => .next s
  | some c =>
    let s := s.ackSession (hartDie c.core) c.session
    match a.what with
    | .refused => .next (s.abortCmd k c.id 4 c.session false)
    | .bytes _ last =>
      let p := (c.part? none).getD (Part.fresh none)
      let d := bytes.take (streamSize c.dst - c.confirmed)
      let l := outBytes c.dst c.do_ (spreadStream c.dst c.confirmed d)
      let (s, c, q, es) := s.putAll k c p l 0
      let es := es ++ (a.bad.filter (· < d.length)).map fun i => ({ code := 1, w4 := 0, bytes := 1, first := streamIx c.dst (c.confirmed + i) } : CopyErr)
      let (s, p) := s.countPart c q (l.length - (q.buf.length - p.buf.length)) (if es.isEmpty then 0 else fError)
      let (s, p) := s.flushAll c false p
      let n := c.confirmed + d.length
      let c : Cmd := { c with confirmed := n, closed := last && n = streamSize c.dst, errs := addErrs c.errs es }
      .next (s.setCmd k (c.setPart { p with next := n }))

/-! ### Links (R409–R411, R175) -/

/-- The command runs over the link. -/
def State.crosses (s : State) (bit : Nat) (c : Cmd) : Bool :=
  c.started && (s.cmdDies c).any fun e => match s.route (hartDie c.core) e with | some l => l.contains bit | none => false
/-- Calls that an executor of another die has not answered to their caller's die, with their executor. -/
def State.openCalls (s : State) : List (Nat × Call) :=
  let l : List (Nat × Call) := (s.msgs.filterMap fun m => match m.body with
      | .call c => some (m.home, c)
      | _ => none)
    ++ (s.execs.flatMap fun x : Nat × Executor => (x.2.queue ++ x.2.records.map (·.call) ++ x.2.ended.map fun e => e.2.call).map fun c => (x.1, c))
    ++ s.harts.filterMap fun x : Nat × Hart => x.2.call.map fun c => ((x.1 - 512) / 16, c)
  (l.filter fun x => s.awaited x.2 && x.2.die ≠ x.1 / 16).eraseDups
/-- Calls in flight on a link that goes down may be sent again on the new route, ahead of every later message (R164, R411): which of them, the die's
link-level retry decides, a free choice (log 4). -/
def State.sendAgain (s : State) (bit : Nat) : State :=
  (s.openCalls.filter fun x => match s.route x.2.die (x.1 / 16) with | some l => l.contains bit | none => false).foldl (fun s x =>
    let (n, s) := s.draw
    if !Config.coin n then s
    else
      let (id, s) := s.fresh
      let m : Msg := { id := id, hart := x.2.hart, landing := 0, rid := x.2.caller, lid := x.2.lid, member := x.2.member, home := x.1, time := s.time,
                       body := .call x.2, again := true }
      { s with msgs := m :: s.msgs }) s

/-- Parked requests whose requester can no longer reach the slice leave it with GONE (R411). -/
def State.dropUnreachable (s : State) : State :=
  s.slices.foldl (fun s z =>
    let (out, stay) := (s.sliceAt z.1).parked.partition fun m => (s.route (hartDie m.hart) (z.1 / 16)).isNone
    if out.isEmpty then s
    else out.foldl (fun s m => s.tsReply m (.tuple 4 0) .module) (s.setSlice z.1 { s.sliceAt z.1 with parked := stay })) s

/-- LINK_DOWN (R410, R411): copy commands that use the link end; everything else takes the new route, calls perhaps a second time; without a route parked requests
are gone. -/
def execLinkDown (i j : Nat) (s : State) : Out :=
  if i < j ∧ j < s.ndie ∧ s.linkUp i j then
    let b := linkBit i j
    let far (c : Cmd) : Nat := if hartDie c.core = i then linkOf i j else if hartDie c.core = j then linkOf j i else linkOf (hartDie c.core) i
    let s := (s.linkCopies (s.crosses b) far).sendAgain b
    .next (State.dropUnreachable { s with links := s.links &&& ~~~ BitVec.ofNat 28 (2 ^ b) })
  else .next s

/-- EXPANDER_FAILURE (R409). -/
def execExpanderFailure (die : Nat) (s : State) : Out :=
  .next (if die < s.ndie ∧ s.hasSect then s.setDie die { s.dieAt die with expanderDown := true } else s)

/-- HOST_LINK_LOST (R175): copies that use the die's host window end as LINK, host. -/
def execHostLinkLost (die : Nat) (s : State) : Out :=
  if (s.dieAt die).hostUp then
    let uses (c : Cmd) : Bool := c.started && c.pages.any fun p => region (p.ppn * 4096) = (.host, die)
    let s := s.linkCopies uses fun _ => 7
    .next (s.setDie die { s.dieAt die with hostUp := false })
  else .next s

end Sys2Proof.Machine
end

