-- ==== Sys2Proof/Machine/Startup.lean ====
section
/-! DEFINITION. Start-up, decaf mode, the security mailbox and the thermal limits (23 R415–R418, 24 R419–R427). -/

namespace Sys2Proof.Machine

/-! ### The start sequence (R419–R423) -/

/-- LINKSTAT's bits of the dies present (R410, R426). -/
def State.linkMask (s : State) : BitVec 28 :=
  (List.range s.ndie).foldl (fun l i => (List.range s.ndie).foldl (fun l j => if i < j then l ||| BitVec.ofNat 28 (2 ^ linkBit i j) else l) l) 0

/-- The module without power, or at a new start: only NVM, the optional units and what lies outside the module stay (log 14); links of the dies present are up. -/
def State.cold (s : State) (stage : Stage) : State :=
  { State.reset with feat := s.feat, hostMem := s.hostMem, inputs := s.inputs, netOut := s.netOut, nextId := s.nextId, nfree := s.nfree, nchoice := s.nchoice, links := s.linkMask,
                     sec := { Security.reset with stage := stage, reason := s.sec.reason, detail := s.sec.detail, starts := s.sec.starts, failrun := s.sec.failrun,
                                                  minVersion := s.sec.minVersion, image := s.sec.image, torn := s.sec.torn } }

/-- Stage 1 begins (R419, R421): module time 0; FAILRUN is tested, then STARTS and FAILRUN count the start. -/
def State.beginStart (s : State) : State :=
  let t := s.cold .rom
  { t with sec := { t.sec with toDecaf := s.sec.failrun = 3, starts := s.sec.starts + 1, failrun := min 3 (s.sec.failrun + 1) } }

/-- A start ends at a stage (R419, R423). -/
def State.startFails (s : State) (stage detail : Nat) : State := { s with sec := { s.sec with stage := .failed stage, reason := stage, detail := detail } }
def State.toStage (s : State) (stage : Stage) : State := { s with sec := { s.sec with stage := stage } }

/-- POWER_ON (R419): stage 1 begins at module time 0. -/
def execPowerOn (s : State) : Out := .next (if s.sec.stage = .off then s.beginStart else s)

/-- ROM (R419, R421, R422): the end of stage 1, and decaf mode if FAILRUN stood at 3 at its beginning. -/
def execRom (pass : Bool) (s : State) : Out :=
  .next (if s.sec.stage ≠ .rom then s
    else if !pass then s.startFails 1 0
    else if s.sec.toDecaf then (s.toStage .decaf).setDie 0 { s.dieAt 0 with hostUp := true }
    else s.toStage .image)

/-- IMAGE (R419, R420, R423): DETAIL 1 signature, 2 header, 3 version. A partial image fails with 1 or 2, freely (R424). -/
def execImage (s : State) : Out :=
  if s.sec.stage ≠ .image then .next s
  else
    let (n, s) := s.draw
    let c := if Config.imageCheck s.sec.image = 0 ∧ s.sec.torn then (if Config.coin n then 1 else 2) else Config.imageCheck s.sec.image
    let v := Config.imageVersion s.sec.image
    .next (if c ≠ 0 then s.startFails 2 (if c = 1 then 1 else 2)
      else if v < s.sec.minVersion then s.startFails 2 3
      else State.toStage { s with sec := { s.sec with minVersion := v } } .train)

/-- TRAIN (R419): the failing die, if any. -/
def execTrain (fail : Option Nat) (s : State) : Out :=
  if s.sec.stage ≠ .train then .next s
  else .next (match fail with
    | some d => s.startFails 3 d
    | none => State.toStage { s with links := s.linkMask } .part)

/-- Dies of partition p of n (R402). -/
def State.diesOf (s : State) (n p : Nat) : List Nat := (List.range s.ndie).filter fun d => d * n / s.ndie = p
/-- [a, a + n) and [b, b + m) share a number. -/
def overlap (a n b m : Nat) : Bool := n ≠ 0 && m ≠ 0 && a < b + m && b < a + n
/-- Word w of the descriptor of partition p of n, as the image's configuration has it, breaks R404 or R402: another partition or other dies, a number out of its field's
range, a reserved bit, or queues or key slots of an earlier partition. -/
def State.configBreaks (s : State) (n p w : Nat) : Bool :=
  let x := Config.imageWord s.sec.image p w
  let shares (f : Nat → Nat × Nat) : Bool := (List.range p).any fun q => overlap (f x).1 (f x).2 (f (Config.imageWord s.sec.image q w)).1 (f (Config.imageWord s.sec.image q w)).2
  let dies := s.diesOf n p
  match w with
  | 0 => x ≠ p * 256 + (dies.map fun d => 2 ^ d).sum
  | 1 => 2 ^ 33 ≤ x || 65536 < fld x 0 16 + fld x 16 17 || shares fun x => (fld x 0 16, fld x 16 17)
  | 2 => x ≠ ctlBase (dies.headD 0) + offDoorbells
  | 5 => 65536 < x
  | 7 => 2 ^ 25 ≤ x || 4096 < fld x 0 12 + fld x 12 13 || shares fun x => (fld x 0 12, fld x 12 13)
  | 10 => 2 ^ 32 ≤ x || 4096 < fld x 0 16 + fld x 16 16
  | _ => 2 ^ 64 ≤ x || (10 < w && x ≠ 0)
/-- The first descriptor word of a configuration of n partitions that breaks R404. -/
def State.brokenWord (s : State) (n : Nat) : Option Nat :=
  (List.range n).findSome? fun p => (List.range 16).find? fun w => s.configBreaks n p w

/-- Write every partition's descriptor on each of its dies (R404, R419). The other parts of a control region keep the values of their Reset columns (R205, R376, R377, R393,
R396, R412). -/
def State.writeDescriptors (s : State) (n : Nat) : State :=
  (List.range s.ndie).foldl (fun t d => (List.range 16).foldl (fun t w => t.setCtl (ctlBase d + 8 * w) 8 (Config.imageWord s.sec.image (d * n / s.ndie) w)) t)
    { s with described := true }

/-- PART (R419, R402, R404): a descriptor word that breaks R404 fails the start with its number, a number of partitions that breaks R402 with DETAIL 0. Where several
words break it the rules do not say which is named: `fail`, if it is one of them, else the first. -/
def execPart (fail : Option Nat) (s : State) : Out :=
  if s.sec.stage ≠ .part then .next s
  else
    let n := Config.imageParts s.sec.image
    .next (if !((n = 1 ∨ n = 2 ∨ n = 4 ∨ n = 8) ∧ n ≤ s.ndie) then s.startFails 4 0
      else match s.brokenWord n with
        | some w => s.startFails 4 ((fail.filter fun v => (List.range n).any fun p => v < 16 && s.configBreaks n p v).getD w)
        | none => State.toStage { s.writeDescriptors n with nparts := n } .host)

/-- Die d's host port is up, with a host base that firmware takes from the host (R405; a free value). -/
def State.bringUp (s : State) (d : Nat) : State :=
  let (n, s) := s.draw
  s.setDie d { s.dieAt d with hostUp := true, hostBase := Config.freeWord n }

/-- HOST (R419, R405, R407): host ports and their bases; then the management cores start. -/
def execHost (pass : Bool) (s : State) : Out :=
  if s.sec.stage ≠ .host then .next s
  else if !pass then .next (s.startFails 5 0)
  else
    let s := (List.range s.ndie).foldl State.bringUp s
    .next { s with sec := { s.sec with stage := .barista, baristaSince := s.time } }

/-- BARISTA (R419): a die's management cores report ready within 1 s. -/
def execBarista (die : Nat) (s : State) : Out :=
  .next (if s.sec.stage = .barista ∧ die < s.ndie ∧ s.time < s.sec.baristaSince + second then s.setDie die { s.dieAt die with baristaUp := true } else s)

/-- Every die's management cores have reported ready. -/
def State.allReady (s : State) : Bool := (List.range s.ndie).all fun d => (s.dieAt d).baristaUp

/-- BARISTA_READY_LIMIT (R419). -/
def execBaristaReadyLimit (s : State) : Out :=
  .next (if s.sec.stage = .barista ∧ s.sec.baristaSince + second ≤ s.time ∧ !s.allReady then s.startFails 6 0 else s)

/-- What a partition's barista loads at a bind: free values (log 12). -/
def State.givePolicy (s : State) (p : Nat) : State :=
  let (n, s) := s.draw
  let w (i : Nat) : Word := Config.freeWord (n + i)
  let x : Policy := { ptroot := word (wf (w 0) 12 40 * 4096), asid := wf (w 1) 0 16, hbase := word (wf (w 2) 12 40 * 4096), deleg := BitVec.ofNat 32 (w 3).toNat,
                      chklat := (w 4).getLsbD 0 }
  { s with policies := Tab.put s.policies p x, nfree := s.nfree + 4 }

/-- READY (R419, R421, R423): FAILRUN and REASON clear; queues are served from here on. -/
def execReady (s : State) : Out :=
  if s.sec.stage = .barista ∧ s.allReady then
    let s := (List.range s.nparts).foldl State.givePolicy s
    .next { s with sec := { s.sec with stage := .ready, failrun := 0, reason := 0, detail := 0 } }
  else .next s

/-- Power goes: a start that had not reached READY has failed (R421); an IMGLOAD in progress leaves a part of its image (R424). -/
def State.powerDown (s : State) : State :=
  let (n, s) := s.draw
  let image := match s.sec.loading with
    | some b => b.take ((Config.freeWord n).toNat % (b.length + 1)) ++ s.sec.image.drop ((Config.freeWord n).toNat % (b.length + 1))
    | none => s.sec.image
  let reason := match s.sec.stage with
    | .rom | .image | .train | .part | .host | .barista => s.sec.stage.number
    | _ => s.sec.reason
  State.cold { s with sec := { s.sec with image := image, reason := reason, torn := s.sec.torn || s.sec.loading.isSome } } .off

/-- POWER_LOSS (R421). -/
def execPowerLoss (s : State) : Out := .next s.powerDown

/-! ### The security mailbox (R416–R418, R422, R424) -/

/-- The mailbox serves commands, in READY and in decaf mode. -/
def State.mailbox (s : State) : Bool := s.sec.stage = .ready || s.sec.stage = .decaf
def State.setStatus (s : State) (n : Nat) : State := { s with sec := { s.sec with status := n } }
/-- A command that fails: STATUS 2. -/
def State.refuse (s : State) : State := s.setStatus 2
/-- A command is running: an IMGLOAD (R416). -/
def State.mailRuns (s : State) : Bool := s.sec.loading.isSome
/-- A command that is submitted while another runs, or behind one that waits, waits for it (R416). -/
def State.mailed (s : State) (c : MailCmd) (run : State → State) : State :=
  if !s.mailbox then s
  else if s.mailRuns ∨ !s.sec.cmds.isEmpty then { s with sec := { s.sec with cmds := s.sec.cmds ++ [c] } }
  else run s

/-- Bytes of words of all partition descriptors. -/
def State.descriptorBytes (s : State) (words : List Nat) : List Byte :=
  (List.range s.nparts).flatMap fun p => words.flatMap fun w => bytesOf 8 (s.partWord p w)
/-- The configuration of links and ports, as the report measures it: LINKSTAT, and of each die its host port and host base (R405, R407, R410, log 15). -/
def State.portBytes (s : State) : List Byte :=
  bytesOf 8 s.links.toNat ++ (List.range s.ndie).flatMap fun d => bytesOf 8 (if (s.dieAt d).hostUp then 1 else 0) ++ bytesOf 8 (s.dieAt d).hostBase.toNat

/-- The cupping report without its signature (R418). -/
def State.report (s : State) (nonce : BitVec 256) : List Byte :=
  let decaf := if s.sec.stage = .decaf then 1 else 0
  let measured : List (List Byte) := [Config.coreFirmware, s.sec.image, Config.baristaFirmware, s.descriptorBytes (List.range 16), s.portBytes, s.descriptorBytes [7]]
  bytesOf 8 1 ++ bytesOf 8 s.time ++ bvBytes nonce ++ bvBytes Config.identityKey ++ List.replicate 7 0 ++ bytesOf 8 s.sec.starts.toNat
    ++ bytesOf 8 (wf s.feat 0 8 * 65536 + s.nparts * 256 + decaf) ++ measured.flatMap fun m => bvBytes (Config.digest m)

/-- A die that runs: in decaf mode the others are held in reset (R422). -/
def State.dieRuns (s : State) (d : Nat) : Bool := d < s.ndie && (s.sec.stage ≠ .decaf || d = 0)
/-- [pa, pa + n) lies in HBM of the partition (R418), on dies that run. -/
def State.inHbm (s : State) (part pa n : Nat) : Bool :=
  [pa, pa + n - 1].all fun a => (region a).1 = .hbm && s.installed a && s.dieRuns (region a).2 && s.partOf (region a).2 = part

/-- CUPPING as it runs (R418). -/
def State.cupping (part addr : Nat) (nonce : BitVec 256) (s : State) : State :=
  if !s.inHbm part addr 626 then s.refuse
  else
    let r := s.report nonce
    (s.putBytes addr (r ++ bvBytes (Config.signature r))).setStatus 0

/-- The die and session are the submitter's (R404, R416). -/
def State.ownsSession (s : State) (part die n : Nat) : Bool := die < s.ndie && s.partOf die = part && s.sessionOwned die n

/-- SESSOPEN as it runs (R412, R415, R416): the entry is written, the exchange checked and the key derived; a failed check leaves STATE at 0. -/
def State.sessopen (part die session : Nat) (peeraddr : Word) (peerid : BitVec 256) (peerpart peerlaunch : Nat) (x : Exchange) (s : State) : State :=
  if s.sec.stage = .decaf ∨ !s.ownsSession part die session then s.refuse
  else
    let a := sessionPa die session
    let s := (s.setCtl (a + 8) 8 peeraddr.toNat).setCtl (a + 16) 8 (peerpart % 8 * 2 ^ 32 + peerlaunch % 2 ^ 32)
    let s := (s.setCtl (a + 24) 32 peerid.toNat).setCtl (a + 56) 8 0
    if !exchangeOk x peerid.toNat then (s.setSessionState die session 0).setStatus 3
    else ((s.setSessKey die session { key := exchangeKey x, old := none, expiry := 0, acked := s.time }).setSessionState die session 1).setStatus 0

/-- SESSCLOSE as it runs (R416): STATE 0; running commands end as in R414. -/
def State.sessclose (part die session : Nat) (s : State) : State :=
  if s.sec.stage = .decaf ∨ !s.ownsSession part die session then s.refuse
  else ((s.setSessionState die session 0).dropSession die session).setStatus 0

/-- The lines of a key slot leave the L1s, dirty ones written back under the key that goes (R417). -/
def State.dropKey (s : State) (slot : Nat) : State :=
  s.harts.foldl (fun s x => (x.2.l1.filter fun e => e.2.key = slot).foldl (fun s e => s.evictLine x.1 e.1) s) s
/-- KEYSLOT as it runs (R416, R417, R426): a fresh key, so that no sector stored under the old one keeps its tag, in a cache or behind it. -/
def State.keyslot (part slot : Nat) (s : State) : State :=
  if s.sec.stage = .decaf ∨ !s.hasMenc ∨ slot = 0 ∨ s.nparts ≤ part ∨ !s.keyOk (s.lowestDie part) slot then s.refuse
  else
    let s := s.dropKey slot
    State.setStatus { s with sec := { s.sec with keyGen := Tab.set 0 s.sec.keyGen slot (s.keyGenOf slot + 1) } } 0

/-- IMGLOAD begins to write the image (R424); it runs until `imageWritten`. -/
def State.imgload (part pa len : Nat) (s : State) : State :=
  if (s.sec.stage = .ready ∧ part ≠ 0) ∨ len = 0 ∨ 2 ^ 37 < pa + len then s.refuse
  else { s.setStatus 1 with sec := { (s.setStatus 1).sec with loading := some ((List.range len).map fun i => s.byteAt (pa + i)) } }
/-- The image of the IMGLOAD that runs stands whole in NVM. -/
def State.imageWritten (s : State) : State :=
  match s.sec.loading with
  | some b => { s with sec := { s.sec with image := b, loading := none, torn := false, status := 0 } }
  | none => s

/-- RESTART as it runs (R424): FAILRUN 0, a new start from stage 1. -/
def State.restart (s : State) : State := State.beginStart { s with sec := { s.sec with failrun := 0 } }

/-- A command runs. -/
def State.runMail (c : MailCmd) (s : State) : State :=
  match c with
  | .cupping part addr nonce => s.cupping part addr nonce
  | .sessopen part die session peeraddr peerid peerpart peerlaunch x => s.sessopen part die session peeraddr peerid peerpart peerlaunch x
  | .sessclose part die session => s.sessclose part die session
  | .keyslot part slot => s.keyslot part slot
  | .imgload part pa len => s.imgload part pa len
  | .restart => s.restart
/-- The first waiting command runs, if none runs now (R416). -/
def State.nextMail (s : State) : State :=
  match s.sec.cmds with
  | c :: rest => if s.mailRuns ∨ !s.mailbox then s else State.runMail c { s with sec := { s.sec with cmds := rest } }
  | [] => s

/-- CUPPING (R416, R418). -/
def execCupping (part addr : Nat) (nonce : BitVec 256) (s : State) : Out := .next (s.mailed (.cupping part addr nonce) (State.cupping part addr nonce))
/-- SESSOPEN (R416). -/
def execSessopen (part die session : Nat) (peeraddr : Word) (peerid : BitVec 256) (peerpart peerlaunch : Nat) (x : Exchange) (s : State) : Out :=
  .next (s.mailed (.sessopen part die session peeraddr peerid peerpart peerlaunch x) (State.sessopen part die session peeraddr peerid peerpart peerlaunch x))
/-- SESSCLOSE (R416). -/
def execSessclose (part die session : Nat) (s : State) : Out := .next (s.mailed (.sessclose part die session) (State.sessclose part die session))
/-- KEYSLOT (R416). -/
def execKeyslot (part slot : Nat) (s : State) : Out := .next (s.mailed (.keyslot part slot) (State.keyslot part slot))
/-- IMGLOAD (R424). -/
def execImgload (part pa len : Nat) (s : State) : Out := .next (s.mailed (.imgload part pa len) (State.imgload part pa len))
/-- RESTART (R424). -/
def execRestart (s : State) : Out := .next (s.mailed .restart State.restart)

/-! ### Temperature (R427) -/

def State.therm (s : State) (die temp w3 : Nat) : State := s.log .event 0x60 (srcBarista die) [word temp, word w3]

/-- BINDING_STOP: a die reaches 100 °C. -/
def execBindingStop (die temp : Nat) (s : State) : Out :=
  .next (if s.dieRuns die ∧ 100 ≤ temp ∧ !(s.dieAt die).bindStop then (s.setDie die { s.dieAt die with bindStop := true }).therm die temp 1 else s)

/-- BINDING_RESUME: it falls below 95 °C. -/
def execBindingResume (die temp : Nat) (s : State) : Out :=
  .next (if s.dieRuns die ∧ temp < 95 ∧ (s.dieAt die).bindStop then (s.setDie die { s.dieAt die with bindStop := false }).therm die temp 2 else s)

/-- POWER_REMOVAL: at 110 °C the module removes its own power. -/
def execPowerRemoval (die temp : Nat) (s : State) : Out := .next (if die < s.ndie ∧ 110 ≤ temp then s.powerDown else s)

end Sys2Proof.Machine
end

