-- ==== Sys2Proof/Machine/Dispatch.lean ====
section
/-! DEFINITION. One arm per operation: a direct call of its meaning. -/

namespace Sys2Proof.Machine

def exec (i : Instr) (s : State) : Host.Outcome State Fault Refusal :=
  match i with
  | .nop => Sys2Proof.Machine.execNop s
  | .add d a b => Sys2Proof.Machine.execAdd d a b s
  | .addI d a im => Sys2Proof.Machine.execAddI d a im s
  | .sub d a b => Sys2Proof.Machine.execSub d a b s
  | .subI d a im => Sys2Proof.Machine.execSubI d a im s
  | .mul d a b => Sys2Proof.Machine.execMul d a b s
  | .mulI d a im => Sys2Proof.Machine.execMulI d a im s
  | .mulh d a b => Sys2Proof.Machine.execMulh d a b s
  | .mulhI d a im => Sys2Proof.Machine.execMulhI d a im s
  | .mulhu d a b => Sys2Proof.Machine.execMulhu d a b s
  | .mulhuI d a im => Sys2Proof.Machine.execMulhuI d a im s
  | .div d a b => Sys2Proof.Machine.execDiv d a b s
  | .divI d a im => Sys2Proof.Machine.execDivI d a im s
  | .divu d a b => Sys2Proof.Machine.execDivu d a b s
  | .divuI d a im => Sys2Proof.Machine.execDivuI d a im s
  | .rem d a b => Sys2Proof.Machine.execRem d a b s
  | .remI d a im => Sys2Proof.Machine.execRemI d a im s
  | .remu d a b => Sys2Proof.Machine.execRemu d a b s
  | .remuI d a im => Sys2Proof.Machine.execRemuI d a im s
  | .and d a b => Sys2Proof.Machine.execAnd d a b s
  | .andI d a im => Sys2Proof.Machine.execAndI d a im s
  | .or d a b => Sys2Proof.Machine.execOr d a b s
  | .orI d a im => Sys2Proof.Machine.execOrI d a im s
  | .xor d a b => Sys2Proof.Machine.execXor d a b s
  | .xorI d a im => Sys2Proof.Machine.execXorI d a im s
  | .andn d a b => Sys2Proof.Machine.execAndn d a b s
  | .andnI d a im => Sys2Proof.Machine.execAndnI d a im s
  | .shl d a b => Sys2Proof.Machine.execShl d a b s
  | .shlI d a im => Sys2Proof.Machine.execShlI d a im s
  | .shr d a b => Sys2Proof.Machine.execShr d a b s
  | .shrI d a im => Sys2Proof.Machine.execShrI d a im s
  | .sar d a b => Sys2Proof.Machine.execSar d a b s
  | .sarI d a im => Sys2Proof.Machine.execSarI d a im s
  | .rotl d a b => Sys2Proof.Machine.execRotl d a b s
  | .rotlI d a im => Sys2Proof.Machine.execRotlI d a im s
  | .min d a b => Sys2Proof.Machine.execMin d a b s
  | .minI d a im => Sys2Proof.Machine.execMinI d a im s
  | .max d a b => Sys2Proof.Machine.execMax d a b s
  | .maxI d a im => Sys2Proof.Machine.execMaxI d a im s
  | .minu d a b => Sys2Proof.Machine.execMinu d a b s
  | .minuI d a im => Sys2Proof.Machine.execMinuI d a im s
  | .maxu d a b => Sys2Proof.Machine.execMaxu d a b s
  | .maxuI d a im => Sys2Proof.Machine.execMaxuI d a im s
  | .clz d a => Sys2Proof.Machine.execClz d a s
  | .ctz d a => Sys2Proof.Machine.execCtz d a s
  | .popc d a => Sys2Proof.Machine.execPopc d a s
  | .sext w d a => Sys2Proof.Machine.execSext w d a s
  | .zext w d a => Sys2Proof.Machine.execZext w d a s
  | .bfx sg d a b => Sys2Proof.Machine.execBfx sg d a b s
  | .bfi d a b c => Sys2Proof.Machine.execBfi d a b c s
  | .sel d pc a b => Sys2Proof.Machine.execSel d pc a b s
  | .cmp cond d a b => Sys2Proof.Machine.execCmp cond d a b s
  | .plog t d a b => Sys2Proof.Machine.execPlog t d a b s
  | .movpPs d a => Sys2Proof.Machine.execMovpPs d a s
  | .movpSp d a => Sys2Proof.Machine.execMovpSp d a s
  | .movpAll d => Sys2Proof.Machine.execMovpAll d s
  | .li d im => Sys2Proof.Machine.execLi d im s
  | .lih d v => Sys2Proof.Machine.execLih d v s
  | .rsr d r => Sys2Proof.Machine.execRsr d r s
  | .wsr r a => Sys2Proof.Machine.execWsr r a s
  | .br cnd c off => Sys2Proof.Machine.execBr cnd c off s
  | .jmp off => Sys2Proof.Machine.execJmp off s
  | .call off => Sys2Proof.Machine.execCall off s
  | .callr nl a => Sys2Proof.Machine.execCallr nl a s
  | .ret => Sys2Proof.Machine.execRet s
  | .loopSet c off => Sys2Proof.Machine.execLoopSet c off s
  | .loop => Sys2Proof.Machine.execLoop s
  | .loopBrk => Sys2Proof.Machine.execLoopBrk s
  | .loopIdx d level => Sys2Proof.Machine.execLoopIdx d level s
  | .endTask => Sys2Proof.Machine.execEndTask s
  | .trap code => Sys2Proof.Machine.execTrap code s
  | .brk code => Sys2Proof.Machine.execBrk code s
  | .bankmode bank mode => Sys2Proof.Machine.execBankmode bank mode s
  | .rbase src => Sys2Proof.Machine.execRbase src s
  | .eret => Sys2Proof.Machine.execEret s
  | .csrr d r => Sys2Proof.Machine.execCsrr d r s
  | .csrw r a => Sys2Proof.Machine.execCsrw r a s
  | .tlbInvAll => Sys2Proof.Machine.execTlbInvAll s
  | .tlbInvAsid b => Sys2Proof.Machine.execTlbInvAsid b s
  | .tlbInvVa a b => Sys2Proof.Machine.execTlbInvVa a b s
  | .tlbPrb d a => Sys2Proof.Machine.execTlbPrb d a s
  | .ctxSv a => Sys2Proof.Machine.execCtxSv a s
  | .ctxLd a => Sys2Proof.Machine.execCtxLd a s
  | .wfe => Sys2Proof.Machine.execWfe s
  | .vfadd rm d a b msk => Sys2Proof.Machine.execVfadd rm d a b msk s
  | .vfsub rm d a b msk => Sys2Proof.Machine.execVfsub rm d a b msk s
  | .vfmul rm d a b msk => Sys2Proof.Machine.execVfmul rm d a b msk s
  | .vfma rm d a b c msk => Sys2Proof.Machine.execVfma rm d a b c msk s
  | .vfms rm d a b c msk => Sys2Proof.Machine.execVfms rm d a b c msk s
  | .vfnma rm d a b c msk => Sys2Proof.Machine.execVfnma rm d a b c msk s
  | .vfmin d a b msk => Sys2Proof.Machine.execVfmin d a b msk s
  | .vfmax d a b msk => Sys2Proof.Machine.execVfmax d a b msk s
  | .vfabs d a msk => Sys2Proof.Machine.execVfabs d a msk s
  | .vfneg d a msk => Sys2Proof.Machine.execVfneg d a msk s
  | .vfcmp cond d a b msk => Sys2Proof.Machine.execVfcmp cond d a b msk s
  | .vfrcp rm d a msk => Sys2Proof.Machine.execVfrcp rm d a msk s
  | .vfrsq rm d a msk => Sys2Proof.Machine.execVfrsq rm d a msk s
  | .vfexp2 rm d a msk => Sys2Proof.Machine.execVfexp2 rm d a msk s
  | .vflog2 rm d a msk => Sys2Proof.Machine.execVflog2 rm d a msk s
  | .vfscl rm d a b msk => Sys2Proof.Machine.execVfscl rm d a b msk s
  | .vfsqrt rm d a msk => Sys2Proof.Machine.execVfsqrt rm d a msk s
  | .vadd sat d a b msk => Sys2Proof.Machine.execVadd sat d a b msk s
  | .vsub sat d a b msk => Sys2Proof.Machine.execVsub sat d a b msk s
  | .vmul d a b msk => Sys2Proof.Machine.execVmul d a b msk s
  | .vmulh uns d a b msk => Sys2Proof.Machine.execVmulh uns d a b msk s
  | .vand d a b msk => Sys2Proof.Machine.execVand d a b msk s
  | .vor d a b msk => Sys2Proof.Machine.execVor d a b msk s
  | .vxor d a b msk => Sys2Proof.Machine.execVxor d a b msk s
  | .vshl d a b msk => Sys2Proof.Machine.execVshl d a b msk s
  | .vshr d a b msk => Sys2Proof.Machine.execVshr d a b msk s
  | .vsar d a b msk => Sys2Proof.Machine.execVsar d a b msk s
  | .vmin uns d a b msk => Sys2Proof.Machine.execVmin uns d a b msk s
  | .vmax uns d a b msk => Sys2Proof.Machine.execVmax uns d a b msk s
  | .vcmp cond d a b msk => Sys2Proof.Machine.execVcmp cond d a b msk s
  | .vsel d a b mc msk => Sys2Proof.Machine.execVsel d a b mc msk s
  | .vabs sat d a msk => Sys2Proof.Machine.execVabs sat d a msk s
  | .vpopc d a msk => Sys2Proof.Machine.execVpopc d a msk s
  | .vcvt pair rm sat d a msk => Sys2Proof.Machine.execVcvt pair rm sat d a msk s
  | .vqmx elem d a sr msk => Sys2Proof.Machine.execVqmx elem d a sr msk s
  | .vdqmx elem rm d a msk => Sys2Proof.Machine.execVdqmx elem rm d a msk s
  | .vpack w d a b msk => Sys2Proof.Machine.execVpack w d a b msk s
  | .vunpk w sg part d a msk => Sys2Proof.Machine.execVunpk w sg part d a msk s
  | .vperm d a b msk => Sys2Proof.Machine.execVperm d a b msk s
  | .vshuf pat d a b msk => Sys2Proof.Machine.execVshuf pat d a b msk s
  | .vred op d a msk => Sys2Proof.Machine.execVred op d a msk s
  | .vscan op d a msk => Sys2Proof.Machine.execVscan op d a msk s
  | .vbcast d src msk => Sys2Proof.Machine.execVbcast d src msk s
  | .vins dw d a lane => Sys2Proof.Machine.execVins dw d a lane s
  | .vext form d a lane => Sys2Proof.Machine.execVext form d a lane s
  | .viota d msk => Sys2Proof.Machine.execViota d msk s
  | .vcomp d a msk => Sys2Proof.Machine.execVcomp d a msk s
  | .vhad n d a => Sys2Proof.Machine.execVhad n d a s
  | .vrng out d a b key msk => Sys2Proof.Machine.execVrng out d a b key msk s
  | .mlog t d a b => Sys2Proof.Machine.execMlog t d a b s
  | .mpopc d a => Sys2Proof.Machine.execMpopc d a s
  | .mfirst d a => Sys2Proof.Machine.execMfirst d a s
  | .mset d a => Sys2Proof.Machine.execMset d a s
  | .mget d a => Sys2Proof.Machine.execMget d a s
  | .mma z a b c mc => Sys2Proof.Machine.execMma z a b c mc s
  | .mmaG z a b c e mc => Sys2Proof.Machine.execMmaG z a b c e mc s
  | .mbin xor z a b c => Sys2Proof.Machine.execMbin xor z a b c s
  | .mzero z => Sys2Proof.Machine.execMzero z s
  | .mloadz bf z a => Sys2Proof.Machine.execMloadz bf z a s
  | .mdrain bf z a b mc => Sys2Proof.Machine.execMdrain bf z a b mc s
  | .mqnt sideB a b c mc => Sys2Proof.Machine.execMqnt sideB a b c mc s
  | .mcfg mc a => Sys2Proof.Machine.execMcfg mc a s
  | .mcfgr d mc => Sys2Proof.Machine.execMcfgr d mc s
  | .mstat d => Sys2Proof.Machine.execMstat d s
  | .ld sp sz zx w c d m land => Sys2Proof.Machine.execLd sp sz zx w c d m land s
  | .ldv sp w c d m land => Sys2Proof.Machine.execLdv sp w c d m land s
  | .ldvS sp sz zx w c d m land => Sys2Proof.Machine.execLdvS sp sz zx w c d m land s
  | .ldvX sp sz zx w c d m land => Sys2Proof.Machine.execLdvX sp sz zx w c d m land s
  | .ldm sp w c d m land => Sys2Proof.Machine.execLdm sp w c d m land s
  | .pref m => Sys2Proof.Machine.execPref m s
  | .st sp sz fe d m => Sys2Proof.Machine.execSt sp sz fe d m s
  | .stv sp fe d m => Sys2Proof.Machine.execStv sp fe d m s
  | .stvS sp sz fe d m => Sys2Proof.Machine.execStvS sp sz fe d m s
  | .stvX sp sz fe d m => Sys2Proof.Machine.execStvX sp sz fe d m s
  | .stm sp fe d m => Sys2Proof.Machine.execStm sp fe d m s
  | .amo op ord d m land => Sys2Proof.Machine.execAmo op ord d m land s
  | .cas ord d m land => Sys2Proof.Machine.execCas ord d m land s
  | .amof bf rel m => Sys2Proof.Machine.execAmof bf rel m s
  | .amofSeq bf rel d m => Sys2Proof.Machine.execAmofSeq bf rel d m s
  | .amofSeqSkip bf rel d m => Sys2Proof.Machine.execAmofSeqSkip bf rel d m s
  | .setfe sp full d m => Sys2Proof.Machine.execSetfe sp full d m s
  | .cp nb org cmd aux => Sys2Proof.Machine.execCp nb org cmd aux s
  | .cpMc org cmd aux => Sys2Proof.Machine.execCpMc org cmd aux s
  | .cpX nb sr org cmd aux => Sys2Proof.Machine.execCpX nb sr org cmd aux s
  | .cpPk nb codec org cmd aux => Sys2Proof.Machine.execCpPk nb codec org cmd aux s
  | .cpUn nb org cmd aux => Sys2Proof.Machine.execCpUn nb org cmd aux s
  | .cpStamp a v => Sys2Proof.Machine.execCpStamp a v s
  | .lrecPut v ix => Sys2Proof.Machine.execLrecPut v ix s
  | .lrecGet v ix => Sys2Proof.Machine.execLrecGet v ix s
  | .cln a len => Sys2Proof.Machine.execCln a len s
  | .inv a len => Sys2Proof.Machine.execInv a len s
  | .clninv a len => Sys2Proof.Machine.execClninv a len s
  | .tsDep pd v hd => Sys2Proof.Machine.execTsDep pd v hd s
  | .tsRd pd v hd mode dl => Sys2Proof.Machine.execTsRd pd v hd mode dl s
  | .tsTake pd v hd mode dl => Sys2Proof.Machine.execTsTake pd v hd mode dl s
  | .tsRdp pd v hd mode land => Sys2Proof.Machine.execTsRdp pd v hd mode land s
  | .tsTakep pd v hd mode land => Sys2Proof.Machine.execTsTakep pd v hd mode land s
  | .tsCnt pd d hd mode v land => Sys2Proof.Machine.execTsCnt pd d hd mode v land s
  | .rcall rel trap count d tgt ent pay => Sys2Proof.Machine.execRcall rel trap count d tgt ent pay s
  | .rpost rel count f0 tgt ent pay => Sys2Proof.Machine.execRpost rel count f0 tgt ent pay s
  | .rret a b c => Sys2Proof.Machine.execRret a b c s
  | .nmLoad pd eng img => Sys2Proof.Machine.execNmLoad pd eng img s
  | .nmGo pd eng t => Sys2Proof.Machine.execNmGo pd eng t s
  | .nmStop eng => Sys2Proof.Machine.execNmStop eng s
  | .nmStat d eng => Sys2Proof.Machine.execNmStat d eng s
  | .netPut nb codec org cmd aux => Sys2Proof.Machine.execNetPut nb codec org cmd aux s
  | .netGet nb org cmd aux => Sys2Proof.Machine.execNetGet nb org cmd aux s
  | .barAlloc pd d => Sys2Proof.Machine.execBarAlloc pd d s
  | .barAllocAt pd d ix => Sys2Proof.Machine.execBarAllocAt pd d ix s
  | .barFree ix => Sys2Proof.Machine.execBarFree ix s
  | .barRef ix => Sys2Proof.Machine.execBarRef ix s
  | .barInit pd a ix => Sys2Proof.Machine.execBarInit pd a ix s
  | .barExpect pd a ix => Sys2Proof.Machine.execBarExpect pd a ix s
  | .barArrive a ix => Sys2Proof.Machine.execBarArrive a ix s
  | .barWait a ix => Sys2Proof.Machine.execBarWait a ix s
  | .barTest pd a ix => Sys2Proof.Machine.execBarTest pd a ix s
  | .barInfo d ix word => Sys2Proof.Machine.execBarInfo d ix word s
  | .gbar pd a g => Sys2Proof.Machine.execGbar pd a g s
  | .fence sc => Sys2Proof.Machine.execFence sc s
  | .xfence => Sys2Proof.Machine.execXfence s
  | .nmfence => Sys2Proof.Machine.execNmfence s
  | .monArm a => Sys2Proof.Machine.execMonArm a s
  | .monWait pd a => Sys2Proof.Machine.execMonWait pd a s
  | .lwait => Sys2Proof.Machine.execLwait s
  | .fixedLatencyWrite h => Sys2Proof.Machine.execFixedLatencyWrite h s
  | .landing h id => Sys2Proof.Machine.execLanding h id s
  | .exactLanding h id => Sys2Proof.Machine.execExactLanding h id s
  | .mmaReady h => Sys2Proof.Machine.execMmaReady h s
  | .mdrainComplete h => Sys2Proof.Machine.execMdrainComplete h s
  | .mloadzComplete h => Sys2Proof.Machine.execMloadzComplete h s
  | .mqntComplete h => Sys2Proof.Machine.execMqntComplete h s
  | .l1Fill h line => Sys2Proof.Machine.execL1Fill h line s
  | .writeBack h line => Sys2Proof.Machine.execWriteBack h line s
  | .plainStoreArrival h k => Sys2Proof.Machine.execPlainStoreArrival h k s
  | .atomicAtHomeSlice h id => Sys2Proof.Machine.execAtomicAtHomeSlice h id s
  | .sequencedApply h id => Sys2Proof.Machine.execSequencedApply h id s
  | .hostAccess op => Sys2Proof.Machine.execHostAccess op s
  | .calendarSlot h id => Sys2Proof.Machine.execCalendarSlot h id s
  | .walk die asid root va => Sys2Proof.Machine.execWalk die asid root va s
  | .commandStart h => Sys2Proof.Machine.execCommandStart h s
  | .copyWrite h id u => Sys2Proof.Machine.execCopyWrite h id u s
  | .commandComplete h => Sys2Proof.Machine.execCommandComplete h s
  | .multicastDelivery h id member u => Sys2Proof.Machine.execMulticastDelivery h id member u s
  | .stampWrite h => Sys2Proof.Machine.execStampWrite h s
  | .barrierDeadline h b => Sys2Proof.Machine.execBarrierDeadline h b s
  | .netReceive die m => Sys2Proof.Machine.execNetReceive die m s
  | .netPutConfirm h a => Sys2Proof.Machine.execNetPutConfirm h a s
  | .netGetRead die m => Sys2Proof.Machine.execNetGetRead die m s
  | .netGetData h a bytes => Sys2Proof.Machine.execNetGetData h a bytes s
  | .sessionLost die session => Sys2Proof.Machine.execSessionLost die session s
  | .rekey die x => Sys2Proof.Machine.execRekey die x s
  | .oldKeyExpiry die session => Sys2Proof.Machine.execOldKeyExpiry die session s
  | .serveDep id => Sys2Proof.Machine.execServeDep id s
  | .serveRdTake id => Sys2Proof.Machine.execServeRdTake id s
  | .serveRdpTakep id => Sys2Proof.Machine.execServeRdpTakep id s
  | .serveCnt id => Sys2Proof.Machine.execServeCnt id s
  | .parkTimeout sl id => Sys2Proof.Machine.execParkTimeout sl id s
  | .cancel h id => Sys2Proof.Machine.execCancel h id s
  | .carafeDestroy sl cid => Sys2Proof.Machine.execCarafeDestroy sl cid s
  | .callArrival id => Sys2Proof.Machine.execCallArrival id s
  | .callStart e => Sys2Proof.Machine.execCallStart e s
  | .budgetExhausted h => Sys2Proof.Machine.execBudgetExhausted h s
  | .reply id => Sys2Proof.Machine.execReply id s
  | .lost h id => Sys2Proof.Machine.execLost h id s
  | .releaseNotice e id => Sys2Proof.Machine.execReleaseNotice e id s
  | .recordDeadline e id => Sys2Proof.Machine.execRecordDeadline e id s
  | .rplost h id => Sys2Proof.Machine.execRplost h id s
  | .engineStart g => Sys2Proof.Machine.execEngineStart g s
  | .col g => Sys2Proof.Machine.execCol g s
  | .addb g ad aa ab => Sys2Proof.Machine.execAddb g ad aa ab s
  | .addf g ad aa ab => Sys2Proof.Machine.execAddf g ad aa ab s
  | .mulb g ad aa ab => Sys2Proof.Machine.execMulb g ad aa ab s
  | .fmab g ad aa ab ksel => Sys2Proof.Machine.execFmab g ad aa ab ksel s
  | .maxb g ad aa ab => Sys2Proof.Machine.execMaxb g ad aa ab s
  | .cvt g sub ad aa ab => Sys2Proof.Machine.execCvt g sub ad aa ab s
  | .pairupd g ad aa ab ac ksel idx => Sys2Proof.Machine.execPairupd g ad aa ab ac ksel idx s
  | .columnReadLanding g => Sys2Proof.Machine.execColumnReadLanding g s
  | .act g => Sys2Proof.Machine.execAct g s
  | .pre g => Sys2Proof.Machine.execPre g s
  | .ref g => Sys2Proof.Machine.execRef g s
  | .timetableWait g => Sys2Proof.Machine.execTimetableWait g s
  | .waitExpiry g => Sys2Proof.Machine.execWaitExpiry g s
  | .timetableLoop g => Sys2Proof.Machine.execTimetableLoop g s
  | .halt g => Sys2Proof.Machine.execHalt g s
  | .refreshInterval g => Sys2Proof.Machine.execRefreshInterval g s
  | .forcedRef g => Sys2Proof.Machine.execForcedRef g s
  | .rowElisionWrite die off v => Sys2Proof.Machine.execRowElisionWrite die off v s
  | .rowClearDone sl k => Sys2Proof.Machine.execRowClearDone sl k s
  | .doorbell part q count => Sys2Proof.Machine.execDoorbell part q count s
  | .consumeRecord part q => Sys2Proof.Machine.execConsumeRecord part q s
  | .launchEligible lid => Sys2Proof.Machine.execLaunchEligible lid s
  | .aging lid => Sys2Proof.Machine.execAging lid s
  | .coreGrant part => Sys2Proof.Machine.execCoreGrant part s
  | .preempt part => Sys2Proof.Machine.execPreempt part s
  | .ticketDraw h => Sys2Proof.Machine.execTicketDraw h s
  | .quantumExpiry lid cluster => Sys2Proof.Machine.execQuantumExpiry lid cluster s
  | .bindNextBlock lid cluster => Sys2Proof.Machine.execBindNextBlock lid cluster s
  | .start h => Sys2Proof.Machine.execStart h s
  | .resume h => Sys2Proof.Machine.execResume h s
  | .event h => Sys2Proof.Machine.execEvent h s
  | .switch h => Sys2Proof.Machine.execSwitch h s
  | .handlerEntry h => Sys2Proof.Machine.execHandlerEntry h s
  | .launchEnd lid => Sys2Proof.Machine.execLaunchEnd lid s
  | .doneStamp lid => Sys2Proof.Machine.execDoneStamp lid s
  | .rbanks h => Sys2Proof.Machine.execRbanks h s
  | .registerWrite h => Sys2Proof.Machine.execRegisterWrite h s
  | .linkDown im j => Sys2Proof.Machine.execLinkDown im j s
  | .expanderFailure die => Sys2Proof.Machine.execExpanderFailure die s
  | .monWaitDeadline h => Sys2Proof.Machine.execMonWaitDeadline h s
  | .gbarDeadline h => Sys2Proof.Machine.execGbarDeadline h s
  | .powerOn => Sys2Proof.Machine.execPowerOn s
  | .rom pass => Sys2Proof.Machine.execRom pass s
  | .image => Sys2Proof.Machine.execImage s
  | .train fail => Sys2Proof.Machine.execTrain fail s
  | .part fail => Sys2Proof.Machine.execPart fail s
  | .host pass => Sys2Proof.Machine.execHost pass s
  | .barista die => Sys2Proof.Machine.execBarista die s
  | .baristaReadyLimit => Sys2Proof.Machine.execBaristaReadyLimit s
  | .ready => Sys2Proof.Machine.execReady s
  | .powerLoss => Sys2Proof.Machine.execPowerLoss s
  | .cupping part addr nonce => Sys2Proof.Machine.execCupping part addr nonce s
  | .sessopen part die session peeraddr peerid peerpart peerlaunch x => Sys2Proof.Machine.execSessopen part die session peeraddr peerid peerpart peerlaunch x s
  | .sessclose part die session => Sys2Proof.Machine.execSessclose part die session s
  | .keyslot part slot => Sys2Proof.Machine.execKeyslot part slot s
  | .imgload part pa len => Sys2Proof.Machine.execImgload part pa len s
  | .restart => Sys2Proof.Machine.execRestart s
  | .bindingStop die temp => Sys2Proof.Machine.execBindingStop die temp s
  | .bindingResume die temp => Sys2Proof.Machine.execBindingResume die temp s
  | .powerRemoval die temp => Sys2Proof.Machine.execPowerRemoval die temp s
  | .refreshManagerRefresh g => Sys2Proof.Machine.execRefreshManagerRefresh g s
  | .memorySideCacheWriteBack pa drop => Sys2Proof.Machine.execMemorySideCacheWriteBack pa drop s
  | .hostLinkLost die => Sys2Proof.Machine.execHostLinkLost die s

end Sys2Proof.Machine
end

