-- ==== Sys2Proof/Machine/Issue.lean ====
section
/-! DEFINITION. The issue of a bundle (12 R222–R234, R247; 02 R36–R38): fetch, decode, the checks and effects of its slots as one step, waits and
holds, and entry to the handler before it issues. -/

namespace Sys2Proof.Machine

/-- A fault of a bundle: cause, slot, fetch mark, address, and the detail of R161. -/
structure Flt where
  cause : Cause
  slot : Nat
  fetch : Bool
  addr : Word
  rd : Nat
  deriving DecidableEq, Repr

def illegalAt (n : SlotName) (rd : Nat) : Flt := { cause := { code := cILLEGAL, detail := 0 }, slot := slotNum n, fetch := false, addr := 0, rd := rd }

/-- Marks of the issue cleared; nothing more issues on the hart in this cycle. -/
def Hart.calm (h : Hart) : Hart := { h with tried := true, cLeft := false, commit := false, sig := none, slot := .s, lit := none }
/-- Take the fault of a bundle: it has no effect (R234). -/
def State.raise (s : State) (f : Flt) : State :=
  ((s.onH fun h => { h with fetched := none }).takeFault f.cause f.slot f.fetch f.addr f.rd).onH Hart.calm

/-! ### Fetch and decode -/

/-- The fetch has to wait for a bank engine that runs on a channel it needs (R200). -/
def State.fetchHeld (s : State) : Bool :=
  s.h.fetched.isNone && match s.fetchPage with
    | .error c => c.code = cWAIT
    | .ok p => s.deferred p.pa 64

/-- The bundle at the PC as a number, with the effects of reading it (R224, R394). -/
def State.fetch (s : State) : State × Except Flt Nat :=
  match s.h.fetched with
  | some w => (s, .ok w)
  | none =>
    match s.fetchPage with
    | .error c => (s, .error { cause := c, slot := 0, fetch := true, addr := s.h.pc, rd := 0 })
    | .ok p =>
      let t := (s.walkOn s.cur s.h.pc).touch p.pa 64 p.cpol p.key (readAgent s.rid) s.rid
      match s.badSector p.pa 64 p.key with
      | some k => (t, .error { cause := { code := cDATA, detail := s.dataDetail k }, slot := 0, fetch := true, addr := 0, rd := 0 })
      | none => (t, .ok (s.numSeen p.key p.pa 64))

/-- The fault an answer stands for. -/
def resFlt (n : SlotName) : Res → Option Flt
  | .exc c a => some { cause := c, slot := slotNum n, fetch := false, addr := a, rd := 0 }
  | .rill d => some (illegalAt n d)
  | _ => none

/-- Destination registers of an instruction of remote code: its tuple reads write nine scalar registers (R157, R234). -/
def remoteDests (i : Instr) : List (DestKind × Nat) :=
  match i with
  | .tsRd _ v _ _ _ | .tsTake _ v _ _ _ | .tsRdp _ v _ _ _ | .tsTakep _ v _ _ _ =>
    ((List.range 9).filterMap fun j => if v + j = 0 then none else some (DestKind.s, v + j)) ++ i.dests.filter fun x => x.1 ≠ .v
  | _ => i.dests
/-- In remote code, a slot writes a register that a slot before it writes (R157, R234). -/
def remoteClash (earlier : List Slot) (x : Slot) : Bool := earlier.any fun y => (remoteDests x.instr).any fun d => (remoteDests y.instr).contains d
/-- The first slot that the mode refuses (R156, R247, R354). -/
def Hart.modeFlt (h : Hart) (xs : List Slot) : Option Flt :=
  (xs.zipIdx).findSome? fun (x, i) => match (Hart.modeRes { h with slot := x.name } x.instr).bind (resFlt x.name) with
    | some f => some f
    | none => if h.mode = .remote ∧ remoteClash (xs.take i) x then some (illegalAt x.name 0) else none
/-- The S slot holds an RSR whose register number the table does not list: remote code may not read it (R156, R161, R257). -/
def unlistedRsr (w : Nat) : Bool :=
  fld w 488 8 = 0x23 && (decodeSlot .s false (slotBits .s w / 4096 * 4096 + Enc.spReg .time)).toOption.isSome

/-- Decode a bundle on a hart: the fault of the slot nearest S (R156, R247). An opcode of 0x40–0x47 in task mode is PRIV whatever its fields hold (R240,
log 6). -/
def Hart.decodeAt (h : Hart) (w : Nat) : Except Flt Bundle :=
  if h.mode = .remote ∧ 2 ≤ fld w 504 2 then .error (illegalAt .s 4)
  else match decodeBundle w with
    | .ok b => match h.modeFlt b.slots with
      | some f => .error f
      | none => .ok b
    | .error (n, _) =>
      if fld w 496 8 ≠ 0 ∨ fld w 504 2 = 3 then .error (illegalAt .s 0)
      else
        let before := (decodeSlots (litSlot (fld w 504 2)) w (slotOrder.takeWhile fun m => m ≠ n) []).toOption.getD []
        match h.modeFlt before with
        | some f => .error f
        | none =>
          if h.mode = .task ∧ n = .s ∧ 0x40 ≤ fld w 488 8 ∧ fld w 488 8 ≤ 0x47 then
            .error { cause := { code := cPRIV, detail := 0 }, slot := 0, fetch := false, addr := 0, rd := 0 }
          else .error (illegalAt n (if h.mode ≠ .remote then 0 else if n = .v0 ∨ n = .v1 ∨ n = .m then 3 else if n = .s ∧ unlistedRsr w then 1 else 0))

/-! ### One slot -/

/-- What a slot answers to the bundle. -/
inductive Answer where
  | done (s : State)
  | held (k : Nat)
  | waits (k : Nat) (s : State)
  | faults (f : Flt)
  | stop (o : Out)

def answer : Out → Answer
  | .next t =>
    match t.h.sig with
    | none => .done t
    | some (.held k) => .held k
    | some (.waiting k) => .waits k t
    | some (.faulted c d n a rd) => .faults { cause := { code := c, detail := d }, slot := n, fetch := false, addr := a, rd := rd }
  | o => .stop o

/-- The state in which a slot of a bundle acts. -/
def State.inSlot (s : State) (b : Bundle) (x : Slot) : State := s.onH fun h => { h with slot := x.name, lit := b.lit, sig := none }

/-- The guard of a slot is true (R232). -/
def Hart.guardOn (h : Hart) (x : Slot) : Bool := h.getP x.pred != x.neg
/-- A guard predicate is a register the bundle reads: pending, or in a window (R96, R156, R238). -/
def Hart.guardCheck (h : Hart) (x : Slot) : Option Answer :=
  if h.commit ∨ x.pred = 0 then none
  else
    let r := h.regP x.pred
    if h.pending r then some (.held 6)
    else if h.inWindow r then
      if h.mode = .remote then some (.held 0)
      else if h.mode = .task ∧ h.cctl.getLsbD 0 then
        some (.faults { cause := { code := cLATCHK, detail := latchDetail r }, slot := slotNum x.name, fetch := false, addr := 0, rd := 0 })
      else none
    else none

/-- One slot of a bundle with the registers as they are: nothing where its guard is off (R232). -/
def State.runNow (s : State) (b : Bundle) (x : Slot) : Answer :=
  match s.h.guardCheck x with
  | some r => r
  | none => if s.h.guardOn x then answer (exec x.instr (s.inSlot b x)) else .done s

/-- The registers as the bundle read them at its first issue (R37, R234). What saves or restores the task's own registers works on them as they are now. -/
def Hart.withRegs (h : Hart) (w : Waiting) (i : Instr) : Hart :=
  let h : Hart := { h with hs := w.hs, hp := w.hp }
  match i with
  | .ctxSv _ | .ctxLd _ => h
  | _ => { h with r := w.regs, vrb := w.vrb, mrb := w.mrb, prb := w.prb }
/-- The registers as they are now, those of hart g, where the slot has neither replaced them nor ended the task. -/
def Hart.putBack (h : Hart) (w : Waiting) (g : Hart) : Hart :=
  let h : Hart := { h with hs := if h.hs = w.hs then g.hs else h.hs, hp := if h.hp = w.hp then g.hp else h.hp }
  if h.lid ≠ g.lid ∨ h.mode = .idle then h
  else { h with r := if h.r = w.regs then g.r else h.r, vrb := if h.vrb = w.vrb then g.vrb else h.vrb, mrb := if h.mrb = w.mrb then g.mrb else h.mrb,
                prb := if h.prb = w.prb then g.prb else h.prb }
/-- One slot of a bundle, with the sources of its first issue if the bundle waits or goes on (R37, R234). -/
def State.runSlot (s : State) (b : Bundle) (x : Slot) : Answer :=
  match s.h.source with
  | none => s.runNow b x
  | some w => match (s.onH fun h => h.withRegs w x.instr).runNow b x with
    | .done t => .done (t.onH fun h => h.putBack w s.h)
    | .waits k t => .waits k (t.onH fun h => h.putBack w s.h)
    | a => a

/-! ### The slots together -/

/-- Instructions that leave the task or the mode act after the other slots. -/
def leaves : Instr → Bool
  | .endTask | .eret | .rret .. | .ctxSv _ | .ctxLd _ => true
  | _ => false
/-- The slots in the order in which they take effect (R234). -/
def bundleOrder (b : Bundle) : List Slot := (b.slots.filter fun x => !leaves x.instr) ++ b.slots.filter fun x => leaves x.instr

/-- How far the slots of a bundle come: to the end, to a slot that is held or waits under a kind, to a fault, or to a stop. -/
inductive Ran where
  | done (s : State)
  | stuck (s : State) (k : Nat) (left : List Slot)
  | faults (f : Flt)
  | stop (o : Out)

/-- Slots take effect in turn, until one cannot. -/
def State.runSlots (s : State) (b : Bundle) : List Slot → Ran
  | [] => .done s
  | x :: rest =>
    match s.runSlot b x with
    | .done t => State.runSlots t b rest
    | .held k => .stuck s k (x :: rest)
    | .waits k t => .stuck t k (x :: rest)
    | .faults f => .faults f
    | .stop o => .stop o

/-- The first answers of a kind among the slots. -/
def stopOf (l : List Answer) : Option Out := l.findSome? fun a => match a with | .stop o => some o | _ => none
def fltOf (l : List Answer) : Option Flt := l.findSome? fun a => match a with | .faults f => some f | _ => none
/-- The kind under which a bundle is held: a wait kind of R36 before a structural stall. -/
def heldOf (l : List Answer) : Option Nat :=
  let ks := l.filterMap fun a => match a with | .held k => some k | _ => none
  match ks.find? fun k => k ≠ 0 with
  | some k => some k
  | none => ks.head?
def waitOf (l : List Answer) : Option Nat := l.findSome? fun a => match a with | .waits k _ => some k | _ => none
/-- The sources, rotation bases and special registers as a bundle reads them at its first issue (R234, R257). -/
def State.captured (s : State) (kind : Nat) (kinds : List Nat) : Waiting :=
  { kind := kind, kinds := kinds, regs := s.h.r, hs := s.h.hs, hp := s.h.hp, vrb := s.h.vrb, mrb := s.h.mrb, prb := s.h.prb, time := s.time, vstat := s.h.vstat, dstat := s.h.dstat,
    frzcnt := s.h.frzcnt, lbusy := s.h.lbusy }

/-- The bundle stays before its issue, under a kind (R36, R239). -/
def Hart.holdAt (h : Hart) (k w : Nat) : Hart := { h.calm with heldKind := k, fetched := some w }

/-- A bundle begins: no wait is in force (R356); the PC and the bases after it, unless a slot changes them (R224, R235). -/
def Hart.begin_ (h : Hart) (b : Bundle) : Hart :=
  { h with npc := h.pc + 64, nvrb := h.vrb, nmrb := h.mrb, nprb := h.prb, hdr := b.stall, sig := none, commit := false, heldKind := 0 }

/-- A bundle has issued (R223, R234): the next PC and bases, and the STALL cycles before the next issue. -/
def Hart.endBundle (h : Hart) (m : Mode) : Hart :=
  let h := { h.calm with heldKind := 0, fetched := none }
  if h.mode = .idle ∨ h.mode = .stopped then h
  else
    let h := { h with pc := h.npc, vrb := h.nvrb, mrb := h.nmrb, prb := h.nprb, stall := 1 + h.hdr, waiting := none, going := none }
    if m = .handler then h else { h with wLand := none, wDl := 0, wExp := false }

/-- A slot in C space, and one in L space. -/
def slotIn (x : Slot) (y : Space) : Bool :=
  match x.instr with
  | .ld sp .. | .ldv sp .. | .ldvS sp .. | .ldvX sp .. | .ldm sp .. | .st sp .. | .stv sp .. | .stvS sp .. | .stvX sp .. | .stm sp .. | .setfe sp .. => sp = y
  | _ => false
/-- The slots act in two parts: of one cycle's accesses to a granule its owner's own come first, then those through C space, core by core (R85). -/
def State.inParts (s : State) (xs : List Slot) : Bool :=
  s.cur < 512 && s.h.going.isNone && (xs.any fun x => slotIn x .c) && (xs.any fun x => slotIn x .l) && s.harts.any fun e => e.1 < 512 && e.1 ≠ s.cur && e.2.mode ≠ .idle
/-- The slots left take effect as one step, and the bundle ends (R234). Where one is held by what earlier slots have begun, these keep their effects and
the bundle goes on in the next cycle with the sources it has read; where none has acted, or the slots together find no room in the landing buffer or the copy queue
(R36, R94), the bundle is held before its issue (log 6). -/
def State.commitBundle (s : State) (b : Bundle) (w : Nat) (xs : List Slot) : Out :=
  let m := s.h.mode
  let c := s.onH fun h => { h with commit := true }
  let goes (t : State) (k : Nat) (left : List Slot) : State :=
    t.onH fun h => { h.holdAt k w with going := some { src := h.source.getD (s.captured 0 []), left := left.map (·.name) } }
  match c.runSlots b xs with
  | .done t =>
    match if s.inParts xs then some (c.runSlots b (xs.filter fun x => !(slotIn x .c))) else none with
    | some (.done u) => .next ((goes u 0 (xs.filter fun x => slotIn x .c)).onH fun h => { h with cLeft := true })
    | _ => .next (t.onH fun h => h.endBundle m)
  | .stuck t k left => .next (if left.length = b.slots.length ∨ k = 7 then s.onH fun h => h.holdAt k w else goes t k left)
  | .faults f => .next (s.raise f)
  | .stop o => o

/-- What the waiting slots do: their first issue (R37), or nothing more than to go on waiting; and the kinds they wait under. -/
def State.runWaiters (s : State) (b : Bundle) (xs : List Slot) : State × List Nat :=
  let (t, ks) := xs.foldl (fun (s, ks) x => match s.runSlot b x with
    | .waits k t => (t, ks ++ [k])
    | _ => (s, ks)) ((s.onH fun h => { h with commit := true }), [])
  (t.onH Hart.calm, ks)

/-- The bundle waits under kinds 1–5 from its first issue (R37): its sources are kept. A GBAR or MON.WAIT beside another waiting slot waits with it. -/
def State.beginWait (s : State) (b : Bundle) (w k : Nat) : State :=
  let (t, ks) := (s.onH fun h => { h with firstOnly := true }).runWaiters b b.slots
  t.onH fun h => { h with firstOnly := false, waiting := some (s.captured k ks), heldKind := k, fetched := some w }

/-- A waiting bundle tries again: it goes on waiting, or its slots take effect with the sources of its first issue (R37). DESIGN CHOICE: a slot that passed its
checks at the first issue is checked again when the wait ends, and a check that fails then (a page unmapped, a record replaced, a C member that has ended, a
FIFO bank that has filled) has its effect then, a fault or a hold; R37 does not say (log 6). -/
def State.retryBundle (s : State) (b : Bundle) (w : Nat) (x : Waiting) : Out :=
  let t := s.onH fun h => { h with commit := true }
  let as := b.slots.map fun y => t.runSlot b y
  match stopOf as with
  | some o => o
  | none =>
    match fltOf as with
    | some f => .next (s.raise f)
    | none =>
      if (waitOf as).isSome ∨ (heldOf as).isSome then
        .next ((t.runWaiters b b.slots).1.onH fun h => { h with fetched := some w, heldKind := x.kind })
      else s.commitBundle b w (bundleOrder b)

/-- A bundle some of whose slots have acted goes on with the others (R234). -/
def State.goOn (s : State) (b : Bundle) (w : Nat) (g : Going) : Out :=
  (s.onH fun h => { h with heldKind := 0 }).commitBundle b w ((bundleOrder b).filter fun x => g.left.contains x.name)

/-- A switch request is taken before this bundle issues (R38): not before one with END (R41). -/
def State.switchNow (s : State) (b : Bundle) (w : Nat) : Bool := s.h.mode = .task && b.safe && safeWord w && s.switchReq s.cur

/-- Entry to the handler before the bundle at the PC, which has passed its checks, for a switch request (R38, R362). -/
def State.enterNow (s : State) : Out := .next ((s.takeSwitch s.cur).onH Hart.calm)

/-- A decoded bundle: a hold comes before its faults (R238), they before a switch, a switch before its wait or its effects (R234, R362). One that has
begun to act goes on first. -/
def State.issueDecoded (s : State) (b : Bundle) (w : Nat) : Out :=
  match s.h.going with
  | some g => s.goOn b w g
  | none =>
  let s := s.onH fun h => h.begin_ b
  match s.h.waiting with
  | some x => if s.switchNow b w then State.enterNow (s.onH fun h => { h with fetched := some w }) else s.retryBundle b w x
  | none =>
    let as := b.slots.map fun x => s.runSlot b x
    match stopOf as with
    | some o => o
    | none =>
      match heldOf as with
      | some k => .next (s.onH fun h => h.holdAt k w)
      | none =>
        match fltOf as with
        | some f => .next (s.raise f)
        | none =>
          if s.switchNow b w then State.enterNow (s.onH fun h => { h with fetched := some w })
          else match waitOf as with
            | some k => .next (s.beginWait b w k)
            | none => s.commitBundle b w (bundleOrder b)

/-- Issue on the current hart. Damage that a write-back or an atomic without a destination met stops the task first (R86, R363, R394), and a pending
RCALL trap is taken before the next bundle (R162). -/
def State.issueBundle (s : State) : Out :=
  let s : State := { s.onH Hart.entered with ntlb := s.ntlb + 1 }
  if s.h.owed.isSome then .next (((s.onH fun h => { h with fetched := none }).takeOwed s.cur).onH Hart.calm)
  else if s.h.mode = .task ∧ s.h.waiting.isNone ∧ s.h.going.isNone ∧ s.h.trapPend ≠ [] then
    match execHandlerEntry s.cur s with
    | .next t => .next (t.onH Hart.calm)
    | o => o
  else if s.fetchHeld then .next (s.onH fun h => { h.calm with heldKind := 0 })
  else
    let (t, r) := s.fetch
    match r with
    | .error f => .next (t.raise f)
    | .ok w =>
      match t.h.decodeAt w with
      | .error f => .next (t.raise f)
      | .ok b => t.issueDecoded b w

end Sys2Proof.Machine
end

