-- ==== Sys2Proof/Machine/Sched.lean ====
section
/-! DEFINITION. What happens next (log 4, log 5): the events that are due at this module time, the harts that issue in it, the passage of time, and the
events that the manual lets happen at any time. -/

namespace Sys2Proof.Machine

/-- What may happen next: the events of the table that the module raises by itself. -/
inductive Act where
  | fixedLatencyWrite (h : Nat)
  | landing (h id : Nat)
  | exactLanding (h id : Nat)
  | mmaReady (h : Nat)
  | mdrainComplete (h : Nat)
  | mloadzComplete (h : Nat)
  | mqntComplete (h : Nat)
  | l1Fill (h line : Nat)
  | writeBack (h line : Nat)
  | plainStoreArrival (h k : Nat)
  | atomicAtHomeSlice (h id : Nat)
  | sequencedApply (h id : Nat)
  | calendarSlot (h id : Nat)
  | commandStart (h : Nat)
  | copyWrite (h id u : Nat)
  | commandComplete (h : Nat)
  | multicastDelivery (h id member u : Nat)
  | stampWrite (h : Nat)
  | barrierDeadline (h b : Nat)
  | netReceive (die : Nat) (m : NetMsg)
  | rekey (die session : Nat)
  | oldKeyExpiry (die session : Nat)
  | serveDep (id : Nat)
  | serveRdTake (id : Nat)
  | serveRdpTakep (id : Nat)
  | serveCnt (id : Nat)
  | parkTimeout (sl id : Nat)
  | cancel (h id : Nat)
  | carafeDestroy (sl cid : Nat)
  | callArrival (id : Nat)
  | callStart (e : Nat)
  | budgetExhausted (h : Nat)
  | reply (id : Nat)
  | lost (h id : Nat)
  | releaseNotice (e id : Nat)
  | recordDeadline (e id : Nat)
  | rplost (h id : Nat)
  | engineStart (g : Nat)
  | col (g : Nat)
  | columnReadLanding (g : Nat)
  | act (g : Nat)
  | pre (g : Nat)
  | ref (g : Nat)
  | timetableWait (g : Nat)
  | waitExpiry (g : Nat)
  | timetableLoop (g : Nat)
  | halt (g : Nat)
  | forcedRef (g : Nat)
  | rowClearDone (sl k : Nat)
  | consumeRecord (part q : Nat)
  | launchEligible (lid : Nat)
  | aging (lid : Nat)
  | coreGrant (part : Nat)
  | preempt (part : Nat)
  | ticketDraw (h : Nat)
  | quantumExpiry (lid cluster : Nat)
  | bindNextBlock (lid cluster : Nat)
  | start (h : Nat)
  | resume (h : Nat)
  | event (h : Nat)
  | switch (h : Nat)
  | launchEnd (lid : Nat)
  | doneStamp (lid : Nat)
  | rbanks (h : Nat)
  | registerWrite (h : Nat)
  | monWaitDeadline (h : Nat)
  | gbarDeadline (h : Nat)
  | powerOn
  | rom (pass : Bool)
  | image
  | train (fail : Option Nat)
  | part (fail : Option Nat)
  | host (pass : Bool)
  | barista (die : Nat)
  | baristaReadyLimit
  | ready
  | sessionLost (die session : Nat)
  | netGetRead (die : Nat) (m : NetMsg)
  | refreshManagerRefresh (g : Nat)
  | memorySideCacheWriteBack (pa : Nat) (drop : Bool)
  /-- A predicted sector of a resident sector's line comes into the memory-side cache (R88); no row of the table. -/
  | footprint (k : Nat)
  /-- A host access that had to wait goes on (R200), or a host AtomicOp writes what it has read (R92); parts of HOST_ACCESS. -/
  | hostGoesOn
  | hostWrites
  /-- The image of an IMGLOAD stands whole in NVM, and a command of the mailbox that has waited runs (R416, R424); parts of the commands' rows. -/
  | imageWritten
  | nextMail
  deriving DecidableEq, Repr

/-- An event takes place: the meaning that exec gives its row. -/
def Act.run (a : Act) (s : State) : Out :=
  match a with
  | .fixedLatencyWrite h => execFixedLatencyWrite h s
  | .landing h id => execLanding h id s
  | .exactLanding h id => execExactLanding h id s
  | .mmaReady h => execMmaReady h s
  | .mdrainComplete h => execMdrainComplete h s
  | .mloadzComplete h => execMloadzComplete h s
  | .mqntComplete h => execMqntComplete h s
  | .l1Fill h line => execL1Fill h line s
  | .writeBack h line => execWriteBack h line s
  | .plainStoreArrival h k => execPlainStoreArrival h k s
  | .atomicAtHomeSlice h id => execAtomicAtHomeSlice h id s
  | .sequencedApply h id => execSequencedApply h id s
  | .calendarSlot h id => execCalendarSlot h id s
  | .commandStart h => execCommandStart h s
  | .copyWrite h id u => execCopyWrite h id u s
  | .commandComplete h => execCommandComplete h s
  | .multicastDelivery h id member u => execMulticastDelivery h id member u s
  | .stampWrite h => execStampWrite h s
  | .barrierDeadline h b => execBarrierDeadline h b s
  | .netReceive die m => execNetReceive die m s
  | .rekey die session => let (x, s) := s.drawExchange; execRekey die ⟨session, some x⟩ s
  | .oldKeyExpiry die session => execOldKeyExpiry die session s
  | .serveDep id => execServeDep id s
  | .serveRdTake id => execServeRdTake id s
  | .serveRdpTakep id => execServeRdpTakep id s
  | .serveCnt id => execServeCnt id s
  | .parkTimeout sl id => execParkTimeout sl id s
  | .cancel h id => execCancel h id s
  | .carafeDestroy sl cid => execCarafeDestroy sl cid s
  | .callArrival id => execCallArrival id s
  | .callStart e => execCallStart e s
  | .budgetExhausted h => execBudgetExhausted h s
  | .reply id => execReply id s
  | .lost h id => execLost h id s
  | .releaseNotice e id => execReleaseNotice e id s
  | .recordDeadline e id => execRecordDeadline e id s
  | .rplost h id => execRplost h id s
  | .engineStart g => execEngineStart g s
  | .col g => execCol g s
  | .columnReadLanding g => execColumnReadLanding g s
  | .act g => execAct g s
  | .pre g => execPre g s
  | .ref g => execRef g s
  | .timetableWait g => execTimetableWait g s
  | .waitExpiry g => execWaitExpiry g s
  | .timetableLoop g => execTimetableLoop g s
  | .halt g => execHalt g s
  | .forcedRef g => execForcedRef g s
  | .rowClearDone sl k => execRowClearDone sl k s
  | .consumeRecord pt q => execConsumeRecord pt q s
  | .launchEligible lid => execLaunchEligible lid s
  | .aging lid => execAging lid s
  | .coreGrant pt => execCoreGrant pt s
  | .preempt pt => execPreempt pt s
  | .ticketDraw h => execTicketDraw h s
  | .quantumExpiry lid cluster => execQuantumExpiry lid cluster s
  | .bindNextBlock lid cluster => execBindNextBlock lid cluster s
  | .start h => execStart h s
  | .resume h => execResume h s
  | .event h => execEvent h s
  | .switch h => execSwitch h s
  | .launchEnd lid => execLaunchEnd lid s
  | .doneStamp lid => execDoneStamp lid s
  | .rbanks h => execRbanks h s
  | .registerWrite h => execRegisterWrite h s
  | .monWaitDeadline h => execMonWaitDeadline h s
  | .gbarDeadline h => execGbarDeadline h s
  | .powerOn => execPowerOn s
  | .rom pass => execRom pass s
  | .image => execImage s
  | .train fail => execTrain fail s
  | .part fail => execPart fail s
  | .host pass => execHost pass s
  | .barista die => execBarista die s
  | .baristaReadyLimit => execBaristaReadyLimit s
  | .ready => execReady s
  | .sessionLost die session => execSessionLost die session s
  | .netGetRead die m => execNetGetRead die m s
  | .refreshManagerRefresh g => execRefreshManagerRefresh g s
  | .memorySideCacheWriteBack pa drop => execMemorySideCacheWriteBack pa drop s
  | .footprint k => let (n, s) := s.draw; .next (s.footprint k (Config.choice n))
  | .hostGoesOn => .next s.hostNext
  | .hostWrites => .next s.hostFinish
  | .imageWritten => .next s.imageWritten
  | .nextMail => .next s.nextMail

/-- Events one after another. -/
def runAll (l : List Act) (s : State) : Out :=
  l.foldl (fun o a => match o with
    | .next s => a.run s
    | o => o) (.next s)

/-! ### Events that are due -/

/-- The event if the condition holds. -/
def dueIf (b : Bool) (i : Act) : List Act := if b then [i] else []

/-- The first exact landing whose cycle has come (R96), where it has something to do: its value is there, or the clock domain is still to be frozen
(R95). -/
def Hart.landingDue (h : Hart) : Option Landing := h.firstDue.filter fun l => l.got.isSome || !h.frozen

/-- Units of a part that are still to be moved. -/
def Cmd.unitsLeft (c : Cmd) (p : Part) : List Nat :=
  match c.op with
  | .stamp => []
  | .un | .netPut _ => if p.next < c.total ∨ p.whole then [p.next] else []
  | .netGet => if p.whole then [p.next] else []
  | _ => if p.whole then [p.next] else (List.range c.total).filter fun u => !p.did u
def Cmd.moves (c : Cmd) (k : Nat) : List Act :=
  if !c.started || c.finished then []
  else c.parts.flatMap fun p => if p.arrived then [] else match p.dest with
    | none => (c.unitsLeft p).map fun u => .copyWrite k c.id u
    | some m => if p.next < c.total || p.whole then (c.unitsLeft p).map fun u => .multicastDelivery k c.id m u else [.multicastDelivery k c.id m c.total]

/-- The core whose barriers an event updates, and its place in the order of a cycle (R177). -/
def State.barTurn (s : State) (a : Act) : Option (Nat × Nat) :=
  match a with
  | .copyWrite k _ _ | .commandComplete k => some (k, 0)
  | .netReceive die m => some (s.peerCore die m, 1)
  | .multicastDelivery k id m _ => ((s.hartAt k).cmd? id).bind fun c => match s.placeOf (c.lid.getD 0) m with
      | .resident n => some (n, if n = k then 0 else 2 + hartRid k)
      | _ => none
  | _ => none
/-- The event comes no later in the order of its cycle than one that has taken place (R177). -/
def State.inTurn (s : State) (a : Act) : Bool := match s.barTurn a with | some (k, n) => (s.hartAt k).barTurn ≤ n | none => true
/-- The hart's turn is over: no hart has its turn but the one that the module's own course gives it. -/
def turnOver : Out → Out
  | .next s => .next { s with turn := none }
  | o => o
/-- An event takes place in its turn. -/
def State.runFree (s : State) (a : Act) : Out :=
  turnOver (match s.barTurn a with
    | none => a.run s
    | some (k, n) => a.run (s.setHart k { s.hartAt k with barTurn := n }))

/-- A unit of a D2 task's copy has its calendar slot now, or has had all it needs and its declared latency is over: it is due (R130). -/
def State.unitDue (s : State) (k : Nat) (c : Cmd) (p : Part) (u : Nat) : Bool :=
  let d := s.noteSlots k c p u
  c.started && !c.finished && !p.arrived && !p.whole && (c.op = .stamp || u < c.total && !p.did u && (u = p.next || !(c.op = .un || s.ringUnit c p u)))
    && ((s.unitPas c p u).any calendared) && (d ≠ c || !s.unitHeld k d p u)
/-- Copies of a D2 task that are due. -/
def State.copyDue (s : State) (k : Nat) (h : Hart) : List Act :=
  h.copyq.flatMap fun c =>
    if c.op = .stamp then dueIf (c.started && !c.finished && (h.copyq.find? fun e => e.op = .stamp && e.started && !e.finished) = some c && !s.stampWaits k c
        && s.unitDue k c (Part.fresh none) 0) (.stampWrite k)
    else (c.moves k).filter fun a => s.inTurn a && match a with
      | .copyWrite _ _ u => (c.part? none).any fun p => s.unitDue k c p u
      | .multicastDelivery _ _ m u => (c.part? (some m)).any fun p => s.unitDue k c p u
      | _ => false

/-- Accesses of a D2 task that their calendar serves now (R130): an atomic, a store or a load whose declared latency is over and that may be performed, the answer of
one under land=any, a unit of a copy; and the L1's dirty lines where the bundle at the PC waits for them to leave. -/
def State.d2Due (s : State) (k : Nat) (h : Hart) : List Act :=
  if !s.d2Core k then []
  else
    (match s.msgs.find? fun m => m.hart = k && (match m.body with
        | .atomic _ pa _ _ _ _ _ => s.accMay k (.atomic m pa)
        | _ => false) with
      | some m => (match m.body with
        | .atomic (.amofSeq _ _ _ _) _ _ _ _ _ _ => [.sequencedApply k m.id]
        | _ => [.atomicAtHomeSlice k m.id])
      | none => [])
    ++ (match h.stq.find? fun e => s.accMay k (.store e) with | some e => [.plainStoreArrival k e.id] | none => [])
    ++ (match h.land.find? fun l => l.ready ≠ 0 && (match l.req with | .load _ _ | .atomic _ => true | _ => false) && s.mayArrive k l with
      | some l => [.landing k l.id] | none => [])
    ++ (match h.l1.find? fun e => e.2.dirty ≠ 0 && calendared (64 * e.1) && h.fetched.isSome && h.waiting.isNone && h.heldKind = 0 with
      | some e => [.writeBack k e.1] | none => [])
    ++ s.copyDue k h

/-- A reply that was held for a task's resume lands in the first core cycle after it (R352, R383): that of the bundle at the PC once the bundle has issued again. -/
def State.heldLands (s : State) (k : Nat) (h : Hart) (l : Landing) : Bool := h.mode = .task && (h.wLand ≠ some l.id || h.waiting.isSome) && s.mayArrive k l
def State.keptDue (s : State) (k : Nat) (h : Hart) : List Act :=
  match h.land.find? fun l => l.kept && l.got.isSome && s.heldLands k h l with
  | some l => [.landing k l.id]
  | none => []

/-- Results, landings, matrix instructions and calls of a hart. -/
def State.hartDue (s : State) (k : Nat) (h : Hart) : List Act :=
  s.d2Due k h ++ s.keptDue k h ++ (match h.landingDue with | some l => [.exactLanding k l.id] | none => [])
    ++ dueIf (!h.exactDue && h.writeDue .result) (.fixedLatencyWrite k)
    ++ dueIf (h.writeDue .banks) (.rbanks k) ++ dueIf (h.writeDue .priv) (.registerWrite k)
    ++ dueIf (h.matDue isAccum).isSome (.mmaReady k) ++ dueIf (h.matDue isLoadz).isSome (.mloadzComplete k)
    ++ dueIf h.drainReady.isSome (.mdrainComplete k) ++ dueIf (h.matDue isQnt).isSome (.mqntComplete k)
    ++ (match h.land.find? fun l => l.slots.any (Machine.inSlot s.time k) with | some l => [.calendarSlot k l.id] | none => [])
    ++ (match if s.d2Core k then h.stq.find? fun e => e.slotNow s.time k else none with | some e => [.calendarSlot k e.id] | none => [])
    ++ (match if s.d2Core k then s.msgs.find? fun m => m.slotNow s.time k else none with | some m => [.calendarSlot k m.id] | none => [])
    ++ (match h.outst.find? fun o => !o.post && o.deadline ≤ s.time && (h.entry o.landing).isSome && !h.replyBehind o with | some o => [.lost k o.landing] | none => [])
    ++ (match h.outst.find? fun o => o.post && o.deadline ≤ s.time with | some o => [.rplost k o.seq] | none => [])
    ++ dueIf (s.budgetDue k) (.budgetExhausted k)

/-- The deadline checks of a core cycle, after its updates (R177, R340, R347). -/
def State.deadlinesDue (s : State) : List Act :=
  s.harts.flatMap fun x : Nat × Hart =>
    ((x.2.bars.filter fun b => b.2.deadline ≠ BitVec.allOnes 64 && b.2.deadline.toNat ≤ s.time).map fun b => .barrierDeadline x.1 b.1)
      ++ dueIf (x.2.waitDue 2 s.time) (.gbarDeadline x.1) ++ dueIf (x.2.waitDue 3 s.time) (.monWaitDeadline x.1)

/-- Calls of a task that is switched out. -/
def State.awayDue (s : State) (a : Away) : List Act :=
  match a.outst.find? fun o => o.deadline ≤ s.time with
  | some o => if o.post then [.rplost a.hart o.seq] else [.lost a.hart o.landing]
  | none => []

/-- Words of a bank engine, taken in slice cycles (R189–R201). -/
def Engine.due (e : Engine) (time g : Nat) : List Act :=
  dueIf (e.st = .armed && e.startAt ≤ time) (.engineStart g)
    ++ dueIf (e.st = .running && e.force && (e.busy = 0 || e.wait)) (.forcedRef g)
    ++ dueIf (e.st = .running && e.wait && e.busy = 0 && !e.force) (.waitExpiry g)
    ++ dueIf (e.at_ 1 && !((colRegs e.cur).any fun r => e.flight.any fun f => f.1 = r)) (.col g)
    ++ dueIf (e.at_ 2) (.act g) ++ dueIf (e.at_ 3) (.pre g) ++ dueIf (e.at_ 4) (.ref g) ++ dueIf (e.at_ 5) (.timetableWait g)
    ++ dueIf (e.at_ 6) (.timetableLoop g) ++ dueIf (e.at_ 7) (.halt g)

/-- Cores whose bind record has VALID set: a listed byte of a slot table. -/
def State.boundCores (s : State) : List Nat :=
  s.mem.filterMap fun (a, b) =>
    if a % 64 = 0 && b.getLsbD 0 && offSlotTable ≤ a % 2 ^ 32 && a % 2 ^ 32 < offSlotTable + 0x1000 && (region a).1 = .control then
      some (64 * (region a).2 + (a % 2 ^ 32 - offSlotTable) / 64)
    else none

/-- The dispatch hardware's work, in slice cycles (R376). -/
def State.dispatchDue (s : State) : List Act :=
  ((s.boundCores.filter fun k => Tab.find s.boundAt k ≠ some s.time).flatMap fun k =>
    dueIf (s.bindKind k = 1) (.start k) ++ dueIf (s.bindKind k = 2) (.resume k) ++ dueIf (s.bindKind k = 3) (.event k))
    ++ s.harts.flatMap fun x : Nat × Hart => dueIf (x.1 < 512 && s.mayDraw x.1) (.ticketDraw x.1)

/-- Launches: aging, quanta, and the switch of the tasks of an ending launch (R374, R379, R428). -/
def State.launchDue (s : State) : List Act :=
  s.launches.flatMap fun e : Nat × Launch =>
    dueIf (s.ages e.1 e.2) (.aging e.1)
      ++ (e.2.rots.flatMap fun r : Nat × Rotation => dueIf (s.quantumOver e.1 r.1) (.quantumExpiry e.1 r.1))
      ++ (if e.2.phase = .ending then
          s.harts.flatMap fun x : Nat × Hart =>
            dueIf (x.1 < 512 && x.2.lid = some e.1 && (x.2.mode = .task || x.2.mode = .handler) && !s.bindSwitch x.1) (.switch x.1)
        else [])

/-- What a travelling message does when it arrives. -/
def Msg.arrives (m : Msg) : Act :=
  match m.body with
  | .ts .dep _ _ _ _ => .serveDep m.id
  | .ts .rd _ _ _ _ | .ts .take _ _ _ _ => .serveRdTake m.id
  | .ts .rdp _ _ _ _ | .ts .takep _ _ _ _ => .serveRdpTakep m.id
  | .ts .cnt _ _ _ _ => .serveCnt m.id
  | .cancel _ => .cancel m.hart m.id
  | .atomic (.amofSeq _ _ _ _) _ _ _ _ _ _ => .sequencedApply m.hart m.id
  | .atomic _ _ _ _ _ _ _ => .atomicAtHomeSlice m.hart m.id
  | .call _ => .callArrival m.id
  | .reply _ _ _ => .reply m.id
  | .notice e _ => .releaseNotice e m.id

/-- Slices, executors, sessions and the start sequence. -/
def State.unitsDue (s : State) : List Act :=
  (s.slices.flatMap fun z : Nat × Slice => match z.2.parked.find? s.parkDue with | some m => [.parkTimeout z.1 m.id] | none => [])
    ++ (s.execs.flatMap fun e : Nat × Executor => match e.2.records.find? fun r => r.call.deadline ≤ s.time with
        | some r => [.recordDeadline e.1 r.call.seq] | none => [])
    ++ (s.dies.flatMap fun d : Nat × Die => d.2.keys.flatMap fun x : Nat × SessKey =>
        dueIf (x.2.old.isSome && x.2.expiry ≤ s.time) (.oldKeyExpiry d.1 x.1)
          ++ dueIf (s.sessionState d.1 x.1 = 1 && 2 ^ 32 ≤ s.txpkt d.1 x.1) (.rekey d.1 x.1)
          ++ dueIf (s.sessionLive d.1 x.1 && s.netBusy d.1 x.1 && x.2.acked + 10 * second ≤ s.time) (.sessionLost d.1 x.1))
    -- A tuple request of a call is served by the time the call's caller may be told that it is lost (R163).
    ++ ((s.msgs.filter fun m => m.isTs && m.limit ≠ 0 && m.limit ≤ s.time && s.mayServe m).map Msg.arrives)
    ++ (s.launches.flatMap fun e : Nat × Launch => dueIf (s.eligibleDue e.1 e.2) (.launchEligible e.1))
    ++ dueIf (s.sec.stage = .barista && s.allReady) .ready
    ++ dueIf (s.sec.stage = .barista && !s.allReady && s.sec.baristaSince + second ≤ s.time) .baristaReadyLimit

/-- What is due at this module time, in the order in which the model takes it (log 5). -/
def State.due (s : State) : List Act :=
  (s.harts.flatMap fun x : Nat × Hart => s.hartDue x.1 x.2) ++ s.away.flatMap s.awayDue ++ s.unitsDue
    ++ (if s.time % 2 = 0 then (s.engines.flatMap fun e : Nat × Engine => e.2.due s.time e.1) ++ s.dispatchDue else []) ++ s.launchDue

/-! ### Harts that issue -/

/-- The hart may issue a bundle at this module time: a core in each core cycle, a context in each slice cycle while its call has budget (R6, R156, R159,
R376). -/
def Hart.ready (h : Hart) (time k : Nat) : Bool :=
  (match h.mode with
   | .task => h.notBefore ≤ time
   | .handler => true
   | .remote => time % 2 = 0 && 512 ≤ k && (!h.overBudget || h.midway)
   | _ => false) && (h.cLeft || (h.stall = 0 && !h.tried && !h.frozen))

/-- An executor's contexts in the order it takes them: after the one that issued last (R156). -/
def State.contextTurn (s : State) (e : Nat) : Option Nat :=
  let x := s.execAt e
  if x.spent then none
  else ((List.range 16).map fun i => 512 + 16 * e + (x.last + 1 + i) % 16).find? fun k => (s.hartAt k).ready s.time k

/-- The turn of a core is one of accesses through C space, which come after its owner's own L accesses to a granule in one core cycle (R85): the second part of its
bundle, or a bundle at the PC that accesses C space and does not come in parts. -/
def State.turnInC (s : State) (k : Nat) : Bool :=
  let h := s.hartAt k
  let w : Option Nat := match h.fetched with
    | some w => some w
    | none => match State.fetchPage { s with cur := k } with
      | .ok p => some (s.numSeen p.key p.pa 64)
      | .error _ => none
  h.cLeft || match w.map decodeBundle with
  | some (.ok b) => (b.slots.any fun x => slotIn x .c) && !State.inParts { s with cur := k } b.slots
  | _ => false

/-- The harts that the condition names and that may issue. -/
def State.readyHarts (s : State) (p : Nat → Bool) : List Nat := (s.harts.map (·.1)).filter fun k => p k && (s.hartAt k).ready s.time k
/-- The next hart to issue: cores whose bundle accesses C space after the others, each in increasing requester id (R85), then contexts. -/
def State.nextHart (s : State) : Option Nat :=
  match s.readyHarts (· < 512) with
  | [] => (s.harts.filter fun x : Nat × Hart => 512 ≤ x.1).findSome? fun x => s.contextTurn ((x.1 - 512) / 16)
  | [k] => some k
  | k :: l => some (((k :: l).find? fun n => !s.turnInC n).getD k)

/-- The hart's step issued a bundle: it ended, began to wait, or began to act (R37, R156). -/
def issued (before after : Hart) : Bool :=
  before.waiting.isNone && before.going.isNone && (after.mode ≠ .remote || after.stall ≠ 0 || after.waiting.isSome || after.going.isSome)

/-- The hart issues; an executor has then issued in this slice cycle unless its context's bundle was held. -/
def State.issueOn (s : State) (k : Nat) : Out :=
  match State.issueBundle { s with cur := k } with
  | .next t =>
    if k < 512 ∨ !issued (s.hartAt k) (t.hartAt k) then .next t
    else .next (t.setExec ((k - 512) / 16) { t.execAt ((k - 512) / 16) with last := (k - 512) % 16, spent := true })
  | o => o

/-! ### Time -/

/-- One core cycle of a core (R6, R95, R356 WCNT). -/
def Hart.tickCore (h : Hart) (time : Nat) : Hart :=
  if h.frozen then { h with frzcnt := h.frzcnt + 1, tried := false, cLeft := false, fills := [], barTurn := 0 }
  else
    -- The stall cycles that a switch interrupted are counted from the start time (R383).
    { h with cyc := h.cyc + 1, barTurn := 0, tried := false, cLeft := false, fills := [],
             stall := if h.mode = .task ∧ time < h.notBefore ∧ h.stall ≤ wf h.estat 16 5 then h.stall else h.stall - 1,
             wcnt := if h.mode = .task ∧ 1 ≤ h.heldKind ∧ h.heldKind ≤ 7 then Tab.put h.wcnt h.heldKind (Tab.get 0 h.wcnt h.heldKind + 1) else h.wcnt }
/-- One slice cycle of a context. -/
def Hart.tickContext (h : Hart) : Hart := { h with cyc := h.cyc + 1, stall := h.stall - 1, tried := false }
def Executor.tick (x : Executor) : Executor := { x with spent := false }

/-- A refresh-interval boundary for every running engine (R201). -/
def State.refreshAll (s : State) : Out :=
  s.engines.foldl (fun o e => match o with
    | .next s => execRefreshInterval e.1 s
    | o => o) (.next s)

/-- The next 64 granules of a core's SETFE (R316): other cores see each as it is made. -/
def State.setfeStep (s : State) (k : Nat) : State :=
  let h := s.hartAt k
  match h.setfe with
  | [] => s
  | (x, g, n, full) :: rest =>
    if h.frozen then s
    else
      let s := s.setHart k { h with setfe := if n ≤ 64 then rest else (x, g + 64, n - 64, full) :: rest }
      s.setHart x ((s.hartAt x).setFulls ((List.range (min n 64)).map (g + ·)) full)

/-- Module time advances by one unit of its 64 bits: a core cycle, and with every second one a slice cycle (R6). -/
def State.advanceTime (s : State) : Out :=
  let s := (s.harts.filter fun x : Nat × Hart => x.2.setfe ≠ []).foldl (fun s x => s.setfeStep x.1) s
  let s := s.noteMet
  let t := (s.time + 1) % 2 ^ 64
  let slice : Bool := t % 2 = 0
  let s : State :=
    { s with time := t,
             harts := s.harts.map fun x : Nat × Hart =>
               (x.1, if x.1 < 512 then x.2.tickCore s.time else if slice then x.2.tickContext else x.2),
             execs := if slice then s.execs.map fun x : Nat × Executor => (x.1, x.2.tick) else s.execs,
             engines := if slice then s.engines.map fun x : Nat × Engine => (x.1, x.2.tick) else s.engines }
  if t % 14040 = 0 then s.refreshAll else .next s

/-- The end of a core cycle: its deadline checks, then time advances. -/
def State.tick (s : State) : Out :=
  match runAll s.deadlinesDue s with
  | .next s => s.advanceTime
  | o => o

/-! ### Events that may happen at any time -/

/-- Landings, cache traffic, stores and copies of a hart. -/
def State.hartFree (s : State) (k : Nat) (h : Hart) : List Act :=
  ((h.land.filter fun l => (l.due.isNone || l.got.isNone) && s.mayArrive k l && (!l.kept || s.heldLands k h l)
      && (l.got.isSome || match l.req with | .load _ _ => true | _ => false)).map fun l => .landing k l.id)
    ++ ((h.l1.filter fun e => e.2.valid ≠ BitVec.allOnes 64).map fun e => .l1Fill k e.1)
    ++ ((h.l1.filter fun e => e.2.dirty ≠ 0 && !(s.d2Core k && calendared (64 * e.1))).map fun e => .writeBack k e.1)
    ++ (h.stq.map fun e => .plainStoreArrival k e.id) ++ (h.mnts.map fun m => .plainStoreArrival k m.id)
    ++ dueIf (h.copyq.any fun c => !c.started) (.commandStart k)
    ++ (h.copyq.flatMap fun c => c.moves k)
    ++ dueIf (h.copyq.any Cmd.ready) (.commandComplete k)
    ++ dueIf (h.copyq.any fun c => c.op = .stamp && c.started && !c.finished && !s.stampWaits k c) (.stampWrite k)

/-- Destructions of carafes that are on their way to a slice (R147). -/
def State.doomed (s : State) : List Act := s.dooms.eraseDups.map fun x => .carafeDestroy x.1 x.2

/-- Queues of a partition with a doorbell that has been rung or a summary bit. -/
def State.rungQueues (s : State) (p : Nat) : List Nat :=
  let lo := ctlBase (s.lowestDie p)
  (s.mem.flatMap fun c => if lo + offDoorbells ≤ c.1 ∧ c.1 < lo + offDoorbells + 0x80000 then [(c.1 - lo - offDoorbells) / 8]
    else if lo + offSummary ≤ c.1 ∧ c.1 < lo + offSummary + 0x2000 then (List.range 8).map fun i => 8 * (c.1 - lo - offSummary) + i else []).eraseDups

/-- What the baristas do (R370–R379, R428). -/
def State.baristaFree (s : State) : List Act :=
  ((List.range s.nparts).flatMap fun p =>
    ((s.rungQueues p).filter (s.queueDue p)).map (fun q => .consumeRecord p q)
      ++ dueIf (s.grantee p).isSome (.coreGrant p) ++ dueIf (s.starved p).isSome (.preempt p))
    ++ s.launches.flatMap fun e : Nat × Launch =>
      dueIf (e.2.phase = .accepted && s.depsMet e.1 e.2) (.launchEligible e.1)
        ++ ((e.2.rots.filter fun r => e.2.phase = .running && s.blockGone e.2 r.1 r.2).map fun r => .bindNextBlock e.1 r.1)
        ++ dueIf e.2.allRetired (.doneStamp e.1) ++ dueIf (e.2.phase = .ending && !s.tasksLeft e.1) (.launchEnd e.1)

/-- Outcomes of the stage of the start sequence that runs (R419). -/
def State.stageFree (s : State) : List Act :=
  match s.sec.stage with
  | .off => [.powerOn]
  | .rom => [.rom true, .rom false]
  | .image => [.image]
  | .train => .train none :: (List.range s.ndie).map fun d => .train (some d)
  | .part => .part none :: (List.range 16).map fun w => .part (some w)
  | .host => [.host true, .host false]
  | .barista => ((List.range s.ndie).filter fun d => !(s.dieAt d).baristaUp).map fun d => .barista d
  | _ => []

/-- Everything that may happen now without being due. -/
def State.free (s : State) : List Act :=
  (s.harts.flatMap fun x : Nat × Hart => s.hartFree x.1 x.2) ++ s.msgs.map Msg.arrives
    ++ (s.slices.flatMap fun z : Nat × Slice => z.2.refused.map fun m => .sequencedApply m.hart m.id) ++ s.doomed
    ++ (s.execs.filter fun e => s.callReady e.1).map (fun e => .callStart e.1)
    ++ (s.engines.flatMap fun e : Nat × Engine => dueIf (!e.2.flight.isEmpty) (.columnReadLanding e.1)
        ++ dueIf (e.2.st ≠ .running && e.2.debt ≠ 0) (.refreshManagerRefresh e.1))
    ++ (s.clearing.map fun c => .rowClearDone c.1 c.2.1)
    ++ (s.msc.flatMap fun e : Nat × MscSector => dueIf e.2.dirty (.memorySideCacheWriteBack (64 * e.1) false) ++ [.memorySideCacheWriteBack (64 * e.1) true, .footprint e.1])
    ++ ((s.netIn.filter fun x => !x.done && !x.buf.isEmpty).map fun x => .netReceive x.die x.msg)
    ++ (s.netHeld.map fun x => if x.1 then .netGetRead x.2.1 x.2.2 else .netReceive x.2.1 x.2.2) ++ dueIf (!s.hostIn.isEmpty) .hostGoesOn ++ dueIf s.hostRmw.isSome .hostWrites
    ++ (s.dies.flatMap fun d : Nat × Die => (d.2.keys.filter fun x => s.sessionState d.1 x.1 = 2).map fun x => .rekey d.1 x.1)
    ++ dueIf s.sec.loading.isSome .imageWritten ++ dueIf (!s.sec.cmds.isEmpty && !s.mailRuns && s.mailbox) .nextMail
    ++ s.baristaFree ++ s.stageFree

/-! ### One step -/

/-- A hart has tried to issue in this cycle. -/
def State.issuing (s : State) : Bool := s.harts.any fun x : Nat × Hart => x.2.tried

/-- The module's own course: what is due, then the next hart to issue, then time. -/
def State.sync (s : State) : Out :=
  match s.due.head? with
  | some e => s.runFree e
  | none => match s.nextHart with
    | some k => .next { s with turn := some k }
    | none => turnOver s.tick

/-- Rows of the table that are events of the module, not instructions of a bundle. -/
def isEvent (i : Instr) : Bool := (encode i).isNone

/-- What a step does where no hart has its turn and no input waits: one of the events that may happen now, or the module's own course; which, is free
(log 4). Once a hart has issued in a cycle its events are over: those of a cycle come before its bundles (R85, R177, R347). -/
def State.advance (s : State) : Out :=
  match if s.issuing then [] else s.free.filter s.inTurn with
  | [] => s.sync
  | l =>
    let n := Config.choice s.nchoice % (l.length + 1)
    let s : State := { s with nchoice := s.nchoice + 1 }
    match n with
    | 0 => s.sync
    | n + 1 => match l[n]? with
      | some x => s.runFree x
      | none => s.sync

end Sys2Proof.Machine
end

