-- ==== Sys2Proof/Machine/Step.lean ====
section
/-! DEFINITION. One step of the module, and the state in which a given bundle is the next to run. -/

namespace Sys2Proof.Machine

/-- One step: the hart whose turn it is issues its bundle; else the oldest input happens (log 3), before any hart has issued in the cycle, since a cycle's events come
before its bundles (R177); else an event that may happen, or the module's own course. -/
def step (s : State) : Host.Outcome State Fault Refusal :=
  match s.turn with
  | some k => turnOver (State.issueOn { s with turn := none } k)
  | none => match if s.issuing then [] else s.inputs with
    | i :: rest => if isEvent i then turnOver (exec i { s with inputs := rest }) else .next { s with inputs := rest }
    | [] => s.advance

/-- Physical and virtual address of the bundle that withFetchWord places. -/
def fetchHome : Nat := 0x1000

/-- The hart on which the instruction of a word runs, and its mode: core 0 in task mode, in handler mode for what only a handler may run, and a context
of executor 0 for RRET. -/
def fetchHart (i : Option Instr) : Nat × Mode :=
  match i with
  | some (.rret _ _ _) => (512, .remote)
  | some .eret | some (.csrr _ _) | some (.csrw _ _) | some .tlbInvAll | some (.tlbInvAsid _) | some (.tlbInvVa _ _) | some (.tlbPrb _ _) | some (.ctxSv _)
  | some (.ctxLd _) | some .wfe => (0, .handler)
  | _ => (0, .task)

/-- The page table that withFetchWord places: pointers at 0x2000 and 0x3000, and at 0x4000 a leaf that maps the first GiB to itself (NORMAL, R, W and X). -/
def fetchRoot : Nat := 0x2000
def fetchTable : List (Nat × Nat) := [(fetchRoot, 0x3001), (0x3000, 0x4001), (0x4000, 0xF)]

/-- s with a bundle of the given bits (those above nbits zero) at address 0x1000, and the hart's turn to issue it: the hart's mode and PC, a page table that maps
the address, and no input before it (log 23). -/
def State.withFetchWord (s : State) (nbits w : Nat) : State :=
  let (k, m) := fetchHart (decodeTableWord nbits w)
  let h : Hart := { Hart.reset with mode := m, pc := word fetchHome, npc := word fetchHome, ptroot := word fetchRoot }
  let s : State := { s with msc := [], inputs := [], turn := some k, tlb := [] }
  let s := fetchTable.foldl (fun (t : State) x => t.setCtl x.1 8 x.2) s
  ((bytesOfBundle (w % 2 ^ nbits)).zipIdx.foldl (fun (t : State) (x : Byte × Nat) => t.setDram (fetchHome + x.2) x.1) s).setHart k h

end Sys2Proof.Machine
end

