-- ==== Sys2Proof/Safety.lean ====
section
/-! DEFINITION. What a safe run is, in the terms that statements use: the machine goes on, memory keeps its one form, tables keep theirs. -/

namespace Sys2Proof.Safety

open Sys2Proof.Machine

/-- The outcome is a next state. -/
def Completes (o : Out) : Prop := ∃ t, o = .next t

/-- n steps, each with a next state. -/
def Steps : Nat → State → State → Prop
  | 0, s, t => s = t
  | n + 1, s, t => ∃ u, step s = .next u ∧ Steps n u t

/-- t can be reached from s. -/
def Reaches (s t : State) : Prop := ∃ n, Steps n s t

/-- A run from s is safe for n steps: no step stops. -/
def SafeFor : Nat → State → Prop
  | 0, _ => True
  | n + 1, s => ∃ t, step s = .next t ∧ SafeFor n t

/-- Memory holds its canonical form. -/
def MemOk (s : State) : Prop := Memory.wf s.mem = true

/-- A property that every step keeps. -/
def Kept (p : State → Prop) : Prop := ∀ s t, p s → step s = .next t → p t

end Sys2Proof.Safety
end

