-- ==== Sys2Proof/Certificates/Slice0/Obligations.lean ====
section
/-! DEFINITION. The statements about the model, for the provers, and the few shapes that they share. -/

namespace Sys2Proof.Spec

open Sys2Proof.Machine

/-! ### Shapes -/

/-- An instruction in its RRR and its RI form writes f of its two operands to s(d), lat cycles after issue, wherever the common checks pass, and does
nothing else (R226, R248). -/
def Scalar2 (rr : Nat → Nat → Nat → Instr) (ri : Nat → Nat → Imm → Instr) (lat : Nat) (f : Word → Word → Word) : Prop :=
  ∀ (s : State) (d a : Nat),
    (∀ b : Nat, s.clear (rr d a b) → exec (rr d a b) s = .next (s.putS lat d (f (s.rdS a) (s.rdS b))))
    ∧ (∀ i : Imm, s.clear (ri d a i) → exec (ri d a i) s = .next (s.putS lat d (f (s.rdS a) (s.immVal i))))

/-- A division is accepted once the divider is free: its result comes after 24 cycles, when the divider is free again; before that the bundle is held
and nothing else happens (R239, R249). -/
def Divides (i : Instr) (s : State) (d : Nat) (x : Word) : Prop :=
  s.clear i →
    (s.h.divFree ≤ s.h.cyc → exec i s = .next ((s.putS 24 d x).onH fun h => { h with divFree := s.h.cyc + 24 }))
    ∧ (s.h.cyc < s.h.divFree → exec i s = .next (s.onH fun h => { h with sig := some (.held 0) }))

/-- Both forms of a division. -/
def Scalar2Div (rr : Nat → Nat → Nat → Instr) (ri : Nat → Nat → Imm → Instr) (f : Word → Word → Word) : Prop :=
  ∀ (s : State) (d a : Nat), (∀ b : Nat, Divides (rr d a b) s d (f (s.rdS a) (s.rdS b))) ∧ (∀ i : Imm, Divides (ri d a i) s d (f (s.rdS a) (s.immVal i)))

/-- POS and min(LEN, 64) of a field operand (R252). -/
def fpos (f : Word) : Nat := f.toNat % 64
def flen (f : Word) : Nat := min (f.toNat / 256 % 128) 64

/-- The conditions of CMP as numbers compare (R253). -/
def condOf {w : Nat} (c : Cond) (a b : BitVec w) : Prop :=
  match c with
  | .eq => a = b
  | .ne => a ≠ b
  | .lt => a.toInt < b.toInt
  | .le => a.toInt ≤ b.toInt
  | .gt => b.toInt < a.toInt
  | .ge => b.toInt ≤ a.toInt
  | .ltu => a.toNat < b.toNat
  | .leu => a.toNat ≤ b.toNat
  | .gtu => b.toNat < a.toNat
  | .geu => b.toNat ≤ a.toNat

/-- The conditions of a branch (R240, R259). -/
def brOf (c : BrCnd) (x : Word) : Prop :=
  match c with
  | .always => True
  | .zero => x = 0
  | .nonzero => x ≠ 0
  | .neg => x.toInt < 0
  | .nonneg => 0 ≤ x.toInt

/-- The handler takes a fault or trap of the bundle (R359–R362): the saved registers, the mode and the next PC; every register of the task, the handler
file and, but for what a walk for the failing address leaves at the home slices, memory and every other hart stay. -/
def Enters (s t : State) (code detail : Nat) (addr epc : Word) : Prop :=
  t.h.mode = .handler ∧ t.h.pc = s.h.hbase + word (64 * code)
    ∧ t.h.fcause = word (2 ^ 28 + slotNum s.h.slot * 2 ^ 24 + detail % 2 ^ 16 * 256 + code)
    ∧ t.h.faddr = addr ∧ t.h.fpc = s.h.pc ∧ t.h.epc = epc
    ∧ t.h.r = s.h.r ∧ t.h.hs = s.h.hs ∧ t.h.hp = s.h.hp ∧ t.h.z = s.h.z ∧ t.h.mc = s.h.mc ∧ t.h.loops = s.h.loops
    ∧ t.h.vrb = s.h.vrb ∧ t.h.mrb = s.h.mrb ∧ t.h.prb = s.h.prb ∧ t.h.pend = s.h.pend ∧ t.h.land = s.h.land ∧ t.h.cctl = s.h.cctl
    ∧ t.h.sp = s.h.sp
    ∧ (canonical addr = true ∧ (code = 4 ∨ code = 5 ∨ code = 10 ∨ code = 19) ∨ t.mem = s.mem ∧ ∀ j, j ≠ s.cur → t.hartAt j = s.hartAt j)

/-- The hart is in task mode and its handler receives the cause (R357, R363). -/
abbrev Delegates (s : State) (code : Nat) : Prop := s.h.mode = .task ∧ s.h.cctl.getLsbD (32 + code) = true

/-- The instruction faults with the cause: the handler receives it where it is delegated, with EPC the faulting bundle; else the task stops with the same
record (R362, R363). In handler mode the core stops (R355). -/
def FaultsTo (i : Instr) (s : State) (code detail : Nat) (addr : Word) : Prop :=
  (Delegates s code → ∃ t, exec i s = .next t ∧ Enters s t code detail addr s.h.pc)
  ∧ (s.h.mode = .task ∧ s.h.cctl.getLsbD (32 + code) = false → ∃ t, exec i s = .next t ∧ t.h.mode = .stopped
      ∧ t.h.fcause = word (2 ^ 28 + slotNum s.h.slot * 2 ^ 24 + detail % 2 ^ 16 * 256 + code) ∧ t.h.faddr = addr ∧ t.h.fpc = s.h.pc
      ∧ t.h.epc = s.h.pc ∧ t.h.r = s.h.r ∧ t.h.sp = s.h.sp ∧ t.h.loops = s.h.loops)
  ∧ (s.h.mode = .handler → ∃ t, exec i s = .next t ∧ t.h.mode = .stopped ∧ t.h.r = s.h.r ∧ t.h.fcause = s.h.fcause ∧ t.h.fpc = s.h.fpc)

/-- The task stops with the record of a fault or trap (R362, R363); its registers, tiles, loops and scratchpad stay. -/
def Stops (s t : State) (code detail : Nat) (addr epc : Word) : Prop :=
  t.h.mode = .stopped ∧ t.h.fcause = word (2 ^ 28 + slotNum s.h.slot * 2 ^ 24 + detail % 2 ^ 16 * 256 + code) ∧ t.h.faddr = addr ∧ t.h.fpc = s.h.pc ∧ t.h.epc = epc
    ∧ t.h.r = s.h.r ∧ t.h.z = s.h.z ∧ t.h.mc = s.h.mc ∧ t.h.loops = s.h.loops ∧ t.h.sp = s.h.sp

/-- TRAP or BRK with its cause number (R267, R355, R359–R363): the handler is entered, the task stops with the same record, or in handler mode the core stops. -/
def Traps (i : Instr) (s : State) (n : Nat) (code : BitVec 16) : Prop :=
  s.clear i →
    (Delegates s n → ∃ t, exec i s = .next t ∧ Enters s t n code.toNat 0 (s.h.pc + 64)
      ∧ (s.h.waiting = none → s.h.heldKind = 0 → s.h.hdr < 32 → wf t.h.estat 16 5 = s.h.hdr ∧ wf t.h.estat 4 4 = 0 ∧ wf t.h.estat 0 2 = 0))
    ∧ (s.h.mode = .task → s.h.cctl.getLsbD (32 + n) = false → ∃ t, exec i s = .next t ∧ Stops s t n code.toNat 0 (s.h.pc + 64))
    ∧ (s.h.mode = .handler → ∃ t, exec i s = .next t ∧ t.h.mode = .stopped ∧ t.h.r = s.h.r ∧ t.h.fcause = s.h.fcause ∧ t.h.fpc = s.h.fpc ∧ t.h.epc = s.h.epc)

/-- A bundle is held before its issue under a wait kind (R36); 0 is a structural stall (R239). -/
def Held (i : Instr) (s : State) (k : Nat) : Prop := exec i s = .next (s.onH fun h => { h with sig := some (.held k) })

/-- The fields of each privileged register that R356, R357, R360, R361 and R364 mark zero or reserved, as (high bit, low bit). -/
def zeroFields : PReg → List (Nat × Nat)
  | .cctl => [(31, 4)]
  | .fcause => [(63, 29)]
  | .estat => [(63, 21), (15, 8), (2, 2)]
  | .hbase | .ptroot => [(63, 52), (11, 0)]
  | .rbanks => [(63, 24), (18, 16)]
  | .ltgrant => [(63, 33)]
  | .crftab => [(63, 52), (4, 0)]
  | .asid => [(63, 16)]
  | _ => []

/-- After a context has issued a bundle, its executor has issued in this slice cycle (R156). -/
def afterIssue (k : Nat) (t : State) : State :=
  if k < 512 then t else t.setExec ((k - 512) / 16) { t.execAt ((k - 512) / 16) with last := (k - 512) % 16, spent := true }

/-- No idle or stopped hart has been given its turn. -/
abbrev TurnOk (s : State) : Prop := ∀ k, s.turn = some k → (s.hartAt k).mode ≠ .idle ∧ (s.hartAt k).mode ≠ .stopped

/-! ### Vector shapes -/

/-- Lane k of the second source: of a vector register, or the low half of a scalar register in every lane (R271). -/
def srcB (s : State) (b : VB) (k : Nat) : Lane :=
  match b with
  | .vec r => laneAt (s.rdV r) k
  | .scl r => (s.rdS r).setWidth 32

/-- Where the common checks pass, the instruction writes vector register d and joins sticky bits to VSTAT lat cycles after issue, and does nothing else: an
active lane gets f, an inactive one keeps its value and raises no bit; lanes are active where the mask word has a one (R272, R274). -/
def WritesLanes (s : State) (i : Instr) (lat d : Nat) (act : Word) (f : Nat → Lane × Flags) : Prop :=
  s.clear i → ∃ v fl, exec i s = .next ((s.putV lat d v).stick lat fl)
    ∧ (∀ k, k < 64 → laneAt v k = if act.getLsbD k = true then (f k).1 else laneAt (s.rdV d) k)
    ∧ (∀ n, n < 5 → (fl.getLsbD n = true ↔ ∃ k, k < 64 ∧ act.getLsbD k = true ∧ (f k).2.getLsbD n = true))

/-- A lane-wise instruction that raises no bit. -/
def WritesPlain (s : State) (i : Instr) (lat d : Nat) (act : Word) (f : Nat → Lane) : Prop := WritesLanes s i lat d act fun k => (f k, 0)

/-- A mask result (R272): bit k of m(d) is p k for an active lane and 0 for an inactive one. -/
def WritesMask (s : State) (i : Instr) (lat d : Nat) (act : Word) (p : Nat → Prop) : Prop :=
  s.clear i → ∃ y : Word, exec i s = .next (s.putM lat d y) ∧ ∀ k, k < 64 → (y.getLsbD k = true ↔ act.getLsbD k = true ∧ p k)

/-- The nearest integer of a range. -/
def clampTo (lo hi x : Int) : Int := if x < lo then lo else if hi < x then hi else x

/-- Lane k of the packed register of elements e, each of n bits (R285); elements from 128 on are 0. -/
def packLane (n : Nat) (e : Nat → Nat) (k : Nat) : Lane :=
  BitVec.ofNat 32 ((List.range (32 / n)).foldl (fun x j => x + (if 32 / n * k + j < 128 then e (32 / n * k + j) % 2 ^ n else 0) * 2 ^ (n * j)) 0)

/-- VRED's tree over lanes i to i + 2^n − 1: the left operand is the lower half (R287). -/
def treeOf (op : RedOp) (x : Nat → Lane) : Nat → Nat → Lane
  | 0, i => x i
  | n + 1, i => (redOp op (treeOf op x n i) (treeOf op x n (i + 2 ^ n))).1
/-- Lane i after n stages of VSCAN (R287). -/
def scanOf (op : RedOp) (x : Nat → Lane) : Nat → Nat → Lane
  | 0, i => x i
  | n + 1, i => if 2 ^ n ≤ i then (redOp op (scanOf op x n (i - 2 ^ n)) (scanOf op x n i)).1 else scanOf op x n i
/-- Lane p of a block after n butterfly stages of fwht (R66, R290). -/
def hadOf (x : Nat → Lane) : Nat → Nat → Lane
  | 0, p => x p
  | n + 1, p => if p / 2 ^ n % 2 = 0 then (fpAdd .rn (hadOf x n p) (hadOf x n (p + 2 ^ n))).1 else (fpSub .rn (hadOf x n (p - 2 ^ n)) (hadOf x n p)).1

/-- An instruction that writes every lane with values alone fixed here (R272 source select, none). -/
def WritesAll (s : State) (i : Instr) (lat d : Nat) (f : Nat → Lane) : Prop :=
  s.clear i → ∃ v fl, exec i s = .next ((s.putV lat d v).stick lat fl) ∧ ∀ k, k < 64 → laneAt v k = f k

/-- The identity of a reduction (R287). -/
def identityOf : RedOp → Lane
  | .fadd => 0x80000000
  | .fmax => 0xFF800000
  | .fmin => 0x7F800000
  | .add => 0
  | .max => 0x80000000
  | .min => 0x7FFFFFFF
  | .maxu => 0
  | .minu => 0xFFFFFFFF

/-! ### Scratchpad shapes -/

/-- n bytes from offset o lie in declared banks of the hart that are in SCRATCH mode (R75, R78). -/
abbrev InScratch (h : Hart) (o n : Nat) : Prop := 0 < n ∧ o + n ≤ 2 ^ 21 ∧ ∀ i, i < n → (o + i) / 0x20000 < h.scr ∧ (h.bank ((o + i) / 0x20000)).mode = .scratch

/-- The panel register names LINES lines of PITCH bytes from ADDR (R293). -/
abbrev PanelOk (w : Word) : Prop := wf w 56 8 = 0 ∧ 1 ≤ wf w 48 8 ∧ wf w 48 8 ≤ 128 ∧ wf w 21 11 = 0 ∧ wf w 32 16 % 16 = 0 ∧ wf w 0 21 % 16 = 0

/-- A matrix instruction enters the unit: the slot is busy, the instruction completes `due` cycles after issue with the operands, configuration, panels and
results it has captured, and nothing else changes (R61, R236, R239). -/
def EntersUnit (i : Instr) (s : State) (busy due tile : Nat) (kind : MatKind) (ops cfg : List Word) (panels : List (List Byte)) (outs : List (Nat × List Byte))
    (mstat : BitVec 6) : Prop :=
  exec i s = .next (s.onH fun h =>
    { h with mFree := s.h.cyc + busy,
             matq := h.matq ++ [{ kind := kind, tile := tile, ops := ops, cfg := cfg, panels := panels, outs := outs, mstat := mstat, due := s.h.cyc + due,
                                  seen := s.h.spLog.length }] })

/-- The bytes of spans of the scratchpad. -/
def bytesAt (h : Hart) (l : List (Nat × Nat)) : List Byte := l.flatMap fun x => h.spBytes x.1 x.2
/-- No granule of the spans is damaged or corrected (R86). -/
abbrev Sound (h : Hart) (l : List (Nat × Nat)) : Prop := ∀ x ∈ l, ∀ g ∈ granules x.1 x.2, g ∉ h.spBad ∧ g ∉ h.spCorr

/-- The spans of scratchpad that the lines of a panel or window register cover, n bytes each (R293). -/
def linesOf (w : Word) (n : Nat) : List (Nat × Nat) := (List.range (wf w 48 8)).map fun l => (wf w 0 21 + l * wf w 32 16, n)

/-- EA of an L- or W-slot access of n bytes (R74). -/
def eaOf (s : State) (m : Mem) (n : Nat) : Word := s.rdS m.base + s.rdS m.idx + m.off.signExtend 64 * word n
/-- EA of element i of a strided access and of an indexed one (R304). -/
def eaStride (s : State) (m : Mem) (n i : Nat) : Word := s.rdS m.base + m.off.signExtend 64 * word n + word i * s.rdS m.idx
def eaIndex (s : State) (m : Mem) (n i : Nat) : Word := s.rdS m.base + m.off.signExtend 64 * word n + (laneAt (s.rdV m.idx) i).signExtend 64

/-- A loaded value of n bytes, zero- or sign-extended to w bits (R305). -/
def extend (w : Nat) (zx : Bool) (b : List Byte) : BitVec w :=
  if zx = true then (BitVec.ofNat (8 * b.length) (numOf b)).setWidth w else (BitVec.ofNat (8 * b.length) (numOf b)).signExtend w

/-- Bytes of an access size. -/
def sizeBytes : Size → Nat
  | .b => 1
  | .h => 2
  | .w => 4
  | .d => 8

/-- A place of n bytes of an L or C access that can be read as plain scratchpad, on its core or in a save area: in declared SCRATCH banks, on a core with no
damaged or corrected granule and no matrix write under way; full where the load asks for it, and not only since this cycle where it has waited (R85). -/
abbrev Readable (s : State) (x : Spot) (n : Nat) (w : Bool) : Prop :=
  let h := s.hartAt x.hart
  0 < n ∧ x.off + n ≤ 2 ^ 21
    ∧ (∀ i, i < n → (x.off + i) / 0x20000 < (if x.at_ = .live then h.scr else s.h.scr) ∧ (s.spBank x ((x.off + i) / 0x20000)).mode = .scratch)
    ∧ (x.at_ = .live → h.spBad = [] ∧ h.spCorr = [] ∧ h.matq = []) ∧ (∀ a, x.at_ = .image a → ∀ g ∈ granules x.off n, s.badSector (imgSp a (16 * g)) 16 0 = none)
    ∧ (w = true → (∀ g ∈ granules x.off n, s.spFull x g = true) ∧ (s.h.waiting = none ∨ h.fills = []))

/-- The bytes at a place. -/
def spotBytes (s : State) (x : Spot) (n : Nat) : List Byte := (List.range n).map fun i => s.spAt x (x.off + i)

/-- Latency of an L and of a C load (R236). -/
def localLat : Space → Nat
  | .l => 6
  | _ => 40

/-- After a load of a place: its granules are empty with .C (R84), else the state is the same. -/
def consumed (s : State) (x : Spot) (n : Nat) (c : Bool) : State := if c = true then s.spSetFulls x (granules x.off n) false else s

/-- After a store of bytes to places of scratchpads: those bytes, every other byte of every scratchpad as it was; memory, registers and results on their way
as they were. -/
def Stored (s t : State) (byte : Nat → Nat → Option Byte) : Prop :=
  (∀ k o, (t.hartAt k).spByte o = (byte k o).getD ((s.hartAt k).spByte o))
    ∧ t.mem = s.mem ∧ t.msc = s.msc ∧ t.time = s.time
    ∧ ∀ k, (t.hartAt k).r = (s.hartAt k).r ∧ (t.hartAt k).pend = (s.hartAt k).pend ∧ (t.hartAt k).land = (s.hartAt k).land ∧ (t.hartAt k).z = (s.hartAt k).z
        ∧ (t.hartAt k).vstat = (s.hartAt k).vstat ∧ (t.hartAt k).stq = (s.hartAt k).stq ∧ (t.hartAt k).cctl = (s.hartAt k).cctl
        ∧ (t.hartAt k).fcause = (s.hartAt k).fcause ∧ (t.hartAt k).loops = (s.hartAt k).loops

/-- What a store's qualifier leaves in the granules it touches (R83): their state, full, or empty. -/
def qualified (fe : FeQ) (old : Bool) : Bool :=
  match fe with
  | .plain => old
  | .full => true
  | .empty => false

/-- An L or C store of the bytes `data` at EA. -/
def StoresLocal (i : Instr) (s : State) (sp : Space) (fe : FeQ) (ea : Word) (align : Nat) (data : List Byte) : Prop :=
  s.clear i → sp ≠ .g → s.acqPending = false → ea.toNat % align = 0 → ∀ x, s.spot sp ea = .ok x → x.at_ = .live → InScratch (s.hartAt x.hart) x.off data.length →
    ∃ t, exec i s = .next t ∧ Stored s t (fun k o => if k = x.hart ∧ x.off ≤ o ∧ o < x.off + data.length then data[o - x.off]? else none)
      ∧ ∀ k g, (t.hartAt k).fullAt g = if k = x.hart ∧ g ∈ granules x.off data.length then qualified fe ((s.hartAt k).fullAt g) else (s.hartAt k).fullAt g

/-- A strided or indexed store of the low n bytes of lane j at EA j (R310); addresses do not meet. -/
def ScattersLocal (i : Instr) (s : State) (sp : Space) (n : Nat) (ea : Nat → Word) (v : VReg) : Prop :=
  s.clear i → sp ≠ .g → s.acqPending = false → (∀ j, j < 64 → (ea j).toNat % n = 0) → ∀ x : Nat → Spot, (∀ j, j < 64 → s.spot sp (ea j) = .ok (x j)) →
    (∀ j, j < 64 → (x j).at_ = .live ∧ InScratch (s.hartAt (x j).hart) (x j).off n) →
    (∀ j l, j < 64 → l < 64 → j ≠ l → (x j).hart ≠ (x l).hart ∨ (x j).off + n ≤ (x l).off ∨ (x l).off + n ≤ (x j).off) →
    ∃ t, exec i s = .next t
      ∧ (∀ j b, j < 64 → b < n → (t.hartAt (x j).hart).spByte ((x j).off + b) = BitVec.ofNat 8 ((laneAt v j).toNat / 256 ^ b))
      ∧ (∀ k o, (∀ j, j < 64 → k ≠ (x j).hart ∨ o < (x j).off ∨ (x j).off + n ≤ o) → (t.hartAt k).spByte o = (s.hartAt k).spByte o)
      ∧ t.mem = s.mem ∧ t.msc = s.msc ∧ t.h.r = s.h.r ∧ t.h.pend = s.h.pend

/-- A strided or indexed L or C load of n bytes a lane. -/
def GathersLocal (i : Instr) (s : State) (sp : Space) (n : Nat) (zx w c : Bool) (d : Nat) (ea : Nat → Word) : Prop :=
  s.clear i → sp ≠ .g → s.acqPending = false → (∀ j, j < 64 → (ea j).toNat % n = 0) → ∀ x : Nat → Spot, (∀ j, j < 64 → s.spot sp (ea j) = .ok (x j)) →
    (∀ j, j < 64 → (x j).at_ = .live ∧ Readable s (x j) n w) →
    ∃ u v, exec i s = .next (u.putV (localLat sp) d v) ∧ (∀ j, j < 64 → laneAt v j = extend 32 zx ((s.hartAt (x j).hart).spBytes (x j).off n))
      ∧ (c = false → u = s) ∧ (c = true → ∀ j g, j < 64 → g ∈ granules (x j).off n → (u.hartAt (x j).hart).fullAt g = false)
      ∧ u.mem = s.mem ∧ u.h.r = s.h.r ∧ u.h.pend = s.h.pend ∧ ∀ k o, (u.hartAt k).spByte o = (s.hartAt k).spByte o

/-- The entry that a load or a request of the hart takes in its landing buffer at issue (R94, R95): land = 0 is any, else its exact cycle. -/
def entryOf (s : State) (land : Nat) (regs : List Reg) (req : LandReq) (acq : Acq) (slots : List Nat) : Landing :=
  { id := s.nextId + 1, issued := s.h.cyc, due := if land = 0 then none else some (s.h.cyc + land), pc := s.h.pc, regs := regs, req := req, got := none,
    acq := acq, bad := none, read := [], byTask := decide (s.h.mode ≠ .handler), ready := 0, slots := slots }

/-- A G load that is accepted: its addresses are translated, with what their walks leave at the home slices, it takes an entry, and nothing else happens
(R93, R94). -/
def TakesEntry (i : Instr) (s : State) (land : Nat) (regs : List Reg) (f : LoadForm) (ps : List Piece) (eas : List Word) : Prop :=
  let u := s.walksOn s.cur eas
  exec i s = .next (({ u with nextId := u.nextId + 1 } : State).onH fun h =>
    { h with land := h.land ++ [entryOf u land regs (.load f ps) none (u.slotsFor (ps.map (·.pa)))] })

/-- The physical register of a scalar destination: none for s0. -/
def regS (s : State) (d : Nat) : List Reg := if d = 0 then [] else [if s.h.mode = .handler then .hs d else .s d]

/-- What a G access needs beside its addresses: no acquire of the hart outstanding (R314). -/
abbrev Unhindered (s : State) : Prop := s.acqPending = false

/-! ### Memory shapes -/

/-- The memory-side caches are a table of memory sectors, and a clean sector holds what lies behind it: no engine has written beneath it (R88, R200). -/
def Agrees (s : State) : Prop :=
  Tab.above none s.msc = true
    ∧ ∀ k e, Tab.find s.msc k = some e → ((region (64 * k)).1 = .hbm ∨ (region (64 * k)).1 = .second)
        ∧ (e.dirty = false → s.notLive (64 * k) = true ∨ e.data = s.dramSector k)

/-- Nothing in memory is damaged, encrypted, lost or elided. -/
def Faultless (s : State) : Prop :=
  s.bad = [] ∧ s.corr = [] ∧ s.sealed_ = [] ∧ (∀ d, (s.dieAt d).expanderDown = false) ∧ (∀ a, s.notLive a = false) ∧ Agrees s

/-- An address outside the error status blocks of the control regions, whose counters count what happens at the slices (R393, R406). -/
abbrev Steady (a : Nat) : Prop := ¬ ((region a).1 = .control ∧ 0x1008 ≤ a % 2 ^ 32 ∧ a % 2 ^ 32 < 0x11000)
/-- Every byte of memory is as it was. -/
abbrev SameBytes (s t : State) : Prop := ∀ a, Steady a → t.byteAt a = s.byteAt a

/-- A sector of HBM4E or second-tier memory that can be read and written plainly under a key slot: its row is live, its expander answers, it holds no damage
and is stored under that key slot, 0 for none; what the memory-side caches replace for it reads on as before. -/
abbrev Plain (s : State) (sec key : Nat) : Prop :=
  ((region (64 * sec)).1 = .hbm ∨ (region (64 * sec)).1 = .second) ∧ s.notLive (64 * sec) = false ∧ s.expanderLost (64 * sec) = false
    ∧ sec ∉ s.bad ∧ sec ∉ s.corr ∧ Tab.find s.sealed_ sec = (if key = 0 then none else some (key, s.keyGenOf key)) ∧ Agrees s

/-- No atomic operation of the hart is on its way to memory. -/
abbrev NoAtomics (s : State) (k : Nat) : Prop := ∀ g ∈ s.msgs, g.hart ≠ k

/-- Byte n of a sector. -/
def sectorByte (x : Sector) (n : Nat) : Byte := BitVec.ofNat 8 (x.toNat / 256 ^ n)

/-- The home slices hold the masked bytes of a sector, and every other byte of memory is as it was. -/
def TakesBytes (s t : State) (sec : Nat) (m : BitVec 64) (x : Sector) : Prop :=
  ∀ a, Steady a → t.byteAt a = if a / 64 = sec ∧ m.getLsbD (a % 64) = true then sectorByte x (a % 64) else s.byteAt a

/-- n bytes from pa are those of the number x; every other byte of memory is as it was. -/
def HoldsNumber (s t : State) (pa n x : Nat) : Prop := ∀ a, Steady a → t.byteAt a = if pa ≤ a ∧ a < pa + n then BitVec.ofNat 8 (x / 256 ^ (a - pa)) else s.byteAt a

/-- The value an AMO leaves (R312). -/
def amoOf (op : AmoOp) (v x : Word) : Word :=
  match op with
  | .add => v + x
  | .and => v &&& x
  | .or => v ||| x
  | .xor => v ^^^ x
  | .min => if v.toInt ≤ x.toInt then v else x
  | .max => if v.toInt ≤ x.toInt then x else v
  | .minu => if v.toNat ≤ x.toNat then v else x
  | .maxu => if v.toNat ≤ x.toNat then x else v
  | .swap => x

/-- The registers, results and landings of every hart but the caches and stores in flight. -/
def SameRegisters (s t : State) : Prop :=
  ∀ k, (t.hartAt k).r = (s.hartAt k).r ∧ (t.hartAt k).pend = (s.hartAt k).pend ∧ (t.hartAt k).land = (s.hartAt k).land ∧ (t.hartAt k).mode = (s.hartAt k).mode
    ∧ (t.hartAt k).pc = (s.hartAt k).pc ∧ (t.hartAt k).sp = (s.hartAt k).sp ∧ (t.hartAt k).loops = (s.hartAt k).loops

/-- A copy command whose probe passes joins the queue with the next number, its operands, records and pages captured; unless it is NB, CP.MC or CP.STAMP, barrier
ix takes a reference and an INFL count. Nothing else changes but what the walks of the probe leave at the home slices. -/
def QueuesCopy (i : Instr) (s : State) (op : CopyOp) (nb : Bool) (cmd aux : Word) (org : VReg) (src dst : Rec) (ix : Nat) (b : Barrier) : Prop :=
  ∀ pages, s.probeCmd (s.command op nb cmd aux org src dst) (match op with | .netPut _ | .netGet => s.sessionOk (cmd.toNat / 2 ^ 48) | _ => true) = .ok pages →
    let u := s.walksOn s.cur (pages.map fun p => word (p.vpn * 4096))
    ∃ t c, exec i s = .next t ∧ t.h.copyq = s.h.copyq ++ [c] ∧ c.id = s.nextId + 1 ∧ c.op = op ∧ c.nb = nb ∧ c.cmd = cmd ∧ c.aux = aux ∧ c.org = org ∧ c.src = src ∧ c.dst = dst
      ∧ c.pages = pages ∧ c.lid = s.h.lid ∧ c.member = s.h.member ∧ c.started = false ∧ c.finished = false
      ∧ (if nb = true ∨ op = .mc ∨ op = .stamp then t.h.bars = s.h.bars
         else t.h.bar ix = some { b with refcnt := min (b.refcnt + 1) 65535, infl := min (b.infl + 1) 65535 } ∧ ∀ j, j ≠ ix → t.h.bar j = s.h.bar j)
      ∧ t.h.r = s.h.r ∧ t.h.sp = s.h.sp ∧ t.h.pend = s.h.pend ∧ t.h.land = s.h.land ∧ t.mem = u.mem ∧ t.msc = u.msc

/-- A TS request leaves for the carafe's home slice with its landing entry (R327); registers and scratchpad stay, and memory but for what the walk for its
handle and the descriptors read leave at the home slices. -/
def SendsTs (i : Instr) (s : State) (hd : Nat) (op : TsOp) (c : Carafe) (t : Sector) (mode dl : Word) (land : Nat) (regs : List Reg) (req : LandReq) : Prop :=
  ∃ u, exec i s = .next u ∧ u.h.land = s.h.land ++ [entryOf s land regs req none []]
    ∧ u.msgs = s.msgs ++ [{ id := s.nextId + 2, hart := s.cur, landing := s.nextId + 1, rid := s.rid, lid := s.h.lid.getD 0, member := s.h.member, home := s.carafeHome s.die c (tupTag t) (tword t 1), time := s.time, body := .ts op c.cid t mode dl,
                                limit := if s.h.mode = .remote then s.time + 2 * (s.h.rcbudget.toNat - s.h.cyc) else 0 }]
    ∧ u.h.r = s.h.r ∧ u.h.sp = s.h.sp ∧ u.h.pend = s.h.pend ∧ u.mem = (s.resolveReads (s.rdS hd)).mem

/-- No write of DSTAT is on its way. -/
abbrev NoDstat (h : Hart) : Prop := ∀ e ∈ h.pend, ∀ x, e.w ≠ .wsr .dstat x
/-- Nothing of the hart is on its way to memory or in its L1, and none of its loads waits. -/
abbrev Quiet (h : Hart) : Prop := h.land = [] ∧ h.stq = [] ∧ h.l1 = []

end Sys2Proof.Spec

section
open Sys2Proof Sys2Proof.Machine Sys2Proof.Spec Sys2Proof.Safety

/-! ### Encoding and steps -/

/-- Words written out from the encoding tables decode to the instructions they stand for: the four slots of the worked bundle of chapter 12, three more of the
S slot (R253, R262, R264), and one each of the V1, M, W and C slots. -/
def Obligations.WrittenWordsDecode : Prop :=
  decodeSlot .s false 0x81C8E180FFFFFFFE = .ok (some ⟨.s, true, 9, .addI 7 3 (.imm 0xFFFFFFFE)⟩)
  ∧ decodeSlot .v0 false 0x0102482200000000 = .ok (some ⟨.v0, false, 0, .vfadd .rn 18 16 (.vec 17) 0⟩)
  ∧ decodeSlot .l false 0x0101820B30258002 = .ok (some ⟨.l, false, 0, .ld .g .d false false false 12 ⟨4, 5, 2⟩ 300⟩)
  ∧ decodeSlot .y false 0x400000600000 = .ok (some ⟨.y, false, 0, .fence .module⟩)
  ∧ decodeSlot .s false 0x3500010000000005 = .ok (some ⟨.s, false, 0, .loopSet 2 5⟩)
  ∧ decodeSlot .s false 0x3748000000000000 = .ok (some ⟨.s, false, 9, .loopBrk⟩)
  ∧ decodeSlot .s false 0x1E01018A00000000 = .ok (some ⟨.s, false, 0, .cmp .eq 8 3 5⟩)
  ∧ decodeSlot .v1 false 0x4602A08020100000 = .ok (some ⟨.v1, false, 0, .vext .dword 21 1 4⟩)
  ∧ decodeSlot .m false 0x0100051660000000 = .ok (some ⟨.m, false, 0, .mma 0 10 11 12 0⟩)
  ∧ decodeSlot .w false 0x0100630EA2001FFF = .ok (some ⟨.w, false, 0, .st .c .w .empty 3 ⟨6, 7, 0x1FFF⟩⟩)
  ∧ decodeSlot .c false 0x0301841202000000 = .ok (some ⟨.c, false, 0, .cpX false true 12 8 9⟩)
  ∧ decodeSlot .s false 0 = .ok none
  ∧ (∃ e, decodeSlot .s false 0x8000000000000000 = .error e)

/-- Decoding the encoding of a well-formed instruction gives that instruction back, with every operand, under guard p0. NOP is the slot of zeros. -/
def Obligations.DecodeEncodeAgree : Prop :=
  ∀ i : Instr, i.wf = true → i ≠ .nop → ∀ n w, encode i = some (n, w) → decodeSlot n true w = .ok (some ⟨n, false, 0, i⟩)

/-- A step runs the decoded instruction: where it is a hart's turn, the 64 bytes at its PC decode to a bundle of one unguarded instruction i, no wait,
trap or switch request comes first, and i neither waits nor faults, the step is exec of i (once to find that nothing holds it, then to take effect) between
the beginning of the bundle (PC + 64 as the next PC) and its end (the PC and the bases moved on, STALL cycles set); the fetch leaves behind what its walk and
its read leave at the home slices. -/
def Obligations.StepRunsDecoded : Prop :=
  ∀ (s : State) (k : Nat) (p : Page) (b : Bundle) (x : Slot) (c v : State),
    s.turn = some k →
    let s0 : State := { ({ s with turn := none, cur := k } : State).onH Hart.entered with ntlb := s.ntlb + 1 }
    s0.h.owed = none → s0.h.waiting = none → s0.h.going = none → s0.h.trapPend = [] → s0.h.fetched = none →
    s0.fetchPage = .ok p → s0.deferred p.pa 64 = false → s0.badSector p.pa 64 p.key = none →
    let w := s0.numSeen p.key p.pa 64
    let t := (s0.walkOn k s0.h.pc).touch p.pa 64 p.cpol p.key (readAgent s0.rid) s0.rid
    t.h = s0.h → t.cur = k →
    t.h.decodeAt w = .ok b → b.slots = [x] → x.pred = 0 → x.neg = false →
    let u := t.onH fun h => h.begin_ b
    u.switchNow b w = false →
    exec x.instr (u.inSlot b x) = .next c → c.h.sig = none →
    exec x.instr ((u.onH fun h => { h with commit := true }).inSlot b x) = .next v → v.cur = k → v.h.sig = none →
    step s = .next { afterIssue k (v.onH fun h => h.endBundle u.h.mode) with turn := none }

/-- The machine always goes on: from any state in which no idle or stopped hart has been given its turn, the step answers with a next state, in which again
no idle or stopped hart has its turn; so a run never stops. No instruction is refused, and ordinary data never stops a run. -/
def Obligations.StepAlwaysGoesOn : Prop := ∀ s : State, TurnOk s → ∃ t, step s = .next t ∧ TurnOk t

/-- Memory keeps its one canonical form (addresses strictly rising, no byte listed that reads as an unlisted one) through every step. -/
def Obligations.MemoryStaysCanonical : Prop := Kept MemOk

/-- Reset leaves what the manual gives: the Reset column of the privileged registers on every core, no task, module time 0, the start sequence not begun,
memory in its canonical form. -/
def Obligations.ResetState : Prop :=
  MemOk State.reset ∧ TurnOk State.reset ∧ State.reset.time = 0 ∧ State.reset.sec.stage = .off
  ∧ ∀ k, let h := State.reset.hartAt k
      h.cctl = 0 ∧ h.fcause = 0 ∧ h.faddr = 0 ∧ h.fpc = 0 ∧ h.epc = 0 ∧ h.estat = 0 ∧ h.hbase = 0 ∧ h.rbanks = 1 ∧ h.ltgrant = 0
      ∧ h.crftab = 0 ∧ h.ptroot = 0 ∧ h.asid = 0 ∧ h.rcto = 0xD693A400 ∧ h.rcbudget = 0x0112A880 ∧ h.mode = .idle
      ∧ (∀ n, h.wcnt = [] ∧ h.getS 0 = 0 ∧ h.getP 0 = true ∧ h.getM 0 = BitVec.allOnes 64 ∧ State.reset.nmdebt (hartDie k) n = 0)

/-- Where the mode permits the instruction, no result is on its way to a register and the vector registers and tiles it names are declared and ON, the
common checks pass; and they pass for every instruction once they have been made for its bundle. -/
def Sys2Proof.Spec.CommonChecksPass : Prop :=
  ∀ (s : State) (i : Instr),
    (s.h.commit = true → s.clear i)
    ∧ (s.h.land = [] → s.h.pend = [] → s.h.wins = [] → s.h.regoff i = none →
        (s.h.mode = .task → i.isHandler = false → (∀ a b c, i ≠ .rret a b c) → s.clear i)
        ∧ (s.h.mode = .handler → handlerPermits i = true → s.clear i)
        ∧ (s.h.mode = .remote → remoteDetail s.h.slot i = 0 → s.clear i))

/-- What the mode or the banks refuse faults: a handler-mode instruction in task mode raises PRIV, and RRET there ILLEGAL; what R354 does not permit is
ILLEGAL in handler mode and stops the core; a vector register, written or read, or a tile beyond the declaration raises REGOFF with detail 1, one in a bank
that is OFF or RETAIN REGOFF with detail 2. -/
def Obligations.RefusedByMode : Prop :=
  ∀ (s : State) (i : Instr), s.h.commit = false →
    (∀ n w, encode i = some (n, w) → s.h.mode = .task → i.isHandler = true → FaultsTo i s 2 0 0)
    ∧ (∀ a b c, s.h.mode = .task → FaultsTo (.rret a b c) s 1 0 0)
    ∧ (∀ n w, encode i = some (n, w) → s.h.mode = .handler → handlerPermits i = false → FaultsTo i s 1 0 0)
    ∧ (∀ d a r m, s.h.mode = .task → s.h.land = [] → s.h.pend = [] → s.h.wins = [] →
        (s.h.vregs ≤ d ∨ s.h.vregs ≤ a ∨ s.h.vregs ≤ r → FaultsTo (.vxor d a (.vec r) m) s 11 1 0)
        ∧ (s.h.vregs ≤ d ∨ s.h.vregs ≤ a → ∀ e, FaultsTo (.vxor d a (.scl e) m) s 11 1 0)
        ∧ (d < s.h.vregs → a < s.h.vregs → r < s.h.vregs → s.h.vbank (s.h.physV d) ≠ 1 ∨ s.h.vbank (s.h.physV a) ≠ 1 ∨ s.h.vbank (s.h.physV r) ≠ 1 →
            FaultsTo (.vxor d a (.vec r) m) s 11 2 0))
    ∧ (∀ z, s.h.mode = .task → s.h.land = [] → s.h.pend = [] → s.h.wins = [] → s.h.mFree ≤ s.h.cyc → s.h.tileBusy z = false → s.h.ztiles ≤ z → FaultsTo (.mzero z) s 11 1 0)
    ∧ (∀ z, s.h.mode = .task → s.h.land = [] → s.h.pend = [] → s.h.wins = [] → s.h.mFree ≤ s.h.cyc → s.h.tileBusy z = false → z < s.h.ztiles → s.h.zbank z ≠ 1 → FaultsTo (.mzero z) s 11 2 0)

/-- LATCHK: with CHKLAT, a task's read of a scalar register in the window of an outstanding result faults, and the detail names the register; without
CHKLAT the instruction reads the old value (R237, R238). -/
def Sys2Proof.Spec.LatencyWindow : Prop :=
  ∀ (s : State) (d n : Nat) (x : Word) (q : Pend), s.h.mode = .task → s.h.commit = false → s.h.land = [] → s.h.pend = [q] → s.h.wins = [] → q.w = .s n x →
    s.h.cyc < q.due →
    (s.h.cctl.getLsbD 0 = true → n ≠ 0 → d ≠ n → FaultsTo (.clz d n) s 3 n 0)
    ∧ (s.h.cctl.getLsbD 0 = false → s.clear (.clz d n))

/-- When the common checks pass, and what LATCHK does in a latency window. -/
def Obligations.ChecksAndWindows : Prop := Sys2Proof.Spec.CommonChecksPass ∧ Sys2Proof.Spec.LatencyWindow

/-- The hard-wired registers (R226): s0 reads 0, p0 true and m0 all ones, in every state; a write to one of them is discarded, with no effect at all. -/
def Sys2Proof.Spec.HardWiredRegisters : Prop :=
  ∀ s : State, s.rdS 0 = 0 ∧ s.rdP 0 = true ∧ s.rdM 0 = BitVec.allOnes 64
    ∧ (∀ lat x, s.putS lat 0 x = s) ∧ (∀ lat x, s.putP lat 0 x = s) ∧ (∀ lat x, s.putM lat 0 x = s)

/-- A scalar, predicate, mask or vector result leaves everything as it is but for one pending write of its hart, due lat cycles later, to the physical
register that the logical number names at issue (R235, R236): every register, flag, special register, byte of memory and other hart stays. -/
def Sys2Proof.Spec.ResultFrame : Prop :=
  ∀ (s : State) (lat d : Nat),
    let pends (t : State) (w : Write) : Prop := t.mem = s.mem ∧ t.hartAt s.cur = { s.h with pend := s.h.pend ++ [{ issued := s.h.cyc, due := s.h.cyc + lat, w := w }] }
        ∧ (∀ j, j ≠ s.cur → t.hartAt j = s.hartAt j) ∧ { t with harts := s.harts } = s
    (∀ x, d ≠ 0 → pends (s.putS lat d x) (if s.h.mode = .handler then .hs d x else .s d x))
    ∧ (∀ x, d ≠ 0 → pends (s.putP lat d x) (if s.h.mode = .handler then .hp d x else .p (if d < 8 then d else 8 + (d - 8 + s.h.prb) % 8) x))
    ∧ (∀ x, d ≠ 0 → pends (s.putM lat d x) (.m (if d < 8 then d else 8 + (d - 8 + s.h.mrb) % 8) x))
    ∧ (∀ x, pends (s.putV lat d x) (.v (if d < 16 ∨ s.h.nr = 0 then d else 16 + (d - 16 + s.h.vrb) % s.h.nr) x))

/-- The hard-wired registers, and the frame of a fixed-latency result. -/
def Obligations.RegistersAndFrames : Prop := Sys2Proof.Spec.HardWiredRegisters ∧ Sys2Proof.Spec.ResultFrame

/-- Results are written in the cycle in which they are ready and not before (R236), in issue order (R237): a scalar, vector or mask register, one predicate, the
five words of a matrix configuration, a tile that becomes zero, a WSR of VSTAT or DSTAT; the sticky bits of a result join VSTAT, after a WSR of the same cycle
(R50, R258). A CSRW takes effect at its own time (R356): RCTO below 1,024 becomes 1,024, and SWREQ of CCTL is not written (R357). A bank or tile that RBANKS
turns OFF loses its contents (R364). -/
def Obligations.ResultsAreWritten : Prop :=
  ∀ (s : State) (k : Nat),
    let h := s.hartAt k
    let put (g : Hart) : Prop := exec (.fixedLatencyWrite k) s = .next (s.setHart k g)
    (∀ q, h.land = [] → h.pend = [q] → q.issued ≤ h.cyc → q.due ≤ h.cyc →
        (∀ (n : Nat) (x : Word), q.w = .s n x → put { h with pend := [], r := { h.r with s := Tab.set 0 h.r.s n x } }
          ∧ (h.mode ≠ .handler → n ≠ 0 → ({ h with pend := [], r := { h.r with s := Tab.set 0 h.r.s n x } } : Hart).getS n = x))
        ∧ (∀ (n : Nat) (x : Word), q.w = .hs n x → put { h with pend := [], hs := Tab.set 0 h.hs n x })
        ∧ (∀ (n : Nat) (x : VReg), q.w = .v n x → put { h with pend := [], r := { h.r with v := Tab.set 0 h.r.v n x } })
        ∧ (∀ (n : Nat) (x : Word), q.w = .m n x → put { h with pend := [], r := { h.r with m := Tab.set 0 h.r.m n x } })
        ∧ (∀ (n : Nat) (x : Bool), n < 16 → q.w = .p n x → ∃ y : BitVec 16, put { h with pend := [], r := { h.r with p := y } }
          ∧ ∀ j, j < 16 → y.getLsbD j = if j = n then x else h.r.p.getLsbD j)
        ∧ (∀ (n : Nat) (x : Bool), n < 16 → q.w = .hp n x → ∃ y : BitVec 16, put { h with pend := [], hp := y }
          ∧ ∀ j, j < 16 → y.getLsbD j = if j = n then x else h.hp.getLsbD j)
        ∧ (∀ (n : Nat) (w : List Word), q.w = .mc n w → ∃ c, put { h with pend := [], mc := c }
          ∧ ∀ j, Tab.get 0 c j = if 5 * n ≤ j ∧ j < 5 * n + 5 then w.getD (j - 5 * n) 0 else Tab.get 0 h.mc j)
        ∧ (∀ n : Nat, q.w = .z n → ∃ c, put { h with pend := [], z := c } ∧ ∀ e, e ∈ c ↔ e ∈ h.z ∧ e.1 / 16384 ≠ n)
        ∧ (∀ b, q.w = .vstat b → put { h with pend := [], vstat := h.vstat ||| b })
        ∧ (∀ x : Word, q.w = .wsr .vstat x → put { h with pend := [], vstat := x.setWidth 5 })
        ∧ (∀ x : Word, q.w = .wsr .dstat x → put { h with pend := [], dstat := x &&& 0x800FFFFFFFFFFFC0 }))
    ∧ (∀ (n : Nat) (x y : Word) (b : BitVec 5) (q r : Pend), h.land = [] → h.pend = [q, r] → q.issued ≤ h.cyc → r.issued ≤ h.cyc → q.due ≤ h.cyc → r.due ≤ h.cyc →
        (q.w = .s n x → r.w = .s n y → ∃ t, exec (.fixedLatencyWrite k) s = .next t ∧ Tab.get 0 (t.hartAt k).r.s n = y ∧ (t.hartAt k).pend = [])
        ∧ (q.w = .wsr .vstat x ∧ r.w = .vstat b ∨ q.w = .vstat b ∧ r.w = .wsr .vstat x → put { h with pend := [], vstat := x.setWidth 5 ||| b }))
    ∧ (∀ q, h.land = [] → h.pend = [q] → h.cyc < q.due →
        put h ∧ exec (.registerWrite k) s = .next (s.setHart k h) ∧ exec (.rbanks k) s = .next (s.setHart k h))
    ∧ (∀ q, h.pend = [q] → q.issued ≤ h.cyc → q.due ≤ h.cyc →
        (∀ x : Word, q.w = .csr .rcto x → exec (.registerWrite k) s = .next (s.setHart k { h with pend := [], rcto := if x.toNat < 1024 then 1024 else x }))
        ∧ (∀ x : Word, q.w = .csr .cctl x → exec (.registerWrite k) s = .next (s.setHart k { h with pend := [], cctl := (x &&& ~~~ 8) ||| (h.cctl &&& 8) }))
        ∧ (∀ x : Word, q.w = .csr .epc x → exec (.registerWrite k) s = .next (s.setHart k { h with pend := [], epc := x }))
        ∧ (∀ x : Word, q.w = .csr .rbanks x → ∃ t, exec (.rbanks k) s = .next t ∧ (t.hartAt k).rbanks = x ∧ (t.hartAt k).pend = [] ∧ (t.hartAt k).r.s = h.r.s
            ∧ (∀ n, n < 64 → wf x (2 * (n / 16)) 2 = 0 → Tab.find (t.hartAt k).r.v n = none)
            ∧ ∀ e, e ∈ (t.hartAt k).z ↔ e ∈ h.z ∧ wf x (8 + 2 * (e.1 / 16384)) 2 ≠ 0))

/-! ### Scalar and predicate instructions -/

/-- Addition, subtraction, logic, shifts and rotation (R249): latency 1, no flag, no fault; the shift count is b[5:0]. -/
def Sys2Proof.Spec.AddLogicShift : Prop :=
  Scalar2 .add .addI 1 (fun x y => x + y) ∧ Scalar2 .sub .subI 1 (fun x y => x - y)
  ∧ Scalar2 .and .andI 1 (fun x y => x &&& y) ∧ Scalar2 .or .orI 1 (fun x y => x ||| y) ∧ Scalar2 .xor .xorI 1 (fun x y => x ^^^ y)
  ∧ Scalar2 .andn .andnI 1 (fun x y => x &&& ~~~ y)
  ∧ Scalar2 .shl .shlI 1 (fun x y => x <<< (y.toNat % 64)) ∧ Scalar2 .shr .shrI 1 (fun x y => x >>> (y.toNat % 64))
  ∧ Scalar2 .sar .sarI 1 (fun x y => x.sshiftRight (y.toNat % 64))
  ∧ Scalar2 .rotl .rotlI 1 (fun x y => if y.toNat % 64 = 0 then x else x <<< (y.toNat % 64) ||| x >>> (64 - y.toNat % 64))

/-- Minimum and maximum, signed and unsigned (R249), by the numbers the operands stand for. -/
def Sys2Proof.Spec.MinMax : Prop :=
  Scalar2 .min .minI 1 (fun x y => if x.toInt ≤ y.toInt then x else y) ∧ Scalar2 .max .maxI 1 (fun x y => if x.toInt ≤ y.toInt then y else x)
  ∧ Scalar2 .minu .minuI 1 (fun x y => if x.toNat ≤ y.toNat then x else y) ∧ Scalar2 .maxu .maxuI 1 (fun x y => if x.toNat ≤ y.toNat then y else x)

/-- The three products (R249): the low half, and the high half of the sign- or zero-extended 128-bit product; latency 3. -/
def Sys2Proof.Spec.Products : Prop :=
  Scalar2 .mul .mulI 3 (fun x y => x * y)
  ∧ Scalar2 .mulh .mulhI 3 (fun x y => (x.signExtend 128 * y.signExtend 128).extractLsb' 64 64)
  ∧ Scalar2 .mulhu .mulhuI 3 (fun x y => (x.setWidth 128 * y.setWidth 128).extractLsb' 64 64)

/-- Addition, logic, shifts, minimum, maximum and products. -/
def Obligations.IntegerArithmetic : Prop := Sys2Proof.Spec.AddLogicShift ∧ Sys2Proof.Spec.MinMax ∧ Sys2Proof.Spec.Products

/-- The quotients and remainders of R250, case by case; q·b + r = a. -/
def Obligations.Quotients : Prop :=
  ∀ a b : Word,
    (b = 0 → sdivQ a b = 0xFFFFFFFFFFFFFFFF ∧ sdivR a b = a)
    ∧ (a = 0x8000000000000000 → b = 0xFFFFFFFFFFFFFFFF → sdivQ a b = a ∧ sdivR a b = 0)
    ∧ (b ≠ 0 → ¬ (a = 0x8000000000000000 ∧ b = 0xFFFFFFFFFFFFFFFF) →
        (sdivQ a b).toInt = a.toInt.tdiv b.toInt ∧ (sdivR a b).toInt = a.toInt - (sdivQ a b).toInt * b.toInt)
    ∧ (b = 0 → udivQ a b = 0xFFFFFFFFFFFFFFFF ∧ udivR a b = a)
    ∧ (b ≠ 0 → (udivQ a b).toNat = a.toNat / b.toNat ∧ (udivR a b).toNat = a.toNat - (udivQ a b).toNat * b.toNat)
    ∧ Scalar2Div .div .divI sdivQ ∧ Scalar2Div .divu .divuI udivQ ∧ Scalar2Div .rem .remI sdivR ∧ Scalar2Div .remu .remuI udivR

/-- Counts and extensions (R251): leading and trailing zeros, one bits, sign and zero extension, bit by bit; SEL by its predicate. -/
def Sys2Proof.Spec.BitCounts : Prop :=
  ∀ (s : State) (d a : Nat),
    let x := s.rdS a
    (s.clear (.clz d a) → ∃ n, exec (.clz d a) s = .next (s.putS 1 d (word n)) ∧ n ≤ 64 ∧ (∀ i, 64 - n ≤ i → x.getLsbD i = false)
        ∧ (n < 64 → x.getLsbD (63 - n) = true))
    ∧ (s.clear (.ctz d a) → ∃ n, exec (.ctz d a) s = .next (s.putS 1 d (word n)) ∧ n ≤ 64 ∧ (∀ i, i < n → x.getLsbD i = false)
        ∧ (n < 64 → x.getLsbD n = true))
    ∧ (s.clear (.popc d a) → exec (.popc d a) s = .next (s.putS 1 d (word ((List.range 64).filter fun i => x.getLsbD i).length)))
    ∧ (∀ k n, (k = .b ∧ n = 8) ∨ (k = .h ∧ n = 16) ∨ (k = .w ∧ n = 32) →
        (s.clear (.sext k d a) → ∃ y : Word, exec (.sext k d a) s = .next (s.putS 1 d y) ∧ ∀ i, i < 64 → y.getLsbD i = x.getLsbD (min i (n - 1)))
        ∧ (s.clear (.zext k d a) → ∃ y : Word, exec (.zext k d a) s = .next (s.putS 1 d y) ∧ ∀ i, i < 64 → y.getLsbD i = (x.getLsbD i && decide (i < n))))
    ∧ (∀ c b, s.clear (.sel d c a b) → exec (.sel d c a b) s = .next (s.putS 1 d (if s.rdP c = true then x else s.rdS b)))

/-- BFX and BFI (R252), bit by bit: the field is cut at bit 63, a length above 64 counts as 64, and a BFI of length 0 returns a. -/
def Obligations.BitFields : Prop :=
  ∀ (s : State) (sg : Bool) (d a b c : Nat),
    (s.clear (.bfx sg d a b) → ∃ y : Word, exec (.bfx sg d a b) s = .next (s.putS 1 d y) ∧ ∀ i, i < 64 → y.getLsbD i =
      let p := fpos (s.rdS b)
      let n := flen (s.rdS b)
      if i < n then (s.rdS a).getLsbD (p + i) else sg && decide (0 < n) && (s.rdS a).getLsbD (p + (n - 1)))
    ∧ (s.clear (.bfi d a b c) → ∃ y : Word, exec (.bfi d a b c) s = .next (s.putS 1 d y) ∧ ∀ i, i < 64 → y.getLsbD i =
      let p := fpos (s.rdS c)
      let n := flen (s.rdS c)
      if p ≤ i ∧ i < p + n then (s.rdS b).getLsbD (i - p) else (s.rdS a).getLsbD i)

/-- Predicates (R253–R255): CMP by the ten conditions, PLOG by its truth table, and the three MOVP forms; latency 1. -/
def Sys2Proof.Spec.Predicates : Prop :=
  ∀ (s : State) (d a b : Nat),
    (∀ k, s.clear (.cmp k d a b) → ∃ y : Bool, exec (.cmp k d a b) s = .next (s.putP 1 d y) ∧ (y = true ↔ condOf k (s.rdS a) (s.rdS b)))
    ∧ (∀ t, s.clear (.plog t d a b) → exec (.plog t d a b) s = .next (s.putP 1 d (t.getLsbD (2 * (s.rdP a).toNat + (s.rdP b).toNat))))
    ∧ (s.clear (.movpPs d a) → exec (.movpPs d a) s = .next (s.putS 1 d (if s.rdP a = true then 1 else 0)))
    ∧ (s.clear (.movpSp d a) → exec (.movpSp d a) s = .next (s.putP 1 d (decide (s.rdS a ≠ 0))))
    ∧ (s.clear (.movpAll d) → ∃ y : Word, exec (.movpAll d) s = .next (s.putS 1 d y) ∧ ∀ n, n < 64 → y.getLsbD n = (decide (n < 16) && s.rdP n))

/-- Bit counts, extensions, selection and predicates. -/
def Obligations.CountsAndPredicates : Prop := Sys2Proof.Spec.BitCounts ∧ Sys2Proof.Spec.Predicates

/-- Immediates, special registers and NOP (R256–R258, R267): LI and LIH, RSR of every special register, WSR of the two that can be written. -/
def Obligations.MovesAndSpecialRegisters : Prop :=
  ∀ (s : State) (d a : Nat),
    (s.clear .nop → exec .nop s = .next s)
    ∧ (∀ v, s.clear (.li d (.imm v)) → exec (.li d (.imm v)) s = .next (s.putS 1 d (v.signExtend 64)))
    ∧ (∀ x, s.h.lit = some x → s.clear (.li d .lit) → exec (.li d .lit) s = .next (s.putS 1 d x))
    ∧ (∀ v, s.clear (.lih d v) → exec (.lih d v) s = .next (s.putS 1 d (v ++ (s.rdS d).setWidth 32)))
    ∧ (∀ r, s.clear (.rsr d r) → ∃ y : Word, exec (.rsr d r) s = .next (s.putS 1 d y)
        ∧ (r = .task → y = s.h.task) ∧ (r = .lcore → y = s.h.lcore) ∧ (r = .nlcore → y = s.h.nlcore) ∧ (r = .gridx → y = s.h.gridx)
        ∧ (r = .gridy → y = s.h.gridy) ∧ (r = .gridz → y = s.h.gridz) ∧ (r = .launch → y = s.h.launch) ∧ (r = .die → y = word (hartDie s.cur))
        ∧ (r = .pcore → y = word (hartPcore s.cur)) ∧ (r = .time → s.h.waiting = none → y = word s.time) ∧ (r = .vstat → y = s.h.vstat.setWidth 64)
        ∧ (r = .dstat → y = s.h.dstat) ∧ (r = .frzcnt → y = word s.h.frzcnt) ∧ (r = .lbusy → y = word s.h.land.length)
        ∧ (r = .rbase → y = word (s.h.prb * 2 ^ 16 + s.h.mrb * 2 ^ 8 + s.h.vrb)) ∧ (r = .feat → y = s.feat)
        ∧ (∀ n l, r = .lstk n → s.h.loops[n]? = some l → y = l.count ++ l.index) ∧ (∀ n, r = .lstk n → s.h.loops.length ≤ n → y = 0))
    ∧ (∀ r, s.clear (.wsr r a) → exec (.wsr r a) s = .next (s.later 1 (.wsr r (s.rdS a))))
    ∧ (∀ h : Hart, ∀ x : Word, h.perform (.wsr .vstat x) = { h with vstat := x.setWidth 5 }
        ∧ h.perform (.wsr .dstat x) = { h with dstat := x &&& 0x800FFFFFFFFFFFC0 })
end

section
open Sys2Proof Sys2Proof.Machine Sys2Proof.Spec Sys2Proof.Safety

/-! ### Control -/

/-- Branches and calls (R224, R259, R260): the next PC is PC + 64 × OFF where the condition holds; CALL and CALLR write PC + 64 to s31 with latency 1, and
CALLR.NL does not; RET goes to s31; a register target that is no multiple of 64 raises ALIGN with the target as the failing address. -/
def Obligations.BranchesAndCalls : Prop :=
  ∀ (s : State),
    (∀ k c off, s.clear (.br k c off) →
        (brOf k (s.rdS c) → exec (.br k c off) s = .next (s.onH fun h => { h with npc := h.pc + off.signExtend 64 * 64 }))
        ∧ (¬ brOf k (s.rdS c) → exec (.br k c off) s = .next s))
    ∧ (∀ off, s.clear (.jmp off) → exec (.jmp off) s = .next (s.onH fun h => { h with npc := h.pc + off.signExtend 64 * 64 }))
    ∧ (∀ off, s.clear (.call off) →
        exec (.call off) s = .next ((s.putS 1 31 (s.h.pc + 64)).onH fun h => { h with npc := h.pc + off.signExtend 64 * 64 }))
    ∧ (∀ a, s.clear (.callr false a) → (s.rdS a).toNat % 64 = 0 →
        exec (.callr false a) s = .next ((s.putS 1 31 (s.h.pc + 64)).onH fun h => { h with npc := s.rdS a }))
    ∧ (∀ a, s.clear (.callr true a) → (s.rdS a).toNat % 64 = 0 → exec (.callr true a) s = .next (s.onH fun h => { h with npc := s.rdS a }))
    ∧ (∀ nl a, s.clear (.callr nl a) → (s.rdS a).toNat % 64 ≠ 0 → FaultsTo (.callr nl a) s 6 0 (s.rdS a))
    ∧ (s.clear .ret → ((s.rdS 31).toNat % 64 = 0 → exec .ret s = .next (s.onH fun h => { h with npc := s.rdS 31 }))
        ∧ ((s.rdS 31).toNat % 64 ≠ 0 → FaultsTo .ret s 6 0 (s.rdS 31)))

/-- LOOP.SET and LOOP (R262, R263): what is pushed, the skip for a count of 0, the return to START while INDEX + 1 < COUNT, the exit, and on every
LOOP the three bases less 1 in their ranges for the next bundle. -/
def Sys2Proof.Spec.LoopSetAndLoop : Prop :=
  ∀ (s : State),
    (∀ c off, s.clear (.loopSet c off) →
        (s.rdS c = 0 → exec (.loopSet c off) s = .next (s.onH fun h => { h with npc := h.pc + (off.signExtend 64 + 1) * 64 }))
        ∧ (s.rdS c ≠ 0 → s.h.loops.length < 6 → (s.rdS c).toNat < 2 ^ 32 → exec (.loopSet c off) s = .next (s.onH fun h =>
            { h with loops := { start := h.pc + 64, stop := h.pc + off.signExtend 64 * 64, count := (s.rdS c).setWidth 32, index := 0 } :: h.loops })))
    ∧ (∀ l rest, s.clear .loop → s.h.loops = l :: rest → s.h.pc = l.stop → ∃ t, exec .loop s = .next t
        ∧ t.h.nvrb = (if s.h.nr = 0 then 0 else (s.h.vrb + s.h.nr - 1) % s.h.nr) ∧ t.h.nmrb = (s.h.mrb + 7) % 8 ∧ t.h.nprb = (s.h.prb + 7) % 8
        ∧ ((l.index + 1).toNat < l.count.toNat → t.h.npc = l.start ∧ t.h.loops = { l with index := l.index + 1 } :: rest)
        ∧ (l.count.toNat ≤ (l.index + 1).toNat → t.h.npc = s.h.npc ∧ t.h.loops = rest)
        ∧ t.h.r = s.h.r ∧ t.h.pend = s.h.pend ∧ t.h.vrb = s.h.vrb ∧ t.h.mrb = s.h.mrb ∧ t.h.prb = s.h.prb ∧ t.mem = s.mem)
    ∧ (∀ d level, s.clear (.loopIdx d level) → ∀ l, s.h.loops[level]? = some l →
        exec (.loopIdx d level) s = .next (s.putS 1 d (l.index.setWidth 64)))

/-- LOOP.BRK (R264): the next bundle is the one after END of level 0, which is popped; at depth 0 LOOPSTK with code 4. No rotation base changes. -/
def Obligations.LoopBreak : Prop :=
  ∀ (s : State), s.clear .loopBrk →
    (∀ l rest, s.h.loops = l :: rest → exec .loopBrk s = .next (s.onH fun h => { h with npc := l.stop + 64, loops := rest }))
    ∧ (s.h.loops = [] → FaultsTo .loopBrk s 14 4 0)

/-- The five codes of LOOPSTK (R266), each precise: code 1 comes before code 3. -/
def Sys2Proof.Spec.LoopStackFaults : Prop :=
  ∀ (s : State),
    (∀ c off, s.clear (.loopSet c off) → s.rdS c ≠ 0 → 6 ≤ s.h.loops.length → FaultsTo (.loopSet c off) s 14 1 0)
    ∧ (∀ l rest, s.clear .loop → s.h.loops = l :: rest → s.h.pc ≠ l.stop → FaultsTo .loop s 14 2 0)
    ∧ (∀ c off, s.clear (.loopSet c off) → s.h.loops.length < 6 → 2 ^ 32 ≤ (s.rdS c).toNat → FaultsTo (.loopSet c off) s 14 3 0)
    ∧ (s.clear .loop → s.h.loops = [] → FaultsTo .loop s 14 4 0)
    ∧ (∀ d level, s.clear (.loopIdx d level) → s.h.loops.length ≤ level → FaultsTo (.loopIdx d level) s 14 5 0)

/-- LOOP.SET and LOOP, and the five codes of LOOPSTK. -/
def Obligations.LoopsAndTheirFaults : Prop := Sys2Proof.Spec.LoopSetAndLoop ∧ Sys2Proof.Spec.LoopStackFaults

/-- TRAP and BRK (R267, R359–R363): the handler is entered at HBASE + 64 × 15 or 16 with the code in the record, EPC after the bundle, and STALLREM the whole
STALL of the bundle; not delegated, the task stops with the same record; in handler mode the core stops (R355). RBASE sets the next bases in their
ranges (R268). -/
def Obligations.TrapsAndBases : Prop :=
  ∀ (s : State) (code : BitVec 16),
    Traps (.trap code) s 15 code ∧ Traps (.brk code) s 16 code
    ∧ (∀ v m p, s.clear (.rbase (.imm v m p)) → exec (.rbase (.imm v m p)) s =
        .next (s.onH fun h => { h with nvrb := if h.nr = 0 then 0 else v % h.nr, nmrb := m % 8, nprb := p % 8 }))
    ∧ (∀ a, s.clear (.rbase (.reg a)) → exec (.rbase (.reg a)) s =
        .next (s.onH fun h => { h with nvrb := if h.nr = 0 then 0 else (s.rdS a).toNat % 64 % h.nr, nmrb := (s.rdS a).toNat / 2 ^ 8 % 8,
                                       nprb := (s.rdS a).toNat / 2 ^ 16 % 8 }))

/-! ### Handler mode -/

/-- ERET (R366): back to task mode at EPC, after STALLREM cycles, every RETAIN bank or tile ON; a misaligned or zero EPC stops the core. The registers,
the handler file and memory stay, but for STATE of the bind record, which a task that was being saved and goes on sets back to 1 (R376; log 12). -/
def Obligations.ReturnFromHandler : Prop :=
  ∀ (s : State), s.clear .eret →
    (s.h.epc ≠ 0 → s.h.epc.toNat % 64 = 0 → ∃ t, exec .eret s = .next t ∧ t.h.mode = .task ∧ t.h.npc = s.h.epc ∧ t.h.hdr = wf s.h.estat 16 5
        ∧ (∀ i, i < 8 → wf t.h.rbanks (2 * i) 2 = if wf s.h.rbanks (2 * i) 2 = 2 then 1 else wf s.h.rbanks (2 * i) 2)
        ∧ wf t.h.rbanks 16 48 = wf s.h.rbanks 16 48
        ∧ t.h.r = s.h.r ∧ t.h.hs = s.h.hs ∧ t.h.hp = s.h.hp ∧ t.h.loops = s.h.loops ∧ t.h.fcause = s.h.fcause ∧ t.h.epc = s.h.epc ∧ t.h.cctl = s.h.cctl
        ∧ t.mem = if s.bindState s.cur = 2 then (s.setBindState s.cur 1).mem else s.mem)
    ∧ (s.h.mode = .handler → s.h.epc = 0 ∨ s.h.epc.toNat % 64 ≠ 0 → ∃ t, exec .eret s = .next t ∧ t.h.mode = .stopped ∧ t.h.r = s.h.r)

/-- CSRR reads every privileged register (R356, R365), with latency 1. -/
def Sys2Proof.Spec.PrivilegedReads : Prop :=
  ∀ (s : State) (d : Nat) (r : PReg), s.clear (.csrr d r) → ∃ y : Word, exec (.csrr d r) s = .next (s.putS 1 d y)
    ∧ (r = .cctl → y = s.h.cctl) ∧ (r = .fcause → y = s.h.fcause) ∧ (r = .faddr → y = s.h.faddr) ∧ (r = .fpc → y = s.h.fpc) ∧ (r = .epc → y = s.h.epc)
    ∧ (r = .estat → y = s.h.estat) ∧ (r = .hbase → y = s.h.hbase) ∧ (r = .rbanks → y = s.h.rbanks) ∧ (r = .ltgrant → y = s.h.ltgrant)
    ∧ (r = .crftab → y = s.h.crftab) ∧ (r = .ptroot → y = s.h.ptroot) ∧ (r = .asid → y = s.h.asid) ∧ (r = .rcto → y = s.h.rcto)
    ∧ (r = .rcbudget → y = s.h.rcbudget) ∧ (∀ k, r = .wcnt k → y = word (Tab.get 0 s.h.wcnt k))
    ∧ (r = .wstat → y = word (s.h.heldKind + (if s.h.frozen = true then 16 else 0)))
    ∧ (∀ n k, r = .nmdebt n → k < 16 → wf y (4 * k) 4 = (s.engineAt (64 * s.die + 16 * n + k)).debt % 16)

/-- CSRW (R356, R357, R364): a value with a bit in a field marked zero, DETLVL 3 or power state 3 is ILLEGAL; any other is written one cycle
later, and a change of RBANKS stalls issue 200 cycles from OFF, 20 from RETAIN. -/
def Sys2Proof.Spec.PrivilegedWrites : Prop :=
  ∀ (s : State) (r : PReg) (a : Nat), s.clear (.csrw r a) →
    let x := s.rdS a
    let bad := (∃ f ∈ zeroFields r, ∃ i, f.2 ≤ i ∧ i ≤ f.1 ∧ x.getLsbD i = true) ∨ (r = .cctl ∧ wf x 1 2 = 3) ∨ (r = .rbanks ∧ ∃ i, i < 8 ∧ wf x (2 * i) 2 = 3)
    (¬ bad → r ≠ .rbanks → exec (.csrw r a) s = .next (s.later 1 (.csr r x)))
    ∧ (¬ bad → r = .rbanks → ∃ n, exec (.csrw r a) s = .next ((s.later 1 (.csr r x)).onH fun h => { h with hdr := h.hdr + n })
        ∧ ((∃ i, i < 8 ∧ wf s.h.rbanks (2 * i) 2 = 0 ∧ wf x (2 * i) 2 ≠ 0) → n = 200)
        ∧ ((∀ i, i < 8 → wf s.h.rbanks (2 * i) 2 = 0 → wf x (2 * i) 2 = 0) →
            ((∃ i, i < 8 ∧ wf s.h.rbanks (2 * i) 2 = 2 ∧ wf x (2 * i) 2 ≠ 2) → n = 20)
            ∧ ((∀ i, i < 8 → wf s.h.rbanks (2 * i) 2 = 2 → wf x (2 * i) 2 = 2) → n = 0)))
    ∧ (bad → s.h.mode = .handler → s.h.commit = false → ∃ t, exec (.csrw r a) s = .next t ∧ t.h.mode = .stopped ∧ t.h.pend = s.h.pend)

/-- TLB.INV, TLB.PRB and WFE (R367, R391, R392). A TLB.INV first performs the core's own stores and drops the covered translations from every die of the
partition; then it waits until what any core of the partition issued before is performed and no copy issued before holds a covered translation, and completes.
A probe leaves what its walk leaves at the home slices and writes its word with latency 1; WFE ends at an event or a switch request, else it holds. -/
def Sys2Proof.Spec.TranslationsAndEvents : Prop :=
  ∀ (s : State),
    let before (asid va : Option Nat) : Prop := ∀ k ∈ s.partHarts, (s.hartAt k).holdsProbe s.h.invMark asid va = false ∧ s.accsHeld k (fun a => a.id < s.h.invMark) = false
    let inv (i : Instr) (asid va : Option Nat) : Prop := s.clear i →
      (s.h.invMark = 0 → s.relHeld s.cur true = false → ∃ t, exec i s = .next t ∧ t.h.sig = some (.waiting 0) ∧ t.h.invMark ≠ 0
        ∧ ∀ e, (∀ n, asid = some n → e.asid = n) → (∀ v, va = some v → e.va = v / e.size * e.size) → e ∈ t.tlb → s.partOf e.die ≠ s.partOf s.die)
      ∧ (s.h.invMark = 0 → s.relHeld s.cur true = true → Held i s 0)
      ∧ (s.h.invMark ≠ 0 → before asid va → ∃ t, exec i s = .next t ∧ t.h.invMark = 0)
      ∧ (s.h.invMark ≠ 0 → ¬ before asid va → exec i s = .next (s.onH fun h => { h with sig := some (.waiting 0) }))
    inv .tlbInvAll none none
    ∧ (∀ b, inv (.tlbInvAsid b) (some (wf (s.rdS b) 0 16)) none)
    ∧ (∀ a b, inv (.tlbInvVa a b) (some (wf (s.rdS b) 0 16)) (some (wf (s.rdS a) 0 57)))
    ∧ (∀ d a, s.clear (.tlbPrb d a) →
        let va := wf (s.rdS a) 0 57
        (s.walkDefers va 4 false (wf s.h.ptroot 12 40 * 4096) = false →
            exec (.tlbPrb d a) s = .next ((s.walked s.die s.rid s.h.ptroot va).putS 1 d (s.probeVa va)))
        ∧ (s.walkDefers va 4 false (wf s.h.ptroot 12 40 * 4096) = true → Held (.tlbPrb d a) s 0))
    ∧ (s.clear .wfe → (s.h.eventHeld = true → exec .wfe s = .next (s.onH fun h => { h with eventHeld := false }))
        ∧ (s.h.eventHeld = false → s.h.cctl.getLsbD 3 = true → exec .wfe s = .next s)
        ∧ (s.h.eventHeld = false → s.h.cctl.getLsbD 3 = false → Held .wfe s 0))
/-- CSRR and CSRW of every privileged register; TLB.INV, TLB.PRB and WFE. -/
def Obligations.PrivilegedRegisters : Prop := Sys2Proof.Spec.PrivilegedReads ∧ Sys2Proof.Spec.PrivilegedWrites ∧ Sys2Proof.Spec.TranslationsAndEvents

end

section
open Sys2Proof Sys2Proof.Machine Sys2Proof.Spec Sys2Proof.Safety

/-! ### Vector instructions -/

/-- Floating-point arithmetic lane by lane (R275–R277): the exact result rounded once in the instruction's mode, merged under the mask, with its exception
bits; minimum, maximum, absolute value and negation raise none. -/
def Sys2Proof.Spec.VectorFloatArithmetic : Prop :=
  ∀ (s : State) (rm : Rm) (d a : Nat) (b : VB) (c k : Nat),
    let m := s.rdM k
    let x := fun j => laneAt (s.rdV a) j
    let y := srcB s b
    let z := fun j => laneAt (s.rdV c) j
    WritesLanes s (.vfadd rm d a b k) 4 d m (fun j => laneOf rm (Val.add rm (laneVal (x j)) (laneVal (y j))))
    ∧ WritesLanes s (.vfsub rm d a b k) 4 d m (fun j => laneOf rm (Val.add rm (laneVal (x j)) (laneVal (y j)).neg))
    ∧ WritesLanes s (.vfmul rm d a b k) 4 d m (fun j => laneOf rm (Val.mul (laneVal (x j)) (laneVal (y j))))
    ∧ WritesLanes s (.vfma rm d a b c k) 4 d m (fun j => laneOf rm (Val.fma rm (laneVal (x j)) (laneVal (y j)) (laneVal (z j))))
    ∧ WritesLanes s (.vfms rm d a b c k) 4 d m (fun j => laneOf rm (Val.fma rm (laneVal (x j)) (laneVal (y j)) (laneVal (z j)).neg))
    ∧ WritesLanes s (.vfnma rm d a b c k) 4 d m (fun j => laneOf rm (Val.fma rm (laneVal (x j)).neg (laneVal (y j)) (laneVal (z j))))
    ∧ WritesLanes s (.vfscl rm d a b k) 4 d m (fun j => laneOf rm ((laneVal (x j)).scale (y j).toInt, 0))
    ∧ WritesPlain s (.vfmin d a b k) 4 d m (fun j => fpMinMax false (x j) (y j))
    ∧ WritesPlain s (.vfmax d a b k) 4 d m (fun j => fpMinMax true (x j) (y j))
    ∧ WritesPlain s (.vfabs d a k) 4 d m (fun j => if (laneVal (x j)).isNan = true then 0x7FC00000 else x j &&& 0x7FFFFFFF)
    ∧ WritesPlain s (.vfneg d a k) 4 d m (fun j => if (laneVal (x j)).isNan = true then 0x7FC00000 else x j ^^^ 0x80000000)

/-- The special cases of addition, multiplication and the FMA (R276) and of minimum and maximum (R277): NaN operands, Inf − Inf, 0 × Inf, exact zero
sums; and addition and multiplication commute. -/
def Sys2Proof.Spec.FloatSpecialCases : Prop :=
  ∀ (rm : Rm) (a b c : Lane),
    ((laneVal a).isNan = true ∨ (laneVal b).isNan = true → fpAdd rm a b = (0x7FC00000, 0) ∧ fpSub rm a b = (0x7FC00000, 0) ∧ fpMul rm a b = (0x7FC00000, 0))
    ∧ fpAdd rm 0x7F800000 0xFF800000 = (0x7FC00000, 1) ∧ fpSub rm 0x7F800000 0x7F800000 = (0x7FC00000, 1)
    ∧ (∀ z, z = 0 ∨ z = 0x80000000 → ∀ i, i = 0x7F800000 ∨ i = 0xFF800000 →
        fpMul rm z i = (0x7FC00000, 1) ∧ laneOf rm (Val.fma rm (laneVal i) (laneVal z) (laneVal c)) = (0x7FC00000, 1))
    ∧ (∀ i, i = 0x7F800000 ∨ i = 0xFF800000 → ∀ n m e, laneVal a = .num n m e → fpAdd rm i a = (i, 0) ∧ fpAdd rm a i = (i, 0))
    ∧ fpAdd rm 0 0x80000000 = (if rm = .rd then 0x80000000 else 0, 0) ∧ fpAdd rm 0x80000000 0x80000000 = (0x80000000, 0)
    ∧ (∀ n m e, laneVal a = .num n m e → m ≠ 0 → fpSub rm a a = (if rm = .rd then 0x80000000 else 0, 0))
    ∧ fpAdd rm a b = fpAdd rm b a ∧ fpMul rm a b = fpMul rm b a
    ∧ ((laneVal a).isNan = true → (laneVal b).isNan = false → ∀ g, fpMinMax g a b = b ∧ fpMinMax g b a = b)
    ∧ ((laneVal a).isNan = true → (laneVal b).isNan = true → ∀ g, fpMinMax g a b = 0x7FC00000)
    ∧ fpMinMax false 0 0x80000000 = 0x80000000 ∧ fpMinMax false 0x80000000 0 = 0x80000000 ∧ fpMinMax true 0 0x80000000 = 0 ∧ fpMinMax true 0x80000000 0 = 0

/-- Vector floating-point arithmetic and its special cases. -/
def Obligations.VectorFloats : Prop := Sys2Proof.Spec.VectorFloatArithmetic ∧ Sys2Proof.Spec.FloatSpecialCases

/-- The elementary functions (R279): latency 12, one lane at a time; every special case of the table, and the exact results 2^3, 2^−2, log2 8, log2 1, √9
and 1/2. -/
def Sys2Proof.Spec.ElementaryFunctions : Prop :=
  (∀ (s : State) (rm : Rm) (d a k : Nat),
    let m := s.rdM k
    let x := fun j => laneAt (s.rdV a) j
    WritesLanes s (.vfrcp rm d a k) 12 d m (fun j => elemLane .rcp rm (x j)) ∧ WritesLanes s (.vfrsq rm d a k) 12 d m (fun j => elemLane .rsq rm (x j))
    ∧ WritesLanes s (.vfsqrt rm d a k) 12 d m (fun j => elemLane .sqrt rm (x j)) ∧ WritesLanes s (.vfexp2 rm d a k) 12 d m (fun j => elemLane .exp2 rm (x j))
    ∧ WritesLanes s (.vflog2 rm d a k) 12 d m (fun j => elemLane .log2 rm (x j)))
  ∧ ∀ rm : Rm,
    elemLane .rcp rm 0 = (0x7F800000, 2) ∧ elemLane .rcp rm 0x80000000 = (0xFF800000, 2) ∧ elemLane .rcp rm 0x7F800000 = (0, 0)
    ∧ elemLane .rcp rm 0xFF800000 = (0x80000000, 0)
    ∧ elemLane .rsq rm 0 = (0x7F800000, 2) ∧ elemLane .rsq rm 0x80000000 = (0xFF800000, 2) ∧ elemLane .rsq rm 0x7F800000 = (0, 0)
    ∧ elemLane .sqrt rm 0 = (0, 0) ∧ elemLane .sqrt rm 0x80000000 = (0x80000000, 0) ∧ elemLane .sqrt rm 0x7F800000 = (0x7F800000, 0)
    ∧ elemLane .exp2 rm 0 = (0x3F800000, 0) ∧ elemLane .exp2 rm 0x80000000 = (0x3F800000, 0) ∧ elemLane .exp2 rm 0x7F800000 = (0x7F800000, 0)
    ∧ elemLane .exp2 rm 0xFF800000 = (0, 0)
    ∧ elemLane .log2 rm 0 = (0xFF800000, 2) ∧ elemLane .log2 rm 0x80000000 = (0xFF800000, 2) ∧ elemLane .log2 rm 0x7F800000 = (0x7F800000, 0)
    ∧ elemLane .rsq rm 0xFF800000 = (0x7FC00000, 1) ∧ elemLane .sqrt rm 0xFF800000 = (0x7FC00000, 1) ∧ elemLane .log2 rm 0xFF800000 = (0x7FC00000, 1)
    ∧ (∀ f a, (laneVal a).isNan = true → elemLane f rm a = (0x7FC00000, 0))
    ∧ (∀ a m e, laneVal a = .num true m e → m ≠ 0 →
        elemLane .rsq rm a = (0x7FC00000, 1) ∧ elemLane .sqrt rm a = (0x7FC00000, 1) ∧ elemLane .log2 rm a = (0x7FC00000, 1))
    ∧ elemLane .exp2 rm 0x40400000 = (0x41000000, 0) ∧ elemLane .exp2 rm 0xC0000000 = (0x3E800000, 0)
    ∧ elemLane .log2 rm 0x41000000 = (0x40400000, 0) ∧ elemLane .log2 rm 0x3F800000 = (0, 0)
    ∧ elemLane .sqrt rm 0x41100000 = (0x40400000, 0) ∧ elemLane .rcp rm 0x40000000 = (0x3F000000, 0)

/-- Integer lanes (R280): arithmetic wrapped or clamped, products, logic, shifts by b[4:0], minimum and maximum, absolute value, one bits; latency 2 and
no VSTAT bit. -/
def Sys2Proof.Spec.VectorIntegers : Prop :=
  ∀ (s : State) (d a : Nat) (b : VB) (k : Nat),
    let m := s.rdM k
    let x := fun j => laneAt (s.rdV a) j
    let y := srcB s b
    WritesPlain s (.vadd .wrap d a b k) 2 d m (fun j => x j + y j) ∧ WritesPlain s (.vsub .wrap d a b k) 2 d m (fun j => x j - y j)
    ∧ WritesPlain s (.vadd .sat d a b k) 2 d m (fun j => BitVec.ofInt 32 (clampTo (-(2 ^ 31)) (2 ^ 31 - 1) ((x j).toInt + (y j).toInt)))
    ∧ WritesPlain s (.vsub .sat d a b k) 2 d m (fun j => BitVec.ofInt 32 (clampTo (-(2 ^ 31)) (2 ^ 31 - 1) ((x j).toInt - (y j).toInt)))
    ∧ WritesPlain s (.vadd .satu d a b k) 2 d m (fun j => BitVec.ofInt 32 (clampTo 0 (2 ^ 32 - 1) ((x j).toNat + (y j).toNat)))
    ∧ WritesPlain s (.vsub .satu d a b k) 2 d m (fun j => BitVec.ofInt 32 (clampTo 0 (2 ^ 32 - 1) ((x j).toNat - (y j).toNat)))
    ∧ WritesPlain s (.vmul d a b k) 2 d m (fun j => x j * y j)
    ∧ WritesPlain s (.vmulh false d a b k) 2 d m (fun j => ((x j).signExtend 64 * (y j).signExtend 64).extractLsb' 32 32)
    ∧ WritesPlain s (.vmulh true d a b k) 2 d m (fun j => ((x j).setWidth 64 * (y j).setWidth 64).extractLsb' 32 32)
    ∧ WritesPlain s (.vand d a b k) 2 d m (fun j => x j &&& y j) ∧ WritesPlain s (.vor d a b k) 2 d m (fun j => x j ||| y j)
    ∧ WritesPlain s (.vxor d a b k) 2 d m (fun j => x j ^^^ y j)
    ∧ WritesPlain s (.vshl d a b k) 2 d m (fun j => x j <<< ((y j).toNat % 32)) ∧ WritesPlain s (.vshr d a b k) 2 d m (fun j => x j >>> ((y j).toNat % 32))
    ∧ WritesPlain s (.vsar d a b k) 2 d m (fun j => (x j).sshiftRight ((y j).toNat % 32))
    ∧ WritesPlain s (.vmin false d a b k) 2 d m (fun j => if (x j).toInt ≤ (y j).toInt then x j else y j)
    ∧ WritesPlain s (.vmin true d a b k) 2 d m (fun j => if (x j).toNat ≤ (y j).toNat then x j else y j)
    ∧ WritesPlain s (.vmax false d a b k) 2 d m (fun j => if (x j).toInt ≤ (y j).toInt then y j else x j)
    ∧ WritesPlain s (.vmax true d a b k) 2 d m (fun j => if (x j).toNat ≤ (y j).toNat then y j else x j)
    ∧ WritesPlain s (.vabs false d a k) 2 d m (fun j => if (x j).toInt < 0 then -x j else x j)
    ∧ WritesPlain s (.vabs true d a k) 2 d m (fun j => if x j = 0x80000000 then 0x7FFFFFFF else if (x j).toInt < 0 then -x j else x j)
    ∧ WritesPlain s (.vpopc d a k) 2 d m (fun j => BitVec.ofNat 32 ((List.range 32).filter fun n => (x j).getLsbD n).length)

/-- Comparison, selection and mask operations (R278, R281, R292): VFCMP orders two values that are not NaN as numbers, −0 equal to +0, and only ne and un
hold where one is NaN. -/
def Sys2Proof.Spec.VectorMasks : Prop :=
  ∀ (s : State) (d a : Nat) (b : VB) (c k : Nat),
    let m := s.rdM k
    let x := fun j => laneAt (s.rdV a) j
    let y := srcB s b
    let nan := fun j => (laneVal (x j)).isNan = true ∨ (laneVal (y j)).isNan = true
    let o := fun j => Val.cmp (laneVal (x j)) (laneVal (y j))
    WritesMask s (.vfcmp .eq d a b k) 4 d m (fun j => ¬ nan j ∧ o j = 0) ∧ WritesMask s (.vfcmp .ne d a b k) 4 d m (fun j => nan j ∨ o j ≠ 0)
    ∧ WritesMask s (.vfcmp .lt d a b k) 4 d m (fun j => ¬ nan j ∧ o j < 0) ∧ WritesMask s (.vfcmp .le d a b k) 4 d m (fun j => ¬ nan j ∧ o j ≤ 0)
    ∧ WritesMask s (.vfcmp .gt d a b k) 4 d m (fun j => ¬ nan j ∧ 0 < o j) ∧ WritesMask s (.vfcmp .ge d a b k) 4 d m (fun j => ¬ nan j ∧ 0 ≤ o j)
    ∧ WritesMask s (.vfcmp .un d a b k) 4 d m nan ∧ WritesMask s (.vfcmp .or d a b k) 4 d m (fun j => ¬ nan j)
    ∧ (∀ t, WritesMask s (.vcmp t d a b k) 2 d m (fun j => condOf t (x j) (y j)))
    ∧ WritesPlain s (.vsel d a b c k) 2 d m (fun j => if (s.rdM c).getLsbD j = true then x j else y j)
    ∧ (∀ (t : BitVec 4) (e : Nat), s.clear (.mlog t d a e) → ∃ w : Word, exec (.mlog t d a e) s = .next (s.putM 2 d w) ∧
        ∀ j, j < 64 → w.getLsbD j = t.getLsbD (2 * ((s.rdM a).getLsbD j).toNat + ((s.rdM e).getLsbD j).toNat))
    ∧ (s.clear (.mpopc d a) → exec (.mpopc d a) s = .next (s.putS 2 d (word ((List.range 64).filter fun n => (s.rdM a).getLsbD n).length)))
    ∧ (s.clear (.mfirst d a) → ∃ n, exec (.mfirst d a) s = .next (s.putS 2 d (word n)) ∧ n ≤ 64 ∧ (∀ j, j < n → (s.rdM a).getLsbD j = false)
        ∧ (n < 64 → (s.rdM a).getLsbD n = true))
    ∧ (s.clear (.mset d a) → exec (.mset d a) s = .next (s.putM 2 d (s.rdS a)))
    ∧ (s.clear (.mget d a) → exec (.mget d a) s = .next (s.putS 2 d (s.rdM a)))

/-- Vector integer arithmetic, comparisons and mask operations. -/
def Obligations.VectorIntegersAndMasks : Prop := Sys2Proof.Spec.VectorIntegers ∧ Sys2Proof.Spec.VectorMasks

/-- Conversions and MX blocks (R282–R284, R52, R53): VCVT and VDQMX lane by lane, with the corners of R52; VQMX of each half as one block, inactive lanes as
+0. -/
def Obligations.VectorConversions : Prop :=
  (∀ (s : State) (d a k : Nat),
    let m := s.rdM k
    let x := fun j => laneAt (s.rdV a) j
    (∀ p rm sat, WritesLanes s (.vcvt p rm sat d a k) 4 d m (fun j => cvtLane p rm sat (x j)))
    ∧ (∀ el rm, WritesLanes s (.vdqmx el rm d a k) 6 d m (fun j => dqmxLane el rm (x j)))
    ∧ (∀ el (sr : Option VB), WritesLanes s (.vqmx el d a sr k) 6 d m (fun j =>
        let h := j / 32 * 32
        let vals := (List.range 32).map fun t => laneVal (if m.getLsbD (h + t) = true then x (h + t) else 0)
        let q := mxQuantise el sr.isSome vals (match sr with
          | some b => (List.range 32).map fun t => (srcB s b (h + t)).toNat % 65536
          | none => [])
        (BitVec.ofNat 32 (q.scale * 256 + q.codes.getD (j % 32) 0),
         if q.scale ≠ 0xFF ∧ Val.cmp (mxValue el q.scale (q.codes.getD (j % 32) 0)) (vals.getD (j % 32) .nan) ≠ 0 then 16 else 0))))
  ∧ (∀ rm sat x, (laneVal x).isNan = true → cvtLane .f32i32 rm sat x = (0, 1) ∧ cvtLane .f32n8 rm sat x = (0, 1))
  ∧ (∀ rm sat, cvtLane .f32i32 rm sat 0x7F800000 = (0x7FFFFFFF, 1) ∧ cvtLane .f32i32 rm sat 0xFF800000 = (0x80000000, 1)
      ∧ cvtLane .f32n32 rm sat 0xFF800000 = (0, 1) ∧ cvtLane .f32i8 rm true 0x43800000 = (0x7F, 1) ∧ cvtLane .f32i8 rm false 0x43800000 = (0, 1)
      ∧ cvtLane .f32i32 rm sat 0x40400000 = (3, 0) ∧ cvtLane .f32e4m3 rm sat 0x7F800000 = (0x7F, 1) ∧ cvtLane .i32f32 rm sat 0xFFFFFFFF = (0xBF800000, 0))
  ∧ cvtLane .f32i32 .rz true 0x3FC00000 = (1, 16) ∧ cvtLane .f32i32 .ru true 0x3FC00000 = (2, 16) ∧ cvtLane .f32i32 .rn true 0x40200000 = (2, 16)
  ∧ (∀ el rm x, x / 256 % 256 = 0xFF → dqmxLane el rm x = (0x7FC00000, 0))

/-- Packing and lane movement (R285, R286, R288, R289): every lane of the result; latency 3, VIOTA 2. -/
def Obligations.LaneMovement : Prop :=
  ∀ (s : State) (d a : Nat) (b : VB) (c k : Nat),
    let m := s.rdM k
    let x := fun j => laneAt (s.rdV a) j
    let z := fun j => laneAt (s.rdV c) j
    let y := srcB s b
    (∀ w n, (w = .h ∧ n = 16) ∨ (w = .b ∧ n = 8) ∨ (w = .q ∧ n = 4) →
        WritesPlain s (.vpack w d a c k) 3 d m (packLane n fun e => (if e < 64 then x e else z (e - 64)).toNat)
        ∧ (∀ part, WritesPlain s (.vunpk w false part d a k) 3 d m (fun j => BitVec.ofNat 32 ((s.rdV a).toNat / 2 ^ (n * (64 * part + j)) % 2 ^ n)))
        ∧ (∀ part, WritesPlain s (.vunpk w true part d a k) 3 d m
            (fun j => (BitVec.ofNat n ((s.rdV a).toNat / 2 ^ (n * (64 * part + j)))).signExtend 32)))
    ∧ WritesPlain s (.vperm d a b k) 3 d m (fun j => if (y j).toNat < 64 then x (y j).toNat else 0)
    ∧ WritesPlain s (.vshuf .ilo d a c k) 3 d m (fun j => if j % 2 = 0 then x (j / 2) else z (j / 2))
    ∧ WritesPlain s (.vshuf .ihi d a c k) 3 d m (fun j => if j % 2 = 0 then x (32 + j / 2) else z (32 + j / 2))
    ∧ WritesPlain s (.vshuf .even d a c k) 3 d m (fun j => if 2 * j < 64 then x (2 * j) else z (2 * j - 64))
    ∧ WritesPlain s (.vshuf .odd d a c k) 3 d m (fun j => if 2 * j + 1 < 64 then x (2 * j + 1) else z (2 * j + 1 - 64))
    ∧ WritesPlain s (.vshuf .rev d a c k) 3 d m (fun j => x (63 - j))
    ∧ (∀ e, WritesPlain s (.vbcast d (.lane a e) k) 3 d m (fun _ => x e)) ∧ (∀ e, WritesPlain s (.vbcast d (.scalar e) k) 3 d m (fun _ => (s.rdS e).setWidth 32))
    ∧ (∀ e, WritesAll s (.vins false d a e) 3 d (fun j => if j = e then (s.rdS a).setWidth 32 else laneAt (s.rdV d) j))
    ∧ (∀ e, WritesAll s (.vins true d a e) 3 d (fun j => if j = e then (s.rdS a).setWidth 32 else if j = e + 1 then (s.rdS a).extractLsb' 32 32
        else laneAt (s.rdV d) j))
    ∧ (∀ e, (s.clear (.vext .zero d a e) → exec (.vext .zero d a e) s = .next (s.putS 3 d ((x e).setWidth 64)))
        ∧ (s.clear (.vext .sign d a e) → exec (.vext .sign d a e) s = .next (s.putS 3 d ((x e).signExtend 64)))
        ∧ (s.clear (.vext .dword d a e) → exec (.vext .dword d a e) s = .next (s.putS 3 d (x (e + 1) ++ x e))))
    ∧ WritesAll s (.viota d k) 2 d (fun j => BitVec.ofNat 32 ((List.range j).filter fun n => m.getLsbD n).length)
    ∧ WritesAll s (.vcomp d a k) 3 d (fun j => (((List.range 64).filter fun n => m.getLsbD n).map x).getD j 0)

/-- Reductions, scans, the Hadamard transform and the random function (R287, R290, R291): the fixed tree, the six stages, the butterflies of each block,
and the stream and field of each output. -/
def Sys2Proof.Spec.ReductionsAndRandom : Prop :=
  ∀ (s : State) (d a : Nat) (b : VB) (key k : Nat),
    let m := s.rdM k
    let x := fun j => laneAt (s.rdV a) j
    let y := srcB s b
    let g := fun st j => gRand (s.rdS key) (rngCtr st (x j).toNat (y j).toNat)
    (∀ op, let src := fun j => if m.getLsbD j = true then x j else identityOf op
        WritesAll s (.vred op d a k) 8 d (fun _ => treeOf op src 6 0) ∧ WritesAll s (.vscan op d a k) 8 d (scanOf op src 6))
    ∧ (∀ sz n, (sz = .n16 ∧ n = 4) ∨ (sz = .n32 ∧ n = 5) ∨ (sz = .n64 ∧ n = 6) →
        WritesAll s (.vhad sz d a) 8 d (fun j => hadOf (fun p => x (j / 2 ^ n * 2 ^ n + p)) n (j % 2 ^ n)))
    ∧ WritesPlain s (.vrng .lo d a b key k) 6 d m (fun j => (g 3 j).setWidth 32)
    ∧ WritesPlain s (.vrng .hi d a b key k) 6 d m (fun j => (g 3 j).extractLsb' 32 32)
    ∧ WritesPlain s (.vrng .sr d a b key k) 6 d m (fun j => ((g 3 j).setWidth 16).setWidth 32)
    ∧ WritesPlain s (.vrng .sra d a b key k) 6 d m (fun j => ((g 0 j).setWidth 16).setWidth 32)
    ∧ WritesPlain s (.vrng .srb d a b key k) 6 d m (fun j => ((g 1 j).setWidth 16).setWidth 32)
    ∧ WritesPlain s (.vrng .sign d a b key k) 6 d m (fun j => if (g 4 j).getLsbD 0 = true then 0xBF800000 else 0x3F800000)
    ∧ WritesPlain s (.vrng .unif d a b key k) 6 d m (fun j => (laneOf .rn (.num false ((g 3 j).toNat / 2 ^ 40) (-24), 0)).1)
/-- Elementary functions, reductions, scans, Hadamard transform and random function. -/
def Obligations.FunctionsAndReductions : Prop := Sys2Proof.Spec.ElementaryFunctions ∧ Sys2Proof.Spec.ReductionsAndRandom

end

section
open Sys2Proof Sys2Proof.Machine Sys2Proof.Spec Sys2Proof.Safety

/-! ### The matrix unit -/

/-- Issue of MMA, MMA.G and MBIN (R293–R297): with operands in range and aligned, every span they read in SCRATCH banks, the slot free and no
unfinished drain over those bytes, the instruction enters the unit with its panels captured: busy for K cycles (4K with an 8-bit element format, K/8 for MBIN), ready 48 cycles after that;
a busy slot holds an MMA. -/
def Sys2Proof.Spec.MatrixProductIssue : Prop :=
  ∀ (s : State) (z a b c mc e : Nat),
    let g := s.h.mcWords mc
    let wa := s.rdS a
    let wb := s.rdS b
    let k := (s.rdS c).toNat
    let busy := if cfgQ g false = 0 ∧ cfgQ g true = 0 then k else 4 * k
    let ready (reads : List (Nat × Nat)) : Prop := s.h.mFree ≤ s.h.cyc ∧ s.h.willWrite reads = false ∧ (∀ x ∈ reads, InScratch s.h x.1 x.2) ∧ Sound s.h reads
    let ta := tableSpan g 0 (wf wa 48 8 * k) false
    let tb := tableSpan g (wf wa 48 8 * k) (wf wb 48 8 * k) true
    let na := rowBytes (cfgFmt g false) k
    let nb := rowBytes (cfgFmt g true) k
    let shape : Prop := PanelOk wa ∧ PanelOk wb ∧ 32 ≤ k ∧ k ≤ 2048 ∧ k % 32 = 0 ∧ (cfgInner g = true → k % 2 ^ cfgRot g = 0)
      ∧ (cfgOuter g = 1 → wf wa 48 8 % 2 ^ cfgRot g = 0) ∧ (cfgOuter g = 2 → wf wb 48 8 % 2 ^ cfgRot g = 0)
    (s.clear (.mma z a b c mc) → shape →
        ready (linesOf wa na ++ linesOf wb nb ++ ta ++ tb) →
        EntersUnit (.mma z a b c mc) s busy (48 + busy) z (.mma none) [wa, wb, word k] g
          [bytesAt s.h (linesOf wa na), bytesAt s.h (linesOf wb nb), bytesAt s.h ta, bytesAt s.h tb] [] 0)
    ∧ (s.clear (.mmaG z a b c e mc) → shape →
        ready (spansOf (gatherOffs (s.rdV e) wa na s.h.scr) na ++ linesOf wb nb ++ ta ++ tb) →
        EntersUnit (.mmaG z a b c e mc) s busy (48 + busy) z (.mma (some (s.rdV e))) [wa, wb, word k] g
          [s.h.lineBytes (gatherOffs (s.rdV e) wa na s.h.scr) na, bytesAt s.h (linesOf wb nb), bytesAt s.h ta, bytesAt s.h tb] [] 0)
    ∧ (∀ x, s.clear (.mbin x z a b c) → PanelOk wa → PanelOk wb → 256 ≤ k → k ≤ 2048 → k % 256 = 0 → ready (linesOf wa (k / 8) ++ linesOf wb (k / 8)) →
        EntersUnit (.mbin x z a b c) s (k / 8) (48 + k / 8) z (.mbin x) [wa, wb, word k] []
          [bytesAt s.h (linesOf wa (k / 8)), bytesAt s.h (linesOf wb (k / 8))] [] 0)
    ∧ (s.clear (.mma z a b c mc) → s.h.cyc < s.h.mFree → Held (.mma z a b c mc) s 0)

/-- Issue of MZERO, MLOADZ, MDRAIN and MQNT (R298–R300), and the configuration and status (R302, R303): MCFG refuses what R63 names and otherwise writes
its five words one cycle later; MCFGR reads them; MSTAT reads and clears. -/
def Sys2Proof.Spec.MatrixMoveIssue : Prop :=
  ∀ (s : State) (z a b c mc d : Nat) (bf : Bool), s.h.mFree ≤ s.h.cyc →
    let g := s.h.mcWords mc
    let wa := s.rdS a
    let wb := s.rdS b
    let k := (s.rdS c).toNat
    let n := wf wa 56 8 * (if bf = true then 2 else 4)
    let rows := wf wb 0 8
    let cols := wf wb 8 8
    let dn := cols * (if bf = true then 2 else 4)
    let tile := (List.range rows).map fun i => (List.range cols).map fun j => s.h.zAt z i j
    let drained := (drainTile g bf tile).1.map fun l => l.flatMap fun x => bytesOf (if bf = true then 2 else 4) x
    let five := (List.range 5).map fun i => s.rdS (a + i)
    (s.clear (.mzero z) → s.h.tileBusy z = false → exec (.mzero z) s = .next (s.later 2 (.z z)))
    ∧ (s.clear (.mloadz bf z a) → s.h.tileBusy z = false → wf wa 21 11 = 0 → 1 ≤ wf wa 56 8 → wf wa 56 8 ≤ 128 → 1 ≤ wf wa 48 8 → wf wa 48 8 ≤ 128 →
        n ≤ wf wa 32 16 → wf wa 32 16 % 16 = 0 → wf wa 0 21 % 16 = 0 → s.h.willWrite (linesOf wa n) = false → (∀ x ∈ linesOf wa n, InScratch s.h x.1 x.2) → Sound s.h (linesOf wa n) →
        EntersUnit (.mloadz bf z a) s (wf wa 48 8) (40 + wf wa 48 8) z (.mloadz bf) [wa] [] [bytesAt s.h (linesOf wa n)] [] 0)
    ∧ (s.clear (.mdrain bf z a b mc) → s.h.tileBusy z = false → wf wa 48 16 = 0 → wf wa 21 11 = 0 → wf wb 16 48 = 0 → 1 ≤ rows → rows ≤ 128 → 1 ≤ cols → cols ≤ 128 →
        dn ≤ wf wa 32 16 → wf wa 32 16 % 16 = 0 → wf wa 0 21 % 16 = 0 → (cfgOuter g = 1 → rows % 2 ^ cfgRot g = 0) → (cfgOuter g = 2 → cols % 2 ^ cfgRot g = 0) →
        s.h.inFifo (wf wa 0 21) = false → (∀ i, i < rows → InScratch s.h (wf wa 0 21 + i * wf wa 32 16) dn) →
        EntersUnit (.mdrain bf z a b mc) s rows (40 + rows) z (.mdrain bf) [wa] g []
          (((List.range rows).map fun i => wf wa 0 21 + i * wf wa 32 16).zip drained) (mstatOf (drainTile g bf tile).2 false))
    ∧ (s.clear (.mdrain bf z a b mc) → s.h.tileBusy z = false → wf wa 48 16 = 0 → wf wa 21 11 = 0 → wf wb 16 48 = 0 → 1 ≤ rows → rows ≤ 128 → 1 ≤ cols → cols ≤ 128 →
        dn % 16 = 0 → wf wa 32 16 % 16 = 0 → wf wa 0 21 % 16 = 0 → (cfgOuter g = 1 → rows % 2 ^ cfgRot g = 0) → (cfgOuter g = 2 → cols % 2 ^ cfgRot g = 0) →
        s.h.inFifo (wf wa 0 21) = true →
        EntersUnit (.mdrain bf z a b mc) s rows (40 + rows) z (.mdrain bf) [wa] g [] [(wf wa 0 21 / 0x20000 * 0x20000, drained.flatten)] (mstatOf (drainTile g bf tile).2 false))
    ∧ (∀ side, s.clear (.mqnt side a b c mc) → PanelOk wa → wf wb 48 16 = 0 → wf wb 21 11 = 0 → wf wb 32 16 % 16 = 0 → wf wb 0 21 % 16 = 0 →
        32 ≤ k → k ≤ 2048 → k % 32 = 0 → cfgFmt g side < 3 → (cfgInner g = true → k % 2 ^ cfgRot g = 0) → (cfgAcross g side = true → wf wa 48 8 % 2 ^ cfgRot g = 0) →
        rowBytes (cfgQ g side + 3) k ≤ wf wb 32 16 →
        let src := linesOf wa (rowBytes (cfgFmt g side) k)
        let tab := tableSpan g 0 (wf wa 48 8 * k) side
        let r := mqntResult g side (wf wa 48 8) k (bytesAt s.h src) (bytesAt s.h tab)
        s.h.willWrite (src ++ tab) = false → (∀ x ∈ src ++ tab, InScratch s.h x.1 x.2) → Sound s.h (src ++ tab) →
        (∀ l, l < wf wa 48 8 → InScratch s.h (wf wb 0 21 + l * wf wb 32 16) (rowBytes (cfgQ g side + 3) k)) →
        EntersUnit (.mqnt side a b c mc) s (40 + (wf wa 48 8 * k + 127) / 128) (40 + (wf wa 48 8 * k + 127) / 128) 0 (.mqnt side) [wa, wb, word k] g
          [bytesAt s.h src, bytesAt s.h tab] (((List.range (wf wa 48 8)).map fun l => wf wb 0 21 + l * wf wb 32 16).zip r.1) r.2)
    ∧ (s.clear (.mcfg mc a) → (cfgBad five = false → exec (.mcfg mc a) s = .next (s.later 1 (.mc mc five)))
        ∧ (cfgBad five = true → s.h.commit = false → FaultsTo (.mcfg mc a) s 1 0 0))
    ∧ (s.clear (.mcfgr d mc) → exec (.mcfgr d mc) s = .next (((((s.putS 3 d (g.getD 0 0)).putS 3 (d + 1) (g.getD 1 0)).putS 3 (d + 2) (g.getD 2 0)).putS 3 (d + 3) (g.getD 3 0)).putS 3
        (d + 4) (g.getD 4 0)))
    ∧ (s.clear (.mstat d) → exec (.mstat d) s = .next ((s.putS 3 d (s.h.mstat.setWidth 64)).onH fun h => { h with mstat := 0 }))

/-- Matrix instructions at issue, and their configuration and status. -/
def Obligations.MatrixIssue : Prop := Sys2Proof.Spec.MatrixProductIssue ∧ Sys2Proof.Spec.MatrixMoveIssue

/-- What the matrix instructions make of a tile (R73, R295, R298): at completion the elements of the window get the accumulation of R69 over the prepared operands, the MBIN
counts, or the loaded values; every other element stays; MZERO clears its tile alone. Panels that nothing wrote meanwhile are read as they were captured at issue. -/
def Sys2Proof.Spec.MatrixResults : Prop :=
  ∀ (s : State) (k : Nat) (m : MatOp), let h := s.hartAt k
    h.matq = [m] → m.due ≤ h.cyc → h.spLog.drop m.seen = [] →
    let wa := m.ops.getD 0 0
    let wb := m.ops.getD 1 0
    let kk := (m.ops.getD 2 0).toNat
    let M := wf wa 48 8
    let N := wf wb 48 8
    let na := rowBytes (cfgFmt m.cfg false) kk
    let nb := rowBytes (cfgFmt m.cfg true) kk
    let keeps (t : State) (m n : Nat) (z : Nat) : Prop := (t.hartAt k).matq = [] ∧ (t.hartAt k).r = h.r ∧ (t.hartAt k).sp = h.sp ∧ t.mem = s.mem
      ∧ ∀ y i j, i < 128 → j < 128 → (y ≠ z ∨ m ≤ i ∨ n ≤ j) → (t.hartAt k).zAt y i j = h.zAt y i j
    (∀ g, m.kind = .mma g → PanelOk wa → PanelOk wb →
        let ra := prepare m.cfg false kk (cutLines na M (m.panels.getD 0 [])) (m.panels.getD 2 [])
        let rb := prepare m.cfg true kk (cutLines nb N (m.panels.getD 1 [])) (m.panels.getD 3 [])
        ∃ t, exec (.mmaReady k) s = .next t ∧ keeps t M N m.tile
          ∧ ∀ i j, i < M → j < N → (t.hartAt k).zAt m.tile i j =
            (accumulateLine (cfgElem m.cfg false) (cfgElem m.cfg true) (h.zAt m.tile i j) (ra.1.getD i []) (rb.1.getD j [])).1)
    ∧ (∀ x, m.kind = .mbin x → PanelOk wa → PanelOk wb → kk % 256 = 0 → m.panels = [bytesAt h (linesOf wa (kk / 8)), bytesAt h (linesOf wb (kk / 8))] →
        ∃ t, exec (.mmaReady k) s = .next t ∧ keeps t M N m.tile ∧ (t.hartAt k).mstat = h.mstat
          ∧ ∀ i j, i < M → j < N → (t.hartAt k).zAt m.tile i j = h.zAt m.tile i j + BitVec.ofNat 32 ((List.range kk).filter fun p =>
              let u := (h.spByte (wf wa 0 21 + i * wf wa 32 16 + p / 8)).getLsbD (p % 8)
              let v := (h.spByte (wf wb 0 21 + j * wf wb 32 16 + p / 8)).getLsbD (p % 8)
              if x = true then u != v else u && v).length)
    ∧ (m.kind = .mloadz false → M ≤ 128 → wf wa 56 8 ≤ 128 → m.panels = [bytesAt h (linesOf wa (wf wa 56 8 * 4))] →
        ∃ t, exec (.mloadzComplete k) s = .next t ∧ keeps t M (wf wa 56 8) m.tile ∧ (t.hartAt k).mstat = h.mstat
          ∧ ∀ i j, i < M → j < wf wa 56 8 →
            (t.hartAt k).zAt m.tile i j = BitVec.ofNat 32 (numOf (h.spBytes (wf wa 0 21 + i * wf wa 32 16 + 4 * j) 4)))
    ∧ (m.kind = .mloadz true → M ≤ 128 → wf wa 56 8 ≤ 128 → m.panels = [bytesAt h (linesOf wa (wf wa 56 8 * 2))] →
        ∃ t, exec (.mloadzComplete k) s = .next t ∧ keeps t M (wf wa 56 8) m.tile
          ∧ ∀ i j, i < M → j < wf wa 56 8 →
            (t.hartAt k).zAt m.tile i j = (cvtLane .bf16f32 .rn false (BitVec.ofNat 32 (numOf (h.spBytes (wf wa 0 21 + i * wf wa 32 16 + 2 * j) 2)))).1)
    ∧ (∀ z y i j, z < 4 → i < 128 → j < 128 → (h.perform (.z z)).zAt y i j = if y = z then 0 else h.zAt y i j)

/-- What a drain and a quantisation leave (R299, R300, R83): their lines in the scratchpad, with every granule touched full and MSTAT joined; no other byte of
the scratchpad changes. Into a FIFO bank a granule goes where TAIL stands, and waits while that granule is full (R81). The four completions stop in no state. A drained element without rotation is its FP32 rounding, or the BF16 rounding of that (R72). -/
def Sys2Proof.Spec.DrainsAndQuantisations : Prop :=
  (∀ (s : State) (k : Nat) (m : MatOp), let h := s.hartAt k
    h.matq = [m] → m.due ≤ h.cyc → h.spLog.drop m.seen = [] →
    (∀ bf, m.kind = .mdrain bf → (∀ x ∈ m.outs, h.inFifo x.1 = false) →
        exec (.mdrainComplete k) s = .next (s.setHart k { (m.outs.foldl (fun g x => g.engineWrite x.1 x.2) h) with mstat := h.mstat ||| m.mstat, matq := [], spLog := [] }))
    ∧ (∀ side, m.kind = .mqnt side →
        exec (.mqntComplete k) s = .next (s.setHart k { (m.outs.foldl (fun g x => g.engineWrite x.1 x.2) h) with mstat := h.mstat ||| m.mstat, matq := [], spLog := [] })))
  ∧ (∀ (s : State) (k : Nat) (m : MatOp) (bf : Bool) (o : Nat) (d : List Byte), let h := s.hartAt k
    let b := o / 0x20000
    let x := h.bank b
    let tail := x.tail.toNat
    h.matq = [m] → m.due ≤ h.cyc → m.kind = .mdrain bf → m.outs = [(o, d)] → h.inFifo o = true →
    (Tab.get false x.full tail = false → d.length = 16 →
        exec (.mdrainComplete k) s = .next (s.setHart k
          { ((h.engineWrite (b * 0x20000 + 16 * tail) d).setBank b { x with tail := x.tail + 1, full := Tab.set false x.full tail true }) with
            mstat := h.mstat ||| m.mstat, matq := [], spLog := [] }))
    ∧ (Tab.get false x.full tail = true → exec (.mdrainComplete k) s = .next s))
  ∧ (∀ (s : State) (k : Nat), (∃ t, exec (.mmaReady k) s = .next t) ∧ (∃ t, exec (.mloadzComplete k) s = .next t)
    ∧ (∃ t, exec (.mdrainComplete k) s = .next t) ∧ (∃ t, exec (.mqntComplete k) s = .next t))
  ∧ (∀ (h : Hart) (o : Nat) (d : List Byte),
    (∀ i, (h.engineWrite o d).spByte i = if o ≤ i ∧ i < o + d.length then d.getD (i - o) 0 else h.spByte i)
    ∧ (∀ g, (h.engineWrite o d).fullAt g = (decide (g ∈ granules o d.length) || h.fullAt g)))
  ∧ (∀ c t, cfgOuter c = 0 → cfgInner c = false →
    (drainTile c false t).1 = (t.map fun line => line.map fun x => (roundFp fp32 .rn false ((laneVal x).scale 0)).1)
    ∧ (drainTile c true t).1 = t.map fun line => line.map fun x => (roundFp bf16 .rn false (fp32.value (roundFp fp32 .rn false ((laneVal x).scale 0)).1)).1)
/-- What matrix instructions leave in tiles and in the scratchpad. -/
def Obligations.MatrixCompletion : Prop := Sys2Proof.Spec.MatrixResults ∧ Sys2Proof.Spec.DrainsAndQuantisations

end

section
open Sys2Proof Sys2Proof.Machine Sys2Proof.Spec Sys2Proof.Safety

/-! ### Loads and stores -/

/-- Loads from L and C space (R74–R84, R304–R307): the bytes at EA little-endian, extended, to the destination 6 or 40 cycles after issue; with .C the granules
read become empty. L space is the hart's own scratchpad at offset EA; a C place may lie on a core or in a save area. -/
def Sys2Proof.Spec.LocalLoads : Prop :=
  ∀ (s : State) (sp : Space) (zx w c : Bool) (d : Nat) (m : Mem) (land : Nat), sp ≠ .g → s.acqPending = false →
    (∀ ea : Word, ea.toNat < 2 ^ 21 → s.spot .l ea = .ok ⟨s.cur, ea.toNat, .live⟩)
    ∧ (∀ sz x, let n := sizeBytes sz
        s.clear (.ld sp sz zx w c d m land) → (eaOf s m n).toNat % n = 0 → s.spot sp (eaOf s m n) = .ok x → Readable s x n w →
        exec (.ld sp sz zx w c d m land) s = .next ((consumed s x n c).putS (localLat sp) d (extend 64 zx (spotBytes s x n))))
    ∧ (∀ x, s.clear (.ldv sp w c d m land) → (eaOf s m 256).toNat % 16 = 0 → s.spot sp (eaOf s m 256) = .ok x → Readable s x 256 w →
        exec (.ldv sp w c d m land) s = .next ((consumed s x 256 c).putV (localLat sp) d (BitVec.ofNat 2048 (numOf (spotBytes s x 256)))))
    ∧ (∀ x, s.clear (.ldm sp w c d m land) → (eaOf s m 8).toNat % 8 = 0 → s.spot sp (eaOf s m 8) = .ok x → Readable s x 8 w →
        exec (.ldm sp w c d m land) s = .next ((consumed s x 8 c).putM (localLat sp) d (word (numOf (spotBytes s x 8)))))
    ∧ (∀ sz, sz ≠ .d → GathersLocal (.ldvS sp sz zx w c d m land) s sp (sizeBytes sz) zx w c d (eaStride s m (sizeBytes sz)))
    ∧ (∀ sz, sz ≠ .d → GathersLocal (.ldvX sp sz zx w c d m land) s sp (sizeBytes sz) zx w c d (eaIndex s m (sizeBytes sz)))

/-- Faults and waits of an L load (R84, R247): ALIGN before SPACE, each with EA; .W on an empty granule waits under kind 4. A FIFO bank gives its head granule
and moves on (R81), or waits. -/
def Sys2Proof.Spec.LocalLoadFaults : Prop :=
  ∀ (s : State) (sz : Size) (zx w c : Bool) (d : Nat) (m : Mem) (land : Nat), let n := sizeBytes sz
    let ea := eaOf s m n
    let i : Instr := .ld .l sz zx w c d m land
    s.clear i → s.acqPending = false →
    (s.h.commit = false → ea.toNat % n ≠ 0 → FaultsTo i s 6 0 ea)
    ∧ (s.h.commit = false → ea.toNat % n = 0 → (2 ^ 21 ≤ ea.toNat ∨ s.h.scr ≤ ea.toNat / 0x20000) → FaultsTo i s 7 0 ea)
    ∧ (ea.toNat % n = 0 → InScratch s.h ea.toNat n → w = true → (∃ g ∈ granules ea.toNat n, s.h.fullAt g = false) →
        exec i s = .next (s.onH fun h => { h with sig := some (.waiting 4) }))
    ∧ (ea.toNat % n = 0 → ea.toNat < 2 ^ 21 → let b := ea.toNat / 0x20000
        let x := s.h.bank b
        b < s.h.scr → x.mode = .fifo → s.h.spBad = [] → (s.h.waiting = none ∨ s.h.fills = []) →
        (Tab.get false x.full x.head.toNat = false → exec i s = .next (s.onH fun h => { h with sig := some (.waiting 4) }))
        ∧ (Tab.get false x.full x.head.toNat = true → ∃ t : State, exec i s = .next (t.putS 6 d (extend 64 zx (s.h.spBytes (b * 0x20000 + 16 * x.head.toNat) n)))
            ∧ (t.h.bank b).head = x.head + 1 ∧ Tab.get false (t.h.bank b).full x.head.toNat = false ∧ t.h.sp = s.h.sp ∧ t.h.r = s.h.r ∧ t.mem = s.mem))

/-- Loads from L and C space, their faults and their waits. -/
def Obligations.LocalLoadsAndFaults : Prop := Sys2Proof.Spec.LocalLoads ∧ Sys2Proof.Spec.LocalLoadFaults

/-- Stores to L and C space (R83, R309, R310) and SETFE (R316): the low bytes of the source go to EA and nowhere else, the granules touched take the qualifier's
state; SETFE sets the state of d's granules from EA, 64 in the cycle of issue and in each later one while issue stalls, and changes no byte; a full FIFO granule at
TAIL raises SPACE. -/
def Obligations.LocalStores : Prop :=
  ∀ (s : State) (sp : Space) (sz : Size) (fe : FeQ) (d : Nat) (m : Mem), let n := sizeBytes sz
    StoresLocal (.st sp sz fe d m) s sp fe (eaOf s m n) n (bytesOf n (s.rdS d).toNat)
    ∧ StoresLocal (.stv sp fe d m) s sp fe (eaOf s m 256) 16 (bytesOf 256 (s.rdV d).toNat)
    ∧ StoresLocal (.stm sp fe d m) s sp fe (eaOf s m 8) 8 (bytesOf 8 (s.rdM d).toNat)
    ∧ (sz ≠ .d → ScattersLocal (.stvS sp sz fe d m) s sp n (eaStride s m n) (s.rdV d)) ∧ (sz ≠ .d → ScattersLocal (.stvX sp sz fe d m) s sp n (eaIndex s m n) (s.rdV d))
    ∧ (let ea := eaOf s m n
        let b := ea.toNat / 0x20000
        let x := s.h.bank b
        s.clear (.st .l sz fe d m) → s.acqPending = false → ea.toNat % n = 0 → ea.toNat < 2 ^ 21 → b < s.h.scr → x.mode = .fifo →
        (Tab.get false x.full x.tail.toNat = false → ∃ t, exec (.st .l sz fe d m) s = .next t ∧ (t.h.bank b).tail = x.tail + 1 ∧ (t.h.bank b).head = x.head
          ∧ Tab.get false (t.h.bank b).full x.tail.toNat = true ∧ t.h.r = s.h.r ∧ t.mem = s.mem
          ∧ (∀ j, j < n → t.h.spByte (b * 0x20000 + 16 * x.tail.toNat + j) = BitVec.ofNat 8 ((s.rdS d).toNat / 256 ^ j))
          ∧ ∀ o, (o < b * 0x20000 + 16 * x.tail.toNat ∨ b * 0x20000 + 16 * x.tail.toNat + 16 ≤ o) → t.h.spByte o = s.h.spByte o)
        ∧ (Tab.get false x.full x.tail.toNat = true → s.h.commit = false → FaultsTo (.st .l sz fe d m) s 7 0 ea))
    ∧ (∀ full x, let ea := eaOf s m 16
        let k := (s.rdS d).toNat
        s.clear (.setfe sp full d m) → s.acqPending = false → ea.toNat % 16 = 0 → s.spot sp ea = .ok x → x.at_ = .live → (k = 0 ∨ InScratch (s.hartAt x.hart) x.off (16 * k)) →
        ∃ t, exec (.setfe sp full d m) s = .next t ∧ Stored s t (fun _ _ => none)
          ∧ (∀ j g, (t.hartAt j).fullAt g = if j = x.hart ∧ g ∈ granules x.off (16 * min k 64) then full else (s.hartAt j).fullAt g)
          ∧ t.h.hdr = s.h.hdr + ((k + 63) / 64 - 1) ∧ t.h.setfe = s.h.setfe ++ if 64 < k then [(x.hart, x.off / 16 + 64, k - 64, full)] else [])
    ∧ (∀ k x g n full rest, (s.hartAt k).setfe = (x, g, n, full) :: rest → (s.hartAt k).frozen = false →
        (∀ j q, ((s.setfeStep k).hartAt j).fullAt q = if j = x ∧ g ≤ q ∧ q < g + min n 64 then full else (s.hartAt j).fullAt q)
        ∧ ((s.setfeStep k).hartAt k).setfe = if n ≤ 64 then rest else (x, g + 64, n - 64, full) :: rest)

/-- Loads from G space (R93–R95, R304): each takes a landing entry with its pieces, one per sector of a contiguous access, and its exact cycle or any; nothing is
read yet but by the walks for its addresses. With 64 entries held the bundle waits under kind 7. PREF writes no register. -/
def Obligations.GlobalLoads : Prop :=
  ∀ (s : State) (sz : Size) (zx w c : Bool) (d : Nat) (m : Mem) (land : Nat), let n := sizeBytes sz
    (∀ p, s.clear (.ld .g sz zx w c d m land) → s.h.land.length < 64 → (eaOf s m n).toNat % n = 0 → s.xlate (eaOf s m n) = .ok p → p.refuse .ld = none → p.cls ≠ 3 →
        Unhindered s →
        TakesEntry (.ld .g sz zx w c d m land) s land (regS s d) (.scalar sz zx (s.h.destS d)) (Piece.bySector ⟨0, p.pa, n, p.cpol, p.key, false⟩) [eaOf s m n])
    ∧ (∀ ps, s.clear (.ldv .g w c d m land) → s.h.land.length < 64 → s.gPieces (eaOf s m 256) 256 16 .vld = .ok (ps, false) → Unhindered s →
        TakesEntry (.ldv .g w c d m land) s land [s.h.regV d] (.vec (s.h.regV d)) ps [eaOf s m 256])
    ∧ (∀ p, s.clear (.ldm .g w c d m land) → s.h.land.length < 64 → (eaOf s m 8).toNat % 8 = 0 → s.xlate (eaOf s m 8) = .ok p → p.refuse .vld = none →
        Unhindered s →
        TakesEntry (.ldm .g w c d m land) s land (regsOf (s.h.destM d)) (.mask (s.h.destM d)) (Piece.bySector ⟨0, p.pa, 8, p.cpol, p.key, false⟩) [eaOf s m 8])
    ∧ (∀ ps, s.clear (.ldvS .g sz zx w c d m land) → s.h.land.length < 64 → s.eltPieces .vld n (strided s m n) = .ok (ps, false) → Unhindered s →
        TakesEntry (.ldvS .g sz zx w c d m land) s land [s.h.regV d] (.lanes sz zx (s.h.regV d) (BitVec.allOnes 64)) ps ((List.range 64).map (eaStride s m n)))
    ∧ (∀ ps, s.clear (.ldvX .g sz zx w c d m land) → s.h.land.length < 64 → s.eltPieces .vld n (indexed s m n) = .ok (ps, false) → Unhindered s →
        TakesEntry (.ldvX .g sz zx w c d m land) s land [s.h.regV d] (.lanes sz zx (s.h.regV d) (BitVec.allOnes 64)) ps ((List.range 64).map (eaIndex s m n)))
    ∧ (s.clear (.ld .g sz zx w c d m land) → 64 ≤ s.h.land.length → Held (.ld .g sz zx w c d m land) s 7)
    ∧ (∀ e, s.clear (.ld .g sz zx w c d m land) → s.h.commit = false → s.h.land.length < 64 → s.acqPending = false → (eaOf s m n).toNat % n = 0 → s.xlate (eaOf s m n) = .error e →
        e.code = 4 → e.detail = 1 → s.h.mode = .task → FaultsTo (.ld .g sz zx w c d m land) s 4 1 (eaOf s m n))
    ∧ (s.clear (.pref m) → s.acqPending = false →
        (∀ e, s.xlate (eaOf s m 64) = .error e → exec (.pref m) s = .next (if e.walked = true then s.walkOn s.cur (eaOf s m 64) else s))
        ∧ ∃ t, exec (.pref m) s = .next t ∧ t.h.r = s.h.r ∧ t.h.sp = s.h.sp ∧ t.h.loops = s.h.loops ∧ t.h.npc = s.h.npc ∧ t.h.land = s.h.land ∧ t.h.pend = s.h.pend)

/-- A plain store that leaves the core (R107, R127): on a page it does not cache, with no load of its own waiting, it joins the stores in flight with the bytes of its
piece in one sector; the core sees them at once and every other byte as before, and no byte of memory changes. -/
def Sys2Proof.Spec.PlainStoreInFlight : Prop :=
  ∀ (s : State) (k pa cpol key : Nat) (data : List Byte),
    (s.hartAt k).land = [] → 0 < data.length → pa % 64 + data.length ≤ 64 → (cpol ≠ 0 ∨ (s.hartAt k).hasL1 k = false) → Tab.find (s.hartAt k).l1 (pa / 64) = none →
    let t := s.plainStore k pa data cpol key false
    (∀ n a, t.viewByte k n a = if pa ≤ a ∧ a < pa + data.length then data.getD (a - pa) 0 else s.viewByte k n a)
    ∧ t.mem = s.mem ∧ t.msc = s.msc ∧ (∀ j, j ≠ k → t.hartAt j = s.hartAt j)
    ∧ (t.hartAt k).stq.length = (s.hartAt k).stq.length + 1 ∧ (t.hartAt k).r = (s.hartAt k).r ∧ (t.hartAt k).sp = (s.hartAt k).sp

/-- Stores to G space (R74, R107, R309, R310): every piece of the access, one per sector at the address that translation gives for EA, is one plain store of its bytes; the
accesses are checked first and all together, and their walks leave what they read at the home slices. A load of its own that must be read first and cannot be
holds the bundle. -/
def Sys2Proof.Spec.GlobalStores : Prop :=
  ∀ (s : State) (sz : Size) (fe : FeQ) (d : Nat) (m : Mem), let n := sizeBytes sz
    let free (ps : List Piece) : Prop := Unhindered s ∧ ∀ p ∈ ps, s.storeHeld s.cur p.pa p.n false = false
    let stores (ps : List Piece) (eas : List Word) (byte : Nat → Byte) : State := ps.foldl (fun s' p =>
      s'.plainStore s.cur p.pa ((List.range p.n).map fun b => byte (p.at_ + b)) p.cpol p.key false) (s.walksOn s.cur eas)
    (∀ p, s.clear (.st .g sz fe d m) → (eaOf s m n).toNat % n = 0 → s.xlate (eaOf s m n) = .ok p → p.refuse .st = none → p.cls ≠ 3 →
        let ps := Piece.bySector ⟨0, p.pa, n, p.cpol, p.key, false⟩
        (free ps → exec (.st .g sz fe d m) s = .next (stores ps [eaOf s m n] fun b => BitVec.ofNat 8 ((s.rdS d).toNat / 256 ^ b)))
        ∧ ((∃ q ∈ ps, s.storeHeld s.cur q.pa q.n false = true) → Held (.st .g sz fe d m) s 0))
    ∧ (∀ p, s.clear (.stm .g fe d m) → (eaOf s m 8).toNat % 8 = 0 → s.xlate (eaOf s m 8) = .ok p → p.refuse .vst = none →
        let ps := Piece.bySector ⟨0, p.pa, 8, p.cpol, p.key, false⟩
        free ps → exec (.stm .g fe d m) s = .next (stores ps [eaOf s m 8] fun b => BitVec.ofNat 8 ((s.rdM d).toNat / 256 ^ b)))
    ∧ (∀ ps, s.clear (.stv .g fe d m) → s.gPieces (eaOf s m 256) 256 16 .vst = .ok (ps, false) → free ps →
        exec (.stv .g fe d m) s = .next (stores ps [eaOf s m 256] fun b => BitVec.ofNat 8 ((s.rdV d).toNat / 256 ^ b)))
    ∧ (∀ ps, sz ≠ .d → s.clear (.stvS .g sz fe d m) → s.eltPieces .vst n (strided s m n) = .ok (ps, false) → free ps →
        exec (.stvS .g sz fe d m) s = .next (stores ps ((List.range 64).map (eaStride s m n)) fun b => BitVec.ofNat 8 ((laneAt (s.rdV d) (b / 4)).toNat / 256 ^ (b % 4))))
    ∧ (∀ ps, sz ≠ .d → s.clear (.stvX .g sz fe d m) → s.eltPieces .vst n (indexed s m n) = .ok (ps, false) → free ps →
        exec (.stvX .g sz fe d m) s = .next (stores ps ((List.range 64).map (eaIndex s m n)) fun b => BitVec.ofNat 8 ((laneAt (s.rdV d) (b / 4)).toNat / 256 ^ (b % 4))))

/-- Plain stores to G space leave the core. -/
def Obligations.GlobalStoresLeave : Prop := Sys2Proof.Spec.PlainStoreInFlight ∧ Sys2Proof.Spec.GlobalStores

/-- Atomics at issue (R107, R312–R315): with nothing of the core in flight, one message goes to the home slice of the translated address with the operation and its
operands; with a destination it holds a landing entry. No register changes, and no byte of memory but by the walk for its address. -/
def Obligations.AtomicsLeave : Prop :=
  ∀ (s : State) (d : Nat) (m : Mem) (land : Nat) (o : Order) (rel : Option Scope) (bf : Bool),
    s.h.land = [] → s.h.stq = [] → s.h.l1 = [] → (∀ g ∈ s.msgs, g.hart ≠ s.cur) →
    let ea (n : Nat) : Word := s.rdS m.base + m.off.signExtend 64 * word n
    let leaves (n : Nat) (i : Instr) (p : Page) (ret : Bool) (acq : Acq) (op : AtomOp) : Prop := let u := s.walkOn s.cur (ea n)
      ∃ t g, exec i s = .next t ∧ t.msgs = s.msgs ++ [g] ∧ g.hart = s.cur ∧ g.home = sliceOf p.pa
      ∧ g.body = .atomic op p.pa p.cpol p.key p.atomsys acq s.h.pc ∧ t.h.r = s.h.r ∧ t.h.pend = s.h.pend ∧ t.h.sp = s.h.sp ∧ t.mem = u.mem ∧ t.msc = u.msc
      ∧ (ret = false → t.h.land = []) ∧ (ret = true → t.h.land = [entryOf u land (regS s d) (.atomic (s.h.destS d)) acq (u.slotsFor [p.pa])] ∧ g.landing = u.nextId + 1)
    (∀ op p, s.clear (.amo op o d m land) → (ea 8).toNat % 8 = 0 → s.xlate (ea 8) = .ok p → p.refuse .amo = none →
        leaves 8 (.amo op o d m land) p (decide (d ≠ 0)) (acqOf o) (.amo op (s.rdS m.idx)))
    ∧ (∀ p, s.clear (.cas o d m land) → (ea 8).toNat % 8 = 0 → s.xlate (ea 8) = .ok p → p.refuse .amo = none →
        leaves 8 (.cas o d m land) p (decide (d ≠ 0)) (acqOf o) (.cas (s.rdS d) (s.rdS m.idx)))
    ∧ (∀ p, s.clear (.amof bf rel m) → (ea 4).toNat % 4 = 0 → s.xlate (ea 4) = .ok p → p.refuse .amof = none →
        leaves 4 (.amof bf rel m) p false none (.amof bf ((s.rdS m.idx).setWidth 32)))
    ∧ (∀ p, s.clear (.amofSeq bf rel d m) → (ea 4).toNat % 4 = 0 → s.xlate (ea 4) = .ok p → p.refuse .amofSeq = none → (s.rdS d).toNat < 2 ^ 32 →
        leaves 4 (.amofSeq bf rel d m) p false none (.amofSeq bf false (s.rdS d) ((s.rdS m.idx).setWidth 32)))
    ∧ (∀ p, s.clear (.amofSeqSkip bf rel d m) → (ea 4).toNat % 4 = 0 → s.xlate (ea 4) = .ok p → p.refuse .amofSeq = none → (s.rdS d).toNat < 2 ^ 32 →
        leaves 4 (.amofSeqSkip bf rel d m) p false none (.amofSeq bf true (s.rdS d) 0))
end

section
open Sys2Proof Sys2Proof.Machine Sys2Proof.Spec Sys2Proof.Safety

/-! ### Landings, caches and home slices -/

/-- A write at the home slices (R4, R87, R88): the bytes written read back at once, whatever the cache policy, and every other byte of memory reads as before. -/
def Obligations.MemoryReadAfterWrite : Prop :=
  ∀ (s : State) (pa cpol key rid : Nat) (w : Option Nat) (data : List Byte),
    0 < data.length → pa % 64 + data.length ≤ 64 → Plain s (pa / 64) key →
    ∀ a, Steady a → (s.applyWrite pa data cpol key rid w).byteAt a = if pa ≤ a ∧ a < pa + data.length then data.getD (a - pa) 0 else s.byteAt a

/-- Home slices of HBM addresses (R14): the slice and channel of an address by its bits; one for a whole 2 KiB line; sixteen lines from a 32 KiB boundary lie on
sixteen different slices of one die. -/
def Obligations.HomeSlices : Prop :=
  (∀ pa, (homeSlice pa).1 = (pa / 2 ^ 11 % 16 ^^^ pa / 2 ^ 15 % 16 ^^^ pa / 2 ^ 19 % 16 ^^^ pa / 2 ^ 23 % 16) ∧ (homeSlice pa).2 = (pa / 2 ^ 15 % 4 ^^^ pa / 2 ^ 27 % 4))
  ∧ (∀ pa b, b < 2048 → homeSlice (pa / 2048 * 2048 + b) = homeSlice pa)
  ∧ (∀ n i j, i < 16 → j < 16 → i ≠ j → sliceOf (n * 2 ^ 15 + i * 2048) ≠ sliceOf (n * 2 ^ 15 + j * 2048))

/-- Landings of G loads (R93–R96, R311): an event reads one or all of the pieces that may be read; with the last of them, under land=any, the value is written and
the entry is free; an exact landing keeps what arrives until its cycle, is then written, and freezes the core at its cycle if something has not arrived. The
value is what the core's own view of memory holds as each piece is read. -/
def Sys2Proof.Spec.LoadsLand : Prop :=
  ∀ (s : State) (k : Nat) (l : Landing), let h := s.hartAt k
    h.land = [l] → h.pend = [] → h.outst = [] → h.l1 = [] → h.stq = [] → h.mnts = [] → h.l1Bad = [] → h.l1Corr = [] → NoAtomics s k → l.acq = none → l.bad = none →
    (h.mode ≠ .handler ∨ l.kept = false ∧ h.wLand ≠ some l.id) →
    (∀ f ps, l.req = .load f ps → l.got = none → ps ≠ [] → l.slots = [] → l.ready ≤ s.time →
      (∀ p ∈ ps, s.deferred p.pa p.n = false ∧ (l.ready ≠ 0 ∨ s.mayUse k false p.pa = true) ∧ s.reaches (hartDie k) p.pa = true ∧ p.cpol ≠ 0
        ∧ ∀ sec ∈ sectorsOf p.pa p.n, Plain s sec p.key) →
      ∃ (t : State) (now : Piece → Bool), exec (.landing k l.id) s = .next t ∧ (∃ p ∈ ps, now p = true) ∧ SameBytes s t ∧ (t.hartAt k).sp = h.sp ∧ (t.hartAt k).mode = h.mode
        ∧ let rd := l.read ++ (ps.filter now).map fun p => (p.at_, (List.range p.n).map fun i => s.byteAt (p.pa + i))
          let left := ps.filter fun p => !now p
          let ws := f.writes (assemble f.size rd)
          (left ≠ [] → (t.hartAt k).land = [{ l with req := .load f left, read := rd }] ∧ (t.hartAt k).r = h.r)
          ∧ (left = [] → l.due = none → (t.hartAt k).land = [] ∧ (t.hartAt k).r = (ws.foldl (fun g w => g.perform w) h).r)
          ∧ (left = [] → l.due ≠ none → (t.hartAt k).land = [{ l with req := .load f [], read := rd, got := some ws }] ∧ (t.hartAt k).r = h.r))
    ∧ (∀ d ws, l.due = some d → l.got = some ws →
        (d ≤ h.cyc → ∃ t, exec (.exactLanding k l.id) s = .next t ∧ (t.hartAt k).land = [] ∧ (t.hartAt k).r = (ws.foldl (fun g w => g.perform w) h).r
            ∧ (t.hartAt k).frozen = false ∧ t.mem = s.mem)
        ∧ (h.cyc < d → exec (.exactLanding k l.id) s = .next s))
    ∧ (∀ d, l.due = some d → l.got = none → d ≤ h.cyc → exec (.exactLanding k l.id) s = .next (s.setHart k { h with frozen := true }))

/-- The L1, stores in flight and the D2 calendar (R80, R107, R127–R130): a fill supplies the bytes no store has written; a write-back sends the dirty bytes to the
home slice, a D2 task's as a store with a slot of its own, and leaves the line clean; a plain store that arrives changes exactly its bytes, after an earlier one
of its sector; a calendar slot starts the declared latency. -/
def Sys2Proof.Spec.CachesAndStoresArrive : Prop :=
  ∀ (s : State) (k : Nat), let h := s.hartAt k
    let unseen (sec : Nat) : Prop := (s.sliceAt (sliceOf (64 * sec))).seen = []
    (∀ line l, Tab.find h.l1 line = some l → l.valid ≠ BitVec.allOnes 64 → Plain s line l.key → s.deferred (64 * line) 64 = false → s.mayUse k false (64 * line) = true →
        s.ownAtomic k line = false → s.reaches (hartDie k) (64 * line) = true → (∀ e ∈ h.stq, e.sector ≠ line) →
        ∃ t g, exec (.l1Fill k line) s = .next t ∧ Tab.find (t.hartAt k).l1 line = some g ∧ g.valid = BitVec.allOnes 64 ∧ g.dirty = l.dirty
          ∧ (∀ b, b < 64 → sectorByte g.data b = if l.valid.getLsbD b = true then sectorByte l.data b else s.byteAt (64 * line + b))
          ∧ (t.hartAt k).r = h.r ∧ SameBytes s t)
    ∧ (∀ line l, Tab.find h.l1 line = some l → l.dirty ≠ 0 → h.l1Bad = [] →
        (s.d2Core k = false → Plain s line l.key → s.reaches (hartDie k) (64 * line) = true → s.deferred (64 * line) 64 = false → s.mayUse k false (64 * line) = true →
          unseen line → s.acqBefore k (s.nextId + 1) = false → (∀ a ∈ s.accs k, a.on line = false) →
          ∃ t, exec (.writeBack k line) s = .next t ∧ TakesBytes s t line l.dirty l.data ∧ Tab.find (t.hartAt k).l1 line = some { l with dirty := 0, own := 0 } ∧ (t.hartAt k).r = h.r)
        ∧ (s.d2Core k = true → calendared (64 * line) = true → ∃ t e, exec (.writeBack k line) s = .next t ∧ (t.hartAt k).stq = h.stq ++ [e] ∧ e.sector = line ∧ e.mask = l.dirty
          ∧ e.data = l.data ∧ e.ready = 0 ∧ Tab.find (t.hartAt k).l1 line = some { l with dirty := 0, own := 0 } ∧ (t.hartAt k).r = h.r ∧ t.mem = s.mem))
    ∧ (∀ e, h.stq = [e] → s.reaches (hartDie k) (64 * e.sector) = true → Plain s e.sector e.key → s.accMay k (.store e) = true → unseen e.sector →
        ∃ t, exec (.plainStoreArrival k e.id) s = .next t ∧ TakesBytes s t e.sector e.mask e.data ∧ (t.hartAt k).stq = [] ∧ (t.hartAt k).r = h.r)
    ∧ (∀ e f, h.stq = [e, f] → e.sector = f.sector → e.id < f.id → exec (.plainStoreArrival k f.id) s = .next s)
    ∧ (∀ l, h.land = [l] → exec (.calendarSlot k l.id) s = .next (s.setHart k { h with land := [{ l with
          slots := l.slots.filter fun pa => !Machine.inSlot s.time k pa,
          ready := (l.slots.filter fun pa => Machine.inSlot s.time k pa).foldl (fun r pa => max r (s.time + d2Latency k pa)) l.ready }] }))
    ∧ (∀ e, h.land = [] → h.stq = [e] → s.d2Core k = true → e.ready = 0 → calendared (64 * e.sector) = true → Machine.inSlot s.time k (64 * e.sector) = true →
        exec (.calendarSlot k e.id) s = .next (s.setHart k { h with stq := [{ e with ready := s.time + d2Latency k (64 * e.sector) }] }))

/-- Landings of loads, the L1, stores in flight and the D2 calendar. -/
def Obligations.LandingsAndArrivals : Prop := Sys2Proof.Spec.LoadsLand ∧ Sys2Proof.Spec.CachesAndStoresArrive

/-- Atomics at the home slice (R113, R312, R313, R315, R394): one read and one write of the word and nothing else; AMO and CAS answer with the old value at their entry; a CAS that
does not match writes nothing. -/
def Sys2Proof.Spec.AtomicsAtHome : Prop :=
  ∀ (s : State) (g : Msg) (pa cpol key : Nat) (asys : Bool) (pc : Word) (acq : Acq),
    s.msgs = [g] → s.accMay g.hart (.atomic g pa) = true → s.away = [] → s.hostRmw = none → s.reaches (hartDie g.hart) pa = true → Plain s (pa / 64) key → acq = none →
    let old (n : Nat) : Nat := numOf ((List.range n).map fun i => s.byteAt (pa + i))
    let answers (t : State) : Prop := ∀ l d, (s.hartAt g.hart).land = [l] → l.id = g.landing → l.req = .atomic d →
      (t.hartAt g.hart).land = [{ l with got := some (scalarWrite d (word (old 8))) }]
    (∀ op x, g.body = .atomic (.amo op x) pa cpol key asys acq pc → pa % 8 = 0 → ∃ t, exec (.atomicAtHomeSlice g.hart g.id) s = .next t ∧ t.msgs = []
        ∧ HoldsNumber s t pa 8 (amoOf op (word (old 8)) x).toNat ∧ (t.hartAt g.hart).r = (s.hartAt g.hart).r ∧ answers t)
    ∧ (∀ x v, g.body = .atomic (.cas x v) pa cpol key asys acq pc → pa % 8 = 0 → ∃ t, exec (.atomicAtHomeSlice g.hart g.id) s = .next t ∧ t.msgs = [] ∧ answers t
        ∧ (word (old 8) = x → HoldsNumber s t pa 8 v.toNat) ∧ (word (old 8) ≠ x → SameBytes s t) ∧ (t.hartAt g.hart).r = (s.hartAt g.hart).r)
    ∧ (∀ x, g.body = .atomic (.amof false x) pa cpol key asys acq pc → pa % 4 = 0 → ∃ t, exec (.atomicAtHomeSlice g.hart g.id) s = .next t ∧ t.msgs = []
        ∧ HoldsNumber s t pa 4 (fpAdd .rn (BitVec.ofNat 32 (old 4)) x).1.toNat ∧ SameRegisters s t)
    ∧ (∀ x, g.body = .atomic (.amof true x) pa cpol key asys acq pc → pa % 4 = 0 → ∃ t, exec (.atomicAtHomeSlice g.hart g.id) s = .next t ∧ t.msgs = [] ∧ SameRegisters s t
        ∧ HoldsNumber s t pa 4 (bf16Add (old 4 % 65536) (x.toNat % 65536) + bf16Add (old 4 / 65536 % 65536) (x.toNat / 65536 % 65536) * 65536))

/-- Sequenced atomics (R123, R125, R126): the operation whose number is expected is applied and the next number expected; one that is early is held and memory
stays; one whose number has passed is dropped. -/
def Sys2Proof.Spec.SequencedAtomics : Prop :=
  ∀ (s : State) (g : Msg) (pa cpol key : Nat) (asys : Bool) (pc q n : Word) (bf skip : Bool) (x : BitVec 32) (sl : Slice),
    s.msgs = [g] → s.accMay g.hart (.atomic g pa) = true → s.away = [] → s.hostRmw = none → s.reaches (hartDie g.hart) pa = true → Plain s (pa / 64) key → pa % 4 = 0 →
    g.body = .atomic (.amofSeq bf skip q x) pa cpol key asys none pc →
    s.sliceAt g.home = sl → sl.refused = [] → sl.held = [] → sl.seqs = [{ lid := g.lid, pa := pa, next := n }] →
    let old : Nat := numOf ((List.range 4).map fun i => s.byteAt (pa + i))
    (q = n → ∃ t, exec (.sequencedApply g.hart g.id) s = .next t ∧ t.msgs = [] ∧ (t.sliceAt g.home).nextSeq g.lid pa = some (n + 1) ∧ (t.sliceAt g.home).held = [] ∧ SameRegisters s t
        ∧ (skip = false → HoldsNumber s t pa 4 (amofVal bf (BitVec.ofNat 32 old) x).toNat) ∧ (skip = true → SameBytes s t))
    ∧ (n.toNat < q.toNat → ∃ t, exec (.sequencedApply g.hart g.id) s = .next t ∧ t.msgs = [] ∧ (t.sliceAt g.home).held = [{ lid := g.lid, pa := pa, q := q, bf := bf, skip := skip, x := x, cpol := cpol, key := key, asys := asys, hart := g.hart }]
        ∧ (t.sliceAt g.home).nextSeq g.lid pa = some n ∧ SameRegisters s t ∧ SameBytes s t)
    ∧ (q.toNat < n.toNat → ∃ t, exec (.sequencedApply g.hart g.id) s = .next t ∧ t.msgs = [] ∧ (t.sliceAt g.home).held = [] ∧ (t.sliceAt g.home).nextSeq g.lid pa = some n)

/-- Atomics and sequenced atomics at the home slice. -/
def Obligations.AtomicsAndSequences : Prop := Sys2Proof.Spec.AtomicsAtHome ∧ Sys2Proof.Spec.SequencedAtomics

/-- The host's accesses, cache replacement, page walks and row elision (R88, R122, R205, R388, R408): host writes and AtomicOps act at the home slices; replacement changes no
value; a walk for a hart's root and ASID caches the leaf it finds in every TLB that serves the hart; a row-elision word is written with its reserved bits zero, and BUSY clears when the rows are clear. -/
def Obligations.HostAndHomeEvents : Prop :=
  ∀ (s : State), let answers (op : HostOp) : Prop := s.hostIn = [] ∧ s.hostHeld op = false ∧ s.hostRmw = none
    -- The AtomicOp has read the word: it writes now, or as the next access to the word comes (R92).
    let stores (t : State) (pa x : Nat) : Prop := (t.hostRmw = none ∧ HoldsNumber s t pa 8 x) ∨ (SameBytes s t ∧ HoldsNumber s t.hostFinish pa 8 x)
    (∀ pa d, s.hostReach pa = true → answers (.write pa d) → exec (.hostAccess (.write pa d)) s = .next (s.applyWrite pa d 1 0 0 none))
    ∧ (∀ pa n, s.hostReach pa = false → s.hostIn = [] → exec (.hostAccess (.read pa n)) s = .next s ∧ ∀ d, exec (.hostAccess (.write pa d)) s = .next s)
    ∧ (∀ op, (hostSpan op).isSome = true → (s.hostIn ≠ [] ∨ s.hostHeld op = true) → exec (.hostAccess op) s = .next { s with hostIn := s.hostIn ++ [op] })
    ∧ (∀ pa v, s.hostReach pa = true → answers (.fetchAdd pa v) → pa % 8 = 0 → Plain s (pa / 64) 0 → ∃ t, exec (.hostAccess (.fetchAdd pa v)) s = .next t
        ∧ stores t pa (word (numOf ((List.range 8).map fun i => s.byteAt (pa + i))) + v).toNat)
    ∧ (∀ pa v, s.hostReach pa = true → answers (.swap pa v) → pa % 8 = 0 → Plain s (pa / 64) 0 → ∃ t, exec (.hostAccess (.swap pa v)) s = .next t ∧ stores t pa v.toNat)
    ∧ (∀ a b, exec (.hostAccess (.hostMem a [b])) s = .next { s with hostMem := Tab.set 0 s.hostMem a b })
    ∧ (∀ pa drop e, Tab.find s.msc (pa / 64) = some e → Plain s (pa / 64) 0 → s.runs pa = false →
        ∃ t, exec (.memorySideCacheWriteBack pa drop) s = .next t ∧ SameBytes s t
          ∧ Tab.find t.msc (pa / 64) = (if drop = true then none else some { e with dirty := false }) ∧ SameRegisters s t)
    ∧ (∀ k va w size h, (k, h) ∈ s.harts →
        s.walk (hartDie k) h.ptroot (va.toNat % 2 ^ 57) = .leaf w size → s.walkDefers (va.toNat % 2 ^ 57) 4 false (wf h.ptroot 12 40 * 4096) = false →
        ∃ t, exec (.walk (hartDie k) (wf h.asid 0 16) h.ptroot va) s = .next t ∧ SameRegisters s t
          ∧ ∀ a ∈ tlbsOf k, { die := hartDie k, at_ := a, asid := wf h.asid 0 16, va := va.toNat % 2 ^ 57 / size * size, size := size, leaf := w } ∈ t.tlb)
    ∧ (∀ die off v, die < s.ndie → off < 0x1000 → off % 16 = 0 → let base := ctlBase die + offElision + off
        s.ctlNum base 8 = 0 → ∃ t, exec (.rowElisionWrite die off v) s = .next t
          ∧ t.ctlNum base 8 = v.toNat / 2 ^ 16 % 2 ^ 5 * 2 ^ 16 + v.toNat / 2 ^ 8 % 2 ^ 2 * 2 ^ 8 + v.toNat % 2
          ∧ (∀ a, (a < base ∨ base + 16 ≤ a) → t.dram a = s.dram a) ∧ SameRegisters s t)
    ∧ (∀ sl k f lo hi, s.clearing = [(sl, k, f, lo, hi)] → ∃ t, exec (.rowClearDone sl k) s = .next t ∧ t.clearing = []
        ∧ fld (t.ctlNum (elisionPa sl k) 8) 1 1 = 0 ∧ fld (t.ctlNum (elisionPa sl k) 8) 0 1 = fld (s.ctlNum (elisionPa sl k) 8) 0 1
        ∧ (∀ a, (a < elisionPa sl k ∨ elisionPa sl k + 8 ≤ a) → t.dram a = s.dram a))

/-! ### Synchronisation -/

/-- barrier_update and complete of R177, field by field: counts saturate, contributors and flags join, and a completing update records the phase, clears the counts,
inverts the phase and disarms the deadline. -/
def Obligations.BarrierUpdate : Prop :=
  ∀ (b : Barrier) (bytes arr : Nat) (c : Option Nat) (f : BitVec 4),
    let nb := min (b.arrb + bytes) (2 ^ 48 - 1)
    let na := min (b.arra + arr) (2 ^ 16 - 1)
    let fl := b.flags ||| f
    let cm := match c with | some x => b.cmask ||| word (2 ^ (x % 64)) | none => b.cmask
    let u := b.update bytes arr c f
    u.expb = b.expb ∧ u.expa = b.expa ∧ u.refcnt = b.refcnt ∧ u.infl = b.infl
    ∧ (nb < b.expb ∨ na < b.expa → u.arrb = nb ∧ u.arra = na ∧ u.flags = fl ∧ u.cmask = cm ∧ u.phase = b.phase ∧ u.deadline = b.deadline
        ∧ u.lbytes = b.lbytes ∧ u.lmask = b.lmask ∧ u.lflags = b.lflags)
    ∧ (b.expb ≤ nb → b.expa ≤ na → u.arrb = 0 ∧ u.arra = 0 ∧ u.flags = 0 ∧ u.cmask = 0 ∧ u.phase = !b.phase ∧ u.deadline = BitVec.allOnes 64
        ∧ u.lbytes = nb ∧ u.lmask = cm ∧ u.lflags = if b.expb < nb ∨ b.expa < na then fl ||| 4 else fl)
    ∧ (∀ e : Barrier, e.arrb < e.expb → e.arra ≤ e.expa → (e.complete true).lflags = e.flags ||| 8 ∧ (e.complete true).phase = !e.phase ∧ (e.complete true).lbytes = e.arrb)

/-- Allocation and inspection of barriers (R176, R178, R334, R335, R339): the lowest free index of 1,024, within the declared number, with PD telling; references counted, the
last one freeing; BAR.INFO; an unallocated index raises BARRIER 1. Nothing else of the hart changes. -/
def Sys2Proof.Spec.BarrierAllocation : Prop :=
  ∀ (s : State) (pd d w : Nat) (ix : BarIx),
    let i := match ix with | .imm n => n | .reg r => (s.rdS r).toNat % 1024
    (∀ n, s.clear (.barAlloc pd d) → n < 1024 → s.h.bar n = none → (∀ j, j < n → s.h.bar j ≠ none) → s.h.bars.length < s.h.bmax →
        exec (.barAlloc pd d) s = .next (((s.onH fun h => h.setBar n Barrier.fresh).putS 2 d (word n)).putP 2 pd true))
    ∧ (s.clear (.barAlloc pd d) → s.h.bmax ≤ s.h.bars.length → exec (.barAlloc pd d) s = .next (s.putP 2 pd false))
    ∧ (s.clear (.barAllocAt pd d ix) → s.h.bar i = none → s.h.bars.length < s.h.bmax →
        exec (.barAllocAt pd d ix) s = .next (((s.onH fun h => h.setBar i Barrier.fresh).putS 2 d (word i)).putP 2 pd true))
    ∧ (s.clear (.barAllocAt pd d ix) → s.h.bar i ≠ none → exec (.barAllocAt pd d ix) s = .next (s.putP 2 pd false))
    ∧ (∀ b, s.h.bar i = some b →
        (s.clear (.barFree ix) → ∃ t, exec (.barFree ix) s = .next t ∧ (b.refcnt ≤ 1 → t.h.bar i = none) ∧ (1 < b.refcnt → t.h.bar i = some { b with refcnt := b.refcnt - 1 })
            ∧ (∀ j, j ≠ i → t.h.bar j = s.h.bar j) ∧ t.h.r = s.h.r ∧ t.mem = s.mem)
        ∧ (s.clear (.barRef ix) → b.refcnt < 65535 → exec (.barRef ix) s = .next (s.onH fun h => { h with bars := Tab.put h.bars i { b with refcnt := b.refcnt + 1 } }))
        ∧ (s.clear (.barInfo d ix w) → w ≠ 7 →
            (b.deadline = BitVec.allOnes 64 ∨ s.time < b.deadline.toNat → exec (.barInfo d ix w) s = .next (s.putS 2 d (b.info w)))
            ∧ (b.deadline ≠ BitVec.allOnes 64 → b.deadline.toNat ≤ s.time → exec (.barInfo d ix w) s = .next (s.putS 2 d ((b.complete true).info w))))
        ∧ (s.clear (.barInfo d ix 7) → exec (.barInfo d ix 7) s = .next (s.putS 2 d (word ((s.h.bmax - s.h.bars.length) * 2 ^ 16 + s.h.bars.length)))))
    ∧ (s.h.bar i = none → s.h.commit = false → (s.clear (.barFree ix) → FaultsTo (.barFree ix) s 17 1 0) ∧ (s.clear (.barRef ix) → FaultsTo (.barRef ix) s 17 1 0)
        ∧ (s.clear (.barInfo d ix w) → FaultsTo (.barInfo d ix w) s 17 1 0))

/-- Barriers in use (R177, R336–R338): expectations set or added to, an arrival counted after a release, a wait that ends when the phase asked for has completed, a test that
tells; the deadline completes a phase as partial. -/
def Sys2Proof.Spec.BarriersInUse : Prop :=
  ∀ (s : State) (pd a : Nat) (ix : BarIx) (b : Barrier),
    let i := match ix with | .imm n => n | .reg r => (s.rdS r).toNat % 1024
    let e := s.rdS a
    let n := s.rdS (a + 1)
    let t := s.rdS (a + 2)
    let set (s : State) (b : Barrier) : State := s.onH fun h => { h with bars := Tab.put h.bars i b }
    s.h.bar i = some b → 0 < b.refcnt →
    (s.clear (.barInit pd a ix) → b.infl = 0 → exec (.barInit pd a ix) s = .next ((set s { b with expb := min e.toNat (2 ^ 48 - 1), expa := min n.toNat (2 ^ 16 - 1), deadline := t, arrb := 0, arra := 0, cmask := 0, flags := 0 }).putP 2 pd (decide (e.toNat < 2 ^ 48 ∧ n.toNat < 2 ^ 16))))
    ∧ (s.clear (.barInit pd a ix) → b.infl ≠ 0 → exec (.barInit pd a ix) s = .next ((set s b).putP 2 pd false))
    ∧ (s.clear (.barExpect pd a ix) → exec (.barExpect pd a ix) s = .next ((set s (Barrier.update { b with expb := min (b.expb + e.toNat) (2 ^ 48 - 1), expa := min (b.expa + n.toNat) (2 ^ 16 - 1), deadline := if t = BitVec.allOnes 64 then b.deadline else t } 0 0 none 0)).putP 2 pd (decide (b.expb + e.toNat < 2 ^ 48 ∧ b.expa + n.toNat < 2 ^ 16))))
    ∧ (s.clear (.barArrive a ix) → Quiet s.h → NoAtomics s s.cur → exec (.barArrive a ix) s = .next (set s (b.update e.toNat 1 none 0)))
    ∧ (s.clear (.barArrive a ix) → s.relHeld s.cur true = false → ∃ t, exec (.barArrive a ix) s = .next t ∧ t.h.stq = [] ∧ t.h.bar i = some (b.update e.toNat 1 none 0)
        ∧ t.h.r = s.h.r ∧ t.h.sp = s.h.sp)
    ∧ (s.clear (.barArrive a ix) → s.relHeld s.cur true = true → Held (.barArrive a ix) s 0)
    ∧ (s.clear (.barWait a ix) → b.phase ≠ e.getLsbD 0 → s.h.l1 = [] → s.h.l1Bad = [] → s.h.l1Corr = [] → exec (.barWait a ix) s = .next (s.onH fun h => h))
    ∧ (s.clear (.barWait a ix) → b.phase = e.getLsbD 0 → exec (.barWait a ix) s = .next (s.onH fun h => { h with sig := some (.waiting 1) }))
    ∧ (s.clear (.barTest pd a ix) → b.phase ≠ e.getLsbD 0 → s.h.l1 = [] → s.h.l1Bad = [] → s.h.l1Corr = [] → exec (.barTest pd a ix) s = .next ((s.onH fun h => h).putP 2 pd true))
    ∧ (s.clear (.barTest pd a ix) → b.phase = e.getLsbD 0 → exec (.barTest pd a ix) s = .next (s.putP 2 pd false))
    ∧ (∀ k q c, (s.hartAt k).bars = [(q, c)] → c.deadline ≠ BitVec.allOnes 64 → 0 < c.refcnt →
        (c.deadline.toNat ≤ s.time → exec (.barrierDeadline k q) s = .next (s.setHart k { s.hartAt k with bars := [(q, c.complete true)] }))
        ∧ (s.time < c.deadline.toNat → exec (.barrierDeadline k q) s = .next s))

/-- Allocation, inspection and use of barriers. -/
def Obligations.Barriers : Prop := Sys2Proof.Spec.BarrierAllocation ∧ Sys2Proof.Spec.BarriersInUse

/-- Fences, the group barrier, the monitor and LWAIT (R112, R115, R117, R119, R340–R343): a fence leaves every store of the core performed and its L1 clean; GBAR waits for every
member of the group; MON.WAIT ends at a write or its deadline; LWAIT at the last landing. -/
def Obligations.FencesAndWaits : Prop :=
  ∀ (s : State) (pd a g : Nat) (sc : Scope),
    (s.clear (.fence sc) → s.relHeld s.cur (wideScope sc) = false → ∃ t, exec (.fence sc) s = .next t ∧ (sc ≠ .core → t.h.stq = []) ∧ t.h.r = s.h.r ∧ (NoDstat s.h → t.h.pend = s.h.pend) ∧ t.h.sp = s.h.sp
        ∧ (sc ≠ .core → Tab.above none s.h.l1 = true → t.h.l1 = [])
        ∧ (∀ line l, sc ≠ .core → s.h.land = [] → s.h.stq = [] → s.h.mnts = [] → s.h.l1 = [(line, l)] → s.h.l1Bad = [] → NoAtomics s s.cur → s.reaches s.die (64 * line) = true → Plain s line l.key →
            (s.sliceAt (sliceOf (64 * line))).seen = [] → TakesBytes s t line l.dirty l.data))
    ∧ (s.clear (.fence sc) → Quiet s.h → NoAtomics s s.cur → s.h.l1Bad = [] → s.h.l1Corr = [] → ∃ t, exec (.fence sc) s = .next t ∧ t.h = s.h ∧ (∀ j, j ≠ s.cur → t.hartAt j = s.hartAt j) ∧ t.mem = s.mem)
    ∧ (s.clear (.fence sc) → s.relHeld s.cur (wideScope sc) = true → Held (.fence sc) s 0)
    -- XFENCE waits for stores and for what touches a dirty line, and for no other load.
    ∧ (let mine (a : Acc) : Bool := match a with | .store _ => true | .atomic _ pa => s.h.dirtyAt (pa / 64) | .maint m => s.h.dirtyAt m.sector | .load _ => false
       (s.clear .xfence → s.accsHeld s.cur mine = false → s.linesHeld s.cur = false → ∃ t, exec .xfence s = .next t ∧ t.h.stq = [] ∧ t.h.cst = [] ∧ t.h.r = s.h.r
          ∧ (NoDstat s.h → t.h.pend = s.h.pend) ∧ (Tab.above none s.h.l1 = true → ∀ e ∈ t.h.l1, e.2.dirty = 0) ∧ (s.h.land = [] → t.h.land = []))
       ∧ (s.clear .xfence → s.accsHeld s.cur mine = true ∨ s.linesHeld s.cur = true → Held .xfence s 0))
    ∧ (s.clear .nmfence → (s.accsHeld s.cur Acc.isMaint = true → Held .nmfence s 0)
        ∧ (s.accsHeld s.cur Acc.isMaint = false → ∃ t, exec .nmfence s = .next t ∧ t.h.mnts = [] ∧ t.h.r = s.h.r ∧ t.h.sp = s.h.sp)
        ∧ (s.h.mnts = [] → exec .nmfence s = .next s))
    ∧ (s.clear .lwait → (s.h.land = [] → exec .lwait s = .next s) ∧ (s.h.land ≠ [] → Held .lwait s 6))
    ∧ (∀ p, s.clear (.monArm a) → s.xlate (s.rdS a) = .ok p → p.cls = 0 → p.r = true →
        (∃ t, exec (.monArm a) s = .next t ∧ t.h.monitor = some { sector := p.pa / 64, hit := false } ∧ Tab.find t.h.l1 (p.pa / 64) = none ∧ t.h.r = s.h.r ∧ t.h.pend = s.h.pend)
        ∧ (s.h.l1 = [] → s.h.l1Bad = [] → s.h.l1Corr = [] → exec (.monArm a) s = .next ((s.walkOn s.cur (s.rdS a)).onH fun h => { h with monitor := some { sector := p.pa / 64, hit := false } })))
    ∧ (∀ p, s.clear (.monArm a) → s.h.commit = false → s.xlate (s.rdS a) = .ok p → (p.cls ≠ 0 → FaultsTo (.monArm a) s 5 2 (s.rdS a)) ∧ (p.cls = 0 → p.r = false → FaultsTo (.monArm a) s 5 1 (s.rdS a)))
    ∧ (s.clear (.monWait pd a) → (s.h.monitor = none → exec (.monWait pd a) s = .next (s.putP 1 pd false))
        ∧ (∀ m, s.h.monitor = some m → m.hit = true → s.h.wExp = false → exec (.monWait pd a) s = .next ((s.putP 1 pd true).onH fun h => { h with monitor := none }))
        ∧ (∀ m, s.h.monitor = some m → m.hit = false → s.h.waiting = none → s.h.wExp = false → s.h.firstOnly = false → (s.rdS a).toNat < s.time →
            exec (.monWait pd a) s = .next ((s.putP 1 pd false).onH fun h => { h with monitor := none }))
        ∧ (∀ m, s.h.monitor = some m → m.hit = false → s.h.wExp = false → s.time ≤ (s.rdS a).toNat →
            exec (.monWait pd a) s = .next (s.onH fun h => { h with wDl := s.rdS a, sig := some (.waiting 3) })))
    ∧ (∀ lid l, s.clear (.gbar pd a g) → s.gbarGroup g = some (lid, l) → s.h.waiting = none → s.h.gbarPend = false → s.relHeld s.cur true = false →
        s.h.lid = some lid → s.launches = [(lid, l)] → s.h.wExp = false → s.h.firstOnly = false →
        let l' := l.arriveAt g s.h.member
        ((∀ m, m < l.nlcore → l.inGroup g m = true → l.gen g s.h.member < l'.gen g m) → ∃ t : State, exec (.gbar pd a g) s = .next (t.putP 1 pd true) ∧ t.h.gbarPend = false ∧ t.h.stq = []
            ∧ t.launches = [(lid, l')] ∧ t.h.r = s.h.r ∧ (NoDstat s.h → t.h.pend = s.h.pend) ∧ (Quiet s.h → NoAtomics s s.cur → t.mem = s.mem))
        ∧ ((∃ m, m < l.nlcore ∧ l.inGroup g m = true ∧ l'.gen g m ≤ l.gen g s.h.member) → s.time < (s.rdS a).toNat →
            ∃ t, exec (.gbar pd a g) s = .next t ∧ t.h.sig = some (.waiting 2) ∧ t.h.gbarPend = true ∧ t.h.wDl = s.rdS a ∧ t.launches = [(lid, l')] ∧ t.h.r = s.h.r ∧ (NoDstat s.h → t.h.pend = s.h.pend))
        ∧ ((∃ m, m < l.nlcore ∧ l.inGroup g m = true ∧ l'.gen g m ≤ l.gen g s.h.member) → (s.rdS a).toNat ≤ s.time →
            ∃ t : State, exec (.gbar pd a g) s = .next (t.putP 1 pd false) ∧ t.h.gbarPend = false ∧ t.launches = [(lid, l')] ∧ t.h.r = s.h.r ∧ (NoDstat s.h → t.h.pend = s.h.pend)))
    ∧ (s.clear (.gbar pd a g) → s.gbarGroup g ≠ none → s.h.waiting = none → s.h.gbarPend = false → s.relHeld s.cur true = true → Held (.gbar pd a g) s 0)
    ∧ (s.clear (.gbar pd a g) → s.gbarGroup g = none → s.h.commit = false → FaultsTo (.gbar pd a g) s 17 2 0)
    ∧ (∀ k x, (s.hartAt k).waiting = some x → (s.hartAt k).wExp = false → (s.hartAt k).wDl.toNat ≤ s.time →
        (x.kinds.contains 2 = true → exec (.gbarDeadline k) s = .next (s.setHart k { s.hartAt k with wExp := true }))
        ∧ (x.kinds.contains 3 = true → (∀ m, (s.hartAt k).monitor = some m → m.hit = false) → exec (.monWaitDeadline k) s = .next (s.setHart k { s.hartAt k with wExp := true })))
end

section
open Sys2Proof Sys2Proof.Machine Sys2Proof.Spec Sys2Proof.Safety

/-! ### Leaving, saving and restoring a task -/

/-- END and BANKMODE (R41, R82, R267): END waits under kind 7 for the task's copies, replies and landings, then the core has no task, no barriers and no
monitor; BANKMODE gives a declared bank its new mode, empty. -/
def Obligations.EndAndBankmode : Prop :=
  ∀ (s : State),
    (s.clear .endTask → s.copiesOf s.h.lid s.h.member = false → (∀ o ∈ s.h.outst, o.post = true) → s.h.land = [] → s.relHeld s.cur true = false →
        (s.release s.cur true).h.owed = none → ∃ t, exec .endTask s = .next t ∧ t.h.mode = .idle ∧ t.h.lid = none ∧ t.h.bars = [] ∧ t.h.monitor = none ∧ t.h.loops = [] ∧ t.h.r = Regs.reset ∧ t.h.z = []
          ∧ (Quiet s.h → NoAtomics s s.cur → t.h.hs = s.h.hs ∧ t.h.hbase = s.h.hbase ∧ t.h.rcto = s.h.rcto ∧ t.h.cctl = s.h.cctl &&& ~~~8 ∧ t.bindState s.cur = 4
              ∧ ∀ lid l, s.h.lid = some lid → s.launch? lid = some l →
                  ∃ g, t.launch? lid = some g ∧ g.place s.h.member = .retired ∧ g.retired = l.retired + 1))
    ∧ (s.clear .endTask → s.copiesOf s.h.lid s.h.member = true ∨ (∃ o ∈ s.h.outst, o.post = false) ∨ s.h.land ≠ [] → Held .endTask s 7)
    ∧ (∀ b m, s.clear (.bankmode b m) → b < s.h.scr → s.h.bankBusy b = true ∨ s.setfeInto s.cur (some b) = true → Held (.bankmode b m) s 0)
    ∧ (∀ b m, s.clear (.bankmode b m) → b < s.h.scr → s.h.bankBusy b = false → s.setfeInto s.cur (some b) = false → s.h.l1 = [] →
        ∃ t, exec (.bankmode b m) s = .next t ∧ t.h.bank b = { mode := m, head := 0, tail := 0, full := [] } ∧ (∀ j, j ≠ b → t.h.bank j = s.h.bank j)
          ∧ t.h.r = s.h.r ∧ t.mem = s.mem ∧ (∀ o, o / 0x20000 ≠ b → t.h.spByte o = s.h.spByte o)
          ∧ (m ≠ .cache → ∀ o, o / 0x20000 = b → t.h.spByte o = 0))
    ∧ (∀ b m, s.clear (.bankmode b m) → s.h.commit = false → s.h.scr ≤ b → FaultsTo (.bankmode b m) s 7 0 0)

/-- CTX.SV and CTX.LD (R380, R381, R383, R428): a save writes EPC, ESTAT and the rest of the image and leaves the core without a task in the handler; a task
whose launch is ending stays; a load brings the member named by the image back with its EPC, ESTAT, bases and s registers; damage stops the core. -/
def Obligations.ContextSaveAndLoad : Prop :=
  ∀ (s : State) (a : Nat), let x := s.rdS a; let area := x.toNat / 4096 % 2 ^ 40 * 4096
    s.h.mode = .handler → x &&& 0xFFF0000000000FFE = 0 → s.areaBad area = none → (∀ sec, area / 64 ≤ sec → sec < area / 64 + 0xC000 → Plain s sec 0) →
    (s.clear (.ctxSv a) → s.taskEnding = false → Quiet s.h → NoAtomics s s.cur → s.h.wLand = none → s.saveReady area (x.getLsbD 0) = true → s.h.spBad = [] → s.h.owed = none →
        ∃ t, exec (.ctxSv a) s = .next t ∧ t.h.mode = .handler ∧ t.h.lid = none ∧ t.h.bars = [] ∧ t.h.monitor = none ∧ t.h.hs = s.h.hs ∧ t.h.pc = s.h.pc
          ∧ t.bindState s.cur = 3 ∧ t.dwordAt (area + 8) = s.h.epc ∧ t.dwordAt (area + 16) = s.h.estat
          ∧ ∀ lid l, s.h.lid = some lid → s.launch? lid = some l → ∃ g, t.launch? lid = some g ∧ g.place s.h.member = .saved area s.cur)
    ∧ (s.clear (.ctxSv a) → s.taskEnding = true → exec (.ctxSv a) s = .next s)
    ∧ (s.clear (.ctxSv a) → s.taskEnding = false → s.needsCancel = true → exec (.ctxSv a) s = .next ((s.sendCancel s.cur).onH fun h => { h with sig := some (.waiting 0) }))
    ∧ (s.clear (.ctxSv a) → s.taskEnding = false → s.needsCancel = false → s.saveReady area (x.getLsbD 0) = false → Held (.ctxSv a) s 0)
    ∧ (∀ lid m l, s.clear (.ctxLd a) → s.anyRuns = false → s.areaDamaged (s.loadSpans area) = none → s.imageOwner area = some (lid, m) → s.launch? lid = some l →
        l.phase = .running → l.scratch ≤ 16 → ¬ (s.h.lid = some lid ∧ s.h.member = m) → (∀ n, n < 64 → s.dwordAt (area + 0x54800 + 320 * n) = 0) →
        ∃ t, exec (.ctxLd a) s = .next t ∧ t.h.lid = some lid ∧ t.h.member = m ∧ t.h.mode = .handler ∧ t.h.epc = s.dwordAt (area + 8) ∧ t.h.estat = s.dwordAt (area + 16) &&& 0x1F00FB
          ∧ t.h.vrb = (s.dwordAt (area + 24)).toNat % 256 ∧ (∀ n, 0 < n → n < 32 → Tab.get 0 t.h.r.s n = s.dwordAt (area + 0x100 + 8 * n))
          ∧ t.h.hs = s.h.hs ∧ t.bindState s.cur = 1 ∧ ∃ g, t.launch? lid = some g ∧ g.place m = .resident s.cur)
    ∧ (s.clear (.ctxLd a) → s.areaDeferred (s.loadSpans area) = true ∨ s.requeueWaits area = true → Held (.ctxLd a) s 0)
    ∧ (∀ k, s.clear (.ctxLd a) → s.h.commit = false → s.anyRuns = false → s.areaDamaged (s.loadSpans area) = some k → ∃ t, exec (.ctxLd a) s = .next t ∧ t.h.mode = .stopped ∧ t.h.r = s.h.r)

/-- Cache maintenance (R325, R349): the instruction goes on without a hold, and sends an operation to each sector of its range that the caches hold; at the home slice CLN writes a
dirty sector and leaves it clean, INV drops it with what it held, CLNINV does both, and nothing else changes. -/
def Obligations.CacheMaintenance : Prop :=
  ∀ (s : State) (a len : Nat) (p : Page), let va := s.rdS a; let n := (s.rdS len).toNat
    let inside (sec : Nat) : Prop := p.pa / 64 ≤ sec ∧ sec ≤ (p.pa + n - 1) / 64
    (0 < n → va.toNat % 4096 + n ≤ 4096 → s.xlate va = .ok p → p.cls = 0 ∨ p.cls = 2 → p.cpol ≠ 2 → NoAtomics s s.cur → Quiet s.h → s.h.mnts = [] →
      let sent (i : Instr) (o : MaintOp) : Prop := ∃ t, exec i s = .next t ∧ t.mem = (s.walkOn s.cur va).mem ∧ t.h.r = s.h.r ∧ t.h.sp = s.h.sp
          ∧ (∀ m ∈ t.h.mnts, m.op = o) ∧ ∀ sec, (∃ m ∈ t.h.mnts, m.sector = sec) ↔ inside sec ∧ (Tab.find s.msc sec).isSome = true
      (s.clear (.cln a len) → p.r = true → sent (.cln a len) .cln) ∧ (s.clear (.inv a len) → p.w = true → sent (.inv a len) .inv)
        ∧ (s.clear (.clninv a len) → p.w = true → sent (.clninv a len) .clninv))
    ∧ (0 < n → va.toNat % 4096 + n ≤ 4096 → s.xlate va = .ok p → s.h.commit = false → (s.clear (.cln a len) → p.cls = 1 ∨ p.cls = 3 → FaultsTo (.cln a len) s 5 2 va)
        ∧ (s.clear (.inv a len) → p.cls = 0 → p.w = false → FaultsTo (.inv a len) s 5 1 va))
    ∧ (∀ k m e, (s.hartAt k).mnts = [m] → (s.hartAt k).stq = [] → s.accMay k (.maint m) = true → Plain s m.sector e → ∃ t, exec (.plainStoreArrival k m.id) s = .next t
        ∧ (t.hartAt k).mnts = [] ∧ SameRegisters s t ∧ (∀ sec, sec ≠ m.sector → Tab.find t.msc sec = Tab.find s.msc sec)
        ∧ (m.op ≠ .inv → SameBytes s t) ∧ (m.op ≠ .cln → Tab.find t.msc m.sector = none) ∧ (m.op = .inv → t.mem = s.mem)
        ∧ (m.op = .cln → ∀ c, Tab.find s.msc m.sector = some c → Tab.find t.msc m.sector = some { c with dirty := false }))

/-! ### Layout records and the copy engine -/

/-- The layout table (R97–R100, R323, R324): a valid record at a granted index is installed; it reads back with zeros in lanes 24 to 63 eight cycles later; the
lowest code of a bad record is the fault's detail. -/
def Sys2Proof.Spec.LayoutTable : Prop :=
  ∀ (s : State) (v ix : Nat), let n := (s.rdS ix).toNat
    (∀ lid l, s.clear (.lrecPut v ix) → recCode (recOf (s.rdV v)) = 0 → n < 65536 → s.h.granted n = true → s.h.lid = some lid → s.launch? lid = some l →
        exec (.lrecPut v ix) s = .next (s.setLaunch lid { l with lrecs := Tab.put l.lrecs n (recOf (s.rdV v)) }))
    ∧ (s.clear (.lrecPut v ix) → s.h.commit = false → recCode (recOf (s.rdV v)) ≠ 0 → FaultsTo (.lrecPut v ix) s 9 (recCode (recOf (s.rdV v))) (s.rdS ix))
    ∧ (s.clear (.lrecPut v ix) → s.h.commit = false → recCode (recOf (s.rdV v)) = 0 → 65536 ≤ n ∨ s.h.granted n = false → FaultsTo (.lrecPut v ix) s 9 12 (s.rdS ix))
    ∧ (∀ lid l r, s.clear (.lrecGet v ix) → n < 65536 → s.h.granted n = true → s.h.lid = some lid → s.launch? lid = some l → Tab.find l.lrecs n = some r →
        exec (.lrecGet v ix) s = .next (s.putV 8 v (r.setWidth 2048)))
    ∧ (∀ lid l, s.clear (.lrecGet v ix) → s.h.commit = false → n < 65536 → s.h.granted n = true → s.h.lid = some lid → s.launch? lid = some l → Tab.find l.lrecs n = none →
        FaultsTo (.lrecGet v ix) s 9 13 (s.rdS ix))

/-- Copy commands at issue (R104, R168–R173, R319–R322, R332, R333): with room in the queue, records, a barrier and a probe that passes, the command joins the queue with its
records and operands captured; a counting one takes a reference and an INFL count on its barrier. A full queue holds the bundle under kind 7. -/
def Sys2Proof.Spec.CopyCommandsIssue : Prop :=
  ∀ (s : State) (nb sr : Bool) (k : Codec) (org cmd aux : Nat) (src dst : Rec) (b : Barrier), let w := s.rdS cmd; let x := s.rdS aux
    s.h.copyBusy < 64 →
    (w.toNat / 2 ^ 42 = 0 → (nb = true → w.toNat / 2 ^ 32 = 0) → s.record (w.toNat % 65536) = .ok src → s.record (w.toNat / 65536 % 65536) = .ok dst →
      (nb = true ∨ s.h.bar (w.toNat / 2 ^ 32 % 1024) = some b) →
      (s.clear (.cp nb org cmd aux) → QueuesCopy (.cp nb org cmd aux) s (.cp) nb w x (s.rdV org) src dst (w.toNat / 2 ^ 32 % 1024) b)
      ∧ (s.clear (.cpX nb sr org cmd aux) → QueuesCopy (.cpX nb sr org cmd aux) s (.x sr) nb w x (s.rdV org) src dst (w.toNat / 2 ^ 32 % 1024) b)
      ∧ (s.clear (.cpPk nb k org cmd aux) → QueuesCopy (.cpPk nb k org cmd aux) s (.pk k) nb w x (s.rdV org) src dst (w.toNat / 2 ^ 32 % 1024) b)
      ∧ (s.clear (.cpUn nb org cmd aux) → QueuesCopy (.cpUn nb org cmd aux) s .un nb w x (s.rdV org) src dst (w.toNat / 2 ^ 32 % 1024) b)
      ∧ (s.clear (.cpMc org cmd aux) → nb = false → x.toNat < 256 → s.groupOk x.toNat = true → QueuesCopy (.cpMc org cmd aux) s .mc false w x (s.rdV org) src dst (w.toNat / 2 ^ 32 % 1024) b))
    ∧ (s.clear (.cpStamp cmd aux) → QueuesCopy (.cpStamp cmd aux) s .stamp true w x 0 0 0 0 b)
    ∧ (x.toNat / 2 ^ 26 = 0 → x.toNat / 2 ^ 12 % 16 = 0 → (nb = true → x.toNat / 2 ^ 16 % 1024 = 0) → s.record (w.toNat % 65536) = .ok src →
      (nb = true ∨ s.h.bar (x.toNat / 2 ^ 16 % 1024) = some b) → s.clear (.netPut nb k org cmd aux) →
      QueuesCopy (.netPut nb k org cmd aux) s (.netPut k) nb w x (s.rdV org) src 0 (x.toNat / 2 ^ 16 % 1024) b)
    ∧ (x.toNat / 2 ^ 12 = 0 → (nb = true → w.toNat / 2 ^ 32 % 1024 = 0) → s.record (w.toNat / 65536 % 65536) = .ok dst →
      (nb = true ∨ s.h.bar (w.toNat / 2 ^ 32 % 1024) = some b) → s.clear (.netGet nb org cmd aux) →
      QueuesCopy (.netGet nb org cmd aux) s .netGet nb w x (s.rdV org) 0 dst (w.toNat / 2 ^ 32 % 1024) b)

/-- A full copy queue (R168): sixty-four commands hold the next copy bundle under kind 7. -/
def Sys2Proof.Spec.FullCopyQueueHolds : Prop :=
  ∀ (s : State) (nb sr : Bool) (k : Codec) (org cmd aux : Nat), 64 ≤ s.h.copyBusy →
    (s.clear (.cp nb org cmd aux) → Held (.cp nb org cmd aux) s 7) ∧ (s.clear (.cpMc org cmd aux) → Held (.cpMc org cmd aux) s 7)
    ∧ (s.clear (.cpX nb sr org cmd aux) → Held (.cpX nb sr org cmd aux) s 7) ∧ (s.clear (.cpPk nb k org cmd aux) → Held (.cpPk nb k org cmd aux) s 7)
    ∧ (s.clear (.cpUn nb org cmd aux) → Held (.cpUn nb org cmd aux) s 7) ∧ (s.clear (.cpStamp cmd aux) → Held (.cpStamp cmd aux) s 7)
    ∧ (s.clear (.netPut nb k org cmd aux) → Held (.netPut nb k org cmd aux) s 7) ∧ (s.clear (.netGet nb org cmd aux) → Held (.netGet nb org cmd aux) s 7)

/-- LREC.PUT and LREC.GET, and copy commands at issue. -/
def Obligations.LayoutAndCopyIssue : Prop := Sys2Proof.Spec.LayoutTable ∧ Sys2Proof.Spec.CopyCommandsIssue ∧ Sys2Proof.Spec.FullCopyQueueHolds

/-- The copy engine at work (R118, R168, R172–R174, R346): the next command starts, after the acquires issued before it; a byte element moves to its place, as it stood in the source; a delivery to a member takes a reference and
counts in the member's own barrier; the command's completion adds one arrival and gives its reference back; a stamp writes its value when its turn comes. -/
def Obligations.CopiesMove : Prop :=
  ∀ (s : State) (k : Nat) (c : Cmd) (p : Part), let h := s.hartAt k
    h.copyq = [c] → c.wrote = [] → c.seen = [] →
    (c.started = false → c.op = .cp → (s.acqBefore k c.id = false → exec (.commandStart k) s = .next (s.setHart k { h with copyq := [{ c with started := true }] }))
        ∧ (s.acqBefore k c.id = true → exec (.commandStart k) s = .next s))
    ∧ (∀ (kd : Nat) (u o q : Nat), c.started = true → s.cutLink c = none → h.cst = [] → (s.hartAt c.core).cst = [] → c.parts = [p] → p.buf = [] → p.arrived = false → p.next = 0 → p.moved = [] → u = 0 → 2 ≤ c.total →
        recFmt c.src = 0x10 → recFmt c.dst = 0x10 → recSpace c.src = 1 → recSpace c.dst = 1 → recIlv c.src = 0 → recIlv c.dst = 0 →
        insideT c.src (coordsAt c.src c.so u) = true → insideT c.dst (coordsAt c.dst c.do_ u) = true →
        (recBase c.src : Int) + elemBit c.src (coordsAt c.src c.so u) / 8 = (o : Int) → (recBase c.dst : Int) + elemBit c.dst (coordsAt c.dst c.do_ u) / 8 = (q : Int) →
        s.storage c.lid c.member c.core = .live k → InScratch h o 1 → InScratch (s.hartAt kd) q 1 → h.spBad = [] → h.spCorr = [] →
        (c.op = .cp → c.nb = true → p.dest = none → kd = k → ∃ t, exec (.copyWrite k c.id u) s = .next t ∧ (t.hartAt k).spByte q = h.spByte o
            ∧ (∀ j, j ≠ q → (t.hartAt k).spByte j = h.spByte j) ∧ (t.hartAt k).fullAt (q / 16) = true ∧ (t.hartAt k).r = h.r ∧ (t.hartAt k).bars = h.bars ∧ t.mem = s.mem)
        ∧ (∀ m b, c.op = .mc → c.nb = false → p.dest = some m → p.begun = false → s.storage c.lid m c.core = .live kd → (s.hartAt kd).bar (wf c.cmd 32 10) = some b →
            ∃ t, exec (.multicastDelivery k c.id m u) s = .next t ∧ (t.hartAt kd).spByte q = h.spByte o ∧ (∀ j, j ≠ q → (t.hartAt kd).spByte j = (s.hartAt kd).spByte j)
              ∧ (t.hartAt kd).bar (wf c.cmd 32 10) = some (({ b with refcnt := min (b.refcnt + 1) 65535, infl := min (b.infl + 1) 65535 } : Barrier).update 1 0 none 0)
              ∧ (t.hartAt k).r = h.r ∧ t.mem = s.mem))
    ∧ (∀ b, c.ready = true → c.op = .cp → c.nb = false → c.errs = [] → c.parts = [p] → p.dest = none → p.held = true → p.arrived = false → p.buf = [] → p.lost = 0 →
        s.storage c.lid c.member c.core = .live k → h.bar (wf c.cmd 32 10) = some b → 1 < b.refcnt →
        ∃ t, exec (.commandComplete k) s = .next t ∧ (t.hartAt k).copyq = [] ∧ (t.hartAt k).r = h.r ∧ (t.hartAt k).sp = h.sp
          ∧ let u := b.update 0 1 none 0; (t.hartAt k).bar (wf c.cmd 32 10) = some { u with refcnt := u.refcnt - 1, infl := u.infl - 1 })
    ∧ (∀ a g, c.op = .stamp → c.started = true → c.finished = false → s.stampWaits k c = false → s.d2Core k = false → s.unitHeld k c (Part.fresh none) 0 = false → c.pages = [g] → g.vpn = c.cmd.toNat / 4096 →
        a = g.ppn * 4096 + c.cmd.toNat % 4096 → c.cmd.toNat % 8 = 0 → s.reaches (hartDie k) a = true → Plain s (a / 64) g.key →
        ∃ t, exec (.stampWrite k) s = .next t ∧ HoldsNumber s t a 8 c.aux.toNat ∧ (t.hartAt k).copyq = [] ∧ (t.hartAt k).r = h.r)

end

section
open Sys2Proof Sys2Proof.Machine Sys2Proof.Spec Sys2Proof.Safety

/-! ### The tuple space -/

/-- TS requests at issue (R133–R137, R143, R326–R328): with a landing entry free, a handle that resolves and a tuple or template without a fault, the request
leaves for the carafe's home slice and takes an entry for its reply. TS.RD and TS.TAKE make the bundle wait under kind 5, and the bundle issues once they are
answered. -/
def Obligations.TupleRequestsLeave : Prop :=
  ∀ (s : State) (pd d v hd mode dl land : Nat) (c : Carafe),
    let t := s.tupleOf v
    let p := if pd = 0 then none else some (s.h.regP pd)
    let dest := if s.h.mode = .remote then Reg.s v else s.h.regV v
    let regs := tupleRegs dest ++ p.toList
    s.h.land.length < 64 → s.resolve (s.rdS hd) = .ok c →
    (s.clear (.tsDep pd v hd) → tupCode c t 0 true = 0 → NoAtomics s s.cur → Quiet s.h →
        SendsTs (.tsDep pd v hd) s hd .dep c t 0 0 0 p.toList (.dep p))
    ∧ (s.clear (.tsRdp pd v hd mode land) → tupCode c t (s.rdS mode) false = 0 → SendsTs (.tsRdp pd v hd mode land) s hd .rdp c t (s.rdS mode) 0 land regs (.tuple dest p))
    ∧ (s.clear (.tsTakep pd v hd mode land) → tupCode c t (s.rdS mode) false = 0 → SendsTs (.tsTakep pd v hd mode land) s hd .takep c t (s.rdS mode) 0 land regs (.tuple dest p))
    ∧ (s.clear (.tsCnt pd d hd mode v land) → tupCode c t (s.rdS mode) false = 0 →
        SendsTs (.tsCnt pd d hd mode v land) s hd .cnt c t (s.rdS mode) 0 land ((if d = 0 then [] else [s.h.regS d]) ++ p.toList) (.cnt (if d = 0 then .p 0 else s.h.regS d) p))
    ∧ (s.clear (.tsRd pd v hd mode dl) → tupCode c t (s.rdS mode) false = 0 → s.h.wLand = none →
        SendsTs (.tsRd pd v hd mode dl) s hd .rd c t (s.rdS mode) (s.rdS dl) 0 regs (.tuple dest p)
        ∧ ∀ u, exec (.tsRd pd v hd mode dl) s = .next u → u.h.sig = some (.waiting 5) ∧ u.h.wLand = some (s.nextId + 1))
    ∧ (s.clear (.tsTake pd v hd mode dl) → tupCode c t (s.rdS mode) false = 0 → s.h.wLand = none →
        SendsTs (.tsTake pd v hd mode dl) s hd .take c t (s.rdS mode) (s.rdS dl) 0 regs (.tuple dest p)
        ∧ ∀ u, exec (.tsTake pd v hd mode dl) s = .next u → u.h.sig = some (.waiting 5) ∧ u.h.wLand = some (s.nextId + 1))
    ∧ (∀ id, s.h.wLand = some id → s.h.answered id = true → s.h.waiting.isSome = true ∨ s.h.entry id = none →
        (s.clear (.tsRd pd v hd mode dl) → exec (.tsRd pd v hd mode dl) s = .next (s.tsAcquire id))
        ∧ (s.clear (.tsTake pd v hd mode dl) → exec (.tsTake pd v hd mode dl) s = .next (s.tsAcquire id)))
    ∧ (∀ code, s.h.commit = false → tupCode c t (s.rdS mode) false = code → code ≠ 0 → s.clear (.tsRdp pd v hd mode land) → FaultsTo (.tsRdp pd v hd mode land) s 8 code 0)

/-- The tuple space at a home slice (R136, R138–R142, R145, R147): a deposit is stored with the next stamp, or goes to the waiting TAKE; a TAKE removes the match and a RD leaves
it; without a match they wait, and the probing forms answer 1; a count counts; a wait past its deadline answers 2, a cancelled one ends, a destroyed carafe answers 4 to all. -/
def Sys2Proof.Spec.TuplesAreServed : Prop :=
  ∀ (s : State) (m w : Msg) (q r : TsReq) (c : Carafe) (sl : Slice) (l : Landing) (n stamp place : Nat) (y : Sector) (pd : Option Reg),
    (∀ x ∈ sl.parked, s.parkDue x = false) → s.msgs = [m] → m.ts? = some q → s.sliceAt m.home = sl → sl.served.1 ≠ s.sliceTime → (s.route (hartDie m.hart) (m.home / 16)).isSome = true →
    s.carafe (s.partTable (hartDie m.hart)) q.cid = c → c.state = 1 → s.carafeOk (hartDie m.hart) c = true → c.cid = q.cid → s.dooms = [] →
    (let a := (s.partTable (hartDie m.hart)).toNat + 32 * q.cid; a % 32 = 0 ∧ Plain s (a / 64) 0) →
    (s.hartAt m.hart).land = [l] → l.id = m.landing →
    let reply (t : State) (ws : List Write) : Prop := ∃ g, (t.hartAt m.hart).land = [g] ∧ g.got = some ws ∧ g.id = l.id
    let still (t : State) : Prop := SameBytes s t ∧ t.msgs = [] ∧ (t.hartAt m.hart).r = (s.hartAt m.hart).r
    let tuple (status : Nat) (x : Sector) : List Write := .v n (x.setWidth 2048 ||| BitVec.ofNat 2048 (status * 2 ^ 512)) :: predWrite pd (status = 0)
    (∀ i, q.op = .dep → l.req = .dep pd → sl.parked = [] → sl.freePlace q.cid (s.carafeCap (m.home / 16) c) = some i →
        ∃ t, exec (.serveDep m.id) s = .next t ∧ still t ∧ reply t (predWrite pd true)
          ∧ (t.sliceAt m.home).tuples = sl.tuples ++ [{ cid := q.cid, words := q.t, stamp := sl.stamp, place := i }] ∧ (t.sliceAt m.home).stamp = sl.stamp + 1)
    ∧ (q.op = .dep → l.req = .dep pd → sl.parked = [] → sl.freePlace q.cid (s.carafeCap (m.home / 16) c) = none →
        ∃ t, exec (.serveDep m.id) s = .next t ∧ still t ∧ reply t (predWrite pd false) ∧ (t.sliceAt m.home).tuples = sl.tuples)
    ∧ (∀ g, q.op = .dep → l.req = .dep pd → sl.parked = [w] → w.ts? = some r → r.op = .take → r.cid = q.cid → tupMatches q.t r.t r.mode = true → w.hart ≠ m.hart →
        (s.hartAt w.hart).land = [g] → g.id = w.landing → g.req = .tuple (.v n) pd →
        ∃ t, exec (.serveDep m.id) s = .next t ∧ still t ∧ reply t (predWrite pd true) ∧ (t.sliceAt m.home).tuples = sl.tuples ∧ (t.sliceAt m.home).parked = []
          ∧ ∃ g', (t.hartAt w.hart).land = [g'] ∧ g'.got = some (tuple 0 q.t))
    ∧ (q.op = .take ∨ q.op = .rd → l.req = .tuple (.v n) pd → sl.tuples = [{ cid := q.cid, words := y, stamp := word stamp, place := place }] → tupMatches y q.t q.mode = true →
        ∃ t, exec (.serveRdTake m.id) s = .next t ∧ still t ∧ reply t (tuple 0 y) ∧ (t.sliceAt m.home).tuples = if q.op = .take then [] else sl.tuples)
    ∧ (q.op = .take ∨ q.op = .rd → sl.tuples = [] → q.dl = BitVec.allOnes 64 → sl.parked = [] →
        ∃ t, exec (.serveRdTake m.id) s = .next t ∧ still t ∧ (t.sliceAt m.home).parked = [m] ∧ (t.hartAt m.hart).land = [l])
    ∧ (q.op = .takep ∨ q.op = .rdp → l.req = .tuple (.v n) pd → sl.tuples = [] → ∃ t, exec (.serveRdpTakep m.id) s = .next t ∧ still t ∧ reply t (tuple 1 0))
    ∧ (q.op = .takep ∨ q.op = .rdp → l.req = .tuple (.v n) pd → sl.tuples = [{ cid := q.cid, words := y, stamp := word stamp, place := place }] → tupMatches y q.t q.mode = true →
        ∃ t, exec (.serveRdpTakep m.id) s = .next t ∧ still t ∧ reply t (tuple 0 y) ∧ (t.sliceAt m.home).tuples = if q.op = .takep then [] else sl.tuples)
    ∧ (q.op = .cnt → l.req = .cnt (.s n) pd → ∃ t, exec (.serveCnt m.id) s = .next t ∧ still t ∧ (t.sliceAt m.home).tuples = sl.tuples
          ∧ reply t (.s n (word (sl.tuples.filter fun x => x.cid = q.cid && tupMatches x.words q.t q.mode).length) :: predWrite pd true))

/-- How waits at a home slice end without a match (R141, R145, R147). -/
def Sys2Proof.Spec.TupleWaitsEnd : Prop :=
  ∀ (s : State) (k n : Nat) (m : Msg) (q : TsReq) (l : Landing) (pd : Option Reg) (sl : Slice),
    s.sliceAt k = sl → sl.parked = [m] → m.ts? = some q → m.home = k → (s.hartAt m.hart).land = [l] → l.id = m.landing → l.req = .tuple (.v n) pd →
    let ends (t : State) (status : Nat) : Prop := (t.sliceAt k).parked = [] ∧ (∃ g, (t.hartAt m.hart).land = [g]
        ∧ g.got = some (.v n (BitVec.ofNat 2048 (status * 2 ^ 512)) :: predWrite pd false)) ∧ t.mem = s.mem ∧ (t.hartAt m.hart).r = (s.hartAt m.hart).r
    (q.dl ≠ BitVec.allOnes 64 → q.dl.toNat ≤ s.time / 2 * 2 → ∃ t, exec (.parkTimeout k m.id) s = .next t ∧ ends t 2 ∧ (t.sliceAt k).tuples = sl.tuples)
    ∧ (s.time / 2 * 2 < q.dl.toNat → exec (.parkTimeout k m.id) s = .next s)
    ∧ (∀ c : Msg, s.msgs = [c] → c.hart = m.hart → c.body = .cancel l.id → c.home = k → sl.served.1 ≠ s.sliceTime → (s.hartAt m.hart).wLand = some l.id → s.parkDue m = false →
        ∃ t, exec (.cancel m.hart c.id) s = .next t ∧ (t.sliceAt k).parked = [] ∧ (t.hartAt m.hart).land = [] ∧ (t.hartAt m.hart).wLand = none ∧ t.msgs = []
          ∧ (t.sliceAt k).tuples = sl.tuples)
    ∧ ((k, q.cid) ∈ s.dooms ∨ (s.carafe (s.partTable (k / 16)) q.cid).state = 2 → sl.gone = [] →
        ∃ t, exec (.carafeDestroy k q.cid) s = .next t ∧ ends t (if s.parkDue m = true then 2 else 4) ∧ (t.sliceAt k).tuples = sl.tuples.filter (fun x => x.cid ≠ q.cid) ∧ (t.sliceAt k).gone = [q.cid])

/-- The tuple space at a home slice. -/
def Obligations.TupleSpaceAtHome : Prop := Sys2Proof.Spec.TuplesAreServed ∧ Sys2Proof.Spec.TupleWaitsEnd

/-! ### Remote calls -/

/-- RCALL, RPOST and RRET (R149–R152, R158, R329, R330): the call leaves with its payload, identity and deadline; an RCALL takes an entry for its four registers; RRET ends
the call with status OK and three values, and its context is free. -/
def Obligations.CallsLeaveAndReturn : Prop :=
  ∀ (s : State) (rel trap : Bool) (count d tgt ent pay : Nat) (p : Page),
    let h := s.h
    let sent (t : State) (post : Bool) (tr : Bool) : Prop :=
      (∃ m c, t.msgs = s.msgs ++ [m] ∧ m.body = .call c ∧ m.home = sliceOf p.pa ∧ c.entry = s.rdS ent ∧ c.target = s.rdS tgt ∧ c.payload = (List.range count).map (fun i => s.rdS (pay + i))
        ∧ c.seq = h.seqctr ∧ c.time = s.time ∧ c.deadline = (s.time + h.rcto.toNat) % 2 ^ 64 ∧ c.rel = rel ∧ c.budget = h.rcbudget.toNat ∧ c.post = post ∧ c.trap = tr ∧ c.caller = s.rid)
      ∧ t.h.seqctr = (h.seqctr + 1) % 65536
      ∧ t.h.outst = h.outst ++ [{ caller := s.rid, target := s.rdS tgt, seq := h.seqctr, time := s.time, deadline := (s.time + h.rcto.toNat) % 2 ^ 64, exec := sliceOf p.pa, post := post, trap := tr, landing := s.nextId + 1 }]
      ∧ t.h.r = h.r ∧ t.h.sp = h.sp ∧ t.mem = (s.walkOn s.cur (s.rdS tgt)).mem
    (s.clear (.rcall rel trap count d tgt ent pay) → 1 ≤ count → count ≤ 8 → pay + count ≤ 32 → 1 ≤ d → d ≤ 28 → (s.rdS ent).toNat % 64 = 0 → canonical (s.rdS ent) = true →
        s.target (s.rdS tgt) = .ok p → h.outst.length < 16 → h.land.length < 64 → (rel = true → Quiet h ∧ NoAtomics s s.cur) →
        ∃ t, exec (.rcall rel trap count d tgt ent pay) s = .next t ∧ sent t false trap
          ∧ t.h.land = h.land ++ [entryOf s 0 ((List.range 4).map fun i => Reg.s (d + i)) (.call d trap) none []])
    ∧ (s.clear (.rpost rel count d tgt ent pay) → 1 ≤ count → count ≤ 8 → pay + count ≤ 32 → (s.rdS ent).toNat % 64 = 0 → canonical (s.rdS ent) = true →
        s.target (s.rdS tgt) = .ok p → h.outst.length < 16 → (rel = true → Quiet h ∧ NoAtomics s s.cur) →
        ∃ t, exec (.rpost rel count d tgt ent pay) s = .next t ∧ sent t true false ∧ t.h.land = h.land)
    ∧ (s.clear (.rcall rel trap count d tgt ent pay) → h.commit = false → count = 0 ∨ 8 < count ∨ 32 < pay + count → FaultsTo (.rcall rel trap count d tgt ent pay) s 12 1 0)
    ∧ (∀ c, s.clear (.rret d tgt ent) → h.mode = .remote → h.call = some c → c.post = false → Quiet h → s.msgs = [] →
        (s.execAt ((s.cur - 512) / 16)).records.length < 1024 →
        ∃ t, exec (.rret d tgt ent) s = .next t ∧ t.h = Hart.reset ∧ (∃ m, t.msgs = [m] ∧ m.body = .reply c [0, s.rdS d, s.rdS tgt, s.rdS ent] false ∧ m.hart = c.hart ∧ m.rid = 512 + (s.cur - 512) / 16)
          ∧ (t.execAt ((s.cur - 512) / 16)).records = (s.execAt ((s.cur - 512) / 16)).records ++ [{ call := c, reply := some [0, s.rdS d, s.rdS tgt, s.rdS ent] }])

/-- Calls on their way (R153–R165): an arriving call is queued once; the next one starts in a free context with its registers as R155 says; a budget that has run out ends the call;
a reply's four values land and are acknowledged; a call without a reply by its deadline lands LOST; records and posts end. -/
def Obligations.CallsRun : Prop :=
  ∀ (s : State) (e k : Nat) (m : Msg) (c : Call) (l : Landing) (o : Outstanding) (d : Nat) (w : List Word) (rec : CallRecord),
    let h := s.hartAt k
    let x := s.execAt e
    (s.msgs = [m] → m.body = .call c → m.home = e → (s.route c.die (e / 16)).isSome = true → s.time < c.deadline → c.post = false →
      x.queue = [] → x.records = [] → (∀ j ∈ execHarts e, (s.hartAt j).call = none) →
        ∃ t, exec (.callArrival m.id) s = .next t ∧ t.msgs = [] ∧ (t.execAt e).queue = [c] ∧ t.mem = s.mem)
    ∧ (s.msgs = [m] → m.body = .call c → m.home = e → (s.route c.die (e / 16)).isSome = true → s.time < c.deadline → x.queue = [] → x.records = [rec] → c.same rec.call = true →
        rec.reply = some w → (∀ j ∈ execHarts e, (s.hartAt j).call = none) →
        ∃ t r, exec (.callArrival m.id) s = .next t ∧ t.msgs = [r] ∧ r.body = .reply c w (!s.awaited c) ∧ (t.execAt e).queue = [])
    ∧ (x.queue = [c] → (∀ j ∈ execHarts e, (s.hartAt j).call = none) → (s.hartAt (512 + 16 * e)).mode = .idle → s.time < c.deadline → c.payload.length ≤ 8 →
        ∃ t, exec (.callStart e) s = .next t ∧ (t.execAt e).queue = [] ∧ let g := t.hartAt (512 + 16 * e)
          g.mode = .remote ∧ g.pc = c.entry ∧ g.call = some c ∧ Tab.get 0 g.r.s 9 = c.target
          ∧ Tab.get 0 g.r.s 10 = word (c.task.toNat % 2 ^ 32 * 2 ^ 32 + c.caller % 1024 * 2 ^ 16 + c.seq)
          ∧ (∀ i, i < 8 → Tab.get 0 g.r.s (i + 1) = c.payload.getD i 0) ∧ (∀ i, 10 < i → Tab.get 0 g.r.s i = 0) ∧ g.r.p = 0 ∧ g.loops = [])
    ∧ (h.mode = .remote → h.call = some c → c.post = false → c.budget ≤ h.cyc → Quiet h → h.waiting = none → h.going = none → s.msgs = [] → (s.execAt ((k - 512) / 16)).records.length < 1024 →
        ∃ t r, exec (.budgetExhausted k) s = .next t ∧ t.hartAt k = Hart.reset ∧ t.msgs = [r] ∧ r.body = .reply c [2, word h.cyc, 0, h.pc] false)
    ∧ (h.land = [l] → l.id = o.landing → l.req = .call d o.trap → h.outst = [o] → o.trap = false → o.post = false → h.l1 = [] → h.pend = [] → 1 ≤ d → d ≤ 28 →
        let lands (t : State) (v : List Word) : Prop := (t.hartAt k).land = [] ∧ (t.hartAt k).outst = [] ∧ (∀ i, i < 4 → Tab.get 0 (t.hartAt k).r.s (d + i) = v.getD i 0)
          ∧ (∀ n, n < d ∨ d + 4 ≤ n → Tab.get 0 (t.hartAt k).r.s n = Tab.get 0 h.r.s n) ∧ (t.hartAt k).r.p = h.r.p ∧ (t.hartAt k).sp = h.sp ∧ t.mem = s.mem
        (∀ again : Bool, s.msgs = [m] → m.body = .reply c w again → c.hart = k → (s.harts.findSome? fun x : Nat × Hart => (callOf c x.2.outst).map fun o => (x.1, o)) = some (k, o) →
            (s.route ((m.rid - 512) / 16) (hartDie k)).isSome = true →
            ∃ t r, exec (.reply m.id) s = .next t ∧ lands t w ∧ t.msgs = [r] ∧ r.body = .notice (m.rid - 512) c)
        ∧ (o.deadline ≤ s.time → ∃ t, exec (.lost k l.id) s = .next t ∧ lands t [3, 0, 0, 0])
        ∧ (s.time < o.deadline → exec (.lost k l.id) s = .next s))
    ∧ (s.msgs = [m] → m.body = .notice e c → m.home = e → x.records = [rec] → c.same rec.call = true → x.ended = [] →
        ∃ t, exec (.releaseNotice e m.id) s = .next t ∧ t.msgs = [] ∧ (t.execAt e).records = [])
    ∧ (x.records = [rec] → rec.call.deadline ≤ s.time → x.ended = [] → ∃ t, exec (.recordDeadline e rec.call.seq) s = .next t ∧ (t.execAt e).records = [])
    ∧ (h.outst = [o] → o.post = true → o.deadline ≤ s.time → ∃ t, exec (.rplost k o.seq) s = .next t ∧ (t.hartAt k).outst = [] ∧ (t.hartAt k).r = h.r ∧ (t.hartAt k).seqctr = h.seqctr)

end

section
open Sys2Proof Sys2Proof.Machine Sys2Proof.Spec Sys2Proof.Safety

/-! ### Near memory -/

/-- NM.LOAD, NM.GO, NM.STOP and NM.STAT (R186, R195–R199, R331), served when they issue (the model's choice, log 22), after what the walk for the engine's address leaves at
the home slices: a checked image is loaded and owned; GO arms a loaded engine with its registers zero; STOP halts an armed run; STAT answers with the status word, and a
halted report drops the L1's clean lines (R110). A launch that does not own the engine changes nothing. -/
def Obligations.NearMemoryInstructions : Prop :=
  ∀ (s : State) (pd d eng x g : Nat), let e := s.engineAt g; let u := s.walkOn s.cur (s.rdS eng)
    s.nmTarget (s.rdS eng) = .ok g → s.h.land.length < 64 → (∀ l ∈ s.h.land, l.id ≤ s.nextId) →
    let p := if pd = 0 then none else some (s.h.regP pd)
    let dest := if d = 0 then Reg.p 0 else s.h.regS d
    let lands (t : State) (regs : List Reg) (req : LandReq) (ws : List Write) : Prop :=
      t.h.land = s.h.land ++ [{ entryOf s 0 regs req none [] with got := some ws }] ∧ t.h.r = s.h.r ∧ t.mem = u.mem
    let owns : Prop := e.owner = none ∨ e.owner = s.h.lid
    (s.clear (.nmGo pd eng x) → owns → e.st = .loaded ∨ e.st = .halted ∨ e.st = .faulted → e.debt < 8 → ∃ t, exec (.nmGo pd eng x) s = .next t
        ∧ lands t p.toList (.nmPred p) (predWrite p true) ∧ let f := t.engineAt g
          f.st = .armed ∧ f.startAt = (s.rdS x).toNat ∧ f.pc = 0 ∧ f.iter = 0 ∧ f.flags = 0 ∧ f.b = [] ∧ f.tt = e.tt ∧ f.k = e.k ∧ f.win = e.win ∧ f.owner = e.owner)
    ∧ (s.clear (.nmGo pd eng x) → ¬ owns → ∃ t, exec (.nmGo pd eng x) s = .next t ∧ lands t p.toList (.nmPred p) (predWrite p false) ∧ t.engineAt g = e)
    ∧ (s.clear (.nmGo pd eng x) → owns → e.st = .empty → ∃ t, exec (.nmGo pd eng x) s = .next t ∧ lands t p.toList (.nmPred p) (predWrite p false) ∧ t.engineAt g = { e with code := 8 })
    ∧ (s.clear (.nmStop eng) → owns → e.st = .armed → ∃ t, exec (.nmStop eng) s = .next t ∧ (t.engineAt g).st = .halted ∧ (t.engineAt g).code = 11 ∧ t.h = u.h ∧ t.mem = u.mem)
    ∧ (s.clear (.nmStop eng) → owns → e.st = .running → 0 < e.busy → exec (.nmStop eng) s = .next (u.setEngine g { e with stop := true }))
    ∧ (s.clear (.nmStop eng) → ¬ owns → exec (.nmStop eng) s = .next u)
    ∧ (s.clear (.nmStat d eng) → owns → e.iter < 2 ^ 20 → e.pc < 2 ^ 10 → e.code < 256 → ∃ t, exec (.nmStat d eng) s = .next t
        ∧ t.engineAt g = e ∧ lands t (if d = 0 then [] else [s.h.regS d]) (.nmStat dest)
            (scalarWrite dest (word (e.iter * 2 ^ 44 + e.pc * 2 ^ 34 + e.flags.toNat * 2 ^ 22 + e.code * 256 + e.st.number)))
        ∧ (e.st = .halted ∨ e.st = .faulted → ∀ x ∈ t.h.l1, x.2.dirty ≠ 0))
    ∧ (s.clear (.nmStat d eng) → ¬ owns → ∃ t, exec (.nmStat d eng) s = .next t ∧ t.engineAt g = e ∧ lands t (if d = 0 then [] else [s.h.regS d]) (.nmStat dest) (scalarWrite dest 0x200))
    ∧ (∀ f l win, s.clear (.nmLoad pd eng x) → Faultless s → s.acqBefore s.cur (s.nextId + 1) = false → s.nmLoadHeld (s.rdS x) = false → owns → e.st ≠ .armed → e.st ≠ .running →
        canonical (s.rdS x) = true → (s.rdS x).toNat % 64 = 0 →
        s.nmImage (s.rdS x) 128 = some f → let n := s.nmCount (s.rdS x) f
        s.nmImage (s.rdS x) (128 + 8 * n) = some l → s.nmBad (s.rdS x) l (128 + 8 * n) = false → let w := s.nmWord (s.rdS x) l
        nmHeaderOk w = true → (∀ i, i < n → ttCode ((List.range n).map fun i => w (16 + i)) i = 0) → s.nmWindows w = .ok win →
        ∃ t, exec (.nmLoad pd eng x) s = .next t ∧ t.h.r = s.h.r
          ∧ t.engineAt g = { e with tt := (List.range n).map (fun i => w (16 + i)), win := win.map (fun q => q.pa / 4096), owner := s.h.lid, code := 0, st := .loaded, k := nmConsts w })

/-- The words of a timetable (R189–R192, R196, R197, R201, R202), taken by a running engine whose last word's time is over: rows open inside the windows, are closed and
refreshed; a WAIT waits; a LOOP repeats; HALT ends the run; a start time starts it. -/
def Sys2Proof.Spec.TimetableWords : Prop :=
  ∀ (s : State) (g : Nat), let e := s.engineAt g; let w := e.tt.getD e.pc 0
    (e.st = .running → e.busy = 0 → e.wait = false → e.force = false → e.stop = false →
      (w.toNat / 2 ^ 60 = 2 → e.pc + 1 < e.tt.length → let bank := w.toNat / 2 ^ 55 % 32; let row := (w.toNat / 2 ^ 40 % 2 ^ 15 + e.iter * (ttSteps e.tt e.pc).1) % 2 ^ 15
        (e.win.contains (engLine g bank row / 4096) = true → exec (.act g) s = .next (s.setEngine g { e with rows := Tab.put e.rows bank row, pc := e.pc + 1, busy := 1 }))
        ∧ (e.win.contains (engLine g bank row / 4096) = false → ∃ f, exec (.act g) s = .next (s.setEngine g f) ∧ f.st = .faulted ∧ f.code = 9 ∧ f.pc = e.pc))
      ∧ (w.toNat / 2 ^ 60 = 3 → e.pc + 1 < e.tt.length → exec (.pre g) s = .next (s.setEngine g
          { e with rows := if w.getLsbD 54 = true then [] else Tab.del e.rows (w.toNat / 2 ^ 55 % 32), pc := e.pc + 1, busy := 1 }))
      ∧ (w.toNat / 2 ^ 60 = 4 → e.pc + 1 < e.tt.length → exec (.ref g) s = .next (s.setEngine g { e with rows := [], debt := e.debt - 1, pc := e.pc + 1, busy := 630 }))
      ∧ (w.toNat / 2 ^ 60 = 5 → exec (.timetableWait g) s = .next (s.setEngine g { e with pc := e.pc + 1, busy := w.toNat % 2 ^ 20, wait := true }))
      ∧ (w.toNat / 2 ^ 60 = 6 → e.pc + 1 < e.tt.length → w.toNat / 2 ^ 50 % 2 ^ 10 < e.tt.length → exec (.timetableLoop g) s = .next (s.setEngine g
          (if e.iter + 1 < w.toNat / 2 ^ 30 % 2 ^ 20 then { e with iter := e.iter + 1, pc := w.toNat / 2 ^ 50 % 2 ^ 10, busy := 1 } else { e with iter := 0, pc := e.pc + 1, busy := 1 })))
      ∧ (w.toNat / 2 ^ 60 = 7 → ∃ f, exec (.halt g) s = .next (s.setEngine g f) ∧ f.st = .halted ∧ f.code = 0 ∧ f.pc = e.pc ∧ f.b = e.b ∧ f.iter = e.iter ∧ f.flight = []))
    ∧ (e.st = .running → e.busy = 0 → e.wait = true → e.force = false → e.pc < e.tt.length → exec (.waitExpiry g) s = .next (s.setEngine g { e with wait := false, busy := 0 }))
    ∧ (e.st = .running → e.busy = 0 → e.wait = true → e.force = false → e.tt.length ≤ e.pc → ∃ f, exec (.waitExpiry g) s = .next (s.setEngine g f) ∧ f.st = .faulted ∧ f.code = 3)
    ∧ (e.st = .armed → e.startAt ≤ s.time → s.time % 2 = 0 → exec (.engineStart g) s = .next (s.setEngine g { e with st := .running }))
    ∧ (s.time < e.startAt → exec (.engineStart g) s = .next s)
    ∧ (∀ r x rest, e.flight = (r, x) :: rest → exec (.columnReadLanding g) s = .next (s.setEngine g { e with b := Tab.set 0 e.b r x, flight := rest }))
    ∧ (e.st = .running → s.time % 14040 = 0 → exec (.refreshInterval g) s = .next (s.setEngine g { e with debt := min 8 (e.debt + 1), force := e.force || decide (8 ≤ e.debt + 1) }))
    ∧ (e.st = .running → e.force = true → e.busy = 0 → exec (.forcedRef g) s = .next (s.setEngine g { e with debt := e.debt - 1, flags := e.flags ||| 16, force := false, busy := 630 }))
    ∧ (e.st ≠ .running → exec (.refreshManagerRefresh g) s = .next (s.setEngine g { e with debt := e.debt - 1 }))

/-- COL (R190, R192, R203): a column read of an open, live row is queued as it stands in DRAM; the write slot stores its register there; the A slot's result is a register at
once, computed from the registers before the word; a closed row ends the run with code 10. -/
def Sys2Proof.Spec.ColumnWords : Prop :=
  ∀ (s : State) (g : Nat), let e := s.engineAt g; let w := e.tt.getD e.pc 0
    let step := (ttSteps e.tt e.pc).2
    let fb := w.toNat / 2 ^ 51 % 32; let wb := w.toNat / 2 ^ 37 % 32
    e.st = .running → e.busy = 0 → e.wait = false → e.force = false → e.stop = false → w.toNat / 2 ^ 60 = 1 → e.flight = [] → e.pc + 1 < e.tt.length →
    (∀ fr wr, Tab.find e.rows fb = some fr → Tab.find e.rows wb = some wr →
      let fl := engLine g fb fr; let wl := engLine g wb wr
      let fk := fl / 64 + (w.toNat / 2 ^ 46 % 32 + e.iter * step) % 32
      let wk := wl / 64 + (w.toNat / 2 ^ 32 % 32 + e.iter * step) % 32
      s.notLive fl = false → s.notLive wl = false → fk ∉ s.bad → fk ∉ s.corr →
      ∃ t, exec (.col g) s = .next t ∧ let f := t.engineAt g
        f.pc = e.pc + 1 ∧ f.busy = 1 ∧ f.st = .running
        ∧ (w.getLsbD 59 = true → f.flight = [(w.toNat / 2 ^ 56 % 8, s.dramSector fk)]) ∧ (w.getLsbD 59 = false → f.flight = [])
        ∧ (w.getLsbD 45 = true → t.dramSector wk = e.reg (w.toNat / 2 ^ 42 % 8)) ∧ (w.getLsbD 45 = false → t.mem = s.mem)
        ∧ (w.toNat / 2 ^ 28 % 16 = 0 → ∀ r, f.reg r = e.reg r)
        ∧ (w.toNat / 2 ^ 28 % 16 = 1 → (∀ r, r ≠ w.toNat / 2 ^ 25 % 8 → f.reg r = e.reg r)
            ∧ ∀ i, i < 32 → secHalf (f.reg (w.toNat / 2 ^ 25 % 8)) i
                = (roundFp bf16 .rn false (Val.add .rn (bf16.value (secHalf (e.reg (w.toNat / 2 ^ 22 % 8)) i)) (bf16.value (secHalf (e.reg (w.toNat / 2 ^ 19 % 8)) i))).1).1 % 65536))
    ∧ (w.getLsbD 59 = true → Tab.find e.rows fb = none → ∃ f, exec (.col g) s = .next (s.setEngine g f) ∧ f.st = .faulted ∧ f.code = 10 ∧ f.pc = e.pc)

/-- The words of a timetable, and COL. -/
def Obligations.Timetables : Prop := Sys2Proof.Spec.TimetableWords ∧ Sys2Proof.Spec.ColumnWords

/-- The A operations of an engine (R193, R194), lane by lane: BF16 and FP32 addition, BF16 multiplication, fused multiply-add with a constant and maximum, the conversions, and the
pair update: the two FP8 halves of a column as one block, re-quantised. Only the destination registers and FLAGS change. -/
def Obligations.EngineArithmetic : Prop :=
  ∀ (s : State) (g ad aa ab : Nat), let e := s.engineAt g
    let a := e.reg aa; let b := e.reg ab
    let h16 (x : Sector) (i : Nat) := bf16.value (secHalf x i)
    let r16 (v : Val) : Nat := (roundFp bf16 .rn false v).1 % 65536
    let r32 (v : Val) : Nat := (roundFp fp32 .rn false v).1 % 2 ^ 32
    let does (i : Instr) (p : Engine → Prop) : Prop := ∃ f, exec i s = .next (s.setEngine g f) ∧ { f with b := e.b, flags := e.flags } = e ∧ (∀ r, r ≠ ad → f.reg r = e.reg r) ∧ p f
    does (.addb g ad aa ab) (fun f => ∀ i, i < 32 → secHalf (f.reg ad) i = r16 (Val.add .rn (h16 a i) (h16 b i)).1)
    ∧ does (.addf g ad aa ab) (fun f => ∀ i, i < 16 → secWord (f.reg ad) i = r32 (Val.add .rn (fp32.value (secWord a i)) (fp32.value (secWord b i))).1)
    ∧ does (.mulb g ad aa ab) (fun f => ∀ i, i < 32 → secHalf (f.reg ad) i = r16 (Val.mul (h16 a i) (h16 b i)).1)
    ∧ (∀ k, does (.fmab g ad aa ab k) fun f => ∀ i, i < 32 → secHalf (f.reg ad) i = r16 (Val.fma .rn (h16 a i) (fp32.value (Tab.get 0 e.k k).toNat) (h16 b i)).1)
    ∧ does (.maxb g ad aa ab) (fun f => ∀ i, i < 32 → secHalf (f.reg ad) i
        = (fpMinMax true (BitVec.ofNat 32 (secHalf a i * 65536)) (BitVec.ofNat 32 (secHalf b i * 65536))).toNat / 65536)
    ∧ (∀ n, n < 2 → does (.cvt g n ad aa ab) fun f => ∀ i, i < 16 → (h16 a (i + 16 * n)).isNan = false → secWord (f.reg ad) i = secHalf a (i + 16 * n) * 65536)
    ∧ does (.cvt g 2 ad aa ab) (fun f => ∀ i, i < 32 → secHalf (f.reg ad) i = r16 (fp32.value (if i < 16 then secWord a i else secWord b (i - 16))))
    ∧ (∀ ac k j, ac ≠ ad → j < 32 → let c := e.reg ac
        let sum (i : Nat) : Nat := (roundFp fp32 .rn false (Val.add .rn (mxValue .e4m3 (secByte c (2 * j)) (secByte a i)) (mxValue .e4m3 (secByte c (2 * j + 1)) (secByte a (32 + i)))).1).1
        let moved (i : Nat) : Nat := (roundFp fp32 .rn false (Val.fma .rn (fp32.value (Tab.get 0 e.k k).toNat).neg (h16 b i) (fp32.value (sum i))).1).1
        let m := mxQuantise .e4m3 false ((List.range 32).map fun i => fp32.value (moved i)) []
        let left (i : Nat) : Nat := (roundFp fp32 .rn false (Val.add .rn (fp32.value (moved i)) (mxValue .e4m3 m.scale (m.codes.getD i 0)).neg).1).1
        let r := mxQuantise .e4m3 false ((List.range 32).map fun i => fp32.value (left i)) []
        ∃ f, exec (.pairupd g ad aa ab ac k j) s = .next (s.setEngine g f)
          ∧ (∀ i, i < 32 → secByte (f.reg ad) i = m.codes.getD i 0 % 256 ∧ secByte (f.reg ad) (32 + i) = r.codes.getD i 0 % 256)
          ∧ secByte (f.reg ac) (2 * j) = m.scale % 256 ∧ secByte (f.reg ac) (2 * j + 1) = r.scale % 256
          ∧ (∀ i, i < 64 → i / 2 ≠ j → secByte (f.reg ac) i = secByte c i) ∧ (∀ n, n ≠ ad → n ≠ ac → f.reg n = e.reg n))

end

section
open Sys2Proof Sys2Proof.Machine Sys2Proof.Spec Sys2Proof.Safety

/-! ### Queues, launches and cores -/

/-- Queues and launches (R21, R369–R374): a doorbell is written with its summary bit, or puts the queue in ERROR where it is out of range; a record is consumed with its status and the
head advanced, and becomes a launch where it is valid; a launch whose dependences are met becomes eligible, and ages. -/
def Sys2Proof.Spec.QueuesAndLaunches : Prop :=
  ∀ (s : State) (part q lid : Nat) (l : Launch),
    let qp := s.queuePa part q
    let head := s.queueHead part q
    (∀ count : Word, s.doorsOpen = true → part < s.nparts → s.queueOwned part q = true → q < 65536 → qp % 32 = 0 → Plain s (qp / 64) 0 → (region qp).1 = .hbm →
        (head ≤ count.toNat → count.toNat ≤ head + s.queueSize part q → exec (.doorbell part q count) s = .next (s.ring part q count))
        ∧ (s.queueState part q = 1 → count.toNat < head ∨ head + s.queueSize part q < count.toNat → (s.dieAt (s.lowestDie part)).event.log2n = 0 → s.lowestDie part < 8 →
            ∃ t, exec (.doorbell part q count) s = .next t ∧ t.queueState part q = 2 ∧ SameRegisters s t ∧ t.launches = s.launches))
    ∧ (s.doorsOpen = false → ∀ count, exec (.doorbell part q count) s = .next s)
    ∧ (let pa := s.queueBase part q + 256 * (head % s.queueSize part q)
       let words := (List.range 32).map fun i => s.dwordAt (pa + 8 * i)
       let st := s.recordStatus part q (Launch.fresh words q (s.queuePrio part q))
       s.recordWaits part q = true → s.anyRuns = false → Faultless s → qp % 32 = 0 → pa % 256 = 0 → Plain s (qp / 64) 0 → Plain s ((pa + 176) / 64) 0 → (pa + 176) / 64 ≠ qp / 64 →
         ∃ t, exec (.consumeRecord part q) s = .next t ∧ t.queueHead part q = head + 1 ∧ t.numAt (pa + 176) 8 % 256 = st.1 ∧ t.summaryBit part q = false ∧ SameRegisters s t
           ∧ (st.1 ≠ 1 → t.launches = s.launches)
           ∧ (st.1 = 1 → ∃ n, t.launch? (part * 2 ^ 32 + Tab.get 1 s.nextLid part) = some n ∧ n.phase = .accepted ∧ n.words = words ∧ n.queue = q))
    ∧ (s.launch? lid = some l → l.phase = .accepted → s.depsMet lid l = true → s.stampsWait lid l = false →
        ∃ t, exec (.launchEligible lid) s = .next t ∧ t.launches = Tab.put s.launches lid { l with phase := .eligible, order := s.nextOrder, since := s.time } ∧ t.nextOrder = s.nextOrder + 1
          ∧ SameRegisters s t ∧ (Faultless s → SameBytes s t))
    ∧ (s.launch? lid = some l → s.depsMet lid l = false → exec (.launchEligible lid) s = .next s)
    ∧ (s.launch? lid = some l → s.ages lid l = true → exec (.aging lid) s = .next (s.setLaunch lid { l with aged := l.aged + 1 }))

/-- Cores for launches (R32, R374–R376, R379): the launch served first runs, with its priority fixed; pre-emption and the end of a quantum ask a cluster's cores to switch; a rotation
binds its next block, or gives its cluster back. -/
def Sys2Proof.Spec.CoresAreGranted : Prop :=
  ∀ (s : State) (part lid k c : Nat) (l : Launch) (r : Rotation),
    let asked (t : State) (j : Nat) : Prop := t.bindSwitch j = true ∧ (t.hartAt j).cctl.getLsbD 3 = true ∧ (t.hartAt j).r = (s.hartAt j).r ∧ (t.hartAt j).pc = (s.hartAt j).pc
    let asksAll (t : State) (c : Nat) : Prop := ∀ i, i < 32 → s.bindState (32 * c + i) = 1 → s.bindSwitch (32 * c + i) = false → asked t (32 * c + i)
    (s.grantee part = some (lid, l) → ∃ t g, exec (.coreGrant part) s = .next t ∧ t.launch? lid = some g ∧ g.phase = .running ∧ g.prio = some l.effPrio ∧ g.words = l.words)
    ∧ (s.grantee part = none → exec (.coreGrant part) s = .next s)
    ∧ (s.starved part = some (lid, l) → l.fixed = true → s.victimCluster l = some c → c < 16 → (∀ i, i < 32 → s.bindSwitch (32 * c + i) = false) →
        ∃ t, exec (.preempt part) s = .next t ∧ asksAll t c)
    ∧ (s.quantumOver lid c = true → c < 16 → ∃ t, exec (.quantumExpiry lid c) s = .next t ∧ t.launches = s.launches
        ∧ (∀ i, i < 32 → s.bindLid (32 * c + i) = lid → s.bindState (32 * c + i) = 1 → s.bindSwitch (32 * c + i) = false → asked t (32 * c + i))
        ∧ (∀ i, i < 32 → s.bindLid (32 * c + i) ≠ lid → t.bindSwitch (32 * c + i) = s.bindSwitch (32 * c + i) ∧ t.hartAt (32 * c + i) = s.hartAt (32 * c + i)))
    ∧ (s.quantumOver lid c = false → exec (.quantumExpiry lid c) s = .next s)
    ∧ (k < 512 → ∃ t, exec (.switch k) s = .next t ∧ asked t k ∧ t.bindValid k = s.bindValid k ∧ t.bindState k = s.bindState k)
    ∧ (s.launch? lid = some l → Tab.find l.rots c = some r → l.phase = .running → s.blockGone l c r = true → let left := r.blocks.filter fun b => !l.blockOver b
        (left = [] → exec (.bindNextBlock lid c) s = .next (s.setLaunch lid { l with rots := Tab.del l.rots c }))
        ∧ (∀ b, r.next left = some b → (s.dieAt (c / 2)).bindStop = false → s.blockIdle lid l b = true →
            (∀ m ∈ l.blockMembers b, l.place m = .retired ∨ s.coreIdle (blockCore c m) = true) →
            ∃ t g, exec (.bindNextBlock lid c) s = .next t ∧ t.launch? lid = some g ∧ Tab.find g.rots c = some { blocks := left, resident := some b, since := s.time }
              ∧ (c < 16 → l.fixed = true → ∀ m ∈ l.blockMembers b, l.place m = .unstarted → let j := blockCore c m
                  t.bindValid j = true ∧ t.bindKind j = 1 ∧ t.bindWord j 1 = lid % 2 ^ 32 + m % 2 ^ 32 * 2 ^ 32)))

/-- Queues, launches, core grants, pre-emption and rotations. -/
def Obligations.LaunchesAndCores : Prop := Sys2Proof.Spec.QueuesAndLaunches ∧ Sys2Proof.Spec.CoresAreGranted

/-- Tasks start, resume and end (R22, R24, R26–R28, R358, R362, R367, R376–R378, R428): START gives a core the state of a new task, RESUME enters the handler at vector 33,
an event is held; a draw takes the next index; a switch enters the handler at vector 32, the bind record at STATE 2; a launch whose tasks have retired writes DONE, one that is ending gives up its cores. -/
def Obligations.TasksStartAndEnd : Prop :=
  ∀ (s : State) (k lid j : Nat) (l : Launch), let h := s.hartAt k
    let fresh (t : State) (m : Nat) : Prop := let g := t.hartAt k
      g.mode = .task ∧ g.pc = l.w 2 ∧ Tab.get 0 g.r.s 1 = l.w 4 ∧ (∀ n, n ≠ 1 → Tab.get 0 g.r.s n = 0) ∧ g.r.v = [] ∧ g.r.m = [] ∧ g.z = [] ∧ g.mc = [] ∧ g.loops = [] ∧ g.bars = [] ∧ g.sp = []
        ∧ g.task = word m ∧ g.lid = some (s.bindLid k) ∧ g.member = m ∧ g.scr = l.scratch ∧ g.hs = h.hs ∧ t.bindValid k = false ∧ t.bindState k = 1
    (k < 512 → s.bindValid k = true → s.bindKind k = 1 → s.launch? (s.bindLid k) = some l → l.phase = .running → s.bindTicket k = false → l.place (s.bindWord k 1 / 2 ^ 32) = .unstarted →
        ∃ t, exec (.start k) s = .next t ∧ fresh t (s.bindWord k 1 / 2 ^ 32) ∧ (t.hartAt k).notBefore = s.bindWord k 4)
    ∧ (k < 512 → s.bindValid k = true → s.bindKind k = 2 → s.launch? (s.bindLid k) = some l → l.phase = .running →
        ∃ t, exec (.resume k) s = .next t ∧ let g := t.hartAt k
          g.mode = .handler ∧ g.pc = (s.policy (s.partOf (hartDie k))).hbase + word (64 * 33) ∧ Tab.get 0 g.hs 1 = word (s.bindWord k 3) ∧ Tab.get 0 g.hs 2 = word (bindPa k)
            ∧ t.bindValid k = false ∧ t.bindState k = 1)
    ∧ (k < 512 → s.bindValid k = true → s.bindKind k = 3 → ∃ t, exec (.event k) s = .next t ∧ (t.hartAt k).eventHeld = true ∧ t.bindValid k = false ∧ t.bindState k = s.bindState k
        ∧ (t.hartAt k).r = h.r ∧ (t.hartAt k).mode = h.mode)
    ∧ (k < 512 → s.mayDraw k = true → s.launch? (s.bindLid k) = some l → l.phase = .running → s.bindSwitch k = false → (s.dieAt (hartDie k)).bindStop = false →
        Tab.find l.tctr (hartDie k) = some j → j < 16 → s.ticketNext (hartDie k) j < s.ticketLimit (hartDie k) j →
        ∃ t, exec (.ticketDraw k) s = .next t ∧ fresh t (s.ticketNext (hartDie k) j) ∧ t.ticketNext (hartDie k) j = s.ticketNext (hartDie k) j + 1)
    ∧ (k < 512 → h.trapPend = [] → s.switchable k = true → h.wLand = none → ∃ t, exec (.handlerEntry k) s = .next t ∧ t.bindState k = 2
        ∧ (∀ a, (region a).1 ≠ .control → t.byteAt a = s.byteAt a) ∧ let g := t.hartAt k
        g.mode = .handler ∧ g.pc = h.hbase + word (64 * 32) ∧ g.fcause = 0 ∧ g.faddr = 0 ∧ g.fpc = h.pc ∧ g.epc = h.pc ∧ g.estat.toNat % 4 = 1 ∧ g.r = h.r ∧ g.hs = h.hs ∧ g.loops = h.loops)
    ∧ (∀ d a rest, h.trapPend = (d, a) :: rest → h.mode = .task → h.going = none → h.waiting = none → h.cctl.getLsbD 44 = true → ∃ t, exec (.handlerEntry k) s = .next t ∧ let g := t.hartAt k
        g.mode = .handler ∧ g.pc = h.hbase + word (64 * 12) ∧ g.faddr = a ∧ g.fcause = word (2 ^ 28 + 6 * 2 ^ 24 + d % 2 ^ 16 * 256 + 12) ∧ g.epc = h.pc ∧ g.trapPend = rest ∧ g.r = h.r)
    ∧ (s.launch? lid = some l → l.phase = .running → l.retired = l.count → s.engines = [] → s.slices = [] → s.callsRun lid = false →
        ∃ t g, exec (.doneStamp lid) s = .next t ∧ t.launch? lid = some g ∧ g.phase = .done ∧ SameRegisters s t
          ∧ (l.w 20 = 0 → t.mem = s.mem)
          ∧ ∀ p, l.w 20 ≠ 0 → s.partPage (lid / 2 ^ 32) (l.w 20) = .ok p → p.pa % 8 = 0 → Faultless s → Plain s (p.pa / 64) p.key → HoldsNumber s t p.pa 8 (l.w 21).toNat)
    ∧ (s.launch? lid = some l → l.phase = .ending → s.tasksLeft lid = false → s.engines = [] → s.slices = [] → s.callsRun lid = false →
        ∃ t g, exec (.launchEnd lid) s = .next t ∧ t.launch? lid = some g ∧ g.phase = .done
          ∧ (k < 512 → h.lid = some lid → (t.hartAt k).lid = none ∧ (t.hartAt k).mode = .idle))

end

section
open Sys2Proof Sys2Proof.Machine Sys2Proof.Spec Sys2Proof.Safety

/-! ### The network, links and the outside -/

/-- Sessions and links (R175, R409–R415), where no copy command runs and no message is under way: a session without an acknowledgement for 10 s ends; a used key is replaced by the
exchange's and the old one expires; an exchange that fails its checks closes the session; a link, an expander or a host link that fails is down. -/
def Sys2Proof.Spec.SessionsAndLinks : Prop :=
  ∀ (s : State) (die n i j : Nat), (∀ x ∈ s.harts, x.2.copyq = []) → s.netIn = [] →
    let key := s.sessKey die n
    (n < 4096 → s.sessionLive die n = true → key.acked + 36000000000 ≤ s.time → ∃ t, exec (.sessionLost die n) s = .next t ∧ t.sessionState die n = 3 ∧ t.harts = s.harts)
    ∧ (s.time < key.acked + 36000000000 → exec (.sessionLost die n) s = .next s)
    ∧ (∀ x, n < 4096 → s.sessionState die n = 1 → 2 ^ 32 ≤ s.txpkt die n → ∃ t, exec (.rekey die ⟨n, x⟩) s = .next t ∧ t.sessionState die n = 2 ∧ t.dies = s.dies)
    ∧ (∀ x, n < 4096 → s.sessionState die n = 2 → let id := s.ctlNum (sessionPa die n + 24) 32
        (exchangeOk x id = true → ∃ t, exec (.rekey die ⟨n, some x⟩) s = .next t ∧ t.sessionState die n = 1 ∧ t.txpkt die n = 0 ∧ (t.sessKey die n).old = some key.key
          ∧ (t.sessKey die n).key = exchangeKey x ∧ (t.sessKey die n).expiry = s.time + 3600000000 ∧ t.harts = s.harts)
        ∧ (exchangeOk x id = false → ∃ t, exec (.rekey die ⟨n, some x⟩) s = .next t ∧ t.sessionState die n = 0 ∧ t.harts = s.harts))
    ∧ (key.old.isSome = true → key.expiry ≤ s.time → exec (.oldKeyExpiry die n) s = .next (s.setSessKey die n { key with old := none }))
    ∧ (s.time < key.expiry → exec (.oldKeyExpiry die n) s = .next s)
    ∧ (i < j → j < s.ndie → s.linkUp i j = true → s.openCalls = [] → (∀ z ∈ s.slices, z.2.parked = []) →
        exec (.linkDown i j) s = .next { s with links := s.links &&& ~~~ BitVec.ofNat 28 (2 ^ linkBit i j) })
    ∧ (die < s.ndie → s.hasSect = true → exec (.expanderFailure die) s = .next (s.setDie die { s.dieAt die with expanderDown := true }))
    ∧ ((s.dieAt die).hostUp = true → exec (.hostLinkLost die) s = .next (s.setDie die { s.dieAt die with hostUp := false }))
    ∧ ((s.dieAt die).hostUp = false → exec (.hostLinkLost die) s = .next s)

/-- Network copies (R179, R333, R413) of one byte per element: a packet's byte goes to its window, is counted with its contributor, then the arrival, once; a read answers with the
window's bytes; confirmed bytes are counted; data of a NET.GET is written as it comes; a packet on a session that is not open does nothing. -/
def Sys2Proof.Spec.NetworkCopies : Prop :=
  ∀ (s : State) (die k kd o : Nat) (m : NetMsg) (c : Cmd) (p : Part) (b : Barrier) (x : Byte) (last : Bool),
    let at_ (r : Rec) (org : List Int) : Prop := recFmt r = 0x10 ∧ recSpace r = 1 ∧ recIlv r = 0 ∧ insideT r (coordsAt r org 0) = true
      ∧ (recBase r : Int) + elemBit r (coordsAt r org 0) / 8 = (o : Int)
    let sends (t : State) (data : List Byte) : Prop := ∃ e, t.netOut = s.netOut ++ [e] ∧ e.die = die ∧ e.session = m.session ∧ e.tag = m.tag ∧ e.data = data
    let accepted : Prop := (s.sessKey die m.session).accepts m.key s.time = true
    s.netIn = [] → s.netHeld = [] →
    (s.sessionLive die m.session = true → accepted → s.peerWindow die m false = .ok c → m.codec = .raw → m.first = 0 → m.stream = [x] → m.bad = [] → winSize c.dst = 1 → at_ c.dst c.do_ →
        (s.hartAt c.core).copyq = [] → s.storage c.lid c.member c.core = .live kd → InScratch (s.hartAt kd) o 1 → (s.hartAt kd).bar (m.bar % 1024) = some b → 0 < b.refcnt →
        ∃ t, exec (.netReceive die m) s = .next t ∧ (t.hartAt kd).spByte o = x ∧ (∀ q, q ≠ o → (t.hartAt kd).spByte q = (s.hartAt kd).spByte q)
          ∧ (t.hartAt kd).bar (m.bar % 1024) = some ((b.update 1 0 (some (m.contrib % 64)) 0).update 0 1 (some (m.contrib % 64)) 0)
          ∧ sends t [0] ∧ (t.hartAt kd).r = (s.hartAt kd).r ∧ exec (.netReceive die m) t = .next t)
    ∧ (s.sessionLive die m.session = false → exec (.netReceive die m) s = .next s ∧ exec (.netGetRead die m) s = .next s)
    ∧ (∀ e, s.sessionLive die m.session = true → accepted → s.peerWindow die m true = .error e → ∃ t, exec (.netGetRead die m) s = .next t ∧ sends t [1] ∧ SameRegisters s t)
    ∧ (s.sessionLive die m.session = true → accepted → s.peerWindow die m true = .ok c → winSize c.src = 1 → at_ c.src c.so → s.storage c.lid c.member c.core = .live kd →
        o < 2 ^ 21 → (s.hartAt kd).spBad = [] → (s.hartAt kd).spCorr = [] →
        ∃ t, exec (.netGetRead die m) s = .next t ∧ sends t [(s.hartAt kd).spByte o] ∧ SameRegisters s t)
    ∧ (∀ n q, (s.hartAt k).copyq = [c] → c.started = true → c.finished = false → c.closed = false → c.op = .netPut q → c.nb = true → c.parts = [p] → p.dest = none →
        c.confirmed + n ≤ streamSize c.src → c.confirmed + n ≤ 4096 * p.next →
        ∃ t, exec (.netPutConfirm k ⟨c.id, .bytes n last, []⟩) s = .next t ∧ (t.hartAt k).copyq = [{ c with confirmed := c.confirmed + n, closed := last && decide (c.confirmed + n = streamSize c.src) }]
          ∧ (t.hartAt k).r = (s.hartAt k).r ∧ (t.hartAt k).sp = (s.hartAt k).sp ∧ t.mem = s.mem)
    ∧ ((s.hartAt k).copyq = [c] → c.started = true → c.finished = false → c.closed = false → c.op = .netGet → c.nb = true → c.parts = [p] → p.dest = none → p.buf = [] →
        c.confirmed = 0 → 2 ≤ winSize c.dst → at_ c.dst c.do_ → s.storage c.lid c.member c.core = .live k → InScratch (s.hartAt k) o 1 →
        ∃ t g, exec (.netGetData k ⟨c.id, .bytes 1 false, []⟩ [x]) s = .next t ∧ (t.hartAt k).spByte o = x ∧ (∀ q, q ≠ o → (t.hartAt k).spByte q = (s.hartAt k).spByte q)
          ∧ (t.hartAt k).copyq = [g] ∧ g.confirmed = 1 ∧ g.closed = false ∧ (t.hartAt k).r = (s.hartAt k).r ∧ t.mem = s.mem)

/-- Sessions, links and network copies. -/
def Obligations.NetworkAndLinks : Prop := Sys2Proof.Spec.SessionsAndLinks ∧ Sys2Proof.Spec.NetworkCopies

/-! ### Start-up, security and temperature -/

/-- The start sequence (R419–R423): each stage in order, with the counters of NVM, the image's checks, the links, the partitions with their descriptors, the host ports and the
management cores; a stage that fails ends the start with REASON and DETAIL; a power loss leaves NVM. -/
def Sys2Proof.Spec.StartSequence : Prop :=
  ∀ (s : State),
    let failed (t : State) (n d : Nat) : Prop := t.sec.stage = .failed n ∧ t.sec.reason = n ∧ t.sec.detail = d
    let cold (t : State) (stage : Stage) : Prop := t.sec.stage = stage ∧ t.time = 0 ∧ t.harts = [] ∧ t.mem = [] ∧ t.msc = [] ∧ t.launches = []
      ∧ t.sec.minVersion = s.sec.minVersion ∧ t.feat = s.feat
    (s.sec.stage = .off → ∃ t, exec .powerOn s = .next t ∧ cold t .rom ∧ t.sec.starts = s.sec.starts + 1 ∧ t.sec.failrun = min 3 (s.sec.failrun + 1)
        ∧ (t.sec.toDecaf = true ↔ s.sec.failrun = 3) ∧ t.sec.image = s.sec.image)
    ∧ (s.sec.stage ≠ .off → exec .powerOn s = .next s)
    ∧ (∀ pass, s.sec.stage = .rom → ∃ t, exec (.rom pass) s = .next t ∧ t.sec.starts = s.sec.starts ∧ t.sec.failrun = s.sec.failrun ∧ t.mem = s.mem
        ∧ (pass = false → failed t 1 0) ∧ (pass = true → s.sec.toDecaf = true → t.sec.stage = .decaf ∧ (t.dieAt 0).hostUp = true) ∧ (pass = true → s.sec.toDecaf = false → t.sec.stage = .image))
    ∧ (s.sec.stage = .image → ∃ t, exec .image s = .next t ∧ t.mem = s.mem
        ∧ (Config.imageCheck s.sec.image = 1 → failed t 2 1) ∧ (1 < Config.imageCheck s.sec.image → failed t 2 2)
        ∧ (Config.imageCheck s.sec.image = 0 → s.sec.torn = true → failed t 2 1 ∨ failed t 2 2)
        ∧ (Config.imageCheck s.sec.image = 0 → s.sec.torn = false → Config.imageVersion s.sec.image < s.sec.minVersion → failed t 2 3)
        ∧ (Config.imageCheck s.sec.image = 0 → s.sec.torn = false → s.sec.minVersion ≤ Config.imageVersion s.sec.image → t.sec.stage = .train
            ∧ t.sec.minVersion = Config.imageVersion s.sec.image))
    ∧ (s.sec.stage = .train → (∀ d, ∃ t, exec (.train (some d)) s = .next t ∧ failed t 3 d)
        ∧ ∃ t, exec (.train none) s = .next t ∧ t.sec.stage = .part ∧ (∀ i j, i < j → j < s.ndie → t.linkUp i j = true) ∧ t.mem = s.mem)
    ∧ (∀ fail, s.sec.stage = .part → let n := Config.imageParts s.sec.image
        (n = 1 ∨ n = 2 ∨ n = 4 ∨ n = 8 → n ≤ s.ndie →
          ((s.brokenWord n).isSome = true → ∃ t p w, exec (.part fail) s = .next t ∧ failed t 4 w ∧ p < n ∧ w < 16 ∧ s.configBreaks n p w = true)
          ∧ (s.brokenWord n = none → ∃ t, exec (.part fail) s = .next t ∧ t.sec.stage = .host ∧ t.nparts = n ∧ t.harts = s.harts
              ∧ ∀ d w, d < s.ndie → w < 16 → t.ctlNum (ctlBase d + 8 * w) 8 = Config.imageWord s.sec.image (d * n / s.ndie) w % 2 ^ 64))
        ∧ (n ≠ 1 → n ≠ 2 → n ≠ 4 → n ≠ 8 → ∃ t, exec (.part fail) s = .next t ∧ failed t 4 0))
    ∧ (s.sec.stage = .host → (∃ t, exec (.host false) s = .next t ∧ failed t 5 0)
        ∧ ∃ t, exec (.host true) s = .next t ∧ t.sec.stage = .barista ∧ t.sec.baristaSince = s.time ∧ (∀ d, d < s.ndie → (t.dieAt d).hostUp = true) ∧ t.mem = s.mem)
    ∧ (∀ d, s.sec.stage = .barista → d < s.ndie → s.time < s.sec.baristaSince + 3600000000 → exec (.barista d) s = .next (s.setDie d { s.dieAt d with baristaUp := true }))
    ∧ (s.sec.stage = .barista → s.sec.baristaSince + 3600000000 ≤ s.time → s.allReady = false → ∃ t, exec .baristaReadyLimit s = .next t ∧ failed t 6 0)
    ∧ (s.sec.stage = .barista → s.allReady = true → ∃ t, exec .ready s = .next t ∧ t.sec.stage = .ready ∧ t.sec.failrun = 0 ∧ t.sec.reason = 0 ∧ t.sec.detail = 0 ∧ t.mem = s.mem)
    ∧ (∃ t, exec .powerLoss s = .next t ∧ cold t .off ∧ t.sec.starts = s.sec.starts ∧ t.sec.failrun = s.sec.failrun ∧ (s.sec.loading = none → t.sec.image = s.sec.image))

/-- The security mailbox and the thermal limits (R415–R418, R424, R427): cupping writes its report, a session opens with the key of an exchange that holds and closes, a key slot takes
a new generation, an image begins to load, a restart begins a new start; a command behind a running one waits; binding stops and resumes, and at 110 °C power goes. -/
def Sys2Proof.Spec.SecurityAndTemperature : Prop :=
  ∀ (s : State) (part die n : Nat),
    s.sec.stage = .ready → s.sec.cmds = [] →
    (s.sec.loading = none →
      (∀ addr nonce, s.inHbm part addr 626 = true → addr % 8 = 0 → Faultless s → Plain s (addr / 64) 0 → Plain s ((addr + 15) / 64) 0 →
          ∃ t, exec (.cupping part addr nonce) s = .next t ∧ t.sec.status = 0 ∧ t.numAt addr 8 = 1 ∧ t.numAt (addr + 8) 8 = s.time % 2 ^ 64 ∧ SameRegisters s t)
      ∧ (∀ addr nonce, s.inHbm part addr 626 = false → exec (.cupping part addr nonce) s = .next { s with sec := { s.sec with status := 2 } })
      ∧ (∀ peer id pp pl x, s.ownsSession part die n = true →
          (exchangeOk x id.toNat = true → ∃ t, exec (.sessopen part die n peer id pp pl x) s = .next t ∧ t.sec.status = 0 ∧ t.sessionState die n = 1 ∧ t.txpkt die n = 0
            ∧ (t.sessKey die n).old = none ∧ (t.sessKey die n).key = exchangeKey x
            ∧ t.ctlNum (sessionPa die n + 8) 8 = peer.toNat ∧ t.ctlNum (sessionPa die n + 24) 32 = id.toNat ∧ t.harts = s.harts)
          ∧ (exchangeOk x id.toNat = false → ∃ t, exec (.sessopen part die n peer id pp pl x) s = .next t ∧ t.sec.status = 3 ∧ t.sessionState die n = 0 ∧ t.harts = s.harts))
      ∧ (s.ownsSession part die n = true → (∀ x ∈ s.harts, x.2.copyq = []) → s.netIn = [] →
          ∃ t, exec (.sessclose part die n) s = .next t ∧ t.sec.status = 0 ∧ t.sessionState die n = 0 ∧ t.harts = s.harts)
      ∧ (s.ownsSession part die n = false → exec (.sessclose part die n) s = .next { s with sec := { s.sec with status := 2 } })
      ∧ (∀ slot, s.hasMenc = true → slot ≠ 0 → part < s.nparts → s.keyOk (s.lowestDie part) slot = true → (∀ x ∈ s.harts, ∀ e ∈ x.2.l1, e.2.key ≠ slot) →
          ∃ t, exec (.keyslot part slot) s = .next t ∧ t.sec.status = 0 ∧ t.keyGenOf slot = s.keyGenOf slot + 1 ∧ (∀ i, i ≠ slot → t.keyGenOf i = s.keyGenOf i) ∧ t.mem = s.mem ∧ t.harts = s.harts)
      ∧ (∀ pa len, 0 < len → pa + len ≤ 2 ^ 37 →
          exec (.imgload 0 pa len) s = .next { s with sec := { s.sec with status := 1, loading := some ((List.range len).map fun i => s.byteAt (pa + i)) } })
      ∧ (∃ t, exec .restart s = .next t ∧ t.sec.stage = .rom ∧ t.sec.failrun = 1 ∧ t.sec.toDecaf = false ∧ t.harts = [] ∧ t.mem = [] ∧ t.time = 0 ∧ t.sec.starts = s.sec.starts + 1))
    ∧ (s.sec.loading.isSome = true → exec (.sessclose part die n) s = .next { s with sec := { s.sec with cmds := [.sessclose part die n] } }
        ∧ ∀ slot, exec (.keyslot part slot) s = .next { s with sec := { s.sec with cmds := [.keyslot part slot] } })
    ∧ (∀ temp, die < s.ndie → 100 ≤ temp → ∃ t, exec (.bindingStop die temp) s = .next t ∧ (t.dieAt die).bindStop = true ∧ SameRegisters s t)
    ∧ (∀ temp, temp < 100 → exec (.bindingStop die temp) s = .next s)
    ∧ (∀ temp, die < s.ndie → temp < 95 → ∃ t, exec (.bindingResume die temp) s = .next t ∧ (t.dieAt die).bindStop = false ∧ SameRegisters s t)
    ∧ (∀ temp, 95 ≤ temp → exec (.bindingResume die temp) s = .next s)
    ∧ (∀ temp, die < s.ndie → 110 ≤ temp → ∃ t, exec (.powerRemoval die temp) s = .next t ∧ t.sec.stage = .off ∧ t.mem = [] ∧ t.harts = [])

/-- The start sequence, the security mailbox and the thermal limits. -/
def Obligations.StartAndSecurity : Prop := Sys2Proof.Spec.StartSequence ∧ Sys2Proof.Spec.SecurityAndTemperature

end
end

