-- ==== Sys2Proof/Laws/Encode.lean ====
section
/-! SUPPORT. Bounds of the codes and words of the encoder. -/

namespace Sys2Proof

theorem WF.parts_le (k : PackW) : WF.parts k ≤ 8 := by cases k <;> decide
theorem Enc.cond_lt (k : Cond) : Enc.cond k < 16 := by cases k <;> decide
theorem Enc.xwidth_lt (k : XWidth) : Enc.xwidth k < 4 := by cases k <;> decide
theorem Enc.brCnd_lt (k : BrCnd) : Enc.brCnd k < 8 := by cases k <;> decide
theorem Enc.bankMode_lt (k : BankMode) : Enc.bankMode k < 4 := by cases k <;> decide
theorem Enc.rm_lt (k : Rm) : Enc.rm k < 4 := by cases k <;> decide
theorem Enc.fcond_lt (k : FCond) : Enc.fcond k < 8 := by cases k <;> decide
theorem Enc.sat_lt (k : Sat) : Enc.sat k < 8 := by cases k <;> decide
theorem Enc.elem_lt (k : Elem) : Enc.elem k < 8 := by cases k <;> decide
theorem Enc.cvtPair_lt (k : CvtPair) : Enc.cvtPair k < 64 := by cases k <;> decide
theorem Enc.packW_lt (k : PackW) : Enc.packW k < 4 := by cases k <;> decide
theorem Enc.shuf_lt (k : Shuf) : Enc.shuf k < 8 := by cases k <;> decide
theorem Enc.redOp_lt (k : RedOp) : Enc.redOp k < 8 := by cases k <;> decide
theorem Enc.extForm_lt (k : ExtForm) : Enc.extForm k < 8 := by cases k <;> decide
theorem Enc.hadN_lt (k : HadN) : Enc.hadN k < 8 := by cases k <;> decide
theorem Enc.rngOut_lt (k : RngOut) : Enc.rngOut k < 8 := by cases k <;> decide
theorem Enc.space_lt (k : Space) : Enc.space k < 4 := by cases k <;> decide
theorem Enc.size_lt (k : Size) : Enc.size k < 8 := by cases k <;> decide
theorem Enc.size_lt4 (k : Size) : Enc.size k < 4 := by cases k <;> decide
theorem Enc.amoOp_lt (k : AmoOp) : Enc.amoOp k < 16 := by cases k <;> decide
theorem Enc.scope_lt (k : Scope) : Enc.scope k < 8 := by cases k <;> decide
theorem Enc.order_lt (k : Order) : Enc.order k < 16 := by
  cases k with
  | rlx => decide
  | acq s => cases s <;> decide
  | rel s => cases s <;> decide
  | ar s => cases s <;> decide
theorem Enc.relOnly_lt (k : Option Scope) : Enc.relOnly k < 16 := by
  cases k with
  | none => decide
  | some s => cases s <;> decide
theorem Enc.codec_lt (k : Codec) : Enc.codec k < 4 := by cases k <;> decide
theorem Enc.feQ_lt (k : FeQ) : Enc.feQ k < 4 := by cases k <;> decide
theorem Enc.bit_lt (b : Bool) : Enc.bit b < 2 := by cases b <;> decide
theorem Enc.spReg_lt (r : SpReg) (h : WF.sp r = true) : Enc.spReg r < 4096 := by
  cases r <;> simp_all [Enc.spReg, WF.sp] <;> omega
theorem Enc.pReg_lt (r : PReg) (h : WF.priv r = true) : Enc.pReg r < 4096 := by
  cases r <;> simp_all [Enc.pReg, WF.priv] <;> omega

/-- A word of the RRR class has 64 bits. -/
theorem Enc.rrr_lt {o d a b c m : Nat} (ho : o < 256) (hd : d < 64) (ha : a < 64) (hb : b < 64) (hc : c < 64) (hm : m < 256) :
    Enc.rrr o d a b c m < 2 ^ 64 := by simp only [Enc.rrr]; omega
theorem Enc.ri_lt {o d a : Nat} (v : BitVec 32) (ho : o < 256) (hd : d < 64) (ha : a < 64) : Enc.ri o d a v < 2 ^ 64 := by
  have := v.isLt; simp only [Enc.ri]; omega
theorem Enc.rim_lt {o d a : Nat} (v : Imm) (ho : o < 256) (hd : d < 64) (ha : a < 64) : Enc.rim o d a v < 2 ^ 64 := by
  cases v
  · exact Enc.ri_lt _ ho hd ha
  · simp only [Enc.rim]; omega
theorem Enc.mem_lt {o d md land : Nat} {m : Mem} (ho : o < 256) (hd : d < 64) (hb : m.base < 64) (hi : m.idx < 64) (hm : md < 256) (hl : land < 4096) :
    Enc.mem o d m md land < 2 ^ 64 := by have := m.off.isLt; simp only [Enc.mem]; omega
theorem Enc.memMod_lt (sp : Space) (zx : Bool) {z fe : Nat} (hz : z < 4) (hf : fe < 4) : Enc.memMod sp z zx fe < 256 := by
  have := Enc.space_lt sp
  have := Enc.bit_lt zx
  simp only [Enc.memMod]; omega
theorem Enc.wc_lt (w c : Bool) : Enc.bit w * 2 + Enc.bit c < 4 := by cases w <;> cases c <;> decide
theorem Enc.vmod_lt {s m k : Nat} (hs : s < 2) (hm : m < 16) (hk : k < 8) : Enc.vmod s m k < 256 := by simp only [Enc.vmod]; omega
theorem Enc.vab_lt {o d a c m k : Nat} {b : VB} (ho : o < 256) (hd : d < 64) (ha : a < 64) (hb : WF.vb b = true) (hc : c < 64) (hm : m < 16) (hk : k < 8) :
    Enc.vab o d a b c m k < 2 ^ 64 := by
  cases b <;> simp only [WF.vb, decide_eq_true_eq] at hb <;> simp only [Enc.vab]
  · exact Enc.rrr_lt ho hd ha hb hc (Enc.vmod_lt (by omega) hm hk)
  · exact Enc.rrr_lt ho hd ha (by omega) hc (Enc.vmod_lt (by omega) hm hk)
theorem Enc.engm_lt {o d a b c e mc md : Nat} (ho : o < 256) (hd : d < 64) (ha : a < 64) (hb : b < 64) (hc : c < 64) (he : e < 64) (hm : mc < 8)
    (hmd : md < 32) : Enc.engm o d a b c e mc md < 2 ^ 64 := by simp only [Enc.engm]; omega
theorem Enc.engc_lt {o f0 f1 f2 md land f3 pd : Nat} (ho : o < 256) (h0 : f0 < 64) (h1 : f1 < 64) (h2 : f2 < 64) (hm : md < 256) (hl : land < 4096)
    (h3 : f3 < 64) (hp : pd < 16) : Enc.engc o f0 f1 f2 md land f3 pd < 2 ^ 64 := by simp only [Enc.engc]; omega
theorem Enc.y_lt {o a b xi sc pd imm : Nat} (ho : o < 64) (ha : a < 64) (hb : b < 64) (hx : xi < 2) (hs : sc < 8) (hp : pd < 16) (hi : imm < 131072) :
    Enc.y o a b xi sc pd imm < 2 ^ 48 := by simp only [Enc.y]; omega
theorem Enc.yix_lt {o a sc pd : Nat} {i : BarIx} (ho : o < 64) (ha : a < 64) (hi : WF.ix i = true) (hs : sc < 8) (hp : pd < 16) :
    Enc.yix o a i sc pd < 2 ^ 48 := by
  cases i <;> simp only [WF.ix, decide_eq_true_eq] at hi <;> simp only [Enc.yix] <;>
    exact Enc.y_lt ho ha (by omega) (by omega) hs hp (by omega)

end Sys2Proof
end

