-- ==== Sys2Proof/Laws/Tab.lean ====
section
/-! SUPPORT. What the operations on sparse tables do: a read after a write, and that they keep the canonical form. -/

namespace Sys2Proof.Machine

variable {α : Type}

@[simp] theorem Tab.get_nil (d : α) (n : Nat) : Tab.get d [] n = d := rfl
@[simp] theorem Tab.find_nil (n : Nat) : Tab.find ([] : Tab α) n = none := rfl
theorem Tab.get_cons (d : α) (k : Nat) (v : α) (t : Tab α) (n : Nat) : Tab.get d ((k, v) :: t) n = if n = k then v else Tab.get d t n := rfl
theorem Tab.find_cons (k : Nat) (v : α) (t : Tab α) (n : Nat) : Tab.find ((k, v) :: t) n = if n = k then some v else Tab.find t n := rfl

/-- A read is the entry found, else the default. -/
theorem Tab.get_eq_find (d : α) (t : Tab α) (n : Nat) : Tab.get d t n = (Tab.find t n).getD d := by
  induction t with
  | nil => rfl
  | cons e t ih => obtain ⟨k, v⟩ := e; simp only [Tab.get, Tab.find]; split <;> simp [ih]

/-- Every key of a table above b is greater than b. -/
theorem Tab.find_of_above {t : Tab α} {b : Nat} (h : Tab.above (some b) t = true) {n : Nat} (hn : n ≤ b) : Tab.find t n = none := by
  induction t generalizing b with
  | nil => rfl
  | cons e t ih =>
    obtain ⟨k, v⟩ := e
    simp only [Tab.above, Bool.and_eq_true, decide_eq_true_eq] at h
    simp only [Tab.find]
    rw [if_neg (by omega)]
    exact ih h.2 (by omega)

theorem Tab.above_mono {t : Tab α} {a b : Nat} (h : Tab.above (some b) t = true) (hab : a ≤ b) : Tab.above (some a) t = true := by
  cases t with
  | nil => rfl
  | cons e t =>
    obtain ⟨k, v⟩ := e
    simp only [Tab.above, Bool.and_eq_true, decide_eq_true_eq] at h ⊢
    exact ⟨by omega, h.2⟩

theorem Tab.above_none {t : Tab α} {b : Option Nat} (h : Tab.above b t = true) : Tab.above none t = true := by
  cases t with
  | nil => rfl
  | cons e t => obtain ⟨k, v⟩ := e; cases b <;> simp_all [Tab.above]

/-- A read after a write to the same key gives the value written. -/
@[simp] theorem Tab.find_put (t : Tab α) (n : Nat) (x : α) : Tab.find (Tab.put t n x) n = some x := by
  induction t with
  | nil => simp [Tab.put, Tab.find]
  | cons e t ih =>
    obtain ⟨k, v⟩ := e
    simp only [Tab.put]
    split
    · simp [Tab.find]
    · split
      · simp [Tab.find]
      · rename_i h; simp [Tab.find, h, ih]

/-- A write leaves every other key alone. -/
theorem Tab.find_put_ne (t : Tab α) {n m : Nat} (x : α) (h : m ≠ n) : Tab.find (Tab.put t n x) m = Tab.find t m := by
  induction t with
  | nil => simp [Tab.put, Tab.find, h]
  | cons e t ih =>
    obtain ⟨k, v⟩ := e
    simp only [Tab.put]
    split
    · simp [Tab.find, h]
    · split
      · rename_i hk; subst hk; simp [Tab.find, h]
      · simp [Tab.find, ih]

@[simp] theorem Tab.get_put (d : α) (t : Tab α) (n : Nat) (x : α) : Tab.get d (Tab.put t n x) n = x := by simp [Tab.get_eq_find]
theorem Tab.get_put_ne (d : α) (t : Tab α) {n m : Nat} (x : α) (h : m ≠ n) : Tab.get d (Tab.put t n x) m = Tab.get d t m := by
  simp [Tab.get_eq_find, Tab.find_put_ne t x h]

theorem Tab.above_put {t : Tab α} {b : Option Nat} {n : Nat} (x : α) (h : Tab.above b t = true) (hn : ∀ m, b = some m → m < n) :
    Tab.above b (Tab.put t n x) = true := by
  induction t generalizing b with
  | nil => cases b <;> simp_all [Tab.put, Tab.above]
  | cons e t ih =>
    obtain ⟨k, v⟩ := e
    simp only [Tab.above, Bool.and_eq_true] at h
    simp only [Tab.put]
    split
    · rename_i hk
      simp only [Tab.above, Bool.and_eq_true]
      refine ⟨?_, by simpa using hk, h.2⟩
      cases b with
      | none => rfl
      | some m => simpa using hn m rfl
    · split
      · rename_i hk; subst hk; simp only [Tab.above, Bool.and_eq_true]; exact h
      · rename_i h1 h2
        simp only [Tab.above, Bool.and_eq_true]
        exact ⟨h.1, ih h.2 (fun m hm => by injection hm with hm; omega)⟩

theorem Tab.above_del {t : Tab α} {b : Option Nat} (n : Nat) (h : Tab.above b t = true) : Tab.above b (Tab.del t n) = true := by
  induction t generalizing b with
  | nil => rfl
  | cons e t ih =>
    obtain ⟨k, v⟩ := e
    simp only [Tab.above, Bool.and_eq_true] at h
    simp only [Tab.del]
    split
    · cases b with
      | none => exact ih (Tab.above_none h.2)
      | some m => exact ih (Tab.above_mono h.2 (by have := h.1; simp at this; omega))
    · simp only [Tab.above, Bool.and_eq_true]; exact ⟨h.1, ih h.2⟩

/-- After a key is dropped nothing is found there, and every other key is left alone. -/
theorem Tab.find_del (t : Tab α) (n m : Nat) : Tab.find (Tab.del t n) m = if m = n then none else Tab.find t m := by
  induction t with
  | nil => simp [Tab.del, Tab.find]
  | cons e t ih =>
    obtain ⟨k, v⟩ := e
    simp only [Tab.del]
    by_cases hk : n = k
    · subst hk
      simp only [if_true, ih, Tab.find]
      split <;> rfl
    · simp only [if_neg hk, Tab.find, ih]
      split
      · rename_i hm; subst hm
        rw [if_neg (fun hh => hk hh.symm)]
      · rfl

variable [DecidableEq α]

theorem Tab.mem_put {t : Tab α} {n : Nat} {x : α} {e : Nat × α} (h : e ∈ Tab.put t n x) : e = (n, x) ∨ e ∈ t := by
  induction t with
  | nil => simpa [Tab.put] using h
  | cons f t ih =>
    obtain ⟨k, v⟩ := f
    simp only [Tab.put] at h
    split at h
    · simpa using h
    · split at h
      · rcases List.mem_cons.1 h with h | h
        · exact .inl h
        · exact .inr (List.mem_cons_of_mem _ h)
      · rcases List.mem_cons.1 h with h | h
        · exact .inr (by simp [h])
        · rcases ih h with h | h
          · exact .inl h
          · exact .inr (List.mem_cons_of_mem _ h)

theorem Tab.mem_del {t : Tab α} {n : Nat} {e : Nat × α} (h : e ∈ Tab.del t n) : e ∈ t := by
  induction t with
  | nil => simpa [Tab.del] using h
  | cons f t ih =>
    obtain ⟨k, v⟩ := f
    simp only [Tab.del] at h
    split at h
    · exact List.mem_cons_of_mem _ (ih h)
    · rcases List.mem_cons.1 h with h | h
      · simp [h]
      · exact List.mem_cons_of_mem _ (ih h)

/-- A write keeps the canonical form. -/
theorem Tab.wf_set {d : α} {t : Tab α} (h : Tab.wf d t = true) (n : Nat) (x : α) : Tab.wf d (Tab.set d t n x) = true := by
  simp only [Tab.wf, Bool.and_eq_true, List.all_eq_true] at h ⊢
  simp only [Tab.set]
  split
  · exact ⟨Tab.above_del n h.1, fun e he => h.2 e (Tab.mem_del he)⟩
  · rename_i hx
    refine ⟨Tab.above_put x h.1 (by simp), fun e he => ?_⟩
    rcases Tab.mem_put he with he | he
    · subst he; simpa using hx
    · exact h.2 e he

/-- A read after a write. -/
theorem Tab.get_set (d : α) (t : Tab α) (n m : Nat) (x : α) :
    Tab.get d (Tab.set d t n x) m = if m = n then x else Tab.get d t m := by
  simp only [Tab.set]
  split
  · rename_i hx
    simp only [Tab.get_eq_find, Tab.find_del]
    split
    · simp [hx]
    · rfl
  · split
    · rename_i hm; subst hm; simp
    · rename_i hm; exact Tab.get_put_ne d t x hm

end Sys2Proof.Machine
end

