-- ==== Sys2Proof/Laws/State.lean ====
section
/-! SUPPORT. What the updates of State leave of each field: one lemma per field and update. -/

namespace Sys2Proof.Machine

variable (s : State)

/-! ### setHart -/

@[simp] theorem State.setHart_time (k : Nat) (x : Hart) : (s.setHart k x).time = s.time := rfl
@[simp] theorem State.setHart_harts (k : Nat) (x : Hart) : (s.setHart k x).harts = Tab.put s.harts k x := rfl
@[simp] theorem State.setHart_cur (k : Nat) (x : Hart) : (s.setHart k x).cur = s.cur := rfl
@[simp] theorem State.setHart_turn (k : Nat) (x : Hart) : (s.setHart k x).turn = s.turn := rfl
@[simp] theorem State.setHart_mem (k : Nat) (x : Hart) : (s.setHart k x).mem = s.mem := rfl
@[simp] theorem State.setHart_msc (k : Nat) (x : Hart) : (s.setHart k x).msc = s.msc := rfl
@[simp] theorem State.setHart_bad (k : Nat) (x : Hart) : (s.setHart k x).bad = s.bad := rfl
@[simp] theorem State.setHart_corr (k : Nat) (x : Hart) : (s.setHart k x).corr = s.corr := rfl
@[simp] theorem State.setHart_sealed_ (k : Nat) (x : Hart) : (s.setHart k x).sealed_ = s.sealed_ := rfl
@[simp] theorem State.setHart_away (k : Nat) (x : Hart) : (s.setHart k x).away = s.away := rfl
@[simp] theorem State.setHart_monitors (k : Nat) (x : Hart) : (s.setHart k x).monitors = s.monitors := rfl
@[simp] theorem State.setHart_clearing (k : Nat) (x : Hart) : (s.setHart k x).clearing = s.clearing := rfl
@[simp] theorem State.setHart_tlb (k : Nat) (x : Hart) : (s.setHart k x).tlb = s.tlb := rfl
@[simp] theorem State.setHart_msgs (k : Nat) (x : Hart) : (s.setHart k x).msgs = s.msgs := rfl
@[simp] theorem State.setHart_dooms (k : Nat) (x : Hart) : (s.setHart k x).dooms = s.dooms := rfl
@[simp] theorem State.setHart_slices (k : Nat) (x : Hart) : (s.setHart k x).slices = s.slices := rfl
@[simp] theorem State.setHart_execs (k : Nat) (x : Hart) : (s.setHart k x).execs = s.execs := rfl
@[simp] theorem State.setHart_engines (k : Nat) (x : Hart) : (s.setHart k x).engines = s.engines := rfl
@[simp] theorem State.setHart_launches (k : Nat) (x : Hart) : (s.setHart k x).launches = s.launches := rfl
@[simp] theorem State.setHart_boundAt (k : Nat) (x : Hart) : (s.setHart k x).boundAt = s.boundAt := rfl
@[simp] theorem State.setHart_nextLid (k : Nat) (x : Hart) : (s.setHart k x).nextLid = s.nextLid := rfl
@[simp] theorem State.setHart_nextOrder (k : Nat) (x : Hart) : (s.setHart k x).nextOrder = s.nextOrder := rfl
@[simp] theorem State.setHart_policies (k : Nat) (x : Hart) : (s.setHart k x).policies = s.policies := rfl
@[simp] theorem State.setHart_dies (k : Nat) (x : Hart) : (s.setHart k x).dies = s.dies := rfl
@[simp] theorem State.setHart_links (k : Nat) (x : Hart) : (s.setHart k x).links = s.links := rfl
@[simp] theorem State.setHart_nparts (k : Nat) (x : Hart) : (s.setHart k x).nparts = s.nparts := rfl
@[simp] theorem State.setHart_described (k : Nat) (x : Hart) : (s.setHart k x).described = s.described := rfl
@[simp] theorem State.setHart_feat (k : Nat) (x : Hart) : (s.setHart k x).feat = s.feat := rfl
@[simp] theorem State.setHart_sec (k : Nat) (x : Hart) : (s.setHart k x).sec = s.sec := rfl
@[simp] theorem State.setHart_hostMem (k : Nat) (x : Hart) : (s.setHart k x).hostMem = s.hostMem := rfl
@[simp] theorem State.setHart_netOut (k : Nat) (x : Hart) : (s.setHart k x).netOut = s.netOut := rfl
@[simp] theorem State.setHart_netIn (k : Nat) (x : Hart) : (s.setHart k x).netIn = s.netIn := rfl
@[simp] theorem State.setHart_netHeld (k : Nat) (x : Hart) : (s.setHart k x).netHeld = s.netHeld := rfl
@[simp] theorem State.setHart_hostIn (k : Nat) (x : Hart) : (s.setHart k x).hostIn = s.hostIn := rfl
@[simp] theorem State.setHart_hostRmw (k : Nat) (x : Hart) : (s.setHart k x).hostRmw = s.hostRmw := rfl
@[simp] theorem State.setHart_inputs (k : Nat) (x : Hart) : (s.setHart k x).inputs = s.inputs := rfl
@[simp] theorem State.setHart_nextId (k : Nat) (x : Hart) : (s.setHart k x).nextId = s.nextId := rfl
@[simp] theorem State.setHart_nfree (k : Nat) (x : Hart) : (s.setHart k x).nfree = s.nfree := rfl
@[simp] theorem State.setHart_nchoice (k : Nat) (x : Hart) : (s.setHart k x).nchoice = s.nchoice := rfl
@[simp] theorem State.setHart_ntlb (k : Nat) (x : Hart) : (s.setHart k x).ntlb = s.ntlb := rfl

/-! ### setDie -/

@[simp] theorem State.setDie_time (d : Nat) (x : Die) : (s.setDie d x).time = s.time := rfl
@[simp] theorem State.setDie_harts (d : Nat) (x : Die) : (s.setDie d x).harts = s.harts := rfl
@[simp] theorem State.setDie_cur (d : Nat) (x : Die) : (s.setDie d x).cur = s.cur := rfl
@[simp] theorem State.setDie_turn (d : Nat) (x : Die) : (s.setDie d x).turn = s.turn := rfl
@[simp] theorem State.setDie_mem (d : Nat) (x : Die) : (s.setDie d x).mem = s.mem := rfl
@[simp] theorem State.setDie_msc (d : Nat) (x : Die) : (s.setDie d x).msc = s.msc := rfl
@[simp] theorem State.setDie_bad (d : Nat) (x : Die) : (s.setDie d x).bad = s.bad := rfl
@[simp] theorem State.setDie_corr (d : Nat) (x : Die) : (s.setDie d x).corr = s.corr := rfl
@[simp] theorem State.setDie_sealed_ (d : Nat) (x : Die) : (s.setDie d x).sealed_ = s.sealed_ := rfl
@[simp] theorem State.setDie_away (d : Nat) (x : Die) : (s.setDie d x).away = s.away := rfl
@[simp] theorem State.setDie_monitors (d : Nat) (x : Die) : (s.setDie d x).monitors = s.monitors := rfl
@[simp] theorem State.setDie_clearing (d : Nat) (x : Die) : (s.setDie d x).clearing = s.clearing := rfl
@[simp] theorem State.setDie_tlb (d : Nat) (x : Die) : (s.setDie d x).tlb = s.tlb := rfl
@[simp] theorem State.setDie_msgs (d : Nat) (x : Die) : (s.setDie d x).msgs = s.msgs := rfl
@[simp] theorem State.setDie_dooms (d : Nat) (x : Die) : (s.setDie d x).dooms = s.dooms := rfl
@[simp] theorem State.setDie_slices (d : Nat) (x : Die) : (s.setDie d x).slices = s.slices := rfl
@[simp] theorem State.setDie_execs (d : Nat) (x : Die) : (s.setDie d x).execs = s.execs := rfl
@[simp] theorem State.setDie_engines (d : Nat) (x : Die) : (s.setDie d x).engines = s.engines := rfl
@[simp] theorem State.setDie_launches (d : Nat) (x : Die) : (s.setDie d x).launches = s.launches := rfl
@[simp] theorem State.setDie_boundAt (d : Nat) (x : Die) : (s.setDie d x).boundAt = s.boundAt := rfl
@[simp] theorem State.setDie_nextLid (d : Nat) (x : Die) : (s.setDie d x).nextLid = s.nextLid := rfl
@[simp] theorem State.setDie_nextOrder (d : Nat) (x : Die) : (s.setDie d x).nextOrder = s.nextOrder := rfl
@[simp] theorem State.setDie_policies (d : Nat) (x : Die) : (s.setDie d x).policies = s.policies := rfl
@[simp] theorem State.setDie_dies (d : Nat) (x : Die) : (s.setDie d x).dies = Tab.put s.dies d x := rfl
@[simp] theorem State.setDie_links (d : Nat) (x : Die) : (s.setDie d x).links = s.links := rfl
@[simp] theorem State.setDie_nparts (d : Nat) (x : Die) : (s.setDie d x).nparts = s.nparts := rfl
@[simp] theorem State.setDie_described (d : Nat) (x : Die) : (s.setDie d x).described = s.described := rfl
@[simp] theorem State.setDie_feat (d : Nat) (x : Die) : (s.setDie d x).feat = s.feat := rfl
@[simp] theorem State.setDie_sec (d : Nat) (x : Die) : (s.setDie d x).sec = s.sec := rfl
@[simp] theorem State.setDie_hostMem (d : Nat) (x : Die) : (s.setDie d x).hostMem = s.hostMem := rfl
@[simp] theorem State.setDie_netOut (d : Nat) (x : Die) : (s.setDie d x).netOut = s.netOut := rfl
@[simp] theorem State.setDie_netIn (d : Nat) (x : Die) : (s.setDie d x).netIn = s.netIn := rfl
@[simp] theorem State.setDie_netHeld (d : Nat) (x : Die) : (s.setDie d x).netHeld = s.netHeld := rfl
@[simp] theorem State.setDie_hostIn (d : Nat) (x : Die) : (s.setDie d x).hostIn = s.hostIn := rfl
@[simp] theorem State.setDie_hostRmw (d : Nat) (x : Die) : (s.setDie d x).hostRmw = s.hostRmw := rfl
@[simp] theorem State.setDie_inputs (d : Nat) (x : Die) : (s.setDie d x).inputs = s.inputs := rfl
@[simp] theorem State.setDie_nextId (d : Nat) (x : Die) : (s.setDie d x).nextId = s.nextId := rfl
@[simp] theorem State.setDie_nfree (d : Nat) (x : Die) : (s.setDie d x).nfree = s.nfree := rfl
@[simp] theorem State.setDie_nchoice (d : Nat) (x : Die) : (s.setDie d x).nchoice = s.nchoice := rfl
@[simp] theorem State.setDie_ntlb (d : Nat) (x : Die) : (s.setDie d x).ntlb = s.ntlb := rfl

/-! ### setSlice -/

@[simp] theorem State.setSlice_time (k : Nat) (x : Slice) : (s.setSlice k x).time = s.time := rfl
@[simp] theorem State.setSlice_harts (k : Nat) (x : Slice) : (s.setSlice k x).harts = s.harts := rfl
@[simp] theorem State.setSlice_cur (k : Nat) (x : Slice) : (s.setSlice k x).cur = s.cur := rfl
@[simp] theorem State.setSlice_turn (k : Nat) (x : Slice) : (s.setSlice k x).turn = s.turn := rfl
@[simp] theorem State.setSlice_mem (k : Nat) (x : Slice) : (s.setSlice k x).mem = s.mem := rfl
@[simp] theorem State.setSlice_msc (k : Nat) (x : Slice) : (s.setSlice k x).msc = s.msc := rfl
@[simp] theorem State.setSlice_bad (k : Nat) (x : Slice) : (s.setSlice k x).bad = s.bad := rfl
@[simp] theorem State.setSlice_corr (k : Nat) (x : Slice) : (s.setSlice k x).corr = s.corr := rfl
@[simp] theorem State.setSlice_sealed_ (k : Nat) (x : Slice) : (s.setSlice k x).sealed_ = s.sealed_ := rfl
@[simp] theorem State.setSlice_away (k : Nat) (x : Slice) : (s.setSlice k x).away = s.away := rfl
@[simp] theorem State.setSlice_monitors (k : Nat) (x : Slice) : (s.setSlice k x).monitors = s.monitors := rfl
@[simp] theorem State.setSlice_clearing (k : Nat) (x : Slice) : (s.setSlice k x).clearing = s.clearing := rfl
@[simp] theorem State.setSlice_tlb (k : Nat) (x : Slice) : (s.setSlice k x).tlb = s.tlb := rfl
@[simp] theorem State.setSlice_msgs (k : Nat) (x : Slice) : (s.setSlice k x).msgs = s.msgs := rfl
@[simp] theorem State.setSlice_dooms (k : Nat) (x : Slice) : (s.setSlice k x).dooms = s.dooms := rfl
@[simp] theorem State.setSlice_slices (k : Nat) (x : Slice) : (s.setSlice k x).slices = Tab.put s.slices k x := rfl
@[simp] theorem State.setSlice_execs (k : Nat) (x : Slice) : (s.setSlice k x).execs = s.execs := rfl
@[simp] theorem State.setSlice_engines (k : Nat) (x : Slice) : (s.setSlice k x).engines = s.engines := rfl
@[simp] theorem State.setSlice_launches (k : Nat) (x : Slice) : (s.setSlice k x).launches = s.launches := rfl
@[simp] theorem State.setSlice_boundAt (k : Nat) (x : Slice) : (s.setSlice k x).boundAt = s.boundAt := rfl
@[simp] theorem State.setSlice_nextLid (k : Nat) (x : Slice) : (s.setSlice k x).nextLid = s.nextLid := rfl
@[simp] theorem State.setSlice_nextOrder (k : Nat) (x : Slice) : (s.setSlice k x).nextOrder = s.nextOrder := rfl
@[simp] theorem State.setSlice_policies (k : Nat) (x : Slice) : (s.setSlice k x).policies = s.policies := rfl
@[simp] theorem State.setSlice_dies (k : Nat) (x : Slice) : (s.setSlice k x).dies = s.dies := rfl
@[simp] theorem State.setSlice_links (k : Nat) (x : Slice) : (s.setSlice k x).links = s.links := rfl
@[simp] theorem State.setSlice_nparts (k : Nat) (x : Slice) : (s.setSlice k x).nparts = s.nparts := rfl
@[simp] theorem State.setSlice_described (k : Nat) (x : Slice) : (s.setSlice k x).described = s.described := rfl
@[simp] theorem State.setSlice_feat (k : Nat) (x : Slice) : (s.setSlice k x).feat = s.feat := rfl
@[simp] theorem State.setSlice_sec (k : Nat) (x : Slice) : (s.setSlice k x).sec = s.sec := rfl
@[simp] theorem State.setSlice_hostMem (k : Nat) (x : Slice) : (s.setSlice k x).hostMem = s.hostMem := rfl
@[simp] theorem State.setSlice_netOut (k : Nat) (x : Slice) : (s.setSlice k x).netOut = s.netOut := rfl
@[simp] theorem State.setSlice_netIn (k : Nat) (x : Slice) : (s.setSlice k x).netIn = s.netIn := rfl
@[simp] theorem State.setSlice_netHeld (k : Nat) (x : Slice) : (s.setSlice k x).netHeld = s.netHeld := rfl
@[simp] theorem State.setSlice_hostIn (k : Nat) (x : Slice) : (s.setSlice k x).hostIn = s.hostIn := rfl
@[simp] theorem State.setSlice_hostRmw (k : Nat) (x : Slice) : (s.setSlice k x).hostRmw = s.hostRmw := rfl
@[simp] theorem State.setSlice_inputs (k : Nat) (x : Slice) : (s.setSlice k x).inputs = s.inputs := rfl
@[simp] theorem State.setSlice_nextId (k : Nat) (x : Slice) : (s.setSlice k x).nextId = s.nextId := rfl
@[simp] theorem State.setSlice_nfree (k : Nat) (x : Slice) : (s.setSlice k x).nfree = s.nfree := rfl
@[simp] theorem State.setSlice_nchoice (k : Nat) (x : Slice) : (s.setSlice k x).nchoice = s.nchoice := rfl
@[simp] theorem State.setSlice_ntlb (k : Nat) (x : Slice) : (s.setSlice k x).ntlb = s.ntlb := rfl

/-! ### setLaunch -/

@[simp] theorem State.setLaunch_time (l : Nat) (x : Launch) : (s.setLaunch l x).time = s.time := rfl
@[simp] theorem State.setLaunch_harts (l : Nat) (x : Launch) : (s.setLaunch l x).harts = s.harts := rfl
@[simp] theorem State.setLaunch_cur (l : Nat) (x : Launch) : (s.setLaunch l x).cur = s.cur := rfl
@[simp] theorem State.setLaunch_turn (l : Nat) (x : Launch) : (s.setLaunch l x).turn = s.turn := rfl
@[simp] theorem State.setLaunch_mem (l : Nat) (x : Launch) : (s.setLaunch l x).mem = s.mem := rfl
@[simp] theorem State.setLaunch_msc (l : Nat) (x : Launch) : (s.setLaunch l x).msc = s.msc := rfl
@[simp] theorem State.setLaunch_bad (l : Nat) (x : Launch) : (s.setLaunch l x).bad = s.bad := rfl
@[simp] theorem State.setLaunch_corr (l : Nat) (x : Launch) : (s.setLaunch l x).corr = s.corr := rfl
@[simp] theorem State.setLaunch_sealed_ (l : Nat) (x : Launch) : (s.setLaunch l x).sealed_ = s.sealed_ := rfl
@[simp] theorem State.setLaunch_away (l : Nat) (x : Launch) : (s.setLaunch l x).away = s.away := rfl
@[simp] theorem State.setLaunch_monitors (l : Nat) (x : Launch) : (s.setLaunch l x).monitors = s.monitors := rfl
@[simp] theorem State.setLaunch_clearing (l : Nat) (x : Launch) : (s.setLaunch l x).clearing = s.clearing := rfl
@[simp] theorem State.setLaunch_tlb (l : Nat) (x : Launch) : (s.setLaunch l x).tlb = s.tlb := rfl
@[simp] theorem State.setLaunch_msgs (l : Nat) (x : Launch) : (s.setLaunch l x).msgs = s.msgs := rfl
@[simp] theorem State.setLaunch_dooms (l : Nat) (x : Launch) : (s.setLaunch l x).dooms = s.dooms := rfl
@[simp] theorem State.setLaunch_slices (l : Nat) (x : Launch) : (s.setLaunch l x).slices = s.slices := rfl
@[simp] theorem State.setLaunch_execs (l : Nat) (x : Launch) : (s.setLaunch l x).execs = s.execs := rfl
@[simp] theorem State.setLaunch_engines (l : Nat) (x : Launch) : (s.setLaunch l x).engines = s.engines := rfl
@[simp] theorem State.setLaunch_launches (l : Nat) (x : Launch) : (s.setLaunch l x).launches = Tab.put s.launches l x := rfl
@[simp] theorem State.setLaunch_boundAt (l : Nat) (x : Launch) : (s.setLaunch l x).boundAt = s.boundAt := rfl
@[simp] theorem State.setLaunch_nextLid (l : Nat) (x : Launch) : (s.setLaunch l x).nextLid = s.nextLid := rfl
@[simp] theorem State.setLaunch_nextOrder (l : Nat) (x : Launch) : (s.setLaunch l x).nextOrder = s.nextOrder := rfl
@[simp] theorem State.setLaunch_policies (l : Nat) (x : Launch) : (s.setLaunch l x).policies = s.policies := rfl
@[simp] theorem State.setLaunch_dies (l : Nat) (x : Launch) : (s.setLaunch l x).dies = s.dies := rfl
@[simp] theorem State.setLaunch_links (l : Nat) (x : Launch) : (s.setLaunch l x).links = s.links := rfl
@[simp] theorem State.setLaunch_nparts (l : Nat) (x : Launch) : (s.setLaunch l x).nparts = s.nparts := rfl
@[simp] theorem State.setLaunch_described (l : Nat) (x : Launch) : (s.setLaunch l x).described = s.described := rfl
@[simp] theorem State.setLaunch_feat (l : Nat) (x : Launch) : (s.setLaunch l x).feat = s.feat := rfl
@[simp] theorem State.setLaunch_sec (l : Nat) (x : Launch) : (s.setLaunch l x).sec = s.sec := rfl
@[simp] theorem State.setLaunch_hostMem (l : Nat) (x : Launch) : (s.setLaunch l x).hostMem = s.hostMem := rfl
@[simp] theorem State.setLaunch_netOut (l : Nat) (x : Launch) : (s.setLaunch l x).netOut = s.netOut := rfl
@[simp] theorem State.setLaunch_netIn (l : Nat) (x : Launch) : (s.setLaunch l x).netIn = s.netIn := rfl
@[simp] theorem State.setLaunch_netHeld (l : Nat) (x : Launch) : (s.setLaunch l x).netHeld = s.netHeld := rfl
@[simp] theorem State.setLaunch_hostIn (l : Nat) (x : Launch) : (s.setLaunch l x).hostIn = s.hostIn := rfl
@[simp] theorem State.setLaunch_hostRmw (l : Nat) (x : Launch) : (s.setLaunch l x).hostRmw = s.hostRmw := rfl
@[simp] theorem State.setLaunch_inputs (l : Nat) (x : Launch) : (s.setLaunch l x).inputs = s.inputs := rfl
@[simp] theorem State.setLaunch_nextId (l : Nat) (x : Launch) : (s.setLaunch l x).nextId = s.nextId := rfl
@[simp] theorem State.setLaunch_nfree (l : Nat) (x : Launch) : (s.setLaunch l x).nfree = s.nfree := rfl
@[simp] theorem State.setLaunch_nchoice (l : Nat) (x : Launch) : (s.setLaunch l x).nchoice = s.nchoice := rfl
@[simp] theorem State.setLaunch_ntlb (l : Nat) (x : Launch) : (s.setLaunch l x).ntlb = s.ntlb := rfl

/-! ### setExec -/

@[simp] theorem State.setExec_time (e : Nat) (x : Executor) : (s.setExec e x).time = s.time := rfl
@[simp] theorem State.setExec_harts (e : Nat) (x : Executor) : (s.setExec e x).harts = s.harts := rfl
@[simp] theorem State.setExec_cur (e : Nat) (x : Executor) : (s.setExec e x).cur = s.cur := rfl
@[simp] theorem State.setExec_turn (e : Nat) (x : Executor) : (s.setExec e x).turn = s.turn := rfl
@[simp] theorem State.setExec_mem (e : Nat) (x : Executor) : (s.setExec e x).mem = s.mem := rfl
@[simp] theorem State.setExec_msc (e : Nat) (x : Executor) : (s.setExec e x).msc = s.msc := rfl
@[simp] theorem State.setExec_bad (e : Nat) (x : Executor) : (s.setExec e x).bad = s.bad := rfl
@[simp] theorem State.setExec_corr (e : Nat) (x : Executor) : (s.setExec e x).corr = s.corr := rfl
@[simp] theorem State.setExec_sealed_ (e : Nat) (x : Executor) : (s.setExec e x).sealed_ = s.sealed_ := rfl
@[simp] theorem State.setExec_away (e : Nat) (x : Executor) : (s.setExec e x).away = s.away := rfl
@[simp] theorem State.setExec_monitors (e : Nat) (x : Executor) : (s.setExec e x).monitors = s.monitors := rfl
@[simp] theorem State.setExec_clearing (e : Nat) (x : Executor) : (s.setExec e x).clearing = s.clearing := rfl
@[simp] theorem State.setExec_tlb (e : Nat) (x : Executor) : (s.setExec e x).tlb = s.tlb := rfl
@[simp] theorem State.setExec_msgs (e : Nat) (x : Executor) : (s.setExec e x).msgs = s.msgs := rfl
@[simp] theorem State.setExec_dooms (e : Nat) (x : Executor) : (s.setExec e x).dooms = s.dooms := rfl
@[simp] theorem State.setExec_slices (e : Nat) (x : Executor) : (s.setExec e x).slices = s.slices := rfl
@[simp] theorem State.setExec_execs (e : Nat) (x : Executor) : (s.setExec e x).execs = Tab.put s.execs e x := rfl
@[simp] theorem State.setExec_engines (e : Nat) (x : Executor) : (s.setExec e x).engines = s.engines := rfl
@[simp] theorem State.setExec_launches (e : Nat) (x : Executor) : (s.setExec e x).launches = s.launches := rfl
@[simp] theorem State.setExec_boundAt (e : Nat) (x : Executor) : (s.setExec e x).boundAt = s.boundAt := rfl
@[simp] theorem State.setExec_nextLid (e : Nat) (x : Executor) : (s.setExec e x).nextLid = s.nextLid := rfl
@[simp] theorem State.setExec_nextOrder (e : Nat) (x : Executor) : (s.setExec e x).nextOrder = s.nextOrder := rfl
@[simp] theorem State.setExec_policies (e : Nat) (x : Executor) : (s.setExec e x).policies = s.policies := rfl
@[simp] theorem State.setExec_dies (e : Nat) (x : Executor) : (s.setExec e x).dies = s.dies := rfl
@[simp] theorem State.setExec_links (e : Nat) (x : Executor) : (s.setExec e x).links = s.links := rfl
@[simp] theorem State.setExec_nparts (e : Nat) (x : Executor) : (s.setExec e x).nparts = s.nparts := rfl
@[simp] theorem State.setExec_described (e : Nat) (x : Executor) : (s.setExec e x).described = s.described := rfl
@[simp] theorem State.setExec_feat (e : Nat) (x : Executor) : (s.setExec e x).feat = s.feat := rfl
@[simp] theorem State.setExec_sec (e : Nat) (x : Executor) : (s.setExec e x).sec = s.sec := rfl
@[simp] theorem State.setExec_hostMem (e : Nat) (x : Executor) : (s.setExec e x).hostMem = s.hostMem := rfl
@[simp] theorem State.setExec_netOut (e : Nat) (x : Executor) : (s.setExec e x).netOut = s.netOut := rfl
@[simp] theorem State.setExec_netIn (e : Nat) (x : Executor) : (s.setExec e x).netIn = s.netIn := rfl
@[simp] theorem State.setExec_netHeld (e : Nat) (x : Executor) : (s.setExec e x).netHeld = s.netHeld := rfl
@[simp] theorem State.setExec_hostIn (e : Nat) (x : Executor) : (s.setExec e x).hostIn = s.hostIn := rfl
@[simp] theorem State.setExec_hostRmw (e : Nat) (x : Executor) : (s.setExec e x).hostRmw = s.hostRmw := rfl
@[simp] theorem State.setExec_inputs (e : Nat) (x : Executor) : (s.setExec e x).inputs = s.inputs := rfl
@[simp] theorem State.setExec_nextId (e : Nat) (x : Executor) : (s.setExec e x).nextId = s.nextId := rfl
@[simp] theorem State.setExec_nfree (e : Nat) (x : Executor) : (s.setExec e x).nfree = s.nfree := rfl
@[simp] theorem State.setExec_nchoice (e : Nat) (x : Executor) : (s.setExec e x).nchoice = s.nchoice := rfl
@[simp] theorem State.setExec_ntlb (e : Nat) (x : Executor) : (s.setExec e x).ntlb = s.ntlb := rfl

/-! ### setEngine -/

@[simp] theorem State.setEngine_time (g : Nat) (x : Engine) : (s.setEngine g x).time = s.time := rfl
@[simp] theorem State.setEngine_harts (g : Nat) (x : Engine) : (s.setEngine g x).harts = s.harts := rfl
@[simp] theorem State.setEngine_cur (g : Nat) (x : Engine) : (s.setEngine g x).cur = s.cur := rfl
@[simp] theorem State.setEngine_turn (g : Nat) (x : Engine) : (s.setEngine g x).turn = s.turn := rfl
@[simp] theorem State.setEngine_mem (g : Nat) (x : Engine) : (s.setEngine g x).mem = s.mem := rfl
@[simp] theorem State.setEngine_msc (g : Nat) (x : Engine) : (s.setEngine g x).msc = s.msc := rfl
@[simp] theorem State.setEngine_bad (g : Nat) (x : Engine) : (s.setEngine g x).bad = s.bad := rfl
@[simp] theorem State.setEngine_corr (g : Nat) (x : Engine) : (s.setEngine g x).corr = s.corr := rfl
@[simp] theorem State.setEngine_sealed_ (g : Nat) (x : Engine) : (s.setEngine g x).sealed_ = s.sealed_ := rfl
@[simp] theorem State.setEngine_away (g : Nat) (x : Engine) : (s.setEngine g x).away = s.away := rfl
@[simp] theorem State.setEngine_monitors (g : Nat) (x : Engine) : (s.setEngine g x).monitors = s.monitors := rfl
@[simp] theorem State.setEngine_clearing (g : Nat) (x : Engine) : (s.setEngine g x).clearing = s.clearing := rfl
@[simp] theorem State.setEngine_tlb (g : Nat) (x : Engine) : (s.setEngine g x).tlb = s.tlb := rfl
@[simp] theorem State.setEngine_msgs (g : Nat) (x : Engine) : (s.setEngine g x).msgs = s.msgs := rfl
@[simp] theorem State.setEngine_dooms (g : Nat) (x : Engine) : (s.setEngine g x).dooms = s.dooms := rfl
@[simp] theorem State.setEngine_slices (g : Nat) (x : Engine) : (s.setEngine g x).slices = s.slices := rfl
@[simp] theorem State.setEngine_execs (g : Nat) (x : Engine) : (s.setEngine g x).execs = s.execs := rfl
@[simp] theorem State.setEngine_engines (g : Nat) (x : Engine) : (s.setEngine g x).engines = Tab.put s.engines g x := rfl
@[simp] theorem State.setEngine_launches (g : Nat) (x : Engine) : (s.setEngine g x).launches = s.launches := rfl
@[simp] theorem State.setEngine_boundAt (g : Nat) (x : Engine) : (s.setEngine g x).boundAt = s.boundAt := rfl
@[simp] theorem State.setEngine_nextLid (g : Nat) (x : Engine) : (s.setEngine g x).nextLid = s.nextLid := rfl
@[simp] theorem State.setEngine_nextOrder (g : Nat) (x : Engine) : (s.setEngine g x).nextOrder = s.nextOrder := rfl
@[simp] theorem State.setEngine_policies (g : Nat) (x : Engine) : (s.setEngine g x).policies = s.policies := rfl
@[simp] theorem State.setEngine_dies (g : Nat) (x : Engine) : (s.setEngine g x).dies = s.dies := rfl
@[simp] theorem State.setEngine_links (g : Nat) (x : Engine) : (s.setEngine g x).links = s.links := rfl
@[simp] theorem State.setEngine_nparts (g : Nat) (x : Engine) : (s.setEngine g x).nparts = s.nparts := rfl
@[simp] theorem State.setEngine_described (g : Nat) (x : Engine) : (s.setEngine g x).described = s.described := rfl
@[simp] theorem State.setEngine_feat (g : Nat) (x : Engine) : (s.setEngine g x).feat = s.feat := rfl
@[simp] theorem State.setEngine_sec (g : Nat) (x : Engine) : (s.setEngine g x).sec = s.sec := rfl
@[simp] theorem State.setEngine_hostMem (g : Nat) (x : Engine) : (s.setEngine g x).hostMem = s.hostMem := rfl
@[simp] theorem State.setEngine_netOut (g : Nat) (x : Engine) : (s.setEngine g x).netOut = s.netOut := rfl
@[simp] theorem State.setEngine_netIn (g : Nat) (x : Engine) : (s.setEngine g x).netIn = s.netIn := rfl
@[simp] theorem State.setEngine_netHeld (g : Nat) (x : Engine) : (s.setEngine g x).netHeld = s.netHeld := rfl
@[simp] theorem State.setEngine_hostIn (g : Nat) (x : Engine) : (s.setEngine g x).hostIn = s.hostIn := rfl
@[simp] theorem State.setEngine_hostRmw (g : Nat) (x : Engine) : (s.setEngine g x).hostRmw = s.hostRmw := rfl
@[simp] theorem State.setEngine_inputs (g : Nat) (x : Engine) : (s.setEngine g x).inputs = s.inputs := rfl
@[simp] theorem State.setEngine_nextId (g : Nat) (x : Engine) : (s.setEngine g x).nextId = s.nextId := rfl
@[simp] theorem State.setEngine_nfree (g : Nat) (x : Engine) : (s.setEngine g x).nfree = s.nfree := rfl
@[simp] theorem State.setEngine_nchoice (g : Nat) (x : Engine) : (s.setEngine g x).nchoice = s.nchoice := rfl
@[simp] theorem State.setEngine_ntlb (g : Nat) (x : Engine) : (s.setEngine g x).ntlb = s.ntlb := rfl

/-! ### setDram -/

@[simp] theorem State.setDram_time (a : Nat) (b : Byte) : (s.setDram a b).time = s.time := rfl
@[simp] theorem State.setDram_harts (a : Nat) (b : Byte) : (s.setDram a b).harts = s.harts := rfl
@[simp] theorem State.setDram_cur (a : Nat) (b : Byte) : (s.setDram a b).cur = s.cur := rfl
@[simp] theorem State.setDram_turn (a : Nat) (b : Byte) : (s.setDram a b).turn = s.turn := rfl
@[simp] theorem State.setDram_mem (a : Nat) (b : Byte) : (s.setDram a b).mem = Tab.set Memory.unlisted s.mem a b := rfl
@[simp] theorem State.setDram_msc (a : Nat) (b : Byte) : (s.setDram a b).msc = s.msc := rfl
@[simp] theorem State.setDram_bad (a : Nat) (b : Byte) : (s.setDram a b).bad = s.bad := rfl
@[simp] theorem State.setDram_corr (a : Nat) (b : Byte) : (s.setDram a b).corr = s.corr := rfl
@[simp] theorem State.setDram_sealed_ (a : Nat) (b : Byte) : (s.setDram a b).sealed_ = s.sealed_ := rfl
@[simp] theorem State.setDram_away (a : Nat) (b : Byte) : (s.setDram a b).away = s.away := rfl
@[simp] theorem State.setDram_monitors (a : Nat) (b : Byte) : (s.setDram a b).monitors = s.monitors := rfl
@[simp] theorem State.setDram_clearing (a : Nat) (b : Byte) : (s.setDram a b).clearing = s.clearing := rfl
@[simp] theorem State.setDram_tlb (a : Nat) (b : Byte) : (s.setDram a b).tlb = s.tlb := rfl
@[simp] theorem State.setDram_msgs (a : Nat) (b : Byte) : (s.setDram a b).msgs = s.msgs := rfl
@[simp] theorem State.setDram_dooms (a : Nat) (b : Byte) : (s.setDram a b).dooms = s.dooms := rfl
@[simp] theorem State.setDram_slices (a : Nat) (b : Byte) : (s.setDram a b).slices = s.slices := rfl
@[simp] theorem State.setDram_execs (a : Nat) (b : Byte) : (s.setDram a b).execs = s.execs := rfl
@[simp] theorem State.setDram_engines (a : Nat) (b : Byte) : (s.setDram a b).engines = s.engines := rfl
@[simp] theorem State.setDram_launches (a : Nat) (b : Byte) : (s.setDram a b).launches = s.launches := rfl
@[simp] theorem State.setDram_boundAt (a : Nat) (b : Byte) : (s.setDram a b).boundAt = s.boundAt := rfl
@[simp] theorem State.setDram_nextLid (a : Nat) (b : Byte) : (s.setDram a b).nextLid = s.nextLid := rfl
@[simp] theorem State.setDram_nextOrder (a : Nat) (b : Byte) : (s.setDram a b).nextOrder = s.nextOrder := rfl
@[simp] theorem State.setDram_policies (a : Nat) (b : Byte) : (s.setDram a b).policies = s.policies := rfl
@[simp] theorem State.setDram_dies (a : Nat) (b : Byte) : (s.setDram a b).dies = s.dies := rfl
@[simp] theorem State.setDram_links (a : Nat) (b : Byte) : (s.setDram a b).links = s.links := rfl
@[simp] theorem State.setDram_nparts (a : Nat) (b : Byte) : (s.setDram a b).nparts = s.nparts := rfl
@[simp] theorem State.setDram_described (a : Nat) (b : Byte) : (s.setDram a b).described = s.described := rfl
@[simp] theorem State.setDram_feat (a : Nat) (b : Byte) : (s.setDram a b).feat = s.feat := rfl
@[simp] theorem State.setDram_sec (a : Nat) (b : Byte) : (s.setDram a b).sec = s.sec := rfl
@[simp] theorem State.setDram_hostMem (a : Nat) (b : Byte) : (s.setDram a b).hostMem = s.hostMem := rfl
@[simp] theorem State.setDram_netOut (a : Nat) (b : Byte) : (s.setDram a b).netOut = s.netOut := rfl
@[simp] theorem State.setDram_netIn (a : Nat) (b : Byte) : (s.setDram a b).netIn = s.netIn := rfl
@[simp] theorem State.setDram_netHeld (a : Nat) (b : Byte) : (s.setDram a b).netHeld = s.netHeld := rfl
@[simp] theorem State.setDram_hostIn (a : Nat) (b : Byte) : (s.setDram a b).hostIn = s.hostIn := rfl
@[simp] theorem State.setDram_hostRmw (a : Nat) (b : Byte) : (s.setDram a b).hostRmw = s.hostRmw := rfl
@[simp] theorem State.setDram_inputs (a : Nat) (b : Byte) : (s.setDram a b).inputs = s.inputs := rfl
@[simp] theorem State.setDram_nextId (a : Nat) (b : Byte) : (s.setDram a b).nextId = s.nextId := rfl
@[simp] theorem State.setDram_nfree (a : Nat) (b : Byte) : (s.setDram a b).nfree = s.nfree := rfl
@[simp] theorem State.setDram_nchoice (a : Nat) (b : Byte) : (s.setDram a b).nchoice = s.nchoice := rfl
@[simp] theorem State.setDram_ntlb (a : Nat) (b : Byte) : (s.setDram a b).ntlb = s.ntlb := rfl

/-! ### Reading what was written -/

@[simp] theorem State.hartAt_setHart (k : Nat) (h : Hart) : (s.setHart k h).hartAt k = h := by simp [State.hartAt]
theorem State.hartAt_setHart_ne {k j : Nat} (h : Hart) (hj : j ≠ k) : (s.setHart k h).hartAt j = s.hartAt j := by
  simp [State.hartAt, Tab.get_put_ne _ _ _ hj]
@[simp] theorem State.dieAt_setDie (d : Nat) (x : Die) : (s.setDie d x).dieAt d = x := by simp [State.dieAt]
@[simp] theorem State.sliceAt_setSlice (k : Nat) (x : Slice) : (s.setSlice k x).sliceAt k = x := by simp [State.sliceAt]
@[simp] theorem State.execAt_setExec (e : Nat) (x : Executor) : (s.setExec e x).execAt e = x := by simp [State.execAt]
@[simp] theorem State.engineAt_setEngine (g : Nat) (x : Engine) : (s.setEngine g x).engineAt g = x := by simp [State.engineAt]
@[simp] theorem State.launch_setLaunch (l : Nat) (x : Launch) : (s.setLaunch l x).launch? l = some x := by simp [State.launch?]
@[simp] theorem State.h_setHart (h : Hart) : (s.setHart s.cur h).h = h := by simp [State.h]
@[simp] theorem State.onH_h (f : Hart → Hart) : (s.onH f).h = f s.h := by simp [State.h, State.onH]
@[simp] theorem State.onH_cur (f : Hart → Hart) : (s.onH f).cur = s.cur := rfl
@[simp] theorem State.onH_mem (f : Hart → Hart) : (s.onH f).mem = s.mem := rfl
theorem State.onH_hartAt_ne {j : Nat} (f : Hart → Hart) (hj : j ≠ s.cur) : (s.onH f).hartAt j = s.hartAt j := s.hartAt_setHart_ne _ hj

end Sys2Proof.Machine
end

