-- ==== Sys2Proof/Laws/Mem.lean ====
section
/-! SUPPORT. Memory: a byte read after a write, and that every operation that writes memory keeps its canonical form. -/

namespace Sys2Proof.Machine

/-- A fold keeps a property that its function keeps. -/
theorem foldl_keeps {α β : Type} {p : β → Prop} {f : β → α → β} (hf : ∀ b a, p b → p (f b a)) (l : List α) (b : β) (hb : p b) : p (l.foldl f b) := by
  induction l generalizing b with
  | nil => exact hb
  | cons a l ih => exact ih _ (hf b a hb)

/-- A property of both branches is one of the choice. -/
theorem ite_keeps {β : Type} {p : β → Prop} {c : Prop} [Decidable c] {a b : β} (ha : p a) (hb : p b) : p (if c then a else b) := by
  split
  · exact ha
  · exact hb

/-- Dropping entries keeps the keys rising. -/
theorem Tab.above_filter {α : Type} {t : Tab α} {b : Option Nat} (q : Nat × α → Bool) (h : Tab.above b t = true) : Tab.above b (t.filter q) = true := by
  induction t generalizing b with
  | nil => rfl
  | cons e t ih =>
    obtain ⟨k, v⟩ := e
    simp only [Tab.above, Bool.and_eq_true] at h
    simp only [List.filter]
    split
    · simp only [Tab.above, Bool.and_eq_true]; exact ⟨h.1, ih h.2⟩
    · cases b with
      | none => exact Tab.above_none (ih h.2)
      | some m => exact Tab.above_mono (ih h.2) (by have := h.1; simp at this; omega)

theorem Tab.wf_filter {α : Type} [DecidableEq α] {d : α} {t : Tab α} (q : Nat × α → Bool) (h : Tab.wf d t = true) : Tab.wf d (t.filter q) = true := by
  simp only [Tab.wf, Bool.and_eq_true, List.all_eq_true] at h ⊢
  exact ⟨Tab.above_filter q h.1, fun e he => h.2 e (List.mem_filter.1 he).1⟩

/-- A byte behind the caches, after a write of one. -/
theorem State.dram_setDram (s : State) (a b : Nat) (x : Byte) : (s.setDram a x).dram b = if b = a then x else s.dram b :=
  Tab.get_set _ _ a b x

theorem State.setDram_wf {s : State} (a : Nat) (x : Byte) (h : Memory.wf s.mem = true) : Memory.wf (s.setDram a x).mem = true := Tab.wf_set h a x

theorem State.setCtl_wf {s : State} (pa n x : Nat) (h : Memory.wf s.mem = true) : Memory.wf (s.setCtl pa n x).mem = true :=
  foldl_keeps (p := fun t : State => Memory.wf t.mem = true) (fun _ _ => State.setDram_wf _ _) _ _ h

theorem State.setDramSector_wf {s : State} (k : Nat) (x : Sector) (h : Memory.wf s.mem = true) : Memory.wf (s.setDramSector k x).mem = true :=
  foldl_keeps (p := fun t : State => Memory.wf t.mem = true) (fun _ _ => State.setDram_wf _ _) _ _ h

theorem State.mscSpill_wf {s : State} (k : Nat) (x : Sector) (h : Memory.wf s.mem = true) : Memory.wf (s.mscSpill k x).mem = true :=
  ite_keeps (p := fun t : State => Memory.wf t.mem = true) h (State.setDramSector_wf _ _ h)

@[simp] theorem State.mscDrop_mem (s : State) (k : Nat) : (s.mscDrop k).mem = s.mem := by
  simp only [State.mscDrop]
  split <;> rfl

theorem State.mscEvict_wf {s : State} (line : Nat) (h : Memory.wf s.mem = true) : Memory.wf (s.mscEvict line).mem = true :=
  foldl_keeps (p := fun t : State => Memory.wf t.mem = true)
    (fun t e ht => by
      have hd : Memory.wf (t.mscDrop e.1).mem = true := by rw [State.mscDrop_mem]; exact ht
      exact ite_keeps (p := fun t : State => Memory.wf t.mem = true) (State.mscSpill_wf _ _ hd) hd) _ _ h

/-- Taking a sector into the memory-side cache keeps the form of memory, whatever has to leave. -/
theorem State.mscPut_wf {s : State} (k : Nat) (e : MscSector) (h : Memory.wf s.mem = true) : Memory.wf (s.mscPut k e).mem = true := by
  simp only [State.mscPut]
  refine ite_keeps (p := fun t : State => Memory.wf t.mem = true) h ?_
  split
  · exact State.mscEvict_wf (s := { s with nchoice := s.nchoice + 1 }) _ h
  · exact ite_keeps (p := fun t : State => Memory.wf t.mem = true) (State.mscSpill_wf _ _ h) h

theorem State.putSector_wf {s : State} (k : Nat) (m : BitVec 64) (x : Sector) (cpol key : Nat) (h : Memory.wf s.mem = true) :
    Memory.wf (s.putSector k m x cpol key).mem = true := by
  simp only [State.putSector]
  split
  · exact State.setDramSector_wf _ _ h
  · exact State.mscPut_wf _ _ h

@[simp] theorem State.countElided_mem (s : State) (pa : Nat) : (s.countElided pa).mem = s.mem := rfl

@[simp] theorem State.notify_mem (s : State) (k : Nat) (w : Option Nat) : (s.notify k w).mem = s.mem := rfl

theorem State.putRaw_wf {s : State} (pa : Nat) (data : List Byte) (h : Memory.wf s.mem = true) : Memory.wf (s.putRaw pa data).mem = true := by
  let p : State → Prop := fun t => Memory.wf t.mem = true
  refine foldl_keeps (p := p) (fun t k ht => ?_) _ _ h
  dsimp only
  split
  · exact ite_keeps (p := p) ht (ite_keeps (p := p) ht (State.putSector_wf _ _ _ _ _ ht))
  · exact ite_keeps (p := p) ht (ite_keeps (p := p) ht (State.putSector_wf _ _ _ _ _ ht))
  · exact foldl_keeps (p := p) (fun u i hu => by split <;> exact hu) _ _ ht
  · exact ht

theorem State.log_wf {s : State} (kind : LogKind) (code source : Nat) (ws : List Word) (h : Memory.wf s.mem = true) :
    Memory.wf (s.log kind code source ws).mem = true := by
  simp only [State.log]
  split
  · exact h
  · exact State.putRaw_wf _ _ h

theorem State.uecc_wf {s : State} (source pa agent rid : Nat) (h : Memory.wf s.mem = true) : Memory.wf (s.uecc source pa agent rid).mem = true :=
  State.log_wf _ _ _ _ h

theorem State.ceccLog_wf {s : State} (k storage : Nat) (h : Memory.wf s.mem = true) : Memory.wf (s.ceccLog k storage).mem = true := by
  have hn : ∀ x : Slice, Memory.wf ((s.setSlice (sliceOf (64 * k)) x).log .event 0x10 (srcSlice (sliceOf (64 * k))) [word (64 * k), word storage]).mem = true :=
    fun _ => State.log_wf _ _ _ _ h
  simp only [State.ceccLog]
  split
  · split
    · exact h
    · exact hn _
  · exact hn _

theorem State.cecc_wf {s : State} (k : Nat) (h : Memory.wf s.mem = true) : Memory.wf (s.cecc k).mem = true := State.ceccLog_wf _ _ h

theorem State.touch_wf {s : State} (pa n cpol key agent rid : Nat) (h : Memory.wf s.mem = true) : Memory.wf (s.touch pa n cpol key agent rid).mem = true := by
  let p : State → Prop := fun t => Memory.wf t.mem = true
  refine foldl_keeps (p := p) (fun t k ht => ?_) _ _ h
  have hs : ∀ b : Bool, p (if b then t.uecc (srcSlice (sliceOf (64 * k))) (64 * k) agent rid
      else if t.corr.contains k then { t.cecc k with corr := t.corr.filter (· ≠ k) } else t) :=
    fun b => ite_keeps (State.uecc_wf _ _ _ _ ht) (ite_keeps (State.cecc_wf k ht) ht)
  split
  · exact ite_keeps (p := p) ht (ite_keeps (p := p) (hs _) (State.mscPut_wf _ _ (hs _)))
  · exact ite_keeps (p := p) ht (ite_keeps (p := p) (hs _) (State.mscPut_wf _ _ (hs _)))
  · exact ht

theorem State.elisionWrite_wf {s : State} (pa : Nat) (x : Word) (h : Memory.wf s.mem = true) : Memory.wf (s.elisionWrite pa x).mem = true := by
  let p : State → Prop := fun t => Memory.wf t.mem = true
  have h2 : ∀ (u : State) (a b m n : Nat), p u → p ((u.setCtl a 8 m).setCtl b 8 n) := fun _ _ _ _ _ hu => State.setCtl_wf _ _ _ (State.setCtl_wf _ _ _ hu)
  simp only [State.elisionWrite]
  refine ite_keeps (p := p) h (ite_keeps (p := p) ?_ (h2 _ _ _ _ _ h))
  refine State.setCtl_wf (s := { State.setCtl _ _ _ _ with mem := _, msc := _, bad := _, corr := _, sealed_ := _ }) _ _ _ ?_
  exact Tab.wf_filter _ (h2 _ _ _ _ _ h)

theorem State.ring_wf {s : State} (part q : Nat) (x : Word) (h : Memory.wf s.mem = true) : Memory.wf (s.ring part q x).mem = true :=
  State.setDram_wf _ _ (State.setCtl_wf _ _ _ h)

/-- The error status block is no part of memory. -/
@[simp] theorem State.statusWrite_mem (s : State) (die n : Nat) (x : Word) : (s.statusWrite die n x).mem = s.mem := by
  let p : State → Prop := fun t => t.mem = s.mem
  change p (s.statusWrite die n x)
  simp only [State.statusWrite]
  repeat' first | exact rfl | refine ite_keeps (p := p) ?_ ?_

/-- A command written to the mailbox waits in the security core. -/
@[simp] theorem State.submitMail_mem (s : State) (code : Nat) : (s.submitMail code).mem = s.mem := by
  simp only [State.submitMail]
  split <;> rfl

theorem State.ctlDword_wf {s : State} (w : Nat) (byte : Nat → Option Byte) (h : Memory.wf s.mem = true) : Memory.wf (s.ctlDword w byte).mem = true := by
  let p : State → Prop := fun t => Memory.wf t.mem = true
  simp only [State.ctlDword]
  refine ite_keeps (p := p) (State.elisionWrite_wf _ _ h) (ite_keeps (p := p) (ite_keeps (p := p) (State.ring_wf _ _ _ h) h)
    (ite_keeps (p := p) ?_ (ite_keeps (p := p) ?_ (ite_keeps (p := p) h (foldl_keeps (p := p) (fun u i hu => ?_) _ _ h)))))
  · change Memory.wf _ = true; rw [State.statusWrite_mem]; exact h
  · change Memory.wf _ = true; rw [State.submitMail_mem]; exact State.setCtl_wf _ _ _ h
  · split
    · exact ite_keeps (p := p) (State.setDram_wf _ _ hu) hu
    · exact hu

theorem State.ctlWrite_wf {s : State} (pa : Nat) (data : List Byte) (h : Memory.wf s.mem = true) : Memory.wf (s.ctlWrite pa data).mem = true :=
  ite_keeps (p := fun t : State => Memory.wf t.mem = true) h
    (foldl_keeps (p := fun t : State => Memory.wf t.mem = true) (fun _ _ ht => State.ctlDword_wf _ _ ht) _ _ h)

/-- Noting the destruction of a carafe writes no memory. -/
@[simp] theorem State.noteDooms_mem (s old : State) (k : Nat) : (s.noteDooms old k).mem = s.mem := by
  let p : State → Prop := fun t => t.mem = s.mem
  simp only [State.noteDooms]
  refine ite_keeps (p := p) (foldl_keeps (p := p) (fun t a ht => ?_) _ _ rfl) rfl
  refine ite_keeps (p := p) (foldl_keeps (p := p) (fun t a ht => ?_) _ _ ht) ht
  exact ite_keeps (p := p) ht ht

theorem State.applySector_wf {s : State} (k : Nat) (m : BitVec 64) (x : Sector) (cpol key rid : Nat) (w : Option Nat) (h : Memory.wf s.mem = true) :
    Memory.wf (s.applySector k m x cpol key rid w).mem = true := by
  let p : State → Prop := fun t => Memory.wf t.mem = true
  have hp : ∀ t u : State, p t → p (((t.putSector k m x cpol key).notify k w).noteDooms u k) := by
    intro t u ht
    change Memory.wf _ = true
    rw [State.noteDooms_mem, State.notify_mem]
    exact State.putSector_wf _ _ _ _ _ ht
  have hh : ∀ b : Bool, p (if b then s.uecc (srcSlice (sliceOf (64 * k))) (64 * k) 4 rid else s : State) :=
    fun b => ite_keeps (State.uecc_wf _ _ _ _ h) h
  simp only [State.applySector]
  split
  · exact ite_keeps (p := p) h (ite_keeps (p := p) (State.uecc_wf _ _ _ _ h) (hp _ _ (hh _)))
  · exact ite_keeps (p := p) h (ite_keeps (p := p) (State.uecc_wf _ _ _ _ h) (hp _ _ (hh _)))
  · exact foldl_keeps (p := p) (fun u i hu => by split <;> exact hu) _ _ h
  · refine foldl_keeps (p := p) (fun u i hu => ?_) _ _ h
    exact ite_keeps (p := p) (State.ctlDword_wf _ _ hu) hu
  · exact h

theorem State.applyWrite_wf {s : State} (pa : Nat) (data : List Byte) (cpol key rid : Nat) (w : Option Nat) (h : Memory.wf s.mem = true) :
    Memory.wf (s.applyWrite pa data cpol key rid w).mem = true :=
  foldl_keeps (p := fun t : State => Memory.wf t.mem = true) (fun _ _ ht => State.applySector_wf _ _ _ _ _ _ _ ht) _ _ h

theorem State.putBytes_wf {s : State} (pa : Nat) (data : List Byte) (writer : Option Nat) (h : Memory.wf s.mem = true) :
    Memory.wf (s.putBytes pa data writer).mem = true := State.applyWrite_wf _ _ _ _ _ _ h

/-- Memory after reset lists nothing. -/
theorem reset_mem_wf : Memory.wf State.reset.mem = true := rfl

end Sys2Proof.Machine
end

