-- ==== Sys2Proof/Laws/Ops.lean ====
section
/-! SUPPORT. What the shared operations of the slots do: the checks, the outcome of a slot, the scheduling of results. -/

namespace Sys2Proof.Machine

/-! ### Checks and outcomes -/

@[simp] theorem finish_ok (s t : State) : finish s (.ok t) = .next t := rfl

/-- With no check of its own, an instruction that passes the common checks has its own outcome. -/
theorem issue_clear {i : Instr} {ill : State → Bool} {s : State} {body : State → Res} (h : s.clear i) (hi : ill s = false) :
    issue i ill s body = finish s (body s) := by
  simp only [State.clear, gate, Option.isNone_iff_eq_none, Option.or_eq_none_iff] at h
  have hl : late i ill s = none := by
    have := h.2
    unfold late at this ⊢
    split
    · rfl
    · rename_i hc
      simp only [hc, Bool.false_eq_true, if_false, noIll] at this
      split
      · rename_i c hc2; simp [hc2] at this
      · rename_i hc2
        simp only [hc2] at this
        simpa [hi] using this
  simp only [issue, h.1, hl]
  cases hb : body s <;> simp

@[simp] theorem noIll_eq (s : State) : noIll s = false := rfl

/-- An instruction that passes the common checks and completes. -/
theorem issue_ok {i : Instr} {ill : State → Bool} {s t : State} {body : State → Res} (h : s.clear i) (hi : ill s = false) (hb : body s = .ok t) :
    issue i ill s body = .next t := by rw [issue_clear h hi, hb, finish_ok]

/-- A slot instruction answers with a next state, or stops only because its hart is not issuing. -/
theorem finish_next (s : State) (r : Res) : (∃ t, finish s r = .next t) ∨ finish s r = .fault .notIssuing := by
  cases r <;> simp [finish]
theorem issue_next (i : Instr) (ill : State → Bool) (s : State) (body : State → Res) :
    (∃ t, issue i ill s body = .next t) ∨ issue i ill s body = .fault .notIssuing := finish_next _ _

/-! ### Results -/

/-- A result is one pending write of the hart, due at the present cycle + latency; nothing else changes. -/
theorem State.later_eq (s : State) (lat : Nat) (w : Write) :
    s.later lat w = s.setHart s.cur { s.h with pend := s.h.pend ++ [{ issued := s.h.cyc, due := s.h.cyc + lat, w := w }] } := rfl

@[simp] theorem State.later_mem (s : State) (lat : Nat) (w : Write) : (s.later lat w).mem = s.mem := rfl
@[simp] theorem State.later_time (s : State) (lat : Nat) (w : Write) : (s.later lat w).time = s.time := rfl
@[simp] theorem State.later_cur (s : State) (lat : Nat) (w : Write) : (s.later lat w).cur = s.cur := rfl
@[simp] theorem State.later_h (s : State) (lat : Nat) (w : Write) : (s.later lat w).h = s.h.later lat w := s.onH_h _
theorem State.later_hartAt_ne {s : State} {j : Nat} (lat : Nat) (w : Write) (hj : j ≠ s.cur) : (s.later lat w).hartAt j = s.hartAt j := s.onH_hartAt_ne _ hj

/-- Results to s0, p0 and m0 are discarded. -/
@[simp] theorem State.putS_zero (s : State) (lat : Nat) (x : Word) : s.putS lat 0 x = s := rfl
@[simp] theorem State.putP_zero (s : State) (lat : Nat) (x : Bool) : s.putP lat 0 x = s := rfl
@[simp] theorem State.putM_zero (s : State) (lat : Nat) (x : Word) : s.putM lat 0 x = s := rfl

/-- A scalar result is discarded or one pending write. -/
theorem State.putS_cases (s : State) (lat d : Nat) (x : Word) :
    (d = 0 ∧ s.putS lat d x = s) ∨ (d ≠ 0 ∧ s.putS lat d x = s.later lat (if s.h.handler then .hs d x else .s d x)) := by
  unfold State.putS; split <;> simp_all
theorem State.putP_cases (s : State) (lat d : Nat) (x : Bool) :
    (d = 0 ∧ s.putP lat d x = s) ∨ (d ≠ 0 ∧ s.putP lat d x = s.later lat (if s.h.handler then .hp d x else .p (s.h.physP d) x)) := by
  unfold State.putP; split <;> simp_all
theorem State.putM_cases (s : State) (lat d : Nat) (x : Word) :
    (d = 0 ∧ s.putM lat d x = s) ∨ (d ≠ 0 ∧ s.putM lat d x = s.later lat (.m (s.h.physM d) x)) := by
  unfold State.putM; split <;> simp_all

@[simp] theorem State.putS_mem (s : State) (lat d : Nat) (x : Word) : (s.putS lat d x).mem = s.mem := by
  rcases s.putS_cases lat d x with ⟨_, h⟩ | ⟨_, h⟩ <;> simp [h]
@[simp] theorem State.putP_mem (s : State) (lat d : Nat) (x : Bool) : (s.putP lat d x).mem = s.mem := by
  rcases s.putP_cases lat d x with ⟨_, h⟩ | ⟨_, h⟩ <;> simp [h]
@[simp] theorem State.putM_mem (s : State) (lat d : Nat) (x : Word) : (s.putM lat d x).mem = s.mem := by
  rcases s.putM_cases lat d x with ⟨_, h⟩ | ⟨_, h⟩ <;> simp [h]
@[simp] theorem State.putV_mem (s : State) (lat d : Nat) (x : VReg) : (s.putV lat d x).mem = s.mem := rfl

end Sys2Proof.Machine
end

