-- ==== Sys2Proof/Laws/PerInstr.lean ====
section
/-! SUPPORT. Statements made instruction by instruction. WfEncode: a well-formed instruction's word fits its slot (R222). -/

namespace Sys2Proof.Laws

/-- The word of a well-formed instruction fits the width of its slot (R222). -/
def WfEncode.Statement (i : Instr) : Prop := i.wf = true → ∀ n w, encode i = some (n, w) → w < 2 ^ (slotPos n).2

/-- An instruction without an encoding. -/
theorem WfEncode.of_none {i : Instr} (h : encode i = none) : WfEncode.Statement i := by
  intro _ n w hw; rw [h] at hw; exact absurd hw (by simp)

/-- An instruction with one encoding. -/
theorem WfEncode.of_some {i : Instr} {m : SlotName} {x : Nat} (h : encode i = some (m, x)) (hb : i.wf = true → x < 2 ^ (slotPos m).2) : WfEncode.Statement i := by
  intro hi n w hw
  rw [h, Option.some.injEq, Prod.mk.injEq] at hw
  obtain ⟨rfl, rfl⟩ := hw
  exact hb hi


open Enc in
theorem WfEncode.of_rrr {i : Instr} {m : SlotName} {o d a b c md : Nat} (h : encode i = some (m, rrr o d a b c md)) (hm : (slotPos m).2 = 64)
    (hb : i.wf = true → o < 256 ∧ d < 64 ∧ a < 64 ∧ b < 64 ∧ c < 64 ∧ md < 256) : Statement i :=
  of_some h fun hi => by obtain ⟨h1, h2, h3, h4, h5, h6⟩ := hb hi; rw [hm]; exact rrr_lt h1 h2 h3 h4 h5 h6
open Enc in
theorem WfEncode.of_ri {i : Instr} {m : SlotName} {o d a : Nat} {v : BitVec 32} (h : encode i = some (m, ri o d a v)) (hm : (slotPos m).2 = 64)
    (hb : i.wf = true → o < 256 ∧ d < 64 ∧ a < 64) : Statement i :=
  of_some h fun hi => by obtain ⟨h1, h2, h3⟩ := hb hi; rw [hm]; exact ri_lt _ h1 h2 h3
open Enc in
theorem WfEncode.of_rim {i : Instr} {m : SlotName} {o d a : Nat} {v : Imm} (h : encode i = some (m, rim o d a v)) (hm : (slotPos m).2 = 64)
    (hb : i.wf = true → o < 256 ∧ d < 64 ∧ a < 64) : Statement i :=
  of_some h fun hi => by obtain ⟨h1, h2, h3⟩ := hb hi; rw [hm]; exact rim_lt _ h1 h2 h3
open Enc in
theorem WfEncode.of_mem {i : Instr} {n : SlotName} {o d md land : Nat} {m : Mem} (h : encode i = some (n, mem o d m md land)) (hm : (slotPos n).2 = 64)
    (hb : i.wf = true → o < 256 ∧ d < 64 ∧ m.base < 64 ∧ m.idx < 64 ∧ md < 256 ∧ land < 4096) : Statement i :=
  of_some h fun hi => by obtain ⟨h1, h2, h3, h4, h5, h6⟩ := hb hi; rw [hm]; exact mem_lt h1 h2 h3 h4 h5 h6
open Enc in
theorem WfEncode.of_vab {i : Instr} {n : SlotName} {o d a c m k : Nat} {b : VB} (h : encode i = some (n, vab o d a b c m k)) (hm : (slotPos n).2 = 64)
    (hb : i.wf = true → o < 256 ∧ d < 64 ∧ a < 64 ∧ WF.vb b = true ∧ c < 64 ∧ m < 16 ∧ k < 8) : Statement i :=
  of_some h fun hi => by obtain ⟨h1, h2, h3, h4, h5, h6, h7⟩ := hb hi; rw [hm]; exact vab_lt h1 h2 h3 h4 h5 h6 h7
open Enc in
theorem WfEncode.of_engm {i : Instr} {n : SlotName} {o d a b c e mc md : Nat} (h : encode i = some (n, engm o d a b c e mc md)) (hm : (slotPos n).2 = 64)
    (hb : i.wf = true → o < 256 ∧ d < 64 ∧ a < 64 ∧ b < 64 ∧ c < 64 ∧ e < 64 ∧ mc < 8 ∧ md < 32) : Statement i :=
  of_some h fun hi => by obtain ⟨h1, h2, h3, h4, h5, h6, h7, h8⟩ := hb hi; rw [hm]; exact engm_lt h1 h2 h3 h4 h5 h6 h7 h8
open Enc in
theorem WfEncode.of_engc {i : Instr} {n : SlotName} {o f0 f1 f2 md land f3 pd : Nat} (h : encode i = some (n, engc o f0 f1 f2 md land f3 pd))
    (hm : (slotPos n).2 = 64) (hb : i.wf = true → o < 256 ∧ f0 < 64 ∧ f1 < 64 ∧ f2 < 64 ∧ md < 256 ∧ land < 4096 ∧ f3 < 64 ∧ pd < 16) : Statement i :=
  of_some h fun hi => by obtain ⟨h1, h2, h3, h4, h5, h6, h7, h8⟩ := hb hi; rw [hm]; exact engc_lt h1 h2 h3 h4 h5 h6 h7 h8
open Enc in
theorem WfEncode.of_y {i : Instr} {n : SlotName} {o a b xi sc pd imm : Nat} (h : encode i = some (n, y o a b xi sc pd imm)) (hm : (slotPos n).2 = 48)
    (hb : i.wf = true → o < 64 ∧ a < 64 ∧ b < 64 ∧ xi < 2 ∧ sc < 8 ∧ pd < 16 ∧ imm < 131072) : Statement i :=
  of_some h fun hi => by obtain ⟨h1, h2, h3, h4, h5, h6, h7⟩ := hb hi; rw [hm]; exact y_lt h1 h2 h3 h4 h5 h6 h7
open Enc in
theorem WfEncode.of_yix {i : Instr} {n : SlotName} {o a sc pd : Nat} {x : BarIx} (h : encode i = some (n, yix o a x sc pd)) (hm : (slotPos n).2 = 48)
    (hb : i.wf = true → o < 64 ∧ a < 64 ∧ WF.ix x = true ∧ sc < 8 ∧ pd < 16) : Statement i :=
  of_some h fun hi => by obtain ⟨h1, h2, h3, h4, h5⟩ := hb hi; rw [hm]; exact yix_lt h1 h2 h3 h4 h5

theorem WfEncode.nop : Statement .nop := of_some rfl fun h => by show _ < 2 ^ 64; omega
theorem WfEncode.add : ∀ d a b, Statement (.add d a b) := fun d a b => of_rrr rfl rfl fun h => by have h := of_decide_eq_true h; first | omega | (and_intros <;> first | omega | exact Enc.memMod_lt _ _ (by omega) (by omega) | exact h.2.2.1 | exact h.2.1 | exact h.2.2 | exact h.2 | exact h.1 | exact h)
theorem WfEncode.addI : ∀ d a i, Statement (.addI d a i) := fun d a i => of_rim rfl rfl fun h => by have h := of_decide_eq_true h; first | omega | (and_intros <;> first | omega | exact Enc.memMod_lt _ _ (by omega) (by omega) | exact h.2.2.1 | exact h.2.1 | exact h.2.2 | exact h.2 | exact h.1 | exact h)
theorem WfEncode.sub : ∀ d a b, Statement (.sub d a b) := fun d a b => of_rrr rfl rfl fun h => by have h := of_decide_eq_true h; first | omega | (and_intros <;> first | omega | exact Enc.memMod_lt _ _ (by omega) (by omega) | exact h.2.2.1 | exact h.2.1 | exact h.2.2 | exact h.2 | exact h.1 | exact h)
theorem WfEncode.subI : ∀ d a i, Statement (.subI d a i) := fun d a i => of_rim rfl rfl fun h => by have h := of_decide_eq_true h; first | omega | (and_intros <;> first | omega | exact Enc.memMod_lt _ _ (by omega) (by omega) | exact h.2.2.1 | exact h.2.1 | exact h.2.2 | exact h.2 | exact h.1 | exact h)
theorem WfEncode.mul : ∀ d a b, Statement (.mul d a b) := fun d a b => of_rrr rfl rfl fun h => by have h := of_decide_eq_true h; first | omega | (and_intros <;> first | omega | exact Enc.memMod_lt _ _ (by omega) (by omega) | exact h.2.2.1 | exact h.2.1 | exact h.2.2 | exact h.2 | exact h.1 | exact h)
theorem WfEncode.mulI : ∀ d a i, Statement (.mulI d a i) := fun d a i => of_rim rfl rfl fun h => by have h := of_decide_eq_true h; first | omega | (and_intros <;> first | omega | exact Enc.memMod_lt _ _ (by omega) (by omega) | exact h.2.2.1 | exact h.2.1 | exact h.2.2 | exact h.2 | exact h.1 | exact h)
theorem WfEncode.mulh : ∀ d a b, Statement (.mulh d a b) := fun d a b => of_rrr rfl rfl fun h => by have h := of_decide_eq_true h; first | omega | (and_intros <;> first | omega | exact Enc.memMod_lt _ _ (by omega) (by omega) | exact h.2.2.1 | exact h.2.1 | exact h.2.2 | exact h.2 | exact h.1 | exact h)
theorem WfEncode.mulhI : ∀ d a i, Statement (.mulhI d a i) := fun d a i => of_rim rfl rfl fun h => by have h := of_decide_eq_true h; first | omega | (and_intros <;> first | omega | exact Enc.memMod_lt _ _ (by omega) (by omega) | exact h.2.2.1 | exact h.2.1 | exact h.2.2 | exact h.2 | exact h.1 | exact h)
theorem WfEncode.mulhu : ∀ d a b, Statement (.mulhu d a b) := fun d a b => of_rrr rfl rfl fun h => by have h := of_decide_eq_true h; first | omega | (and_intros <;> first | omega | exact Enc.memMod_lt _ _ (by omega) (by omega) | exact h.2.2.1 | exact h.2.1 | exact h.2.2 | exact h.2 | exact h.1 | exact h)
theorem WfEncode.mulhuI : ∀ d a i, Statement (.mulhuI d a i) := fun d a i => of_rim rfl rfl fun h => by have h := of_decide_eq_true h; first | omega | (and_intros <;> first | omega | exact Enc.memMod_lt _ _ (by omega) (by omega) | exact h.2.2.1 | exact h.2.1 | exact h.2.2 | exact h.2 | exact h.1 | exact h)
theorem WfEncode.div : ∀ d a b, Statement (.div d a b) := fun d a b => of_rrr rfl rfl fun h => by have h := of_decide_eq_true h; first | omega | (and_intros <;> first | omega | exact Enc.memMod_lt _ _ (by omega) (by omega) | exact h.2.2.1 | exact h.2.1 | exact h.2.2 | exact h.2 | exact h.1 | exact h)
theorem WfEncode.divI : ∀ d a i, Statement (.divI d a i) := fun d a i => of_rim rfl rfl fun h => by have h := of_decide_eq_true h; first | omega | (and_intros <;> first | omega | exact Enc.memMod_lt _ _ (by omega) (by omega) | exact h.2.2.1 | exact h.2.1 | exact h.2.2 | exact h.2 | exact h.1 | exact h)
theorem WfEncode.divu : ∀ d a b, Statement (.divu d a b) := fun d a b => of_rrr rfl rfl fun h => by have h := of_decide_eq_true h; first | omega | (and_intros <;> first | omega | exact Enc.memMod_lt _ _ (by omega) (by omega) | exact h.2.2.1 | exact h.2.1 | exact h.2.2 | exact h.2 | exact h.1 | exact h)
theorem WfEncode.divuI : ∀ d a i, Statement (.divuI d a i) := fun d a i => of_rim rfl rfl fun h => by have h := of_decide_eq_true h; first | omega | (and_intros <;> first | omega | exact Enc.memMod_lt _ _ (by omega) (by omega) | exact h.2.2.1 | exact h.2.1 | exact h.2.2 | exact h.2 | exact h.1 | exact h)
theorem WfEncode.rem : ∀ d a b, Statement (.rem d a b) := fun d a b => of_rrr rfl rfl fun h => by have h := of_decide_eq_true h; first | omega | (and_intros <;> first | omega | exact Enc.memMod_lt _ _ (by omega) (by omega) | exact h.2.2.1 | exact h.2.1 | exact h.2.2 | exact h.2 | exact h.1 | exact h)
theorem WfEncode.remI : ∀ d a i, Statement (.remI d a i) := fun d a i => of_rim rfl rfl fun h => by have h := of_decide_eq_true h; first | omega | (and_intros <;> first | omega | exact Enc.memMod_lt _ _ (by omega) (by omega) | exact h.2.2.1 | exact h.2.1 | exact h.2.2 | exact h.2 | exact h.1 | exact h)
theorem WfEncode.remu : ∀ d a b, Statement (.remu d a b) := fun d a b => of_rrr rfl rfl fun h => by have h := of_decide_eq_true h; first | omega | (and_intros <;> first | omega | exact Enc.memMod_lt _ _ (by omega) (by omega) | exact h.2.2.1 | exact h.2.1 | exact h.2.2 | exact h.2 | exact h.1 | exact h)
theorem WfEncode.remuI : ∀ d a i, Statement (.remuI d a i) := fun d a i => of_rim rfl rfl fun h => by have h := of_decide_eq_true h; first | omega | (and_intros <;> first | omega | exact Enc.memMod_lt _ _ (by omega) (by omega) | exact h.2.2.1 | exact h.2.1 | exact h.2.2 | exact h.2 | exact h.1 | exact h)
theorem WfEncode.and : ∀ d a b, Statement (.and d a b) := fun d a b => of_rrr rfl rfl fun h => by have h := of_decide_eq_true h; first | omega | (and_intros <;> first | omega | exact Enc.memMod_lt _ _ (by omega) (by omega) | exact h.2.2.1 | exact h.2.1 | exact h.2.2 | exact h.2 | exact h.1 | exact h)
theorem WfEncode.andI : ∀ d a i, Statement (.andI d a i) := fun d a i => of_rim rfl rfl fun h => by have h := of_decide_eq_true h; first | omega | (and_intros <;> first | omega | exact Enc.memMod_lt _ _ (by omega) (by omega) | exact h.2.2.1 | exact h.2.1 | exact h.2.2 | exact h.2 | exact h.1 | exact h)
theorem WfEncode.or : ∀ d a b, Statement (.or d a b) := fun d a b => of_rrr rfl rfl fun h => by have h := of_decide_eq_true h; first | omega | (and_intros <;> first | omega | exact Enc.memMod_lt _ _ (by omega) (by omega) | exact h.2.2.1 | exact h.2.1 | exact h.2.2 | exact h.2 | exact h.1 | exact h)
theorem WfEncode.orI : ∀ d a i, Statement (.orI d a i) := fun d a i => of_rim rfl rfl fun h => by have h := of_decide_eq_true h; first | omega | (and_intros <;> first | omega | exact Enc.memMod_lt _ _ (by omega) (by omega) | exact h.2.2.1 | exact h.2.1 | exact h.2.2 | exact h.2 | exact h.1 | exact h)
theorem WfEncode.xor : ∀ d a b, Statement (.xor d a b) := fun d a b => of_rrr rfl rfl fun h => by have h := of_decide_eq_true h; first | omega | (and_intros <;> first | omega | exact Enc.memMod_lt _ _ (by omega) (by omega) | exact h.2.2.1 | exact h.2.1 | exact h.2.2 | exact h.2 | exact h.1 | exact h)
theorem WfEncode.xorI : ∀ d a i, Statement (.xorI d a i) := fun d a i => of_rim rfl rfl fun h => by have h := of_decide_eq_true h; first | omega | (and_intros <;> first | omega | exact Enc.memMod_lt _ _ (by omega) (by omega) | exact h.2.2.1 | exact h.2.1 | exact h.2.2 | exact h.2 | exact h.1 | exact h)
theorem WfEncode.andn : ∀ d a b, Statement (.andn d a b) := fun d a b => of_rrr rfl rfl fun h => by have h := of_decide_eq_true h; first | omega | (and_intros <;> first | omega | exact Enc.memMod_lt _ _ (by omega) (by omega) | exact h.2.2.1 | exact h.2.1 | exact h.2.2 | exact h.2 | exact h.1 | exact h)
theorem WfEncode.andnI : ∀ d a i, Statement (.andnI d a i) := fun d a i => of_rim rfl rfl fun h => by have h := of_decide_eq_true h; first | omega | (and_intros <;> first | omega | exact Enc.memMod_lt _ _ (by omega) (by omega) | exact h.2.2.1 | exact h.2.1 | exact h.2.2 | exact h.2 | exact h.1 | exact h)
theorem WfEncode.shl : ∀ d a b, Statement (.shl d a b) := fun d a b => of_rrr rfl rfl fun h => by have h := of_decide_eq_true h; first | omega | (and_intros <;> first | omega | exact Enc.memMod_lt _ _ (by omega) (by omega) | exact h.2.2.1 | exact h.2.1 | exact h.2.2 | exact h.2 | exact h.1 | exact h)
theorem WfEncode.shlI : ∀ d a i, Statement (.shlI d a i) := fun d a i => of_rim rfl rfl fun h => by have h := of_decide_eq_true h; first | omega | (and_intros <;> first | omega | exact Enc.memMod_lt _ _ (by omega) (by omega) | exact h.2.2.1 | exact h.2.1 | exact h.2.2 | exact h.2 | exact h.1 | exact h)
theorem WfEncode.shr : ∀ d a b, Statement (.shr d a b) := fun d a b => of_rrr rfl rfl fun h => by have h := of_decide_eq_true h; first | omega | (and_intros <;> first | omega | exact Enc.memMod_lt _ _ (by omega) (by omega) | exact h.2.2.1 | exact h.2.1 | exact h.2.2 | exact h.2 | exact h.1 | exact h)
theorem WfEncode.shrI : ∀ d a i, Statement (.shrI d a i) := fun d a i => of_rim rfl rfl fun h => by have h := of_decide_eq_true h; first | omega | (and_intros <;> first | omega | exact Enc.memMod_lt _ _ (by omega) (by omega) | exact h.2.2.1 | exact h.2.1 | exact h.2.2 | exact h.2 | exact h.1 | exact h)
theorem WfEncode.sar : ∀ d a b, Statement (.sar d a b) := fun d a b => of_rrr rfl rfl fun h => by have h := of_decide_eq_true h; first | omega | (and_intros <;> first | omega | exact Enc.memMod_lt _ _ (by omega) (by omega) | exact h.2.2.1 | exact h.2.1 | exact h.2.2 | exact h.2 | exact h.1 | exact h)
theorem WfEncode.sarI : ∀ d a i, Statement (.sarI d a i) := fun d a i => of_rim rfl rfl fun h => by have h := of_decide_eq_true h; first | omega | (and_intros <;> first | omega | exact Enc.memMod_lt _ _ (by omega) (by omega) | exact h.2.2.1 | exact h.2.1 | exact h.2.2 | exact h.2 | exact h.1 | exact h)
theorem WfEncode.rotl : ∀ d a b, Statement (.rotl d a b) := fun d a b => of_rrr rfl rfl fun h => by have h := of_decide_eq_true h; first | omega | (and_intros <;> first | omega | exact Enc.memMod_lt _ _ (by omega) (by omega) | exact h.2.2.1 | exact h.2.1 | exact h.2.2 | exact h.2 | exact h.1 | exact h)
theorem WfEncode.rotlI : ∀ d a i, Statement (.rotlI d a i) := fun d a i => of_rim rfl rfl fun h => by have h := of_decide_eq_true h; first | omega | (and_intros <;> first | omega | exact Enc.memMod_lt _ _ (by omega) (by omega) | exact h.2.2.1 | exact h.2.1 | exact h.2.2 | exact h.2 | exact h.1 | exact h)
theorem WfEncode.min : ∀ d a b, Statement (.min d a b) := fun d a b => of_rrr rfl rfl fun h => by have h := of_decide_eq_true h; first | omega | (and_intros <;> first | omega | exact Enc.memMod_lt _ _ (by omega) (by omega) | exact h.2.2.1 | exact h.2.1 | exact h.2.2 | exact h.2 | exact h.1 | exact h)
theorem WfEncode.minI : ∀ d a i, Statement (.minI d a i) := fun d a i => of_rim rfl rfl fun h => by have h := of_decide_eq_true h; first | omega | (and_intros <;> first | omega | exact Enc.memMod_lt _ _ (by omega) (by omega) | exact h.2.2.1 | exact h.2.1 | exact h.2.2 | exact h.2 | exact h.1 | exact h)
theorem WfEncode.max : ∀ d a b, Statement (.max d a b) := fun d a b => of_rrr rfl rfl fun h => by have h := of_decide_eq_true h; first | omega | (and_intros <;> first | omega | exact Enc.memMod_lt _ _ (by omega) (by omega) | exact h.2.2.1 | exact h.2.1 | exact h.2.2 | exact h.2 | exact h.1 | exact h)
theorem WfEncode.maxI : ∀ d a i, Statement (.maxI d a i) := fun d a i => of_rim rfl rfl fun h => by have h := of_decide_eq_true h; first | omega | (and_intros <;> first | omega | exact Enc.memMod_lt _ _ (by omega) (by omega) | exact h.2.2.1 | exact h.2.1 | exact h.2.2 | exact h.2 | exact h.1 | exact h)
theorem WfEncode.minu : ∀ d a b, Statement (.minu d a b) := fun d a b => of_rrr rfl rfl fun h => by have h := of_decide_eq_true h; first | omega | (and_intros <;> first | omega | exact Enc.memMod_lt _ _ (by omega) (by omega) | exact h.2.2.1 | exact h.2.1 | exact h.2.2 | exact h.2 | exact h.1 | exact h)
theorem WfEncode.minuI : ∀ d a i, Statement (.minuI d a i) := fun d a i => of_rim rfl rfl fun h => by have h := of_decide_eq_true h; first | omega | (and_intros <;> first | omega | exact Enc.memMod_lt _ _ (by omega) (by omega) | exact h.2.2.1 | exact h.2.1 | exact h.2.2 | exact h.2 | exact h.1 | exact h)
theorem WfEncode.maxu : ∀ d a b, Statement (.maxu d a b) := fun d a b => of_rrr rfl rfl fun h => by have h := of_decide_eq_true h; first | omega | (and_intros <;> first | omega | exact Enc.memMod_lt _ _ (by omega) (by omega) | exact h.2.2.1 | exact h.2.1 | exact h.2.2 | exact h.2 | exact h.1 | exact h)
theorem WfEncode.maxuI : ∀ d a i, Statement (.maxuI d a i) := fun d a i => of_rim rfl rfl fun h => by have h := of_decide_eq_true h; first | omega | (and_intros <;> first | omega | exact Enc.memMod_lt _ _ (by omega) (by omega) | exact h.2.2.1 | exact h.2.1 | exact h.2.2 | exact h.2 | exact h.1 | exact h)
theorem WfEncode.clz : ∀ d a, Statement (.clz d a) := fun d a => of_rrr rfl rfl fun h => by have h := of_decide_eq_true h; first | omega | (and_intros <;> first | omega | exact Enc.memMod_lt _ _ (by omega) (by omega) | exact h.2.2.1 | exact h.2.1 | exact h.2.2 | exact h.2 | exact h.1 | exact h)
theorem WfEncode.ctz : ∀ d a, Statement (.ctz d a) := fun d a => of_rrr rfl rfl fun h => by have h := of_decide_eq_true h; first | omega | (and_intros <;> first | omega | exact Enc.memMod_lt _ _ (by omega) (by omega) | exact h.2.2.1 | exact h.2.1 | exact h.2.2 | exact h.2 | exact h.1 | exact h)
theorem WfEncode.popc : ∀ d a, Statement (.popc d a) := fun d a => of_rrr rfl rfl fun h => by have h := of_decide_eq_true h; first | omega | (and_intros <;> first | omega | exact Enc.memMod_lt _ _ (by omega) (by omega) | exact h.2.2.1 | exact h.2.1 | exact h.2.2 | exact h.2 | exact h.1 | exact h)
theorem WfEncode.sext : ∀ w d a, Statement (.sext w d a) := fun w d a => of_rrr rfl rfl fun h => by have := Enc.xwidth_lt w; have h := of_decide_eq_true h; first | omega | (and_intros <;> first | omega | exact Enc.memMod_lt _ _ (by omega) (by omega) | exact h.2.2.1 | exact h.2.1 | exact h.2.2 | exact h.2 | exact h.1 | exact h)
theorem WfEncode.zext : ∀ w d a, Statement (.zext w d a) := fun w d a => of_rrr rfl rfl fun h => by have := Enc.xwidth_lt w; have h := of_decide_eq_true h; first | omega | (and_intros <;> first | omega | exact Enc.memMod_lt _ _ (by omega) (by omega) | exact h.2.2.1 | exact h.2.1 | exact h.2.2 | exact h.2 | exact h.1 | exact h)
theorem WfEncode.bfx : ∀ sg d a b, Statement (.bfx sg d a b) := fun sg d a b => of_rrr rfl rfl fun h => by have := Enc.bit_lt sg; have h := of_decide_eq_true h; first | omega | (and_intros <;> first | omega | exact Enc.memMod_lt _ _ (by omega) (by omega) | exact h.2.2.1 | exact h.2.1 | exact h.2.2 | exact h.2 | exact h.1 | exact h)
theorem WfEncode.bfi : ∀ d a b c, Statement (.bfi d a b c) := fun d a b c => of_rrr rfl rfl fun h => by have h := of_decide_eq_true h; first | omega | (and_intros <;> first | omega | exact Enc.memMod_lt _ _ (by omega) (by omega) | exact h.2.2.1 | exact h.2.1 | exact h.2.2 | exact h.2 | exact h.1 | exact h)
theorem WfEncode.sel : ∀ d pc a b, Statement (.sel d pc a b) := fun d pc a b => of_rrr rfl rfl fun h => by have h := of_decide_eq_true h; first | omega | (and_intros <;> first | omega | exact Enc.memMod_lt _ _ (by omega) (by omega) | exact h.2.2.1 | exact h.2.1 | exact h.2.2 | exact h.2 | exact h.1 | exact h)
theorem WfEncode.cmp : ∀ k d a b, Statement (.cmp k d a b) := fun k d a b => of_rrr rfl rfl fun h => by have := Enc.cond_lt k; have h := of_decide_eq_true h; first | omega | (and_intros <;> first | omega | exact Enc.memMod_lt _ _ (by omega) (by omega) | exact h.2.2.1 | exact h.2.1 | exact h.2.2 | exact h.2 | exact h.1 | exact h)
theorem WfEncode.plog : ∀ t d a b, Statement (.plog t d a b) := fun t d a b => of_rrr rfl rfl fun h => by have := t.isLt; have h := of_decide_eq_true h; first | omega | (and_intros <;> first | omega | exact Enc.memMod_lt _ _ (by omega) (by omega) | exact h.2.2.1 | exact h.2.1 | exact h.2.2 | exact h.2 | exact h.1 | exact h)
theorem WfEncode.movpPs : ∀ d a, Statement (.movpPs d a) := fun d a => of_rrr rfl rfl fun h => by have h := of_decide_eq_true h; first | omega | (and_intros <;> first | omega | exact Enc.memMod_lt _ _ (by omega) (by omega) | exact h.2.2.1 | exact h.2.1 | exact h.2.2 | exact h.2 | exact h.1 | exact h)
theorem WfEncode.movpSp : ∀ d a, Statement (.movpSp d a) := fun d a => of_rrr rfl rfl fun h => by have h := of_decide_eq_true h; first | omega | (and_intros <;> first | omega | exact Enc.memMod_lt _ _ (by omega) (by omega) | exact h.2.2.1 | exact h.2.1 | exact h.2.2 | exact h.2 | exact h.1 | exact h)
theorem WfEncode.movpAll : ∀ d, Statement (.movpAll d) := fun d => of_rrr rfl rfl fun h => by have h := of_decide_eq_true h; first | omega | (and_intros <;> first | omega | exact Enc.memMod_lt _ _ (by omega) (by omega) | exact h.2.2.1 | exact h.2.1 | exact h.2.2 | exact h.2 | exact h.1 | exact h)
theorem WfEncode.li : ∀ d i, Statement (.li d i) := fun d i => of_rim rfl rfl fun h => by have h := of_decide_eq_true h; first | omega | (and_intros <;> first | omega | exact Enc.memMod_lt _ _ (by omega) (by omega) | exact h.2.2.1 | exact h.2.1 | exact h.2.2 | exact h.2 | exact h.1 | exact h)
theorem WfEncode.lih : ∀ d v, Statement (.lih d v) := fun d v => of_ri rfl rfl fun h => by have h := of_decide_eq_true h; first | omega | (and_intros <;> first | omega | exact Enc.memMod_lt _ _ (by omega) (by omega) | exact h.2.2.1 | exact h.2.1 | exact h.2.2 | exact h.2 | exact h.1 | exact h)
theorem WfEncode.rsr : ∀ d r, Statement (.rsr d r) := fun d r => of_some rfl fun h => by have h := of_decide_eq_true h; have hr := Enc.spReg_lt r h.2; show _ < 2 ^ 64; omega
theorem WfEncode.wsr : ∀ r a, Statement (.wsr r a) := fun r a => of_some rfl fun h => by have h := of_decide_eq_true h; have hr := Enc.spReg_lt r (by cases r <;> simp_all [WF.writableSp, WF.sp]); show _ < 2 ^ 64; omega
theorem WfEncode.br : ∀ k c off, Statement (.br k c off) := fun k c off => of_some rfl fun h => by have := Enc.brCnd_lt k; have := off.isLt; have h := of_decide_eq_true h; show _ < 2 ^ 64; omega
theorem WfEncode.jmp : ∀ off, Statement (.jmp off) := fun off => of_some rfl fun h => by have := off.isLt; show _ < 2 ^ 64; omega
theorem WfEncode.call : ∀ off, Statement (.call off) := fun off => of_some rfl fun h => by have := off.isLt; show _ < 2 ^ 64; omega
theorem WfEncode.callr : ∀ nl a, Statement (.callr nl a) := fun nl a => of_some rfl fun h => by have := Enc.bit_lt nl; have h := of_decide_eq_true h; show _ < 2 ^ 64; omega
theorem WfEncode.ret : Statement .ret := of_some rfl fun h => by show _ < 2 ^ 64; omega
theorem WfEncode.loopSet : ∀ c off, Statement (.loopSet c off) := fun c off => of_some rfl fun h => by have := off.isLt; have h := of_decide_eq_true h; show _ < 2 ^ 64; omega
theorem WfEncode.loop : Statement .loop := of_some rfl fun h => by show _ < 2 ^ 64; omega
theorem WfEncode.loopBrk : Statement .loopBrk := of_some rfl fun h => by show _ < 2 ^ 64; omega
theorem WfEncode.loopIdx : ∀ d k, Statement (.loopIdx d k) := fun d k => of_some rfl fun h => by have h := of_decide_eq_true h; show _ < 2 ^ 64; omega
theorem WfEncode.endTask : Statement .endTask := of_some rfl fun h => by show _ < 2 ^ 64; omega
theorem WfEncode.trap : ∀ k, Statement (.trap k) := fun k => of_some rfl fun h => by have := k.isLt; show _ < 2 ^ 64; omega
theorem WfEncode.brk : ∀ k, Statement (.brk k) := fun k => of_some rfl fun h => by have := k.isLt; show _ < 2 ^ 64; omega
theorem WfEncode.bankmode : ∀ bank m, Statement (.bankmode bank m) := fun bank m => of_some rfl fun h => by have := Enc.bankMode_lt m; have h := of_decide_eq_true h; show _ < 2 ^ 64; omega
theorem WfEncode.rbase : ∀ x0, Statement (.rbase x0)
  | (.imm vrb mrb prb) => of_some rfl fun h => by have h := of_decide_eq_true h; show _ < 2 ^ 64; omega
  | (.reg a) => of_some rfl fun h => by have h := of_decide_eq_true h; show _ < 2 ^ 64; omega
theorem WfEncode.eret : Statement .eret := of_some rfl fun h => by show _ < 2 ^ 64; omega
theorem WfEncode.csrr : ∀ d r, Statement (.csrr d r) := fun d r => of_some rfl fun h => by have h := of_decide_eq_true h; have hr := Enc.pReg_lt r h.2; show _ < 2 ^ 64; omega
theorem WfEncode.csrw : ∀ r a, Statement (.csrw r a) := fun r a => of_some rfl fun h => by have h := of_decide_eq_true h; have hr := Enc.pReg_lt r h.1; show _ < 2 ^ 64; omega
theorem WfEncode.tlbInvAll : Statement .tlbInvAll := of_rrr rfl rfl fun h => by first | omega | (and_intros <;> first | omega | exact Enc.memMod_lt _ _ (by omega) (by omega) | exact h.2.2.1 | exact h.2.1 | exact h.2.2 | exact h.2 | exact h.1 | exact h)
theorem WfEncode.tlbInvAsid : ∀ b, Statement (.tlbInvAsid b) := fun b => of_rrr rfl rfl fun h => by have h := of_decide_eq_true h; first | omega | (and_intros <;> first | omega | exact Enc.memMod_lt _ _ (by omega) (by omega) | exact h.2.2.1 | exact h.2.1 | exact h.2.2 | exact h.2 | exact h.1 | exact h)
theorem WfEncode.tlbInvVa : ∀ a b, Statement (.tlbInvVa a b) := fun a b => of_rrr rfl rfl fun h => by have h := of_decide_eq_true h; first | omega | (and_intros <;> first | omega | exact Enc.memMod_lt _ _ (by omega) (by omega) | exact h.2.2.1 | exact h.2.1 | exact h.2.2 | exact h.2 | exact h.1 | exact h)
theorem WfEncode.tlbPrb : ∀ d a, Statement (.tlbPrb d a) := fun d a => of_rrr rfl rfl fun h => by have h := of_decide_eq_true h; first | omega | (and_intros <;> first | omega | exact Enc.memMod_lt _ _ (by omega) (by omega) | exact h.2.2.1 | exact h.2.1 | exact h.2.2 | exact h.2 | exact h.1 | exact h)
theorem WfEncode.ctxSv : ∀ a, Statement (.ctxSv a) := fun a => of_rrr rfl rfl fun h => by have h := of_decide_eq_true h; first | omega | (and_intros <;> first | omega | exact Enc.memMod_lt _ _ (by omega) (by omega) | exact h.2.2.1 | exact h.2.1 | exact h.2.2 | exact h.2 | exact h.1 | exact h)
theorem WfEncode.ctxLd : ∀ a, Statement (.ctxLd a) := fun a => of_rrr rfl rfl fun h => by have h := of_decide_eq_true h; first | omega | (and_intros <;> first | omega | exact Enc.memMod_lt _ _ (by omega) (by omega) | exact h.2.2.1 | exact h.2.1 | exact h.2.2 | exact h.2 | exact h.1 | exact h)
theorem WfEncode.wfe : Statement .wfe := of_some rfl fun h => by show _ < 2 ^ 64; omega
theorem WfEncode.vfadd : ∀ r d a b m, Statement (.vfadd r d a b m) := fun r d a b m => of_vab rfl rfl fun h => by have := Enc.rm_lt r; have h := of_decide_eq_true h; first | omega | (and_intros <;> first | omega | exact Enc.memMod_lt _ _ (by omega) (by omega) | exact h.2.2.1 | exact h.2.1 | exact h.2.2 | exact h.2 | exact h.1 | exact h)
theorem WfEncode.vfsub : ∀ r d a b m, Statement (.vfsub r d a b m) := fun r d a b m => of_vab rfl rfl fun h => by have := Enc.rm_lt r; have h := of_decide_eq_true h; first | omega | (and_intros <;> first | omega | exact Enc.memMod_lt _ _ (by omega) (by omega) | exact h.2.2.1 | exact h.2.1 | exact h.2.2 | exact h.2 | exact h.1 | exact h)
theorem WfEncode.vfmul : ∀ r d a b m, Statement (.vfmul r d a b m) := fun r d a b m => of_vab rfl rfl fun h => by have := Enc.rm_lt r; have h := of_decide_eq_true h; first | omega | (and_intros <;> first | omega | exact Enc.memMod_lt _ _ (by omega) (by omega) | exact h.2.2.1 | exact h.2.1 | exact h.2.2 | exact h.2 | exact h.1 | exact h)
theorem WfEncode.vfma : ∀ r d a b c m, Statement (.vfma r d a b c m) := fun r d a b c m => of_vab rfl rfl fun h => by have := Enc.rm_lt r; have h := of_decide_eq_true h; first | omega | (and_intros <;> first | omega | exact Enc.memMod_lt _ _ (by omega) (by omega) | exact h.2.2.1 | exact h.2.1 | exact h.2.2 | exact h.2 | exact h.1 | exact h)
theorem WfEncode.vfms : ∀ r d a b c m, Statement (.vfms r d a b c m) := fun r d a b c m => of_vab rfl rfl fun h => by have := Enc.rm_lt r; have h := of_decide_eq_true h; first | omega | (and_intros <;> first | omega | exact Enc.memMod_lt _ _ (by omega) (by omega) | exact h.2.2.1 | exact h.2.1 | exact h.2.2 | exact h.2 | exact h.1 | exact h)
theorem WfEncode.vfnma : ∀ r d a b c m, Statement (.vfnma r d a b c m) := fun r d a b c m => of_vab rfl rfl fun h => by have := Enc.rm_lt r; have h := of_decide_eq_true h; first | omega | (and_intros <;> first | omega | exact Enc.memMod_lt _ _ (by omega) (by omega) | exact h.2.2.1 | exact h.2.1 | exact h.2.2 | exact h.2 | exact h.1 | exact h)
theorem WfEncode.vfmin : ∀ d a b m, Statement (.vfmin d a b m) := fun d a b m => of_vab rfl rfl fun h => by have h := of_decide_eq_true h; first | omega | (and_intros <;> first | omega | exact Enc.memMod_lt _ _ (by omega) (by omega) | exact h.2.2.1 | exact h.2.1 | exact h.2.2 | exact h.2 | exact h.1 | exact h)
theorem WfEncode.vfmax : ∀ d a b m, Statement (.vfmax d a b m) := fun d a b m => of_vab rfl rfl fun h => by have h := of_decide_eq_true h; first | omega | (and_intros <;> first | omega | exact Enc.memMod_lt _ _ (by omega) (by omega) | exact h.2.2.1 | exact h.2.1 | exact h.2.2 | exact h.2 | exact h.1 | exact h)
theorem WfEncode.vfabs : ∀ d a m, Statement (.vfabs d a m) := fun d a m => of_rrr rfl rfl fun h => by have h := of_decide_eq_true h; simp only [Enc.vmod]; first | omega | (and_intros <;> first | omega | exact Enc.memMod_lt _ _ (by omega) (by omega) | exact h.2.2.1 | exact h.2.1 | exact h.2.2 | exact h.2 | exact h)
theorem WfEncode.vfneg : ∀ d a m, Statement (.vfneg d a m) := fun d a m => of_rrr rfl rfl fun h => by have h := of_decide_eq_true h; simp only [Enc.vmod]; first | omega | (and_intros <;> first | omega | exact Enc.memMod_lt _ _ (by omega) (by omega) | exact h.2.2.1 | exact h.2.1 | exact h.2.2 | exact h.2 | exact h)
theorem WfEncode.vfcmp : ∀ k d a b m, Statement (.vfcmp k d a b m) := fun k d a b m => of_vab rfl rfl fun h => by have := Enc.fcond_lt k; have h := of_decide_eq_true h; first | omega | (and_intros <;> first | omega | exact Enc.memMod_lt _ _ (by omega) (by omega) | exact h.2.2.1 | exact h.2.1 | exact h.2.2 | exact h.2 | exact h.1 | exact h)
theorem WfEncode.vfrcp : ∀ r d a m, Statement (.vfrcp r d a m) := fun r d a m => of_rrr rfl rfl fun h => by have := Enc.rm_lt r; have h := of_decide_eq_true h; simp only [Enc.vmod]; first | omega | (and_intros <;> first | omega | exact Enc.memMod_lt _ _ (by omega) (by omega) | exact h.2.2.1 | exact h.2.1 | exact h.2.2 | exact h.2 | exact h)
theorem WfEncode.vfrsq : ∀ r d a m, Statement (.vfrsq r d a m) := fun r d a m => of_rrr rfl rfl fun h => by have := Enc.rm_lt r; have h := of_decide_eq_true h; simp only [Enc.vmod]; first | omega | (and_intros <;> first | omega | exact Enc.memMod_lt _ _ (by omega) (by omega) | exact h.2.2.1 | exact h.2.1 | exact h.2.2 | exact h.2 | exact h)
theorem WfEncode.vfexp2 : ∀ r d a m, Statement (.vfexp2 r d a m) := fun r d a m => of_rrr rfl rfl fun h => by have := Enc.rm_lt r; have h := of_decide_eq_true h; simp only [Enc.vmod]; first | omega | (and_intros <;> first | omega | exact Enc.memMod_lt _ _ (by omega) (by omega) | exact h.2.2.1 | exact h.2.1 | exact h.2.2 | exact h.2 | exact h)
theorem WfEncode.vflog2 : ∀ r d a m, Statement (.vflog2 r d a m) := fun r d a m => of_rrr rfl rfl fun h => by have := Enc.rm_lt r; have h := of_decide_eq_true h; simp only [Enc.vmod]; first | omega | (and_intros <;> first | omega | exact Enc.memMod_lt _ _ (by omega) (by omega) | exact h.2.2.1 | exact h.2.1 | exact h.2.2 | exact h.2 | exact h)
theorem WfEncode.vfscl : ∀ r d a b m, Statement (.vfscl r d a b m) := fun r d a b m => of_vab rfl rfl fun h => by have := Enc.rm_lt r; have h := of_decide_eq_true h; first | omega | (and_intros <;> first | omega | exact Enc.memMod_lt _ _ (by omega) (by omega) | exact h.2.2.1 | exact h.2.1 | exact h.2.2 | exact h.2 | exact h.1 | exact h)
theorem WfEncode.vfsqrt : ∀ r d a m, Statement (.vfsqrt r d a m) := fun r d a m => of_rrr rfl rfl fun h => by have := Enc.rm_lt r; have h := of_decide_eq_true h; simp only [Enc.vmod]; first | omega | (and_intros <;> first | omega | exact Enc.memMod_lt _ _ (by omega) (by omega) | exact h.2.2.1 | exact h.2.1 | exact h.2.2 | exact h.2 | exact h)
theorem WfEncode.vadd : ∀ k d a b m, Statement (.vadd k d a b m) := fun k d a b m => of_vab rfl rfl fun h => by have := Enc.sat_lt k; have h := of_decide_eq_true h; first | omega | (and_intros <;> first | omega | exact Enc.memMod_lt _ _ (by omega) (by omega) | exact h.2.2.1 | exact h.2.1 | exact h.2.2 | exact h.2 | exact h.1 | exact h)
theorem WfEncode.vsub : ∀ k d a b m, Statement (.vsub k d a b m) := fun k d a b m => of_vab rfl rfl fun h => by have := Enc.sat_lt k; have h := of_decide_eq_true h; first | omega | (and_intros <;> first | omega | exact Enc.memMod_lt _ _ (by omega) (by omega) | exact h.2.2.1 | exact h.2.1 | exact h.2.2 | exact h.2 | exact h.1 | exact h)
theorem WfEncode.vmul : ∀ d a b m, Statement (.vmul d a b m) := fun d a b m => of_vab rfl rfl fun h => by have h := of_decide_eq_true h; first | omega | (and_intros <;> first | omega | exact Enc.memMod_lt _ _ (by omega) (by omega) | exact h.2.2.1 | exact h.2.1 | exact h.2.2 | exact h.2 | exact h.1 | exact h)
theorem WfEncode.vmulh : ∀ u d a b m, Statement (.vmulh u d a b m) := fun u d a b m => of_vab rfl rfl fun h => by have := Enc.bit_lt u; have h := of_decide_eq_true h; first | omega | (and_intros <;> first | omega | exact Enc.memMod_lt _ _ (by omega) (by omega) | exact h.2.2.1 | exact h.2.1 | exact h.2.2 | exact h.2 | exact h.1 | exact h)
theorem WfEncode.vand : ∀ d a b m, Statement (.vand d a b m) := fun d a b m => of_vab rfl rfl fun h => by have h := of_decide_eq_true h; first | omega | (and_intros <;> first | omega | exact Enc.memMod_lt _ _ (by omega) (by omega) | exact h.2.2.1 | exact h.2.1 | exact h.2.2 | exact h.2 | exact h.1 | exact h)
theorem WfEncode.vor : ∀ d a b m, Statement (.vor d a b m) := fun d a b m => of_vab rfl rfl fun h => by have h := of_decide_eq_true h; first | omega | (and_intros <;> first | omega | exact Enc.memMod_lt _ _ (by omega) (by omega) | exact h.2.2.1 | exact h.2.1 | exact h.2.2 | exact h.2 | exact h.1 | exact h)
theorem WfEncode.vxor : ∀ d a b m, Statement (.vxor d a b m) := fun d a b m => of_vab rfl rfl fun h => by have h := of_decide_eq_true h; first | omega | (and_intros <;> first | omega | exact Enc.memMod_lt _ _ (by omega) (by omega) | exact h.2.2.1 | exact h.2.1 | exact h.2.2 | exact h.2 | exact h.1 | exact h)
theorem WfEncode.vshl : ∀ d a b m, Statement (.vshl d a b m) := fun d a b m => of_vab rfl rfl fun h => by have h := of_decide_eq_true h; first | omega | (and_intros <;> first | omega | exact Enc.memMod_lt _ _ (by omega) (by omega) | exact h.2.2.1 | exact h.2.1 | exact h.2.2 | exact h.2 | exact h.1 | exact h)
theorem WfEncode.vshr : ∀ d a b m, Statement (.vshr d a b m) := fun d a b m => of_vab rfl rfl fun h => by have h := of_decide_eq_true h; first | omega | (and_intros <;> first | omega | exact Enc.memMod_lt _ _ (by omega) (by omega) | exact h.2.2.1 | exact h.2.1 | exact h.2.2 | exact h.2 | exact h.1 | exact h)
theorem WfEncode.vsar : ∀ d a b m, Statement (.vsar d a b m) := fun d a b m => of_vab rfl rfl fun h => by have h := of_decide_eq_true h; first | omega | (and_intros <;> first | omega | exact Enc.memMod_lt _ _ (by omega) (by omega) | exact h.2.2.1 | exact h.2.1 | exact h.2.2 | exact h.2 | exact h.1 | exact h)
theorem WfEncode.vmin : ∀ u d a b m, Statement (.vmin u d a b m) := fun u d a b m => of_vab rfl rfl fun h => by have := Enc.bit_lt u; have h := of_decide_eq_true h; first | omega | (and_intros <;> first | omega | exact Enc.memMod_lt _ _ (by omega) (by omega) | exact h.2.2.1 | exact h.2.1 | exact h.2.2 | exact h.2 | exact h.1 | exact h)
theorem WfEncode.vmax : ∀ u d a b m, Statement (.vmax u d a b m) := fun u d a b m => of_vab rfl rfl fun h => by have := Enc.bit_lt u; have h := of_decide_eq_true h; first | omega | (and_intros <;> first | omega | exact Enc.memMod_lt _ _ (by omega) (by omega) | exact h.2.2.1 | exact h.2.1 | exact h.2.2 | exact h.2 | exact h.1 | exact h)
theorem WfEncode.vcmp : ∀ k d a b m, Statement (.vcmp k d a b m) := fun k d a b m => of_vab rfl rfl fun h => by have := Enc.cond_lt k; have h := of_decide_eq_true h; first | omega | (and_intros <;> first | omega | exact Enc.memMod_lt _ _ (by omega) (by omega) | exact h.2.2.1 | exact h.2.1 | exact h.2.2 | exact h.2 | exact h.1 | exact h)
theorem WfEncode.vsel : ∀ d a b c m, Statement (.vsel d a b c m) := fun d a b c m => of_vab rfl rfl fun h => by have h := of_decide_eq_true h; first | omega | (and_intros <;> first | omega | exact Enc.memMod_lt _ _ (by omega) (by omega) | exact h.2.2.1 | exact h.2.1 | exact h.2.2 | exact h.2 | exact h.1 | exact h)
theorem WfEncode.vabs : ∀ k d a m, Statement (.vabs k d a m) := fun k d a m => of_rrr rfl rfl fun h => by have := Enc.bit_lt k; have h := of_decide_eq_true h; simp only [Enc.vmod]; first | omega | (and_intros <;> first | omega | exact Enc.memMod_lt _ _ (by omega) (by omega) | exact h.2.2.1 | exact h.2.1 | exact h.2.2 | exact h.2 | exact h)
theorem WfEncode.vpopc : ∀ d a m, Statement (.vpopc d a m) := fun d a m => of_rrr rfl rfl fun h => by have h := of_decide_eq_true h; simp only [Enc.vmod]; first | omega | (and_intros <;> first | omega | exact Enc.memMod_lt _ _ (by omega) (by omega) | exact h.2.2.1 | exact h.2.1 | exact h.2.2 | exact h.2 | exact h)
theorem WfEncode.vcvt : ∀ pair r k d a m, Statement (.vcvt pair r k d a m) := fun pair r k d a m => of_rrr rfl rfl fun h => by have := Enc.rm_lt r; have := Enc.cvtPair_lt pair; have := Enc.bit_lt k; have h := of_decide_eq_true h; simp only [Enc.vmod]; first | omega | (and_intros <;> first | omega | exact Enc.memMod_lt _ _ (by omega) (by omega) | exact h.2.2.1 | exact h.2.1 | exact h.2.2 | exact h.2 | exact h)
theorem WfEncode.vqmx : ∀ x0 x1 x2 x3 x4, Statement (.vqmx x0 x1 x2 x3 x4)
  | k, d, a, none, m => of_rrr rfl rfl fun h => by have := Enc.elem_lt k; have h := of_decide_eq_true h; simp only [Enc.vmod]; first | omega | (and_intros <;> first | omega | exact Enc.memMod_lt _ _ (by omega) (by omega) | exact h.2.2.1 | exact h.2.1 | exact h.2.2 | exact h.2 | exact h)
  | k, d, a, (some b), m => of_vab rfl rfl fun h => by have := Enc.elem_lt k; have h := of_decide_eq_true h; first | omega | (and_intros <;> first | omega | exact Enc.memMod_lt _ _ (by omega) (by omega) | exact h.2.2.1 | exact h.2.1 | exact h.2.2 | exact h.2 | exact h.1 | exact h)
theorem WfEncode.vdqmx : ∀ k r d a m, Statement (.vdqmx k r d a m) := fun k r d a m => of_rrr rfl rfl fun h => by have := Enc.rm_lt r; have := Enc.elem_lt k; have h := of_decide_eq_true h; simp only [Enc.vmod]; first | omega | (and_intros <;> first | omega | exact Enc.memMod_lt _ _ (by omega) (by omega) | exact h.2.2.1 | exact h.2.1 | exact h.2.2 | exact h.2 | exact h)
theorem WfEncode.vpack : ∀ k d a b m, Statement (.vpack k d a b m) := fun k d a b m => of_rrr rfl rfl fun h => by have := Enc.packW_lt k; have h := of_decide_eq_true h; simp only [Enc.vmod]; first | omega | (and_intros <;> first | omega | exact Enc.memMod_lt _ _ (by omega) (by omega) | exact h.2.2.1 | exact h.2.1 | exact h.2.2 | exact h.2 | exact h)
theorem WfEncode.vunpk : ∀ k sg n d a m, Statement (.vunpk k sg n d a m) := fun k sg n d a m => of_rrr rfl rfl fun h => by have := WF.parts_le k; have := Enc.packW_lt k; have := Enc.bit_lt sg; have h := of_decide_eq_true h; simp only [Enc.vmod]; first | omega | (and_intros <;> first | omega | exact Enc.memMod_lt _ _ (by omega) (by omega) | exact h.2.2.1 | exact h.2.1 | exact h.2.2 | exact h.2 | exact h)
theorem WfEncode.vperm : ∀ d a b m, Statement (.vperm d a b m) := fun d a b m => of_vab rfl rfl fun h => by have h := of_decide_eq_true h; first | omega | (and_intros <;> first | omega | exact Enc.memMod_lt _ _ (by omega) (by omega) | exact h.2.2.1 | exact h.2.1 | exact h.2.2 | exact h.2 | exact h.1 | exact h)
theorem WfEncode.vshuf : ∀ k d a b m, Statement (.vshuf k d a b m) := fun k d a b m => of_rrr rfl rfl fun h => by have := Enc.shuf_lt k; have h := of_decide_eq_true h; simp only [Enc.vmod]; first | omega | (and_intros <;> first | omega | exact Enc.memMod_lt _ _ (by omega) (by omega) | exact h.2.2.1 | exact h.2.1 | exact h.2.2 | exact h.2 | exact h)
theorem WfEncode.vred : ∀ k d a m, Statement (.vred k d a m) := fun k d a m => of_rrr rfl rfl fun h => by have := Enc.redOp_lt k; have h := of_decide_eq_true h; simp only [Enc.vmod]; first | omega | (and_intros <;> first | omega | exact Enc.memMod_lt _ _ (by omega) (by omega) | exact h.2.2.1 | exact h.2.1 | exact h.2.2 | exact h.2 | exact h)
theorem WfEncode.vscan : ∀ k d a m, Statement (.vscan k d a m) := fun k d a m => of_rrr rfl rfl fun h => by have := Enc.redOp_lt k; have h := of_decide_eq_true h; simp only [Enc.vmod]; first | omega | (and_intros <;> first | omega | exact Enc.memMod_lt _ _ (by omega) (by omega) | exact h.2.2.1 | exact h.2.1 | exact h.2.2 | exact h.2 | exact h)
theorem WfEncode.vbcast : ∀ x0 x1 x2, Statement (.vbcast x0 x1 x2)
  | d, (.lane a c), m => of_rrr rfl rfl fun h => by have h := of_decide_eq_true h; simp only [Enc.vmod]; first | omega | (and_intros <;> first | omega | exact Enc.memMod_lt _ _ (by omega) (by omega) | exact h.2.2.1 | exact h.2.1 | exact h.2.2 | exact h.2 | exact h)
  | d, (.scalar b), m => of_rrr rfl rfl fun h => by have h := of_decide_eq_true h; simp only [Enc.vmod]; first | omega | (and_intros <;> first | omega | exact Enc.memMod_lt _ _ (by omega) (by omega) | exact h.2.2.1 | exact h.2.1 | exact h.2.2 | exact h.2 | exact h)
theorem WfEncode.vins : ∀ dw d a c, Statement (.vins dw d a c) := fun dw d a c => of_rrr rfl rfl fun h => by have := Enc.bit_lt dw; have h := of_decide_eq_true h; first | omega | (and_intros <;> first | omega | exact Enc.memMod_lt _ _ (by omega) (by omega) | exact h.2.2.1 | exact h.2.1 | exact h.2.2 | exact h.2 | exact h.1 | exact h)
theorem WfEncode.vext : ∀ k d a c, Statement (.vext k d a c) := fun k d a c => of_rrr rfl rfl fun h => by have := Enc.extForm_lt k; have h := of_decide_eq_true h; first | omega | (and_intros <;> first | omega | exact Enc.memMod_lt _ _ (by omega) (by omega) | exact h.2.2.1 | exact h.2.1 | exact h.2.2 | exact h.2 | exact h.1 | exact h)
theorem WfEncode.viota : ∀ d m, Statement (.viota d m) := fun d m => of_rrr rfl rfl fun h => by have h := of_decide_eq_true h; simp only [Enc.vmod]; first | omega | (and_intros <;> first | omega | exact Enc.memMod_lt _ _ (by omega) (by omega) | exact h.2.2.1 | exact h.2.1 | exact h.2.2 | exact h.2 | exact h)
theorem WfEncode.vcomp : ∀ d a m, Statement (.vcomp d a m) := fun d a m => of_rrr rfl rfl fun h => by have h := of_decide_eq_true h; simp only [Enc.vmod]; first | omega | (and_intros <;> first | omega | exact Enc.memMod_lt _ _ (by omega) (by omega) | exact h.2.2.1 | exact h.2.1 | exact h.2.2 | exact h.2 | exact h)
theorem WfEncode.vhad : ∀ n d a, Statement (.vhad n d a) := fun n d a => of_rrr rfl rfl fun h => by have := Enc.hadN_lt n; have h := of_decide_eq_true h; first | omega | (and_intros <;> first | omega | exact Enc.memMod_lt _ _ (by omega) (by omega) | exact h.2.2.1 | exact h.2.1 | exact h.2.2 | exact h.2 | exact h.1 | exact h)
theorem WfEncode.vrng : ∀ k d a b c m, Statement (.vrng k d a b c m) := fun k d a b c m => of_vab rfl rfl fun h => by have := Enc.rngOut_lt k; have h := of_decide_eq_true h; first | omega | (and_intros <;> first | omega | exact Enc.memMod_lt _ _ (by omega) (by omega) | exact h.2.2.1 | exact h.2.1 | exact h.2.2 | exact h.2 | exact h.1 | exact h)
theorem WfEncode.mlog : ∀ t d a b, Statement (.mlog t d a b) := fun t d a b => of_rrr rfl rfl fun h => by have := t.isLt; have h := of_decide_eq_true h; first | omega | (and_intros <;> first | omega | exact Enc.memMod_lt _ _ (by omega) (by omega) | exact h.2.2.1 | exact h.2.1 | exact h.2.2 | exact h.2 | exact h.1 | exact h)
theorem WfEncode.mpopc : ∀ d a, Statement (.mpopc d a) := fun d a => of_rrr rfl rfl fun h => by have h := of_decide_eq_true h; first | omega | (and_intros <;> first | omega | exact Enc.memMod_lt _ _ (by omega) (by omega) | exact h.2.2.1 | exact h.2.1 | exact h.2.2 | exact h.2 | exact h.1 | exact h)
theorem WfEncode.mfirst : ∀ d a, Statement (.mfirst d a) := fun d a => of_rrr rfl rfl fun h => by have h := of_decide_eq_true h; first | omega | (and_intros <;> first | omega | exact Enc.memMod_lt _ _ (by omega) (by omega) | exact h.2.2.1 | exact h.2.1 | exact h.2.2 | exact h.2 | exact h.1 | exact h)
theorem WfEncode.mset : ∀ d a, Statement (.mset d a) := fun d a => of_rrr rfl rfl fun h => by have h := of_decide_eq_true h; first | omega | (and_intros <;> first | omega | exact Enc.memMod_lt _ _ (by omega) (by omega) | exact h.2.2.1 | exact h.2.1 | exact h.2.2 | exact h.2 | exact h.1 | exact h)
theorem WfEncode.mget : ∀ d a, Statement (.mget d a) := fun d a => of_rrr rfl rfl fun h => by have h := of_decide_eq_true h; first | omega | (and_intros <;> first | omega | exact Enc.memMod_lt _ _ (by omega) (by omega) | exact h.2.2.1 | exact h.2.1 | exact h.2.2 | exact h.2 | exact h.1 | exact h)
theorem WfEncode.mma : ∀ z a b c mc, Statement (.mma z a b c mc) := fun z a b c mc => of_engm rfl rfl fun h => by have h := of_decide_eq_true h; first | omega | (and_intros <;> first | omega | exact Enc.memMod_lt _ _ (by omega) (by omega) | exact h.2.2.1 | exact h.2.1 | exact h.2.2 | exact h.2 | exact h.1 | exact h)
theorem WfEncode.mmaG : ∀ z a b c e mc, Statement (.mmaG z a b c e mc) := fun z a b c e mc => of_engm rfl rfl fun h => by have h := of_decide_eq_true h; first | omega | (and_intros <;> first | omega | exact Enc.memMod_lt _ _ (by omega) (by omega) | exact h.2.2.1 | exact h.2.1 | exact h.2.2 | exact h.2 | exact h.1 | exact h)
theorem WfEncode.mbin : ∀ x z a b c, Statement (.mbin x z a b c) := fun x z a b c => of_engm rfl rfl fun h => by have := Enc.bit_lt x; have h := of_decide_eq_true h; first | omega | (and_intros <;> first | omega | exact Enc.memMod_lt _ _ (by omega) (by omega) | exact h.2.2.1 | exact h.2.1 | exact h.2.2 | exact h.2 | exact h.1 | exact h)
theorem WfEncode.mzero : ∀ z, Statement (.mzero z) := fun z => of_engm rfl rfl fun h => by have h := of_decide_eq_true h; first | omega | (and_intros <;> first | omega | exact Enc.memMod_lt _ _ (by omega) (by omega) | exact h.2.2.1 | exact h.2.1 | exact h.2.2 | exact h.2 | exact h.1 | exact h)
theorem WfEncode.mloadz : ∀ bf z a, Statement (.mloadz bf z a) := fun bf z a => of_engm rfl rfl fun h => by have := Enc.bit_lt bf; have h := of_decide_eq_true h; first | omega | (and_intros <;> first | omega | exact Enc.memMod_lt _ _ (by omega) (by omega) | exact h.2.2.1 | exact h.2.1 | exact h.2.2 | exact h.2 | exact h.1 | exact h)
theorem WfEncode.mdrain : ∀ bf z a b mc, Statement (.mdrain bf z a b mc) := fun bf z a b mc => of_engm rfl rfl fun h => by have := Enc.bit_lt bf; have h := of_decide_eq_true h; first | omega | (and_intros <;> first | omega | exact Enc.memMod_lt _ _ (by omega) (by omega) | exact h.2.2.1 | exact h.2.1 | exact h.2.2 | exact h.2 | exact h.1 | exact h)
theorem WfEncode.mqnt : ∀ k a b c mc, Statement (.mqnt k a b c mc) := fun k a b c mc => of_engm rfl rfl fun h => by have := Enc.bit_lt k; have h := of_decide_eq_true h; first | omega | (and_intros <;> first | omega | exact Enc.memMod_lt _ _ (by omega) (by omega) | exact h.2.2.1 | exact h.2.1 | exact h.2.2 | exact h.2 | exact h.1 | exact h)
theorem WfEncode.mcfg : ∀ mc a, Statement (.mcfg mc a) := fun mc a => of_engm rfl rfl fun h => by have h := of_decide_eq_true h; first | omega | (and_intros <;> first | omega | exact Enc.memMod_lt _ _ (by omega) (by omega) | exact h.2.2.1 | exact h.2.1 | exact h.2.2 | exact h.2 | exact h.1 | exact h)
theorem WfEncode.mcfgr : ∀ d mc, Statement (.mcfgr d mc) := fun d mc => of_engm rfl rfl fun h => by have h := of_decide_eq_true h; first | omega | (and_intros <;> first | omega | exact Enc.memMod_lt _ _ (by omega) (by omega) | exact h.2.2.1 | exact h.2.1 | exact h.2.2 | exact h.2 | exact h.1 | exact h)
theorem WfEncode.mstat : ∀ d, Statement (.mstat d) := fun d => of_engm rfl rfl fun h => by have h := of_decide_eq_true h; first | omega | (and_intros <;> first | omega | exact Enc.memMod_lt _ _ (by omega) (by omega) | exact h.2.2.1 | exact h.2.1 | exact h.2.2 | exact h.2 | exact h.1 | exact h)
theorem WfEncode.ld : ∀ sp z zx w c d m land, Statement (.ld sp z zx w c d m land) := fun sp z zx w c d m land => of_mem rfl rfl fun h => by have := Enc.bit_lt w; have := Enc.bit_lt c; have := Enc.size_lt4 z; have h := of_decide_eq_true h; first | omega | (and_intros <;> first | omega | exact Enc.memMod_lt _ _ (by omega) (by omega) | exact h.2.2.1 | exact h.2.1 | exact h.2.2 | exact h.2 | exact h)
theorem WfEncode.ldv : ∀ sp w c d m land, Statement (.ldv sp w c d m land) := fun sp w c d m land => of_mem rfl rfl fun h => by have := Enc.bit_lt w; have := Enc.bit_lt c; have h := of_decide_eq_true h; first | omega | (and_intros <;> first | omega | exact Enc.memMod_lt _ _ (by omega) (by omega) | exact h.2.2.1 | exact h.2.1 | exact h.2.2 | exact h.2 | exact h)
theorem WfEncode.ldvS : ∀ sp z zx w c d m land, Statement (.ldvS sp z zx w c d m land) := fun sp z zx w c d m land => of_mem rfl rfl fun h => by have := Enc.bit_lt w; have := Enc.bit_lt c; have := Enc.size_lt4 z; have h := of_decide_eq_true h; first | omega | (and_intros <;> first | omega | exact Enc.memMod_lt _ _ (by omega) (by omega) | exact h.2.2.1 | exact h.2.1 | exact h.2.2 | exact h.2 | exact h)
theorem WfEncode.ldvX : ∀ sp z zx w c d m land, Statement (.ldvX sp z zx w c d m land) := fun sp z zx w c d m land => of_mem rfl rfl fun h => by have := Enc.bit_lt w; have := Enc.bit_lt c; have := Enc.size_lt4 z; have h := of_decide_eq_true h; first | omega | (and_intros <;> first | omega | exact Enc.memMod_lt _ _ (by omega) (by omega) | exact h.2.2.1 | exact h.2.1 | exact h.2.2 | exact h.2 | exact h)
theorem WfEncode.ldm : ∀ sp w c d m land, Statement (.ldm sp w c d m land) := fun sp w c d m land => of_mem rfl rfl fun h => by have := Enc.bit_lt w; have := Enc.bit_lt c; have h := of_decide_eq_true h; first | omega | (and_intros <;> first | omega | exact Enc.memMod_lt _ _ (by omega) (by omega) | exact h.2.2.1 | exact h.2.1 | exact h.2.2 | exact h.2 | exact h)
theorem WfEncode.pref : ∀ m, Statement (.pref m) := fun m => of_mem rfl rfl fun h => by have h := of_decide_eq_true h; first | omega | (and_intros <;> first | omega | exact Enc.memMod_lt _ _ (by omega) (by omega) | exact h.2.2.1 | exact h.2.1 | exact h.2.2 | exact h.2 | exact h.1 | exact h)
theorem WfEncode.st : ∀ sp z q d m, Statement (.st sp z q d m) := fun sp z q d m => of_mem rfl rfl fun h => by have := Enc.feQ_lt q; have := Enc.size_lt4 z; have h := of_decide_eq_true h; first | omega | (and_intros <;> first | omega | exact Enc.memMod_lt _ _ (by omega) (by omega) | exact h.2.2.1 | exact h.2.1 | exact h.2.2 | exact h.2 | exact h)
theorem WfEncode.stv : ∀ sp q d m, Statement (.stv sp q d m) := fun sp q d m => of_mem rfl rfl fun h => by have := Enc.feQ_lt q; have h := of_decide_eq_true h; first | omega | (and_intros <;> first | omega | exact Enc.memMod_lt _ _ (by omega) (by omega) | exact h.2.2.1 | exact h.2.1 | exact h.2.2 | exact h.2 | exact h)
theorem WfEncode.stvS : ∀ sp z q d m, Statement (.stvS sp z q d m) := fun sp z q d m => of_mem rfl rfl fun h => by have := Enc.feQ_lt q; have := Enc.size_lt4 z; have h := of_decide_eq_true h; first | omega | (and_intros <;> first | omega | exact Enc.memMod_lt _ _ (by omega) (by omega) | exact h.2.2.1 | exact h.2.1 | exact h.2.2 | exact h.2 | exact h)
theorem WfEncode.stvX : ∀ sp z q d m, Statement (.stvX sp z q d m) := fun sp z q d m => of_mem rfl rfl fun h => by have := Enc.feQ_lt q; have := Enc.size_lt4 z; have h := of_decide_eq_true h; first | omega | (and_intros <;> first | omega | exact Enc.memMod_lt _ _ (by omega) (by omega) | exact h.2.2.1 | exact h.2.1 | exact h.2.2 | exact h.2 | exact h)
theorem WfEncode.stm : ∀ sp q d m, Statement (.stm sp q d m) := fun sp q d m => of_mem rfl rfl fun h => by have := Enc.feQ_lt q; have h := of_decide_eq_true h; first | omega | (and_intros <;> first | omega | exact Enc.memMod_lt _ _ (by omega) (by omega) | exact h.2.2.1 | exact h.2.1 | exact h.2.2 | exact h.2 | exact h)
theorem WfEncode.amo : ∀ op o d m land, Statement (.amo op o d m land) := fun op o d m land => of_mem rfl rfl fun h => by have := Enc.amoOp_lt op; have := Enc.order_lt o; have h := of_decide_eq_true h; first | omega | (and_intros <;> first | omega | exact Enc.memMod_lt _ _ (by omega) (by omega) | exact h.2.2.1 | exact h.2.1 | exact h.2.2 | exact h.2 | exact h.1 | exact h)
theorem WfEncode.cas : ∀ o d m land, Statement (.cas o d m land) := fun o d m land => of_mem rfl rfl fun h => by have := Enc.order_lt o; have h := of_decide_eq_true h; first | omega | (and_intros <;> first | omega | exact Enc.memMod_lt _ _ (by omega) (by omega) | exact h.2.2.1 | exact h.2.1 | exact h.2.2 | exact h.2 | exact h.1 | exact h)
theorem WfEncode.amof : ∀ bf r m, Statement (.amof bf r m) := fun bf r m => of_mem rfl rfl fun h => by have := Enc.relOnly_lt r; have := Enc.bit_lt bf; have h := of_decide_eq_true h; first | omega | (and_intros <;> first | omega | exact Enc.memMod_lt _ _ (by omega) (by omega) | exact h.2.2.1 | exact h.2.1 | exact h.2.2 | exact h.2 | exact h.1 | exact h)
theorem WfEncode.amofSeq : ∀ bf r d m, Statement (.amofSeq bf r d m) := fun bf r d m => of_mem rfl rfl fun h => by have := Enc.relOnly_lt r; have := Enc.bit_lt bf; have h := of_decide_eq_true h; first | omega | (and_intros <;> first | omega | exact Enc.memMod_lt _ _ (by omega) (by omega) | exact h.2.2.1 | exact h.2.1 | exact h.2.2 | exact h.2 | exact h.1 | exact h)
theorem WfEncode.amofSeqSkip : ∀ bf r d m, Statement (.amofSeqSkip bf r d m) := fun bf r d m => of_mem rfl rfl fun h => by have := Enc.relOnly_lt r; have := Enc.bit_lt bf; have h := of_decide_eq_true h; first | omega | (and_intros <;> first | omega | exact Enc.memMod_lt _ _ (by omega) (by omega) | exact h.2.2.1 | exact h.2.1 | exact h.2.2 | exact h.2 | exact h.1 | exact h)
theorem WfEncode.setfe : ∀ sp full d m, Statement (.setfe sp full d m) := fun sp full d m => of_mem rfl rfl fun h => by have hf : (if full = true then 2 else 1) < 4 := (by split <;> omega); have h := of_decide_eq_true h; first | omega | (and_intros <;> first | omega | exact Enc.memMod_lt _ _ (by omega) (by omega) | exact h.2.2.1 | exact h.2.1 | exact h.2.2 | exact h.2 | exact h)
theorem WfEncode.cp : ∀ nb o c x, Statement (.cp nb o c x) := fun nb o c x => of_engc rfl rfl fun h => by have := Enc.bit_lt nb; have h := of_decide_eq_true h; first | omega | (and_intros <;> first | omega | exact Enc.memMod_lt _ _ (by omega) (by omega) | exact h.2.2.1 | exact h.2.1 | exact h.2.2 | exact h.2 | exact h.1 | exact h)
theorem WfEncode.cpMc : ∀ o c x, Statement (.cpMc o c x) := fun o c x => of_engc rfl rfl fun h => by have h := of_decide_eq_true h; first | omega | (and_intros <;> first | omega | exact Enc.memMod_lt _ _ (by omega) (by omega) | exact h.2.2.1 | exact h.2.1 | exact h.2.2 | exact h.2 | exact h.1 | exact h)
theorem WfEncode.cpX : ∀ nb sr o c x, Statement (.cpX nb sr o c x) := fun nb sr o c x => of_engc rfl rfl fun h => by have := Enc.bit_lt nb; have := Enc.bit_lt sr; have h := of_decide_eq_true h; first | omega | (and_intros <;> first | omega | exact Enc.memMod_lt _ _ (by omega) (by omega) | exact h.2.2.1 | exact h.2.1 | exact h.2.2 | exact h.2 | exact h.1 | exact h)
theorem WfEncode.cpPk : ∀ nb k o c x, Statement (.cpPk nb k o c x) := fun nb k o c x => of_engc rfl rfl fun h => by have := Enc.codec_lt k; have := Enc.bit_lt nb; have h := of_decide_eq_true h; first | omega | (and_intros <;> first | omega | exact Enc.memMod_lt _ _ (by omega) (by omega) | exact h.2.2.1 | exact h.2.1 | exact h.2.2 | exact h.2 | exact h.1 | exact h)
theorem WfEncode.cpUn : ∀ nb o c x, Statement (.cpUn nb o c x) := fun nb o c x => of_engc rfl rfl fun h => by have := Enc.bit_lt nb; have h := of_decide_eq_true h; first | omega | (and_intros <;> first | omega | exact Enc.memMod_lt _ _ (by omega) (by omega) | exact h.2.2.1 | exact h.2.1 | exact h.2.2 | exact h.2 | exact h.1 | exact h)
theorem WfEncode.cpStamp : ∀ a v, Statement (.cpStamp a v) := fun a v => of_engc rfl rfl fun h => by have h := of_decide_eq_true h; first | omega | (and_intros <;> first | omega | exact Enc.memMod_lt _ _ (by omega) (by omega) | exact h.2.2.1 | exact h.2.1 | exact h.2.2 | exact h.2 | exact h.1 | exact h)
theorem WfEncode.lrecPut : ∀ v i, Statement (.lrecPut v i) := fun v i => of_engc rfl rfl fun h => by have h := of_decide_eq_true h; first | omega | (and_intros <;> first | omega | exact Enc.memMod_lt _ _ (by omega) (by omega) | exact h.2.2.1 | exact h.2.1 | exact h.2.2 | exact h.2 | exact h.1 | exact h)
theorem WfEncode.lrecGet : ∀ v i, Statement (.lrecGet v i) := fun v i => of_engc rfl rfl fun h => by have h := of_decide_eq_true h; first | omega | (and_intros <;> first | omega | exact Enc.memMod_lt _ _ (by omega) (by omega) | exact h.2.2.1 | exact h.2.1 | exact h.2.2 | exact h.2 | exact h.1 | exact h)
theorem WfEncode.cln : ∀ a b, Statement (.cln a b) := fun a b => of_engc rfl rfl fun h => by have h := of_decide_eq_true h; first | omega | (and_intros <;> first | omega | exact Enc.memMod_lt _ _ (by omega) (by omega) | exact h.2.2.1 | exact h.2.1 | exact h.2.2 | exact h.2 | exact h.1 | exact h)
theorem WfEncode.inv : ∀ a b, Statement (.inv a b) := fun a b => of_engc rfl rfl fun h => by have h := of_decide_eq_true h; first | omega | (and_intros <;> first | omega | exact Enc.memMod_lt _ _ (by omega) (by omega) | exact h.2.2.1 | exact h.2.1 | exact h.2.2 | exact h.2 | exact h.1 | exact h)
theorem WfEncode.clninv : ∀ a b, Statement (.clninv a b) := fun a b => of_engc rfl rfl fun h => by have h := of_decide_eq_true h; first | omega | (and_intros <;> first | omega | exact Enc.memMod_lt _ _ (by omega) (by omega) | exact h.2.2.1 | exact h.2.1 | exact h.2.2 | exact h.2 | exact h.1 | exact h)
theorem WfEncode.tsDep : ∀ pd v h, Statement (.tsDep pd v h) := fun pd v h => of_engc rfl rfl fun h => by have h := of_decide_eq_true h; first | omega | (and_intros <;> first | omega | exact Enc.memMod_lt _ _ (by omega) (by omega) | exact h.2.2.1 | exact h.2.1 | exact h.2.2 | exact h.2 | exact h.1 | exact h)
theorem WfEncode.tsRd : ∀ pd v h m dl, Statement (.tsRd pd v h m dl) := fun pd v h m dl => of_engc rfl rfl fun h => by have h := of_decide_eq_true h; first | omega | (and_intros <;> first | omega | exact Enc.memMod_lt _ _ (by omega) (by omega) | exact h.2.2.1 | exact h.2.1 | exact h.2.2 | exact h.2 | exact h.1 | exact h)
theorem WfEncode.tsTake : ∀ pd v h m dl, Statement (.tsTake pd v h m dl) := fun pd v h m dl => of_engc rfl rfl fun h => by have h := of_decide_eq_true h; first | omega | (and_intros <;> first | omega | exact Enc.memMod_lt _ _ (by omega) (by omega) | exact h.2.2.1 | exact h.2.1 | exact h.2.2 | exact h.2 | exact h.1 | exact h)
theorem WfEncode.tsRdp : ∀ pd v h m land, Statement (.tsRdp pd v h m land) := fun pd v h m land => of_engc rfl rfl fun h => by have h := of_decide_eq_true h; first | omega | (and_intros <;> first | omega | exact Enc.memMod_lt _ _ (by omega) (by omega) | exact h.2.2.1 | exact h.2.1 | exact h.2.2 | exact h.2 | exact h.1 | exact h)
theorem WfEncode.tsTakep : ∀ pd v h m land, Statement (.tsTakep pd v h m land) := fun pd v h m land => of_engc rfl rfl fun h => by have h := of_decide_eq_true h; first | omega | (and_intros <;> first | omega | exact Enc.memMod_lt _ _ (by omega) (by omega) | exact h.2.2.1 | exact h.2.1 | exact h.2.2 | exact h.2 | exact h.1 | exact h)
theorem WfEncode.tsCnt : ∀ pd d h m v land, Statement (.tsCnt pd d h m v land) := fun pd d h m v land => of_engc rfl rfl fun h => by have h := of_decide_eq_true h; first | omega | (and_intros <;> first | omega | exact Enc.memMod_lt _ _ (by omega) (by omega) | exact h.2.2.1 | exact h.2.1 | exact h.2.2 | exact h.2 | exact h.1 | exact h)
theorem WfEncode.rcall : ∀ r t n d a b p, Statement (.rcall r t n d a b p) := fun r t n d a b p => of_engc rfl rfl fun h => by have := Enc.bit_lt r; have := Enc.bit_lt t; have h := of_decide_eq_true h; first | omega | (and_intros <;> first | omega | exact Enc.memMod_lt _ _ (by omega) (by omega) | exact h.2.2.1 | exact h.2.1 | exact h.2.2 | exact h.2 | exact h.1 | exact h)
theorem WfEncode.rpost : ∀ r n d a b p, Statement (.rpost r n d a b p) := fun r n d a b p => of_engc rfl rfl fun h => by have := Enc.bit_lt r; have h := of_decide_eq_true h; first | omega | (and_intros <;> first | omega | exact Enc.memMod_lt _ _ (by omega) (by omega) | exact h.2.2.1 | exact h.2.1 | exact h.2.2 | exact h.2 | exact h.1 | exact h)
theorem WfEncode.rret : ∀ a b c, Statement (.rret a b c) := fun a b c => of_engc rfl rfl fun h => by have h := of_decide_eq_true h; first | omega | (and_intros <;> first | omega | exact Enc.memMod_lt _ _ (by omega) (by omega) | exact h.2.2.1 | exact h.2.1 | exact h.2.2 | exact h.2 | exact h.1 | exact h)
theorem WfEncode.nmLoad : ∀ pd e i, Statement (.nmLoad pd e i) := fun pd e i => of_engc rfl rfl fun h => by have h := of_decide_eq_true h; first | omega | (and_intros <;> first | omega | exact Enc.memMod_lt _ _ (by omega) (by omega) | exact h.2.2.1 | exact h.2.1 | exact h.2.2 | exact h.2 | exact h.1 | exact h)
theorem WfEncode.nmGo : ∀ pd e t, Statement (.nmGo pd e t) := fun pd e t => of_engc rfl rfl fun h => by have h := of_decide_eq_true h; first | omega | (and_intros <;> first | omega | exact Enc.memMod_lt _ _ (by omega) (by omega) | exact h.2.2.1 | exact h.2.1 | exact h.2.2 | exact h.2 | exact h.1 | exact h)
theorem WfEncode.nmStop : ∀ e, Statement (.nmStop e) := fun e => of_engc rfl rfl fun h => by have h := of_decide_eq_true h; first | omega | (and_intros <;> first | omega | exact Enc.memMod_lt _ _ (by omega) (by omega) | exact h.2.2.1 | exact h.2.1 | exact h.2.2 | exact h.2 | exact h.1 | exact h)
theorem WfEncode.nmStat : ∀ d e, Statement (.nmStat d e) := fun d e => of_engc rfl rfl fun h => by have h := of_decide_eq_true h; first | omega | (and_intros <;> first | omega | exact Enc.memMod_lt _ _ (by omega) (by omega) | exact h.2.2.1 | exact h.2.1 | exact h.2.2 | exact h.2 | exact h.1 | exact h)
theorem WfEncode.netPut : ∀ nb k o c x, Statement (.netPut nb k o c x) := fun nb k o c x => of_engc rfl rfl fun h => by have := Enc.codec_lt k; have := Enc.bit_lt nb; have h := of_decide_eq_true h; first | omega | (and_intros <;> first | omega | exact Enc.memMod_lt _ _ (by omega) (by omega) | exact h.2.2.1 | exact h.2.1 | exact h.2.2 | exact h.2 | exact h.1 | exact h)
theorem WfEncode.netGet : ∀ nb o c x, Statement (.netGet nb o c x) := fun nb o c x => of_engc rfl rfl fun h => by have := Enc.bit_lt nb; have h := of_decide_eq_true h; first | omega | (and_intros <;> first | omega | exact Enc.memMod_lt _ _ (by omega) (by omega) | exact h.2.2.1 | exact h.2.1 | exact h.2.2 | exact h.2 | exact h.1 | exact h)
theorem WfEncode.barAlloc : ∀ pd d, Statement (.barAlloc pd d) := fun pd d => of_y rfl rfl fun h => by have h := of_decide_eq_true h; first | omega | (and_intros <;> first | omega | exact Enc.memMod_lt _ _ (by omega) (by omega) | exact h.2.2.1 | exact h.2.1 | exact h.2.2 | exact h.2 | exact h.1 | exact h)
theorem WfEncode.barAllocAt : ∀ pd d i, Statement (.barAllocAt pd d i) := fun pd d i => of_yix rfl rfl fun h => by have h := of_decide_eq_true h; first | omega | (and_intros <;> first | omega | exact Enc.memMod_lt _ _ (by omega) (by omega) | exact h.2.2.1 | exact h.2.1 | exact h.2.2 | exact h.2 | exact h.1 | exact h)
theorem WfEncode.barFree : ∀ i, Statement (.barFree i) := fun i => of_yix rfl rfl fun h => by first | omega | (and_intros <;> first | omega | exact Enc.memMod_lt _ _ (by omega) (by omega) | exact h.2.2.1 | exact h.2.1 | exact h.2.2 | exact h.2 | exact h.1 | exact h)
theorem WfEncode.barRef : ∀ i, Statement (.barRef i) := fun i => of_yix rfl rfl fun h => by first | omega | (and_intros <;> first | omega | exact Enc.memMod_lt _ _ (by omega) (by omega) | exact h.2.2.1 | exact h.2.1 | exact h.2.2 | exact h.2 | exact h.1 | exact h)
theorem WfEncode.barInit : ∀ pd a i, Statement (.barInit pd a i) := fun pd a i => of_yix rfl rfl fun h => by have h := of_decide_eq_true h; first | omega | (and_intros <;> first | omega | exact Enc.memMod_lt _ _ (by omega) (by omega) | exact h.2.2.1 | exact h.2.1 | exact h.2.2 | exact h.2 | exact h.1 | exact h)
theorem WfEncode.barExpect : ∀ pd a i, Statement (.barExpect pd a i) := fun pd a i => of_yix rfl rfl fun h => by have h := of_decide_eq_true h; first | omega | (and_intros <;> first | omega | exact Enc.memMod_lt _ _ (by omega) (by omega) | exact h.2.2.1 | exact h.2.1 | exact h.2.2 | exact h.2 | exact h.1 | exact h)
theorem WfEncode.barArrive : ∀ a i, Statement (.barArrive a i) := fun a i => of_yix rfl rfl fun h => by have h := of_decide_eq_true h; first | omega | (and_intros <;> first | omega | exact Enc.memMod_lt _ _ (by omega) (by omega) | exact h.2.2.1 | exact h.2.1 | exact h.2.2 | exact h.2 | exact h.1 | exact h)
theorem WfEncode.barWait : ∀ a i, Statement (.barWait a i) := fun a i => of_yix rfl rfl fun h => by have h := of_decide_eq_true h; first | omega | (and_intros <;> first | omega | exact Enc.memMod_lt _ _ (by omega) (by omega) | exact h.2.2.1 | exact h.2.1 | exact h.2.2 | exact h.2 | exact h.1 | exact h)
theorem WfEncode.barTest : ∀ pd a i, Statement (.barTest pd a i) := fun pd a i => of_yix rfl rfl fun h => by have h := of_decide_eq_true h; first | omega | (and_intros <;> first | omega | exact Enc.memMod_lt _ _ (by omega) (by omega) | exact h.2.2.1 | exact h.2.1 | exact h.2.2 | exact h.2 | exact h.1 | exact h)
theorem WfEncode.barInfo : ∀ d i w, Statement (.barInfo d i w) := fun d i w => of_yix rfl rfl fun h => by have h := of_decide_eq_true h; first | omega | (and_intros <;> first | omega | exact Enc.memMod_lt _ _ (by omega) (by omega) | exact h.2.2.1 | exact h.2.1 | exact h.2.2 | exact h.2 | exact h.1 | exact h)
theorem WfEncode.gbar : ∀ pd a g, Statement (.gbar pd a g) := fun pd a g => of_y rfl rfl fun h => by have h := of_decide_eq_true h; first | omega | (and_intros <;> first | omega | exact Enc.memMod_lt _ _ (by omega) (by omega) | exact h.2.2.1 | exact h.2.1 | exact h.2.2 | exact h.2 | exact h.1 | exact h)
theorem WfEncode.fence : ∀ k, Statement (.fence k) := fun k => of_y rfl rfl fun h => by have := Enc.scope_lt k; first | omega | (and_intros <;> first | omega | exact Enc.memMod_lt _ _ (by omega) (by omega) | exact h.2.2.1 | exact h.2.1 | exact h.2.2 | exact h.2 | exact h.1 | exact h)
theorem WfEncode.xfence : Statement .xfence := of_y rfl rfl fun h => by first | omega | (and_intros <;> first | omega | exact Enc.memMod_lt _ _ (by omega) (by omega) | exact h.2.2.1 | exact h.2.1 | exact h.2.2 | exact h.2 | exact h.1 | exact h)
theorem WfEncode.nmfence : Statement .nmfence := of_y rfl rfl fun h => by first | omega | (and_intros <;> first | omega | exact Enc.memMod_lt _ _ (by omega) (by omega) | exact h.2.2.1 | exact h.2.1 | exact h.2.2 | exact h.2 | exact h.1 | exact h)
theorem WfEncode.monArm : ∀ a, Statement (.monArm a) := fun a => of_y rfl rfl fun h => by have h := of_decide_eq_true h; first | omega | (and_intros <;> first | omega | exact Enc.memMod_lt _ _ (by omega) (by omega) | exact h.2.2.1 | exact h.2.1 | exact h.2.2 | exact h.2 | exact h.1 | exact h)
theorem WfEncode.monWait : ∀ pd a, Statement (.monWait pd a) := fun pd a => of_y rfl rfl fun h => by have h := of_decide_eq_true h; first | omega | (and_intros <;> first | omega | exact Enc.memMod_lt _ _ (by omega) (by omega) | exact h.2.2.1 | exact h.2.1 | exact h.2.2 | exact h.2 | exact h.1 | exact h)
theorem WfEncode.lwait : Statement .lwait := of_y rfl rfl fun h => by first | omega | (and_intros <;> first | omega | exact Enc.memMod_lt _ _ (by omega) (by omega) | exact h.2.2.1 | exact h.2.1 | exact h.2.2 | exact h.2 | exact h.1 | exact h)
theorem WfEncode.fixedLatencyWrite : ∀ x0, Statement (.fixedLatencyWrite x0) := fun _ => of_none rfl
theorem WfEncode.landing : ∀ x0 x1, Statement (.landing x0 x1) := fun _ _ => of_none rfl
theorem WfEncode.exactLanding : ∀ x0 x1, Statement (.exactLanding x0 x1) := fun _ _ => of_none rfl
theorem WfEncode.mmaReady : ∀ x0, Statement (.mmaReady x0) := fun _ => of_none rfl
theorem WfEncode.mdrainComplete : ∀ x0, Statement (.mdrainComplete x0) := fun _ => of_none rfl
theorem WfEncode.mloadzComplete : ∀ x0, Statement (.mloadzComplete x0) := fun _ => of_none rfl
theorem WfEncode.mqntComplete : ∀ x0, Statement (.mqntComplete x0) := fun _ => of_none rfl
theorem WfEncode.l1Fill : ∀ x0 x1, Statement (.l1Fill x0 x1) := fun _ _ => of_none rfl
theorem WfEncode.writeBack : ∀ x0 x1, Statement (.writeBack x0 x1) := fun _ _ => of_none rfl
theorem WfEncode.plainStoreArrival : ∀ x0 x1, Statement (.plainStoreArrival x0 x1) := fun _ _ => of_none rfl
theorem WfEncode.atomicAtHomeSlice : ∀ x0 x1, Statement (.atomicAtHomeSlice x0 x1) := fun _ _ => of_none rfl
theorem WfEncode.sequencedApply : ∀ x0 x1, Statement (.sequencedApply x0 x1) := fun _ _ => of_none rfl
theorem WfEncode.hostAccess : ∀ x0, Statement (.hostAccess x0) := fun _ => of_none rfl
theorem WfEncode.calendarSlot : ∀ x0 x1, Statement (.calendarSlot x0 x1) := fun _ _ => of_none rfl
theorem WfEncode.walk : ∀ x0 x1 x2 x3, Statement (.walk x0 x1 x2 x3) := fun _ _ _ _ => of_none rfl
theorem WfEncode.commandStart : ∀ x0, Statement (.commandStart x0) := fun _ => of_none rfl
theorem WfEncode.copyWrite : ∀ x0 x1 x2, Statement (.copyWrite x0 x1 x2) := fun _ _ _ => of_none rfl
theorem WfEncode.commandComplete : ∀ x0, Statement (.commandComplete x0) := fun _ => of_none rfl
theorem WfEncode.multicastDelivery : ∀ x0 x1 x2 x3, Statement (.multicastDelivery x0 x1 x2 x3) := fun _ _ _ _ => of_none rfl
theorem WfEncode.stampWrite : ∀ x0, Statement (.stampWrite x0) := fun _ => of_none rfl
theorem WfEncode.barrierDeadline : ∀ x0 x1, Statement (.barrierDeadline x0 x1) := fun _ _ => of_none rfl
theorem WfEncode.netReceive : ∀ x0 x1, Statement (.netReceive x0 x1) := fun _ _ => of_none rfl
theorem WfEncode.netPutConfirm : ∀ x0 x1, Statement (.netPutConfirm x0 x1) := fun _ _ => of_none rfl
theorem WfEncode.netGetRead : ∀ x0 x1, Statement (.netGetRead x0 x1) := fun _ _ => of_none rfl
theorem WfEncode.netGetData : ∀ x0 x1 x2, Statement (.netGetData x0 x1 x2) := fun _ _ _ => of_none rfl
theorem WfEncode.sessionLost : ∀ x0 x1, Statement (.sessionLost x0 x1) := fun _ _ => of_none rfl
theorem WfEncode.rekey : ∀ x0 x1, Statement (.rekey x0 x1) := fun _ _ => of_none rfl
theorem WfEncode.oldKeyExpiry : ∀ x0 x1, Statement (.oldKeyExpiry x0 x1) := fun _ _ => of_none rfl
theorem WfEncode.serveDep : ∀ x0, Statement (.serveDep x0) := fun _ => of_none rfl
theorem WfEncode.serveRdTake : ∀ x0, Statement (.serveRdTake x0) := fun _ => of_none rfl
theorem WfEncode.serveRdpTakep : ∀ x0, Statement (.serveRdpTakep x0) := fun _ => of_none rfl
theorem WfEncode.serveCnt : ∀ x0, Statement (.serveCnt x0) := fun _ => of_none rfl
theorem WfEncode.parkTimeout : ∀ x0 x1, Statement (.parkTimeout x0 x1) := fun _ _ => of_none rfl
theorem WfEncode.cancel : ∀ x0 x1, Statement (.cancel x0 x1) := fun _ _ => of_none rfl
theorem WfEncode.carafeDestroy : ∀ x0 x1, Statement (.carafeDestroy x0 x1) := fun _ _ => of_none rfl
theorem WfEncode.callArrival : ∀ x0, Statement (.callArrival x0) := fun _ => of_none rfl
theorem WfEncode.callStart : ∀ x0, Statement (.callStart x0) := fun _ => of_none rfl
theorem WfEncode.budgetExhausted : ∀ x0, Statement (.budgetExhausted x0) := fun _ => of_none rfl
theorem WfEncode.reply : ∀ x0, Statement (.reply x0) := fun _ => of_none rfl
theorem WfEncode.lost : ∀ x0 x1, Statement (.lost x0 x1) := fun _ _ => of_none rfl
theorem WfEncode.releaseNotice : ∀ x0 x1, Statement (.releaseNotice x0 x1) := fun _ _ => of_none rfl
theorem WfEncode.recordDeadline : ∀ x0 x1, Statement (.recordDeadline x0 x1) := fun _ _ => of_none rfl
theorem WfEncode.rplost : ∀ x0 x1, Statement (.rplost x0 x1) := fun _ _ => of_none rfl
theorem WfEncode.engineStart : ∀ x0, Statement (.engineStart x0) := fun _ => of_none rfl
theorem WfEncode.col : ∀ x0, Statement (.col x0) := fun _ => of_none rfl
theorem WfEncode.addb : ∀ x0 x1 x2 x3, Statement (.addb x0 x1 x2 x3) := fun _ _ _ _ => of_none rfl
theorem WfEncode.addf : ∀ x0 x1 x2 x3, Statement (.addf x0 x1 x2 x3) := fun _ _ _ _ => of_none rfl
theorem WfEncode.mulb : ∀ x0 x1 x2 x3, Statement (.mulb x0 x1 x2 x3) := fun _ _ _ _ => of_none rfl
theorem WfEncode.fmab : ∀ x0 x1 x2 x3 x4, Statement (.fmab x0 x1 x2 x3 x4) := fun _ _ _ _ _ => of_none rfl
theorem WfEncode.maxb : ∀ x0 x1 x2 x3, Statement (.maxb x0 x1 x2 x3) := fun _ _ _ _ => of_none rfl
theorem WfEncode.cvt : ∀ x0 x1 x2 x3 x4, Statement (.cvt x0 x1 x2 x3 x4) := fun _ _ _ _ _ => of_none rfl
theorem WfEncode.pairupd : ∀ x0 x1 x2 x3 x4 x5 x6, Statement (.pairupd x0 x1 x2 x3 x4 x5 x6) := fun _ _ _ _ _ _ _ => of_none rfl
theorem WfEncode.columnReadLanding : ∀ x0, Statement (.columnReadLanding x0) := fun _ => of_none rfl
theorem WfEncode.act : ∀ x0, Statement (.act x0) := fun _ => of_none rfl
theorem WfEncode.pre : ∀ x0, Statement (.pre x0) := fun _ => of_none rfl
theorem WfEncode.ref : ∀ x0, Statement (.ref x0) := fun _ => of_none rfl
theorem WfEncode.timetableWait : ∀ x0, Statement (.timetableWait x0) := fun _ => of_none rfl
theorem WfEncode.waitExpiry : ∀ x0, Statement (.waitExpiry x0) := fun _ => of_none rfl
theorem WfEncode.timetableLoop : ∀ x0, Statement (.timetableLoop x0) := fun _ => of_none rfl
theorem WfEncode.halt : ∀ x0, Statement (.halt x0) := fun _ => of_none rfl
theorem WfEncode.refreshInterval : ∀ x0, Statement (.refreshInterval x0) := fun _ => of_none rfl
theorem WfEncode.forcedRef : ∀ x0, Statement (.forcedRef x0) := fun _ => of_none rfl
theorem WfEncode.rowElisionWrite : ∀ x0 x1 x2, Statement (.rowElisionWrite x0 x1 x2) := fun _ _ _ => of_none rfl
theorem WfEncode.rowClearDone : ∀ x0 x1, Statement (.rowClearDone x0 x1) := fun _ _ => of_none rfl
theorem WfEncode.doorbell : ∀ x0 x1 x2, Statement (.doorbell x0 x1 x2) := fun _ _ _ => of_none rfl
theorem WfEncode.consumeRecord : ∀ x0 x1, Statement (.consumeRecord x0 x1) := fun _ _ => of_none rfl
theorem WfEncode.launchEligible : ∀ x0, Statement (.launchEligible x0) := fun _ => of_none rfl
theorem WfEncode.aging : ∀ x0, Statement (.aging x0) := fun _ => of_none rfl
theorem WfEncode.coreGrant : ∀ x0, Statement (.coreGrant x0) := fun _ => of_none rfl
theorem WfEncode.preempt : ∀ x0, Statement (.preempt x0) := fun _ => of_none rfl
theorem WfEncode.ticketDraw : ∀ x0, Statement (.ticketDraw x0) := fun _ => of_none rfl
theorem WfEncode.quantumExpiry : ∀ x0 x1, Statement (.quantumExpiry x0 x1) := fun _ _ => of_none rfl
theorem WfEncode.bindNextBlock : ∀ x0 x1, Statement (.bindNextBlock x0 x1) := fun _ _ => of_none rfl
theorem WfEncode.start : ∀ x0, Statement (.start x0) := fun _ => of_none rfl
theorem WfEncode.resume : ∀ x0, Statement (.resume x0) := fun _ => of_none rfl
theorem WfEncode.event : ∀ x0, Statement (.event x0) := fun _ => of_none rfl
theorem WfEncode.switch : ∀ x0, Statement (.switch x0) := fun _ => of_none rfl
theorem WfEncode.handlerEntry : ∀ x0, Statement (.handlerEntry x0) := fun _ => of_none rfl
theorem WfEncode.launchEnd : ∀ x0, Statement (.launchEnd x0) := fun _ => of_none rfl
theorem WfEncode.doneStamp : ∀ x0, Statement (.doneStamp x0) := fun _ => of_none rfl
theorem WfEncode.rbanks : ∀ x0, Statement (.rbanks x0) := fun _ => of_none rfl
theorem WfEncode.registerWrite : ∀ x0, Statement (.registerWrite x0) := fun _ => of_none rfl
theorem WfEncode.linkDown : ∀ x0 x1, Statement (.linkDown x0 x1) := fun _ _ => of_none rfl
theorem WfEncode.expanderFailure : ∀ x0, Statement (.expanderFailure x0) := fun _ => of_none rfl
theorem WfEncode.monWaitDeadline : ∀ x0, Statement (.monWaitDeadline x0) := fun _ => of_none rfl
theorem WfEncode.gbarDeadline : ∀ x0, Statement (.gbarDeadline x0) := fun _ => of_none rfl
theorem WfEncode.powerOn : Statement .powerOn := of_none rfl
theorem WfEncode.rom : ∀ x0, Statement (.rom x0) := fun _ => of_none rfl
theorem WfEncode.image : Statement .image := of_none rfl
theorem WfEncode.train : ∀ x0, Statement (.train x0) := fun _ => of_none rfl
theorem WfEncode.part : ∀ x0, Statement (.part x0) := fun _ => of_none rfl
theorem WfEncode.host : ∀ x0, Statement (.host x0) := fun _ => of_none rfl
theorem WfEncode.barista : ∀ x0, Statement (.barista x0) := fun _ => of_none rfl
theorem WfEncode.baristaReadyLimit : Statement .baristaReadyLimit := of_none rfl
theorem WfEncode.ready : Statement .ready := of_none rfl
theorem WfEncode.powerLoss : Statement .powerLoss := of_none rfl
theorem WfEncode.cupping : ∀ x0 x1 x2, Statement (.cupping x0 x1 x2) := fun _ _ _ => of_none rfl
theorem WfEncode.sessopen : ∀ x0 x1 x2 x3 x4 x5 x6 x7, Statement (.sessopen x0 x1 x2 x3 x4 x5 x6 x7) := fun _ _ _ _ _ _ _ _ => of_none rfl
theorem WfEncode.sessclose : ∀ x0 x1 x2, Statement (.sessclose x0 x1 x2) := fun _ _ _ => of_none rfl
theorem WfEncode.keyslot : ∀ x0 x1, Statement (.keyslot x0 x1) := fun _ _ => of_none rfl
theorem WfEncode.imgload : ∀ x0 x1 x2, Statement (.imgload x0 x1 x2) := fun _ _ _ => of_none rfl
theorem WfEncode.restart : Statement .restart := of_none rfl
theorem WfEncode.bindingStop : ∀ x0 x1, Statement (.bindingStop x0 x1) := fun _ _ => of_none rfl
theorem WfEncode.bindingResume : ∀ x0 x1, Statement (.bindingResume x0 x1) := fun _ _ => of_none rfl
theorem WfEncode.powerRemoval : ∀ x0 x1, Statement (.powerRemoval x0 x1) := fun _ _ => of_none rfl
theorem WfEncode.refreshManagerRefresh : ∀ x0, Statement (.refreshManagerRefresh x0) := fun _ => of_none rfl
theorem WfEncode.memorySideCacheWriteBack : ∀ x0 x1, Statement (.memorySideCacheWriteBack x0 x1) := fun _ _ => of_none rfl
theorem WfEncode.hostLinkLost : ∀ x0, Statement (.hostLinkLost x0) := fun _ => of_none rfl

end Sys2Proof.Laws
end

