-- ==== Sys2Proof/Tests/Slice0.lean ====
section
/-! SUPPORT. Tests of one step on small states, and the witnesses of the statements' hypotheses: for each statement, states and operands that meet all of
the hypotheses of each of its clauses together. Expected values come from the manual or from arithmetic done by hand. -/

namespace Sys2Proof.Tests

set_option Elab.async false

open Sys2Proof.Machine Sys2Proof.Spec Sys2Proof.Safety

/-! ### Small states -/

/-- A task of launch 1 on core 0 with two scratchpad banks, four barriers and every register ON. -/
def task0 : Hart :=
  { Hart.reset with
    mode := .task, pc := 0x1000, npc := 0x1040, hbase := 0x10000, cctl := 0xFFFF00000000, lid := some 1, scr := 2, bmax := 4, rbanks := 0x985555, cyc := 100 }
/-- Its handler, entered with a return address. -/
def hand0 : Hart := { task0 with mode := .handler, epc := 0x2000 }
/-- A call's context on executor 0. -/
def call0 : Hart := { task0 with mode := .remote }
/-- A machine whose hart 0 is h. -/
def st (h : Hart) : State := { State.reset with harts := [(0, h)] }
/-- One in which context 0 of executor 0 is h and runs. -/
def stx (h : Hart) : State := { State.reset with harts := [(512, h)], cur := 512 }
/-- hart 0 with scalar registers set. -/
def withS (h : Hart) (l : List (Nat × Word)) : Hart := l.foldl (fun h x => { h with r := { h.r with s := Tab.set 0 h.r.s x.1 x.2 }, hs := Tab.set 0 h.hs x.1 x.2 }) h

/-- What an outcome says of its next state; a fault or a refusal says nothing. -/
def nextIs (o : Host.Outcome State Fault Refusal) (p : State → Bool) : Bool :=
  match o with
  | .next t => p t
  | _ => false

/-- A result is the value x. -/
def okIs {α β : Type} [DecidableEq β] (r : Except α β) (x : β) : Bool :=
  match r with
  | .ok y => decide (y = x)
  | .error _ => false

/-- A result is the fault of this cause and detail. -/
def errIs {α : Type} (r : Except Cause α) (code detail : Nat) : Bool :=
  match r with
  | .ok _ => false
  | .error e => e.code == code && e.detail == detail

/-! ### Witnesses -/

/-- Every scalar, predicate, control and special-register instruction of a task issues on the task's state: the premise of their result statements. -/
theorem wit_scalar_clear : ∀ i ∈ ([.add 1 2 3, .addI 1 2 (.imm 5), .sub 1 2 3, .subI 1 2 (.imm 5), .and 1 2 3, .andI 1 2 (.imm 5), .or 1 2 3, .orI 1 2 (.imm 5),
    .xor 1 2 3, .xorI 1 2 (.imm 5), .andn 1 2 3, .andnI 1 2 (.imm 5), .shl 1 2 3, .shlI 1 2 (.imm 5), .shr 1 2 3, .shrI 1 2 (.imm 5), .sar 1 2 3,
    .sarI 1 2 (.imm 5), .rotl 1 2 3, .rotlI 1 2 (.imm 5), .min 1 2 3, .minI 1 2 (.imm 5), .max 1 2 3, .maxI 1 2 (.imm 5), .minu 1 2 3, .minuI 1 2 (.imm 5),
    .maxu 1 2 3, .maxuI 1 2 (.imm 5), .mul 1 2 3, .mulI 1 2 (.imm 5), .mulh 1 2 3, .mulhI 1 2 (.imm 5), .mulhu 1 2 3, .mulhuI 1 2 (.imm 5), .div 1 2 3,
    .divI 1 2 (.imm 5), .divu 1 2 3, .divuI 1 2 (.imm 5), .rem 1 2 3, .remI 1 2 (.imm 5), .remu 1 2 3, .remuI 1 2 (.imm 5), .clz 1 2, .ctz 1 2, .popc 1 2,
    .sext .b 1 2, .zext .w 1 2, .sel 1 2 3 4, .bfx true 1 2 3, .bfi 1 2 3 4, .cmp .ltu 1 2 3, .plog 6 1 2 3, .movpPs 1 2, .movpSp 1 2, .movpAll 1, .nop,
    .li 1 (.imm 5), .li 1 .lit, .lih 1 5, .rsr 1 .task, .wsr .vstat 1, .br .zero 1 4, .jmp 4, .call 4, .callr false 1, .callr true 1, .ret, .loopSet 1 4, .loop,
    .loopBrk, .loopIdx 1 0, .trap 7, .brk 7, .rbase (.imm 1 2 3), .rbase (.reg 1)] : List Instr), (st task0).clear i := by decide

/-- A scalar register written at the edge of its range: s0 and s31. -/
theorem wit_scalar_edge : (st task0).clear (.add 0 31 31) ∧ (st task0).clear (.divu 31 0 0) ∧ (st task0).h.divFree ≤ (st task0).h.cyc
    ∧ (st { task0 with divFree := 101 }).clear (.div 1 2 3) ∧ (st { task0 with divFree := 101 }).h.cyc < (st { task0 with divFree := 101 }).h.divFree := by decide

/-- The instructions of a handler issue on its state: TranslationsAndEvents, PrivilegedReads, PrivilegedWrites, ReturnFromHandler. -/
theorem wit_handler_clear : ∀ i ∈ ([.eret, .csrr 1 .cctl, .csrw .epc 1, .csrw .rbanks 1, .tlbInvAll, .tlbInvAsid 1, .tlbInvVa 1 2, .tlbPrb 1 2, .wfe, .ctxSv 1, .ctxLd 1] : List Instr),
    (st hand0).clear i ∧ (st hand0).h.mode = .handler ∧ handlerPermits i = true := by decide

/-- Well-formed instructions of each slot that have an encoding: the hypotheses of DecodeEncodeAgree, with fields at the end of their ranges. -/
theorem wit_DecodeEncodeAgree : ∀ i ∈ ([.add 31 31 31, .vfadd .rd 63 63 (.vec 63) 15, .mma 3 31 31 31 7, .ld .g .b true false false 31 ⟨31, 31, 0x1FFF⟩ 4095,
    .st .c .d .empty 31 ⟨31, 31, 0x1000⟩, .cpMc 63 31 31, .barWait 31 (.imm 1023), .csrw .rcto 31, .fence .system] : List Instr),
    i.wf = true ∧ i ≠ .nop ∧ (encode i).isSome = true := by decide

/-- The machine with LOOP.SET s2, 5 as the next bundle. -/
def stepState : State := State.reset.withFetchWord 512 (0x3500010000000005 * 2 ^ 256 * 2 ^ 176)
/-- Its page and bundle. -/
def stepPage : Page := { pa := 0x1000, leaf := 0xF, size := 2 ^ 30 }
def stepSlot : Slot := ⟨.s, false, 0, .loopSet 2 5⟩
def stepBundle : Bundle := ⟨0, false, none, [stepSlot]⟩
def stepS0 : State := { ({ stepState with turn := none, cur := 0 } : State).onH Hart.entered with ntlb := stepState.ntlb + 1 }
def stepT : State := (stepS0.walkOn 0 stepS0.h.pc).touch 0x1000 64 0 0 (readAgent stepS0.rid) stepS0.rid
def stepU : State := stepT.onH fun h => h.begin_ stepBundle
/-- StepRunsDecoded, hypothesis by hypothesis. -/
theorem wit_StepRunsDecoded_turn : stepState.turn = some 0 ∧ stepS0.h.owed = none ∧ stepS0.h.waiting = none ∧ stepS0.h.going = none ∧ stepS0.h.trapPend = [] ∧ stepS0.h.fetched = none := by decide +kernel
theorem wit_StepRunsDecoded_page : okIs stepS0.fetchPage stepPage = true := by decide +kernel
theorem wit_StepRunsDecoded_fetch : stepS0.deferred 0x1000 64 = false ∧ stepS0.badSector 0x1000 64 0 = none ∧ stepT.h = stepS0.h ∧ stepT.cur = 0 := by decide +kernel
theorem wit_StepRunsDecoded_decode : okIs (stepT.h.decodeAt (stepS0.numAt 0x1000 64)) stepBundle = true := by decide +kernel
theorem wit_StepRunsDecoded_bundle : stepBundle.slots = [stepSlot] ∧ stepSlot.pred = 0 ∧ stepSlot.neg = false ∧ stepU.switchNow stepBundle (stepS0.numAt 0x1000 64) = false := by decide +kernel
theorem wit_StepRunsDecoded_checks : nextIs (exec stepSlot.instr (stepU.inSlot stepBundle stepSlot)) (fun c => c.h.sig == none) = true := by decide +kernel
theorem wit_StepRunsDecoded_effect :
    nextIs (exec stepSlot.instr ((stepU.onH fun h => { h with commit := true }).inSlot stepBundle stepSlot)) (fun v => v.h.sig == none && v.h.npc == 0x1180) = true := by decide +kernel
/-- The step itself: s2 is 0 after reset, so the loop is skipped, to the bundle after its last (R262). -/
theorem test_step_runs : nextIs (step stepState) (fun t => (t.hartAt 0).pc == 0x1180) = true := by decide +kernel

/-- StepAlwaysGoesOn: a task's hart has its turn, and no hart has. MemoryStaysCanonical: a state with a byte of memory listed, on which a step is taken. -/
theorem wit_StepAlwaysGoesOn : (st task0).turn = none ∧ ({ st task0 with turn := some 0 } : State).turn = some 0
    ∧ (({ st task0 with turn := some 0 } : State).hartAt 0).mode ≠ .idle ∧ (({ st task0 with turn := some 0 } : State).hartAt 0).mode ≠ .stopped := by decide
theorem wit_MemoryStaysCanonical : MemOk stepState ∧ stepState.mem ≠ [] ∧ nextIs (step stepState) (fun t => t.mem == stepState.mem) = true :=
  ⟨by unfold MemOk; decide +kernel, by decide +kernel, by decide +kernel⟩

/-- ChecksAndWindows: each mode of CommonChecksPass, and an instruction whose checks have been made. -/
theorem wit_CommonChecksPass :
    (st { task0 with commit := true }).h.commit = true
    ∧ ((st task0).h.land = [] ∧ (st task0).h.pend = [] ∧ (st task0).h.wins = [] ∧ (st task0).h.regoff (.vxor 63 0 (.vec 63) 0) = none ∧ (st task0).h.mode = .task
      ∧ (Instr.vxor 63 0 (.vec 63) 0).isHandler = false)
    ∧ ((st hand0).h.regoff .eret = none ∧ (st hand0).h.mode = .handler ∧ handlerPermits .eret = true)
    ∧ ((stx call0).h.regoff (.add 1 2 3) = none ∧ (stx call0).h.mode = .remote ∧ remoteDetail (stx call0).h.slot (.add 1 2 3) = 0) := by decide

/-- A result for s1 that is ready in cycle 103 of hart 0, which is in cycle 100. -/
def pend1 : Pend := { issued := 100, due := 103, w := .s 1 5 }

/-- ChecksAndWindows: a read in the last cycle of the window, with CHKLAT and without. -/
theorem wit_LatencyWindow : let h : Hart := { task0 with pend := [pend1], cyc := 102 }
    (st h).h.mode = .task ∧ (st h).h.commit = false ∧ (st h).h.land = [] ∧ (st h).h.pend = [pend1] ∧ (st h).h.wins = [] ∧ pend1.w = .s 1 5 ∧ (st h).h.cyc < pend1.due
    ∧ (st h).h.cctl.getLsbD 0 = false ∧ (st { h with cctl := 1 }).h.cctl.getLsbD 0 = true := by decide

/-- RefusedByMode: each clause, with the last register beyond a declaration of 16 vector registers and of no tile. -/
theorem wit_RefusedByMode :
    ((st task0).h.commit = false ∧ (encode .eret).isSome = true ∧ (st task0).h.mode = .task ∧ Instr.eret.isHandler = true)
    ∧ ((st hand0).h.commit = false ∧ (encode (.vxor 1 2 (.vec 3) 0)).isSome = true ∧ (st hand0).h.mode = .handler ∧ handlerPermits (.vxor 1 2 (.vec 3) 0) = false)
    ∧ (let s := st { task0 with rbanks := 1 };
      s.h.commit = false ∧ s.h.mode = .task ∧ s.h.land = [] ∧ s.h.pend = [] ∧ s.h.wins = [] ∧ s.h.vregs ≤ 16 ∧ s.h.mFree ≤ s.h.cyc ∧ s.h.tileBusy 0 = false ∧ s.h.ztiles ≤ 0)
    ∧ (let s := st { task0 with rbanks := 0x980055 };
      s.h.commit = false ∧ s.h.mode = .task ∧ s.h.land = [] ∧ s.h.pend = [] ∧ s.h.wins = [] ∧ s.h.mFree ≤ s.h.cyc ∧ s.h.tileBusy 3 = false ∧ 3 < s.h.ztiles ∧ s.h.zbank 3 ≠ 1) := by decide

/-- The same for another register, and a handler in the cycle in which it is ready. -/
def pendOf (w : Write) : Pend := { pend1 with w := w }
def ready1 (w : Write) : Hart := { hand0 with pend := [pendOf w], cyc := 103 }

/-- ResultsAreWritten: each clause, on the cycle in which the result is ready and on the one before. -/
theorem wit_ResultsAreWritten :
    (let h : Hart := { task0 with pend := [pend1], cyc := 103 };
      h.land = [] ∧ h.pend = [pend1] ∧ pend1.w = .s 1 5 ∧ pend1.issued ≤ h.cyc ∧ pend1.due ≤ h.cyc ∧ h.mode ≠ .handler)
    ∧ (let r : Pend := { pend1 with w := .s 1 6 };
      let h : Hart := { task0 with pend := [pend1, r], cyc := 103 };
      h.land = [] ∧ h.pend = [pend1, r] ∧ pend1.w = .s 1 5 ∧ r.w = .s 1 6 ∧ pend1.due ≤ h.cyc ∧ r.due ≤ h.cyc ∧ pend1.issued ≤ h.cyc ∧ r.issued ≤ h.cyc)
    ∧ (let h : Hart := { task0 with pend := [pend1], cyc := 102 };
      h.land = [] ∧ h.pend = [pend1] ∧ h.cyc < pend1.due)
    ∧ (0 < 64 ∧ wf 4 (2 * (0 / 16)) 2 = 0) := by decide
theorem wit_ResultsAreWritten_kinds (w : Write) : (ready1 w).pend = [pendOf w] ∧ (pendOf w).issued = 100 ∧ (pendOf w).due = (ready1 w).cyc ∧ (ready1 w).cyc = 103 ∧ (pendOf w).w = w
    ∧ (ready1 w).land = [] := ⟨rfl, rfl, rfl, rfl, rfl, rfl⟩
theorem wit_ResultsAreWritten_pair (x : Word) (b : BitVec 5) : let h : Hart := { task0 with pend := [pendOf (.wsr .vstat x), pendOf (.vstat b)], cyc := 103 };
    h.land = [] ∧ h.pend = [pendOf (.wsr .vstat x), pendOf (.vstat b)] ∧ (pendOf (.vstat b)).due = h.cyc ∧ (pendOf (.wsr .vstat x)).w = .wsr .vstat x := ⟨rfl, rfl, rfl, rfl⟩

/-- Quotients: a zero divisor, the one overflow, and neither. -/
theorem wit_Quotients : (0 : Word) = 0 ∧ (0x8000000000000000 : Word) ≠ 0 ∧ ¬ ((7 : Word) = 0x8000000000000000 ∧ (2 : Word) = 0xFFFFFFFFFFFFFFFF) ∧ (2 : Word) ≠ 0 := by decide

/-- BranchesAndCalls: a condition that holds and one that does not, targets that are multiples of 64 and not. -/
theorem wit_BranchesAndCalls : brOf .zero ((st task0).rdS 1) ∧ ¬ brOf .nonzero ((st task0).rdS 1) ∧ brOf .neg ((st (withS task0 [(1, 0x8000000000000000)])).rdS 1)
    ∧ ((st task0).clear (.callr false 1) ∧ ((st task0).rdS 1).toNat % 64 = 0)
    ∧ (let s := st (withS task0 [(1, 0x103F), (31, 0x1001)]);
      s.clear (.callr false 1) ∧ (s.rdS 1).toNat % 64 ≠ 0 ∧ s.clear .ret ∧ (s.rdS 31).toNat % 64 ≠ 0)
    ∧ ((st task0).clear .ret ∧ ((st task0).rdS 31).toNat % 64 = 0) := by
  refine ⟨?_, ?_, ?_, by decide, by decide, by decide⟩ <;> show _ <;> unfold brOf <;> decide

/-- A loop whose last bundle is task0's, and its copies on a stack. -/
def loop1 : LoopLevel := { start := 0xFC0, stop := 0x1000, count := 2, index := 0 }
def loops (n : Nat) : State := st (withS { task0 with loops := List.replicate n loop1 } [(1, 0xFFFFFFFF), (2, 0x100000000)])

/-- LoopSetAndLoop: counts 0 and 2^32 − 1 on a stack with one place left; a LOOP that goes round and one that leaves. -/
theorem wit_LoopSetAndLoop :
    ((loops 5).clear (.loopSet 1 4) ∧ (loops 5).rdS 3 = 0 ∧ (loops 5).rdS 1 ≠ 0 ∧ (loops 5).h.loops.length < 6 ∧ ((loops 5).rdS 1).toNat < 2 ^ 32)
    ∧ ((loops 1).clear .loop ∧ (loops 1).h.loops = [loop1] ∧ (loops 1).h.pc = loop1.stop ∧ (loop1.index + 1).toNat < loop1.count.toNat)
    ∧ (let l : LoopLevel := { loop1 with index := 1 };
      let s := st { task0 with loops := [l] };
      s.clear .loop ∧ s.h.loops = [l] ∧ s.h.pc = l.stop ∧ l.count.toNat ≤ (l.index + 1).toNat)
    ∧ ((loops 5).clear (.loopIdx 1 4) ∧ (loops 5).h.loops[4]? = some loop1) := by decide

/-- LoopBreak and LoopStackFaults, clause by clause. -/
theorem wit_LoopStackFaults :
    ((loops 1).clear .loopBrk ∧ (loops 1).h.loops = [loop1] ∧ (loops 0).clear .loopBrk ∧ (loops 0).h.loops = [])
    ∧ ((loops 6).clear (.loopSet 1 4) ∧ (loops 6).rdS 1 ≠ 0 ∧ 6 ≤ (loops 6).h.loops.length)
    ∧ (let s := st { task0 with loops := [loop1], pc := 0xFC0 };
      s.clear .loop ∧ s.h.loops = [loop1] ∧ s.h.pc ≠ loop1.stop)
    ∧ ((loops 5).clear (.loopSet 2 4) ∧ (loops 5).h.loops.length < 6 ∧ 2 ^ 32 ≤ ((loops 5).rdS 2).toNat)
    ∧ ((loops 0).clear .loop ∧ (loops 0).h.loops = []) ∧ ((loops 5).clear (.loopIdx 1 5) ∧ (loops 5).h.loops.length ≤ 5) := by decide

/-- TrapsAndBases and every FaultsTo: TRAP delegated, BRK not, and both in a handler whose checks are made; RBASE with vector registers to rotate and with none. -/
theorem wit_TrapsAndBases : (st task0).h.nr = 48 ∧ (st { task0 with rbanks := 1 }).h.nr = 0 ∧
    (Delegates (st task0) 15 ∧ (st task0).clear (.trap 0xFFFF) ∧ (st task0).h.waiting = none ∧ (st task0).h.hdr < 32)
    ∧ ((st task0).clear (.brk 0) ∧ (st task0).h.mode = .task ∧ (st task0).h.cctl.getLsbD (32 + 16) = false)
    ∧ (let s := st { hand0 with commit := true };
      s.clear (.trap 1) ∧ s.clear (.brk 1) ∧ s.h.mode = .handler)
    ∧ ((st { task0 with rbanks := 1 }).clear (.rbase (.imm 63 7 7)) ∧ (st task0).clear (.rbase (.reg 31))) := by decide

/-- ReturnFromHandler: a return address that is a multiple of 64, zero, and neither. -/
theorem wit_ReturnFromHandler :
    ((st hand0).clear .eret ∧ (st hand0).h.epc ≠ 0 ∧ (st hand0).h.epc.toNat % 64 = 0)
    ∧ (let s := st { hand0 with epc := 0 };
      s.clear .eret ∧ s.h.mode = .handler ∧ s.h.epc = 0)
    ∧ (let s := st { hand0 with epc := 0x2020 };
      s.clear .eret ∧ s.h.mode = .handler ∧ s.h.epc.toNat % 64 ≠ 0) := by decide

/-- PrivilegedReads and PrivilegedWrites: values without and with a bit in a reserved field, DETLVL 3, power state 3, and a bank that is turned on. -/
theorem wit_PrivilegedWrites :
    ((st hand0).clear (.csrr 31 (.wcnt 15)) ∧ (st hand0).clear (.csrr 1 (.nmdebt 1)) ∧ (st hand0).clear (.csrr 1 .rcbudget))
    ∧ (let s := st (withS hand0 [(1, 0xF), (2, 0x10), (3, 6), (4, 0x985557), (5, 0x985556), (6, 0x985554), (7, 0x985555)]);
      s.clear (.csrw .cctl 1) ∧ s.clear (.csrw .cctl 2) ∧ (s.rdS 2).getLsbD 4 = true ∧ (31, 4) ∈ zeroFields .cctl ∧ s.clear (.csrw .cctl 3) ∧ wf (s.rdS 3) 1 2 = 3
        ∧ wf (s.rdS 4) 0 2 = 3 ∧ s.h.mode = .handler ∧ s.h.commit = false
        ∧ s.clear (.csrw .rbanks 5) ∧ (∀ i, i < 8 → wf (s.rdS 5) (2 * i) 2 ≠ 3) ∧ wf s.h.rbanks 0 2 = 1)
    ∧ (let s := st (withS { hand0 with rbanks := 0x985554 } [(7, 0x985555)]);
      wf s.h.rbanks 0 2 = 0 ∧ wf (s.rdS 7) 0 2 ≠ 0 ∧ s.clear (.csrw .rbanks 7))
    ∧ (let s := st (withS { hand0 with rbanks := 0x985556 } [(7, 0x985555)]);
      wf s.h.rbanks 0 2 = 2 ∧ wf (s.rdS 7) 0 2 ≠ 2 ∧ s.clear (.csrw .rbanks 7)) := by decide

/-- A copy that has probed the page of 0x40000 under ASID 9. -/
def probed1 : Cmd :=
  { id := 1, op := .stamp, nb := false, cmd := 0x40000, aux := 0, org := 0, src := 0, dst := 0, pages := [{ vpn := 0x40, ppn := 0x41, cpol := 1, key := 0, size := 4096 }], asid := 9,
    wrote := [], seen := [], lid := some 1, member := 0, lcore := 0, core := 0, started := false, parts := [], errs := [], finished := false, confirmed := 0, closed := false }
/-- TranslationsAndEvents: a first issue with nothing outstanding (runEngine has a deferred load), a later one with nothing and with a probed translation in use; an
event is held, a switch is asked, neither. -/
theorem wit_TranslationsAndEvents :
    ((st hand0).h.invMark = 0 ∧ (st hand0).relHeld 0 true = false ∧ (st hand0).clear .tlbInvAll)
    ∧ (let s := st { hand0 with invMark := 5 };
      s.h.invMark ≠ 0 ∧ s.partHarts = [0] ∧ (s.hartAt 0).holdsProbe 5 (some 9) (some 0x40000) = false ∧ s.accsHeld 0 (fun a => a.id < 5) = false)
    ∧ (let s := st { hand0 with invMark := 5, copyq := [probed1] };
      s.partHarts = [0] ∧ (s.hartAt 0).holdsProbe 5 (some 9) (some 0x40FFF) = true ∧ (s.hartAt 0).holdsProbe 5 (some 9) (some 0x41000) = false
        ∧ (s.hartAt 0).holdsProbe 5 (some 8) (some 0x40FFF) = false ∧ (s.hartAt 0).holdsProbe 1 (some 9) (some 0x40FFF) = false)
    ∧ ((st hand0).walkDefers 0x40000 4 false 0 = false ∧ (st hand0).clear (.tlbPrb 3 5))
    ∧ ((st { hand0 with eventHeld := true }).h.eventHeld = true ∧ (st { hand0 with eventHeld := true }).clear .wfe)
    ∧ ((st { hand0 with cctl := 8 }).h.cctl.getLsbD 3 = true ∧ (st hand0).h.cctl.getLsbD 3 = false ∧ (st hand0).h.eventHeld = false) := by decide +kernel

/-- Every vector instruction of a task issues on the task's state, with vector registers and masks at the ends of their ranges: the premise of the vector statements. -/
theorem wit_vector_clear : ∀ i ∈ ([.vfadd .rn 63 63 (.vec 63) 15, .vfsub .rz 1 2 (.scl 3) 0, .vfmul .ru 1 2 (.vec 3) 0, .vfma .rd 1 2 (.vec 3) 4 0, .vfms .rn 1 2 (.vec 3) 4 0,
    .vfnma .rn 1 2 (.vec 3) 4 0, .vfscl .rn 1 2 (.vec 3) 0, .vfmin 1 2 (.vec 3) 0, .vfmax 1 2 (.vec 3) 0, .vfabs 1 2 0, .vfneg 1 2 0, .vfrcp .rn 1 2 0, .vfrsq .rn 1 2 0,
    .vfsqrt .rn 1 2 0, .vfexp2 .rn 1 2 0, .vflog2 .rn 1 2 0, .vadd .wrap 1 2 (.vec 3) 0, .vadd .sat 1 2 (.vec 3) 0, .vsub .satu 1 2 (.vec 3) 0, .vmul 1 2 (.vec 3) 0,
    .vmulh true 1 2 (.vec 3) 0, .vand 1 2 (.vec 3) 0, .vor 1 2 (.vec 3) 0, .vxor 0 0 (.vec 0) 0, .vshl 1 2 (.vec 3) 0, .vshr 1 2 (.vec 3) 0, .vsar 1 2 (.vec 3) 0, .vmin false 1 2 (.vec 3) 0,
    .vmax true 1 2 (.vec 3) 0, .vabs true 1 2 0, .vpopc 1 2 0] : List Instr), (st task0).clear i := by decide +kernel
theorem wit_vector_clear2 : ∀ i ∈ ([.vfcmp .un 15 63 (.vec 63) 15, .vcmp .geu 1 2 (.vec 3) 0, .vsel 1 2 (.vec 3) 4 0, .mlog 8 1 2 3,
    .mpopc 1 15, .mfirst 31 1, .mset 15 31, .mget 31 15, .vcvt .f32i32 .rn true 63 63 15, .vdqmx .e4m3 .rn 1 2 0, .vqmx .e4m3 1 2 none 0, .vqmx .e2m1 1 2 (some (.vec 3)) 0,
    .vpack .q 63 62 61 15, .vunpk .b true 3 1 2 0, .vperm 1 2 (.vec 3) 0, .vshuf .rev 1 2 3 0, .vbcast 1 (.lane 2 63) 0, .vbcast 1 (.scalar 31) 0, .vins false 1 2 63, .vins true 1 2 62,
    .vext .zero 1 2 63, .vext .sign 1 2 0, .vext .dword 1 2 62, .viota 1 0, .vcomp 1 2 0, .vred .fadd 1 2 0, .vscan .minu 1 2 0, .vhad .n64 1 2, .vrng .lo 1 2 (.vec 3) 4 0,
    .vrng .unif 63 63 (.vec 63) 31 15] : List Instr), (st task0).clear i := by decide +kernel

/-- FloatSpecialCases, ElementaryFunctions, VectorConversions: a NaN with its sign set, the least number, a negative number, a scale that is NaN. -/
theorem wit_FloatSpecialCases : (laneVal 0xFFC00001).isNan = true ∧ (laneVal 0x3F800000).isNan = false ∧ (laneVal 1).isNan = false ∧ (∃ m e, laneVal 1 = .num false m e ∧ m ≠ 0)
    ∧ (∃ m e, laneVal 0x80000001 = .num true m e ∧ m ≠ 0) ∧ (0xFF00 : Lane) / 256 % 256 = 0xFF :=
  ⟨by decide, by decide, by decide, ⟨1, -149, by decide⟩, ⟨1, -149, by decide⟩, by decide⟩

/-- A task whose s1 and s2 name one line of 64-byte pitch at 0 and at 0x100; s3 is the K of an MMA and s4 that of an MBIN; s5 names a window of one
element, s6 one row of one column, s7 a quantised line; s8 a window of bank 1, which is a FIFO, and s9 one row of four columns. -/
def matTask : Hart := withS task0 [(1, 0x0001004000000000), (2, 0x0001004000000100), (3, 32), (4, 256), (5, 0x0101001000000000), (6, 0x0101), (7, 0x2000000200),
  (8, 0x1000020000), (9, 0x0401), (10, 0x1000000000)]
def matState : State := st { matTask with banks := [(1, { Bank.reset with mode := .fifo })] }
/-- The unit busy. -/
def matBusy : State := st { matTask with mFree := 101 }

/-- MatrixIssue: products of the least shape, whose reads are clear, and the unit busy. -/
theorem wit_MatrixProductIssue :
    (matState.clear (.mma 3 1 2 3 0) ∧ matState.clear (.mmaG 0 1 2 3 0 0) ∧ matState.clear (.mbin true 0 1 2 4))
    ∧ PanelOk (matState.rdS 1) ∧ PanelOk (matState.rdS 2) ∧ (matState.rdS 3).toNat = 32 ∧ (matState.rdS 4).toNat = 256 ∧ cfgInner (matState.h.mcWords 0) = false ∧ cfgOuter (matState.h.mcWords 0) = 0
    ∧ (let l := linesOf (matState.rdS 1) 64 ++ linesOf (matState.rdS 2) 64;
      l = [(0, 64), (256, 64)] ∧ matState.h.mFree ≤ matState.h.cyc ∧ matState.h.willWrite l = false ∧ Sound matState.h l ∧ ∀ x ∈ l, InScratch matState.h x.1 x.2)
    ∧ (matBusy.clear (.mma 3 1 2 3 0) ∧ matBusy.h.cyc < matBusy.h.mFree) := by decide +kernel

/-- MatrixIssue: windows of one element, a quantised line, a FIFO bank; configurations that MCFG takes and refuses. -/
theorem wit_MatrixMoveIssue :
    (∀ i ∈ ([.mzero 3, .mloadz false 3 5, .mloadz true 0 5, .mdrain false 3 10 6 0, .mdrain true 0 10 6 0, .mdrain false 3 8 9 0, .mqnt false 1 7 3 0, .mqnt true 1 7 3 0, .mcfg 7 10, .mcfg 7 20,
      .mcfgr 27 7, .mstat 31] : List Instr), matState.clear i) ∧ matState.h.tileBusy 3 = false
    ∧ (let w := matState.rdS 5;
      wf w 21 11 = 0 ∧ wf w 56 8 = 1 ∧ wf w 48 8 = 1 ∧ 4 ≤ wf w 32 16 ∧ wf w 32 16 % 16 = 0 ∧ wf w 0 21 % 16 = 0 ∧ matState.h.willWrite (linesOf w 4) = false ∧ InScratch matState.h 0 4
        ∧ linesOf w 4 = [(0, 4)] ∧ Sound matState.h [(0, 4)])
    ∧ (let w := matState.rdS 10;
      wf w 48 16 = 0 ∧ wf w 21 11 = 0 ∧ wf (matState.rdS 6) 16 48 = 0 ∧ wf (matState.rdS 6) 0 8 = 1 ∧ wf (matState.rdS 6) 8 8 = 1 ∧ 4 ≤ wf w 32 16 ∧ matState.h.inFifo (wf w 0 21) = false)
    ∧ (let w := matState.rdS 8;
      wf w 48 16 = 0 ∧ wf w 21 11 = 0 ∧ wf (matState.rdS 9) 0 8 = 1 ∧ wf (matState.rdS 9) 8 8 = 4 ∧ 4 * 4 % 16 = 0 ∧ wf w 32 16 % 16 = 0 ∧ matState.h.inFifo (wf w 0 21) = true)
    ∧ (let w := matState.rdS 7;
      wf w 48 16 = 0 ∧ wf w 21 11 = 0 ∧ wf w 32 16 % 16 = 0 ∧ wf w 0 21 % 16 = 0 ∧ cfgFmt (matState.h.mcWords 0) true < 3 ∧ rowBytes (cfgQ (matState.h.mcWords 0) true + 3) 32 ≤ wf w 32 16
        ∧ InScratch matState.h 512 17 ∧ matState.h.willWrite [(0, 64)] = false)
    ∧ cfgBad ((List.range 5).map fun i => matState.rdS (20 + i)) = false ∧ cfgBad ((List.range 5).map fun i => matState.rdS (10 + i)) = true ∧ matState.h.commit = false := by decide +kernel

/-- One operation in the unit, ready this cycle. -/
def matOp (kind : MatKind) (ops : List Word) (panels : List (List Byte)) (outs : List (Nat × List Byte)) : MatOp :=
  { kind := kind, tile := 3, ops := ops, cfg := List.replicate 5 0, panels := panels, outs := outs, mstat := 1, due := 100, seen := 0 }
def matDone (m : MatOp) : Hart := { matTask with matq := [m], banks := [(1, { Bank.reset with mode := .fifo })] }

/-- MatrixCompletion: each kind of operation with panels as captured, drains into scratchpad and FIFO, the FIFO full. -/
theorem wit_MatrixCompletion :
    (let m := matOp (.mma none) [0x0001004000000000, 0x0001004000000100, 32] [List.replicate 64 0, List.replicate 64 0, [], []] [];
      let h := (st (matDone m)).hartAt 0;
      h.matq = [m] ∧ m.due ≤ h.cyc ∧ h.spLog.drop m.seen = [] ∧ PanelOk (m.ops.getD 0 0) ∧ PanelOk (m.ops.getD 1 0))
    ∧ (let m := matOp (.mbin true) [0x0001004000000000, 0x0001004000000100, 256] [List.replicate 32 0, List.replicate 32 0] [];
      let h := (st (matDone m)).hartAt 0;
      h.matq = [m] ∧ (m.ops.getD 2 0).toNat % 256 = 0 ∧ m.panels = [bytesAt h (linesOf (m.ops.getD 0 0) 32), bytesAt h (linesOf (m.ops.getD 1 0) 32)])
    ∧ (let m := matOp (.mloadz false) [0x0101001000000000] [[0, 0, 0, 0]] [];
      let h := (st (matDone m)).hartAt 0;
      h.matq = [m] ∧ wf (m.ops.getD 0 0) 48 8 ≤ 128 ∧ wf (m.ops.getD 0 0) 56 8 ≤ 128 ∧ m.panels = [bytesAt h (linesOf (m.ops.getD 0 0) 4)])
    ∧ (let m := matOp (.mdrain false) [] [] [(0, [1, 2, 3, 4])];
      let h := (st (matDone m)).hartAt 0;
      h.matq = [m] ∧ m.due ≤ h.cyc ∧ ∀ x ∈ m.outs, h.inFifo x.1 = false)
    ∧ (let m := matOp (.mdrain true) [] [] [(0x20000, List.replicate 16 7)];
      let h := (st (matDone m)).hartAt 0;
      h.matq = [m] ∧ h.inFifo 0x20000 = true ∧ Tab.get false (h.bank 1).full (h.bank 1).tail.toNat = false)
    ∧ (let b : Bank := { Bank.reset with mode := .fifo, full := [(0, true)] };
      let h : Hart := { matTask with banks := [(1, b)] };
      Tab.get false (h.bank 1).full (h.bank 1).tail.toNat = true ∧ h.inFifo 0x20000 = true) := by decide +kernel

/-! ### Loads and stores -/

/-- A fixed-grid launch of two members: member 0 on core 0, member 1 saved at 0x200000 from core 1. -/
def launch1 : Launch :=
  { (Launch.fresh [0, 0, 0x1000, 0, 0x77, 1, 1] 0 0) with phase := .running, groups := [3], members := [(0, .resident 0), (1, .saved 0x200000 1)], retired := 0 }
/-- Its page tables, one of each level from 0x20000000000 in second-tier memory (R384, R385): 0x40000 maps to 0x40000 with R, W, X and CPOL 1, 0x41000 to 0x41000 with
SEQ too. -/
def pages1 : Memory :=
  [(0x20000000000, 0x01), (0x20000000001, 0x10), (0x20000000005, 0x02), (0x20000001000, 0x01), (0x20000001001, 0x20), (0x20000001005, 0x02), (0x20000002000, 0x01), (0x20000002001, 0x30),
   (0x20000002005, 0x02), (0x20000003000, 0x01), (0x20000003001, 0x40), (0x20000003005, 0x02), (0x20000004200, 0x8F), (0x20000004202, 0x04), (0x20000004208, 0x8F), (0x20000004209, 0x14),
   (0x2000000420A, 0x04)]
/-- Its task 0 with pages at 0x40000 (NORMAL) and 0x41000 (with SEQ), named by s1 and s2. -/
def memTask : Hart := withS { task0 with ptroot := 0x20000000000, banks := [(1, { Bank.reset with mode := .fifo, full := [(0, true)], tail := 1 })] }
  [(1, 0x40000), (2, 0x41000), (3, 0x3FF), (4, 0x20000), (5, 1), (6, 0x100), (7, 0x200000), (8, 0x40FC0), (9, 0x1FFF00)]
def memState : State :=
  { State.reset with
    harts := [(0, memTask)], launches := [(1, launch1)], mem := pages1 }
def page1 : Page := { pa := 0x40000, leaf := 0x4008F }
def page2 : Page := { pa := 0x41000, leaf := 0x4148F }

/-- LocalLoads and LocalStores: a place on the core and in a save area, every size, the last 256 bytes of a bank; 64 lanes that do not meet. -/
theorem wit_LocalLoads :
    (∀ i ∈ ([.ld .l .d true false true 31 ⟨0, 0, 0⟩ 0, .ld .c .b false true false 1 ⟨7, 0, 0⟩ 0, .ldv .l false false 63 ⟨3, 0, 0⟩ 0, .ldm .c false false 15 ⟨0, 0, 0⟩ 0,
      .ldvS .l .w false false false 1 ⟨0, 6, 0⟩ 0, .ldvX .c .w false false false 1 ⟨0, 2, 0⟩ 0, .st .c .d .full 31 ⟨0, 0, 0⟩, .stv .l .plain 63 ⟨0, 0, 0⟩, .stm .l .empty 15 ⟨0, 0, 0⟩,
      .stvS .l .b .plain 1 ⟨0, 6, 0⟩, .stvX .l .w .plain 1 ⟨0, 2, 0⟩, .setfe .l true 6 ⟨0, 0, 0⟩] : List Instr), memState.clear i) ∧ memState.acqPending = false := by decide +kernel
theorem wit_LocalLoads_places :
    okIs (memState.spot .l 0x1FFFFF) ⟨0, 0x1FFFFF, .live⟩ = true ∧ okIs (memState.spot .c 0) ⟨0, 0, .live⟩ = true ∧ okIs (memState.spot .c 0x200000) ⟨1, 0, .image 0x200000⟩ = true
    ∧ (eaOf memState ⟨7, 0, 0⟩ 1).toNat % 1 = 0 := by decide +kernel
theorem wit_LocalLoads_readable : Readable memState ⟨0, 0x1FF00, .live⟩ 256 false ∧ Readable memState ⟨1, 0, .image 0x200000⟩ 1 false :=
  ⟨⟨by decide, by decide, by decide +kernel, by decide +kernel, (fun _ h => nomatch h), (fun h => nomatch h)⟩,
   ⟨by decide, by decide, by decide +kernel, (fun h => nomatch h), (fun a h => by cases h; decide +kernel), (fun h => nomatch h)⟩⟩
/-- The lanes of a strided access of 256-byte stride. -/
theorem wit_LocalStores_lanes : let ea := fun j => eaStride memState ⟨0, 6, 0⟩ 1 j
    (∀ j, j < 64 → (ea j).toNat % 1 = 0 ∧ okIs (memState.spot .l (ea j)) ⟨0, 256 * j, .live⟩ = true ∧ InScratch memState.h (256 * j) 1)
    ∧ (∀ j l, j < 64 → l < 64 → j ≠ l → 256 * j + 1 ≤ 256 * l ∨ 256 * l + 1 ≤ 256 * j) := ⟨by decide +kernel, by omega⟩
/-- SETFE of no granule, of one, and the steps of one under way: the last 64 and more. -/
theorem wit_LocalStores_setfe : (memState.rdS 0).toNat = 0 ∧ (memState.rdS 5).toNat = 1 ∧ InScratch memState.h 0 (16 * 1)
    ∧ (let s := st { task0 with setfe := [(0, 0, 64, true), (0, 0, 65, true)] };
      (s.hartAt 0).setfe = [(0, 0, 64, true), (0, 0, 65, true)] ∧ (s.hartAt 0).frozen = false) := by decide +kernel

/-- LocalLoadFaults and the FIFO clause of LocalStores: misaligned, beyond the scratchpad, a granule not full, a FIFO bank's head full and empty, its tail empty and full. -/
theorem wit_LocalLoadFaults : let i (m : Mem) : Instr := .ld .l .d true true false 1 m 0
    (memState.clear (i ⟨3, 0, 0⟩) ∧ memState.h.commit = false ∧ memState.acqPending = false ∧ (eaOf memState ⟨3, 0, 0⟩ 8).toNat % 8 ≠ 0)
    ∧ (2 ^ 21 ≤ (eaOf memState ⟨7, 0, 0⟩ 8).toNat ∧ (eaOf memState ⟨7, 0, 0⟩ 8).toNat % 8 = 0 ∧ memState.h.scr ≤ (eaOf memState ⟨1, 0, 0⟩ 8).toNat / 0x20000)
    ∧ (InScratch memState.h 0 8 ∧ memState.h.fullAt 0 = false ∧ 0 ∈ granules 0 8)
    ∧ ((eaOf memState ⟨4, 0, 0⟩ 8).toNat = 0x20000 ∧ (memState.h.bank 1).mode = .fifo ∧ memState.h.spBad = [] ∧ Tab.get false (memState.h.bank 1).full (memState.h.bank 1).head.toNat = true
      ∧ Tab.get false (memState.h.bank 1).full (memState.h.bank 1).tail.toNat = false)
    ∧ (let b : Bank := { Bank.reset with mode := .fifo };
      Tab.get false b.full b.head.toNat = false ∧ Tab.get false ({ b with full := [(0, true)] } : Bank).full b.tail.toNat = true) := by decide +kernel

/-- GlobalLoads, GlobalStores and PlainStoreInFlight: pages that admit the access, within a page and across two; a full landing buffer; no translation. -/
theorem wit_GlobalLoads :
    (∀ i ∈ ([.ld .g .d true false false 31 ⟨1, 0, 0⟩ 4095, .ldv .g false false 63 ⟨8, 0, 0⟩ 0, .ldm .g false false 15 ⟨1, 0, 0⟩ 7, .ldvS .g .w false false false 1 ⟨1, 5, 0⟩ 0,
      .ldvX .g .w false false false 1 ⟨1, 2, 0⟩ 0, .pref ⟨1, 0, 0⟩, .pref ⟨0, 0, 0⟩, .st .g .d .plain 31 ⟨1, 0, 0⟩, .stv .g .plain 63 ⟨8, 0, 0⟩, .stm .g .plain 15 ⟨1, 0, 0⟩,
      .stvS .g .b .plain 1 ⟨1, 5, 0⟩, .stvX .g .w .plain 1 ⟨1, 2, 0⟩] : List Instr), memState.clear i)
    ∧ memState.h.land.length < 64 ∧ Unhindered memState ∧ okIs (memState.xlate (eaOf memState ⟨1, 0, 0⟩ 8)) page1 = true ∧ page1.refuse .ld = none ∧ page1.refuse .st = none
    ∧ page1.refuse .vld = none ∧ page1.refuse .vst = none ∧ page1.cls ≠ 3 := by decide +kernel
theorem wit_GlobalLoads_pieces :
    okIs (memState.gPieces (eaOf memState ⟨8, 0, 0⟩ 256) 256 16 .vld) ([⟨0, 0x40FC0, 64, 1, 0, false⟩, ⟨64, 0x41000, 64, 1, 0, false⟩, ⟨128, 0x41040, 64, 1, 0, false⟩, ⟨192, 0x41080, 64, 1, 0, false⟩], false) = true
    ∧ (memState.eltPieces .vld 4 (indexed memState ⟨1, 2, 0⟩ 4)).toOption.map (fun x => (x.1.length, x.2)) = some (64, false)
    ∧ (memState.eltPieces .vst 1 (strided memState ⟨1, 5, 0⟩ 1)).toOption.map (fun x => (x.1.length, x.2)) = some (64, false) := by decide +kernel
theorem wit_GlobalLoads_faults :
    errIs (memState.xlate (eaOf memState ⟨7, 0, 0⟩ 8)) 4 2 = true
    ∧ errIs (memState.xlate 0x0100000000000000) 4 1 = true
    ∧ (let l : Landing := entryOf memState 0 [] (.dep none) none [];
      let s := st { task0 with land := List.replicate 64 l };
      64 ≤ s.h.land.length ∧ s.clear (.ld .g .d true false false 31 ⟨1, 0, 0⟩ 0)) := by decide +kernel
theorem wit_PlainStoreInFlight : (memState.hartAt 0).land = [] ∧ 0 < [(1 : Byte)].length ∧ 0x4003F % 64 + 1 ≤ 64 ∧ (st { task0 with scr := 16 }).h.hasL1 0 = false ∧ Tab.find (memState.hartAt 0).l1 0x1000 = none := by decide +kernel

/-- AtomicsLeave: each kind of atomic with its page, with a destination and without; a sequence number at the end of its range. -/
theorem wit_AtomicsLeave :
    (memState.h.land = [] ∧ memState.h.stq = [] ∧ memState.h.l1 = [] ∧ ∀ g ∈ memState.msgs, g.hart ≠ memState.cur)
    ∧ okIs (memState.xlate (memState.rdS 1)) page1 = true ∧ page1.refuse .amo = none ∧ page1.refuse .amof = none ∧ okIs (memState.xlate (memState.rdS 2)) page2 = true ∧ page2.refuse .amofSeq = none
    ∧ (memState.rdS 1).toNat % 8 = 0 ∧ (memState.rdS 2).toNat % 4 = 0 ∧ (memState.rdS 3).toNat < 2 ^ 32 := by decide +kernel

/-! ### Memory, caches and synchronisation -/

/-- Empty memory-side caches agree with what lies behind them. -/
theorem agrees_of_nil (s : State) (h : s.msc = []) : Agrees s := by
  constructor
  · rw [h]; rfl
  · rw [h]; intro k e hf; cases hf
/-- Where they are empty, the rest of Plain can be evaluated. -/
theorem plain_of_nil (s : State) (sec key : Nat) (h : s.msc = [])
    (p : ((region (64 * sec)).1 = .hbm ∨ (region (64 * sec)).1 = .second) ∧ s.notLive (64 * sec) = false ∧ s.expanderLost (64 * sec) = false
      ∧ sec ∉ s.bad ∧ sec ∉ s.corr ∧ Tab.find s.sealed_ sec = if key = 0 then none else some (key, s.keyGenOf key)) : Plain s sec key :=
  ⟨p.1, p.2.1, p.2.2.1, p.2.2.2.1, p.2.2.2.2.1, p.2.2.2.2.2, agrees_of_nil s h⟩

/-- A row whose range the control region does not enable is live. -/
theorem notLive_of_ranges (s : State) (pa : Nat) (h : ∀ sl k, k < 16 → s.dram (elisionPa sl k) = 0) : s.notLive pa = false := by
  have hr : ∀ sl bank row ch, s.rowElided sl bank row ch = false := by
    intro sl bank row ch
    unfold State.rowElided
    rw [List.any_eq_false]
    intro k hk
    simp [h sl k (List.mem_range.mp hk)]
  unfold State.notLive
  simp [hr]
theorem notLive_of_low (s : State) (pa : Nat) (hd : ∀ a, 0x80000000000 ≤ a → s.dram a = 0) : s.notLive pa = false :=
  notLive_of_ranges s pa fun sl k _ => hd _ (by unfold elisionPa ctlBase offElision; omega)
/-- A sector of HBM4E where the control region, the caches and the error lists are empty. -/
theorem plain_of_low (s : State) (sec : Nat) (hm : s.msc = []) (hd : ∀ a, 0x80000000000 ≤ a → s.dram a = 0) (hb : s.bad = []) (hc : s.corr = []) (hs : s.sealed_ = []) (hr : 64 * sec < 2 ^ 40) : Plain s sec 0 := by
  have h1 : (region (64 * sec)).1 = .hbm := by unfold region; rw [if_pos hr]
  refine ⟨Or.inl h1, notLive_of_low s _ hd, ?_, by rw [hb]; exact List.not_mem_nil, by rw [hc]; exact List.not_mem_nil, by rw [hs]; rfl, agrees_of_nil s hm⟩
  unfold State.expanderLost
  simp [h1]

/-- The page tables of `pages1` lie below the control regions. -/
theorem pages1_low (s : State) (h : s.mem = pages1) (a : Nat) (ha : 0x80000000000 ≤ a) : s.dram a = 0 := by
  unfold State.dram
  rw [h]
  simp only [pages1, Tab.get]
  repeat (rw [if_neg (by omega)])
  rfl
/-- Memory without errors, in which no row is elided, is faultless. -/
theorem faultless_of_ranges (s : State) (hm : s.msc = []) (hd : ∀ sl k, k < 16 → s.dram (elisionPa sl k) = 0) (hb : s.bad = []) (hc : s.corr = []) (hs : s.sealed_ = []) (hx : s.dies = []) :
    Faultless s :=
  ⟨hb, hc, hs, fun d => by unfold State.dieAt; rw [hx]; rfl, fun a => notLive_of_ranges s a hd, agrees_of_nil s hm⟩
/-- Memory with the page tables alone is faultless. -/
theorem faultless_of_low (s : State) (hm : s.msc = []) (hd : ∀ a, 0x80000000000 ≤ a → s.dram a = 0) (hb : s.bad = []) (hc : s.corr = []) (hs : s.sealed_ = []) (hx : s.dies = []) :
    Faultless s :=
  ⟨hb, hc, hs, fun d => by unfold State.dieAt; rw [hx]; rfl, fun a => notLive_of_low s a hd, agrees_of_nil s hm⟩

/-- MemoryReadAfterWrite: the last byte of the first sector of memory and of the last of a die, plainly and under the key it is sealed with. -/
theorem wit_MemoryReadAfterWrite : 0 < [(7 : Byte)].length ∧ 63 % 64 + 1 ≤ 64 ∧ Plain State.reset (63 / 64) 0 ∧ Plain State.reset ((2 ^ 37 - 1) / 64) 0
    ∧ Plain { State.reset with sealed_ := [(1, (5, 0))] } 1 5 :=
  ⟨by decide, by decide, plain_of_nil _ _ _ rfl (by decide +kernel), plain_of_nil _ _ _ rfl (by decide +kernel), plain_of_nil _ _ _ rfl (by decide +kernel)⟩

/-- A hart with one load of 8 bytes at 0x40000 in its landing buffer. -/
def land1 (due : Option Nat) (got : Option (List Write)) : Landing :=
  { id := 1, issued := 90, due := due, pc := 0x1000, regs := [.s 1], req := .load (.scalar .d true (.s 1)) [⟨0, 0x40000, 8, 1, 0, false⟩], got := got, acq := none, bad := none, read := [], byTask := true, ready := 0, slots := [] }
def landState (l : Landing) : State := { memState with harts := [(0, { memTask with land := [l] })] }
/-- LoadsLand: land=any and exact entries, filled or not, due and not due. -/
theorem wit_LoadsLand : ∀ l ∈ ([land1 none none, land1 (some 120) none, land1 (some 100) none, land1 (some 100) (some [.s 1 5]), land1 (some 101) (some [.s 1 5])] : List Landing),
    let s := landState l
    let h := s.hartAt 0
    h.land = [l] ∧ h.pend.length = 0 ∧ h.outst = [] ∧ h.l1 = [] ∧ h.stq = [] ∧ h.mnts = [] ∧ h.l1Bad = [] ∧ h.l1Corr = [] ∧ s.msgs = [] ∧ l.acq = none ∧ l.bad = none ∧ l.slots = [] ∧ l.ready ≤ s.time
      ∧ s.deferred 0x40000 8 = false ∧ s.mayUse 0 false 0x40000 = true ∧ s.reaches 0 0x40000 = true ∧ sectorsOf 0x40000 8 = [0x1000] ∧ h.mode ≠ .handler := by decide +kernel
theorem wit_LoadsLand_plain (l : Landing) : Plain (landState l) 0x1000 0 := plain_of_low _ _ rfl (pages1_low _ rfl) rfl rfl rfl (by decide)

/-- A core with a half-dirty line of its L1, and one with stores in flight. -/
def line1 : L1Line := { data := 0x1234, valid := 1, dirty := 1, own := 0, bank := 2, key := 0 }
def lineState : State := { memState with harts := [(0, { memTask with l1 := [(0x1000, line1)] })] }
def store1 (id : Nat) : Store := { id := id, sector := 0x1000, mask := 3, data := 0x55AA, cpol := 1, key := 0, own := 0, by_ := none, ready := 0 }
def storeState (l : List Store) : State := { memState with harts := [(0, { memTask with stq := l })] }
/-- CachesAndStoresArrive: fill and write-back of the line; one store, two stores to a sector; a load that waits for its slot. -/
theorem wit_CachesAndStoresArrive :
    (Tab.find (lineState.hartAt 0).l1 0x1000 = some line1 ∧ line1.valid ≠ BitVec.allOnes 64 ∧ line1.dirty ≠ 0 ∧ (lineState.hartAt 0).l1Bad = [] ∧ lineState.reaches (hartDie 0) 0x40000 = true
      ∧ lineState.deferred 0x40000 64 = false ∧ lineState.mayUse 0 false 0x40000 = true ∧ lineState.msgs = [] ∧ (lineState.hartAt 0).stq = []
      ∧ (lineState.sliceAt (sliceOf 0x40000)).seen = [])
    ∧ (((storeState [store1 1]).hartAt 0).stq = [store1 1] ∧ ((storeState [store1 1, store1 2]).hartAt 0).stq = [store1 1, store1 2] ∧ (store1 1).sector = (store1 2).sector ∧ (store1 1).id ≠ (store1 2).id
      ∧ (storeState [store1 1]).accMay 0 (.store (store1 1)) = true)
    ∧ (lineState.d2Core 0 = false ∧ lineState.ownAtomic 0 0x1000 = false ∧ lineState.acqBefore 0 1 = false ∧ (lineState.accs 0).length = 0)
    ∧ (((landState (land1 none none)).hartAt 0).land = [land1 none none]) := by decide +kernel
/-- The same on the core of a D2 task: its line and its store wait for the core's slot of the calendar. -/
def d2State (l : List Store) : State :=
  { storeState l with launches := [(1, { launch1 with words := [0, 0, 0x1000, 0, 0x77, 0x201, 1] })], harts := [(0, { memTask with l1 := [(0x1000, line1)], stq := l })], time := 256 }
theorem wit_CachesAndStoresArrive_d2 : (d2State [store1 1]).d2Core 0 = true ∧ calendared (64 * 0x1000) = true ∧ Machine.inSlot (d2State [store1 1]).time 0 (64 * (store1 1).sector) = true
    ∧ ((d2State [store1 1]).hartAt 0).stq = [store1 1] ∧ ((d2State [store1 1]).hartAt 0).land = [] ∧ (store1 1).ready = 0 ∧ Tab.find ((d2State []).hartAt 0).l1 0x1000 = some line1 := by decide +kernel
theorem wit_CachesAndStoresArrive_plain : Plain lineState 0x1000 0 ∧ Plain (storeState [store1 1]) 0x1000 0 :=
  ⟨plain_of_nil _ _ _ rfl (by decide +kernel), plain_of_nil _ _ _ rfl (by decide +kernel)⟩

/-- A message of core 0 to the home slice of 0x40000. -/
def msg1 (b : MsgBody) : Msg := { id := 2, hart := 0, landing := 1, rid := 0, lid := 1, member := 0, home := sliceOf 0x40000, time := 0, body := b }
def atomLand : Landing := { land1 none none with req := .atomic (.s 1) }
def atomState (o : AtomOp) (sl : List (Nat × Slice)) : State :=
  { memState with harts := [(0, { memTask with land := [atomLand] })], msgs := [msg1 (.atomic o 0x40000 1 0 false none 0x1000)], slices := sl }
/-- AtomicsAtHome: every kind, with its landing entry; a comparison that holds (with 0) and one that does not. -/
theorem wit_AtomicsAtHome : ∀ o ∈ ([.amo .maxu 0xFFFFFFFFFFFFFFFF, .cas 0 1, .cas 1 2, .amof false 0x3F800000, .amof true 0x3F803F80] : List AtomOp), let s := atomState o []
    s.msgs = [msg1 (.atomic o 0x40000 1 0 false none 0x1000)] ∧ s.accMay 0 (.atomic (msg1 (.atomic o 0x40000 1 0 false none 0x1000)) 0x40000) = true ∧ s.away = [] ∧ s.hostRmw = none ∧ s.reaches (hartDie 0) 0x40000 = true
      ∧ (s.hartAt 0).land = [atomLand] ∧ atomLand.id = 1 ∧ word (numOf ((List.range 8).map fun i => s.byteAt (0x40000 + i))) = 0 := by decide +kernel
theorem wit_AtomicsAtHome_plain : Plain (atomState (.cas 0 1) []) (0x40000 / 64) 0 := plain_of_nil _ _ _ rfl (by decide +kernel)

/-- The slice expects number 5 of the word. -/
def seqSlice : Slice := { Slice.reset with seqs := [{ lid := 1, pa := 0x40000, next := 5 }] }
/-- SequencedAtomics: the number expected, one early and one past, applied and skipped. -/
theorem wit_SequencedAtomics : ∀ o ∈ ([.amofSeq false false 5 1, .amofSeq true true 5 0, .amofSeq false false 6 1, .amofSeq false false 4 1] : List AtomOp),
    let s := atomState o [(sliceOf 0x40000, seqSlice)]
    s.msgs = [msg1 (.atomic o 0x40000 1 0 false none 0x1000)] ∧ s.accMay 0 (.atomic (msg1 (.atomic o 0x40000 1 0 false none 0x1000)) 0x40000) = true ∧ s.away = [] ∧ s.hostRmw = none
      ∧ s.sliceAt (msg1 (.cancel 0)).home = seqSlice ∧ seqSlice.refused = [] ∧ seqSlice.held = [] := by decide +kernel
theorem wit_SequencedAtomics_plain (o : AtomOp) : Plain (atomState o [(sliceOf 0x40000, seqSlice)]) (0x40000 / 64) 0 := plain_of_low _ _ rfl (pages1_low _ rfl) rfl rfl rfl (by decide)

/-- A module whose host port is up, with a sector in a memory-side cache. -/
def hostState : State := { State.reset with dies := [(0, { Die.reset with hostUp := true })] }
def cachedState : State := { hostState with msc := [(0x1000, { data := 0, dirty := true })] }
theorem wit_cached_plain : Plain cachedState 0x1000 0 := by
  refine ⟨Or.inl (by decide), by decide +kernel, by decide +kernel, by decide, by decide, rfl, by decide, ?_⟩
  intro k e hf
  have hf : (if k = 0x1000 then some ({ data := 0, dirty := true } : MscSector) else none) = some e := hf
  split at hf
  · rename_i hk
    subst hk
    cases hf
    exact ⟨Or.inl (by decide), fun hd => by cases hd⟩
  · cases hf
/-- Tables that map the first 1 GiB by one leaf. -/
def walkState : State := { st { task0 with ptroot := 0x10000 } with mem := [(0x10000, 1), (0x10001, 0x10), (0x10002, 1), (0x11000, 1), (0x11001, 0x20), (0x11002, 1), (0x12000, 0x8F)] }
theorem wit_HostAndHomeEvents_walk : (match walkState.walk 0 walkState.h.ptroot (0x3FFFFFFF % 2 ^ 57) with | .leaf w n => w = 0x8F && n = 2 ^ 30 | _ => false) = true
    ∧ walkState.walkDefers (0x3FFFFFFF % 2 ^ 57) 4 false (wf 0x10000 12 40 * 4096) = false ∧ (0, walkState.h) ∈ walkState.harts := by decide +kernel
/-- HostAndHomeEvents: reachable and unreachable addresses, an access that waits behind another; a cached sector; a range of rows that is being cleared. -/
theorem wit_HostAndHomeEvents :
    (hostState.hostReach 0x40000 = true ∧ hostState.hostIn = [] ∧ hostState.hostRmw = none ∧ hostState.hostHeld (.write 0x40000 [1]) = false ∧ hostState.hostHeld (.fetchAdd 0x40000 1) = false
      ∧ hostState.hostHeld (.swap 0x40000 1) = false)
    ∧ State.reset.hostReach 0x40000 = false ∧ (hostSpan (.read 0x40000 8)).isSome = true ∧ ({ hostState with hostIn := [.read 0 8] } : State).hostIn ≠ []
    ∧ (Tab.find cachedState.msc (0x40000 / 64) = some { data := 0, dirty := true } ∧ cachedState.runs 0x40000 = false)
    ∧ (0 < State.reset.ndie ∧ 0xFF0 < 0x1000 ∧ 0xFF0 % 16 = 0 ∧ State.reset.ctlNum (ctlBase 0 + offElision + 0xFF0) 8 = 0)
    ∧ ({ State.reset with clearing := [(0, 0, 0, 0, 1)] } : State).clearing = [(0, 0, 0, 0, 1)] := by decide +kernel

/-- A barrier that expects one arrival and 16 bytes. -/
def bar1 : Barrier := { Barrier.fresh with expb := 16, expa := 1, refcnt := 1, deadline := 50 }
def barState (b : Barrier) : State := st { withS task0 [(1, 1), (2, 2)] with bars := [(0, b)] }
/-- BarrierUpdate: an update that completes the phase and one that does not; a phase that completes as partial. -/
theorem wit_BarrierUpdate : (min (bar1.arrb + 15) (2 ^ 48 - 1) < bar1.expb) ∧ (bar1.expb ≤ min (bar1.arrb + 16) (2 ^ 48 - 1) ∧ bar1.expa ≤ min (bar1.arra + 1) (2 ^ 16 - 1))
    ∧ bar1.arrb < bar1.expb ∧ bar1.arra ≤ bar1.expa := by decide

/-- Barriers: a free place within the declared number and none, an index that is free and one that is not, one reference and two. -/
theorem wit_BarrierAllocation :
    (∀ i ∈ ([.barAlloc 15 31, .barAllocAt 15 31 (.imm 1023), .barAllocAt 0 1 (.imm 0), .barFree (.imm 0), .barRef (.imm 0), .barInfo 31 (.imm 0) 6, .barInfo 1 (.reg 3) 7,
      .barFree (.imm 1), .barRef (.imm 1), .barInfo 1 (.imm 1) 0] : List Instr), (barState bar1).clear i)
    ∧ ((barState bar1).h.bar 1 = none ∧ (barState bar1).h.bar 0 = some bar1 ∧ (∀ j, j < 1 → (barState bar1).h.bar j ≠ none) ∧ (barState bar1).h.bars.length < (barState bar1).h.bmax ∧ bar1.refcnt ≤ 1
      ∧ bar1.deadline ≠ BitVec.allOnes 64 ∧ (barState bar1).time < bar1.deadline.toNat ∧ bar1.deadline.toNat ≤ ({ barState bar1 with time := 50 } : State).time
      ∧ (barState bar1).h.bar 1023 = none ∧ (barState bar1).h.commit = false)
    ∧ ((barState { bar1 with refcnt := 2 }).h.bar 0 = some { bar1 with refcnt := 2 } ∧ 1 < ({ bar1 with refcnt := 2 } : Barrier).refcnt)
    ∧ (let s := st { task0 with bmax := 0 };
      s.clear (.barAlloc 1 1) ∧ s.h.bmax ≤ s.h.bars.length) := by decide +kernel

/-- Barriers: incoming bytes and none, a phase that is over and one that is not, nothing in flight, a deadline that has come and one that has not. -/
theorem wit_BarriersInUse :
    (∀ i ∈ ([.barInit 15 29 (.imm 0), .barExpect 15 29 (.imm 0), .barArrive 31 (.imm 0), .barWait 1 (.imm 0), .barTest 15 2 (.imm 0)] : List Instr), (barState bar1).clear i)
    ∧ ((barState bar1).h.bar 0 = some bar1 ∧ 0 < bar1.refcnt ∧ bar1.infl = 0 ∧ Quiet (barState bar1).h ∧ NoAtomics (barState bar1) (barState bar1).cur ∧ (barState bar1).relHeld 0 true = false)
    ∧ ({ bar1 with infl := 1 } : Barrier).infl ≠ 0
    ∧ (bar1.phase ≠ ((barState bar1).rdS 1).getLsbD 0 ∧ bar1.phase = ((barState bar1).rdS 2).getLsbD 0 ∧ (barState bar1).h.l1Bad = [] ∧ (barState bar1).h.l1Corr = [])
    ∧ (((barState bar1).hartAt 0).bars = [(0, bar1)] ∧ bar1.deadline ≠ BitVec.allOnes 64 ∧ (barState bar1).time < bar1.deadline.toNat
      ∧ bar1.deadline.toNat ≤ ({ barState bar1 with time := 50 } : State).time) := by decide +kernel
/-- A group of members in use by member 0 of a launch of two; s1 is a later time. -/
def gbarState (g : BitVec 4096) : State := { memState with launches := [(1, { launch1 with groups := [g], words := [0, 0, 0, 0, 0, 1, 1, 0, 0, 1] })] }
def gbarLaunch (g : BitVec 4096) : Launch := { launch1 with groups := [g], words := [0, 0, 0, 0, 0, 1, 1, 0, 0, 1] }
def gbarLand : State := { gbarState 1 with harts := [(0, { memTask with land := [land1 none none] })] }
/-- A load that a run of a bank engine defers holds a release. -/
def runEngine : State := { gbarLand with engines := [(engineOf 0x40000, { Engine.reset with st := .running })] }

/-- FencesAndWaits: nothing in flight, a store and a dirty line in flight, results outstanding. -/
theorem wit_FencesAndWaits :
    (∀ i ∈ ([.fence .core, .fence .system, .xfence, .nmfence, .lwait, .monArm 1, .monWait 15 31, .gbar 15 31 0] : List Instr), memState.clear i)
    ∧ (memState.relHeld 0 true = false ∧ Quiet memState.h ∧ NoAtomics memState memState.cur ∧ memState.h.l1Bad = [] ∧ memState.h.l1Corr = [])
    ∧ (lineState.h.mnts = [] ∧ lineState.accsHeld 0 (fun _ => true) = false ∧ lineState.linesHeld 0 = false ∧ lineState.clear .xfence ∧ lineState.clear (.fence .die) ∧ lineState.relHeld 0 true = false ∧ Scope.die ≠ .core ∧ lineState.h.land = [] ∧ lineState.h.stq = [] ∧ lineState.h.l1 = [(0x1000, line1)] ∧ lineState.h.l1Bad = []
      ∧ NoAtomics lineState lineState.cur ∧ lineState.reaches lineState.die 0x40000 = true ∧ (lineState.sliceAt (sliceOf 0x40000)).seen = [] ∧ Tab.above none lineState.h.l1 = true)
    ∧ (memState.h.land = [] ∧ (landState (land1 none none)).h.land ≠ [] ∧ (landState (land1 none none)).clear .lwait) := by decide +kernel
theorem wit_FencesAndWaits_held : runEngine.relHeld 0 true = true ∧ runEngine.clear .xfence ∧ runEngine.clear (.fence .module) ∧ wideScope .module = true ∧ runEngine.clear (.barArrive 2 (.imm 0))
    ∧ runEngine.clear (.gbar 1 2 0) ∧ runEngine.gbarGroup 0 ≠ none ∧ runEngine.h.waiting = none ∧ runEngine.h.gbarPend = false := by decide +kernel

/-- A core that watches a sector, written and not. -/
def monState (hit : Bool) : State := st { withS task0 [(1, 5)] with monitor := some { sector := 0x1000, hit := hit } }
/-- FencesAndWaits: MON.ARM of a page that may be watched and of two that may not; MON.WAIT with no monitor, a written one, a deadline that has come and not. -/
theorem wit_FencesAndWaits_monitor :
    (okIs (memState.xlate (memState.rdS 1)) page1 = true ∧ page1.cls = 0 ∧ page1.r = true ∧ memState.deferred page1.pa 1 = false ∧ memState.h.l1 = [] ∧ memState.h.commit = false)
    ∧ (({ pa := 0, leaf := 0x3F } : Page).cls ≠ 0 ∧ ({ pa := 0, leaf := 0x5 } : Page).cls = 0 ∧ ({ pa := 0, leaf := 0x5 } : Page).r = false)
    ∧ (memState.h.monitor = none)
    ∧ ((monState true).clear (.monWait 1 1) ∧ (monState true).h.monitor = some { sector := 0x1000, hit := true } ∧ (monState true).h.wExp = false)
    ∧ ((monState false).h.waiting = none ∧ (monState false).h.wExp = false ∧ (monState false).h.firstOnly = false ∧ ((monState false).rdS 0).toNat < ({ monState false with time := 1 } : State).time
      ∧ (monState false).time ≤ ((monState false).rdS 1).toNat ∧ ({ monState false with time := 5 } : State).time ≤ ((monState false).rdS 1).toNat) := by decide +kernel

/-- FencesAndWaits: GBAR of a group of one, which is complete, and of two, which is not; a group that is not the task's; the deadlines. -/
theorem wit_FencesAndWaits_group :
    (let s := gbarState 1;
      s.clear (.gbar 1 1 0) ∧ (s.gbarGroup 0).isSome = true ∧ s.h.waiting = none ∧ s.h.gbarPend = false ∧ s.relHeld 0 true = false ∧ s.h.lid = some 1 ∧ s.launches = [(1, gbarLaunch 1)] ∧ s.h.wExp = false
      ∧ s.h.firstOnly = false ∧ let l := gbarLaunch 1;
        ∀ m, m < l.nlcore → l.inGroup 0 m = true → l.gen 0 0 < (l.arriveAt 0 0).gen 0 m)
    ∧ (let s := gbarState 3;
      (s.gbarGroup 0).isSome = true ∧ s.time < (s.rdS 1).toNat ∧ (s.rdS 0).toNat ≤ s.time ∧ let l := gbarLaunch 3;
        1 < l.nlcore ∧ l.inGroup 0 1 = true ∧ (l.arriveAt 0 0).gen 0 1 ≤ l.gen 0 0)
    ∧ (let s := gbarState 2;
      s.clear (.gbar 1 1 0) ∧ s.gbarGroup 0 = none ∧ s.h.commit = false) := by decide +kernel
def waits (k : Nat) : Waiting := { kind := k, kinds := [k], regs := Regs.reset, hs := [], hp := 1, vrb := 0, mrb := 0, prb := 0, time := 0, vstat := 0, dstat := 0, frzcnt := 0, lbusy := 0 }
theorem wit_FencesAndWaits_deadlines : ∀ k ∈ [2, 3], let s := st { task0 with waiting := some (waits k), wDl := 0 }
    (s.hartAt 0).waiting = some (waits k) ∧ (s.hartAt 0).wExp = false ∧ (s.hartAt 0).wDl.toNat ≤ s.time ∧ (waits k).kinds.contains k = true ∧ (s.hartAt 0).monitor = none := by decide +kernel

/-! ### Leaving a task, layout records and copies -/

/-- EndAndBankmode: nothing outstanding; a copy, a landing entry, a reply; a bank that is busy and one that is not. -/
def cpyCmd (op : CopyOp) (nb : Bool) (parts : List Part) (started : Bool) (src dst : Rec) : Cmd :=
  { id := 1, op := op, nb := nb, cmd := 0x10000, aux := 0, org := 0, src := src, dst := dst, pages := [], asid := 0, wrote := [], seen := [], lid := some 1, member := 0, lcore := 0, core := 0,
    started := started, parts := parts, errs := [], finished := false, confirmed := 0, closed := false }
/-- A record of bytes in L space at BASE: four in the tensor, BOX in the window. -/
def byteRec (base box : Nat) : Rec := BitVec.ofNat 768 (base + 0x10 * 2 ^ 64 + 2 ^ 72 + 2 ^ 77 + 4 * 2 ^ 128 + 2 ^ 160 + box * 2 ^ 208)
def copyState (c : Cmd) : State := { memState with harts := [(0, { memTask with copyq := [c], bars := [(0, { bar1 with refcnt := 2 })] })] }
theorem wit_EndAndBankmode :
    (memState.clear .endTask ∧ memState.copiesOf memState.h.lid memState.h.member = false ∧ memState.h.outst = [] ∧ memState.h.land = [] ∧ memState.relHeld 0 true = false
      ∧ (memState.release 0 true).h.owed = none ∧ Quiet memState.h ∧ NoAtomics memState memState.cur ∧ memState.h.lid = some 1 ∧ (memState.launch? 1).isSome = true)
    ∧ (let s := copyState (cpyCmd .cp false [] true (byteRec 0x100 2) (byteRec 0 2));
      s.clear .endTask ∧ s.copiesOf s.h.lid s.h.member = true ∧ s.clear (.bankmode 0 .fifo) ∧ 0 < s.h.scr ∧ s.h.bankBusy 0 = true)
    ∧ (let s := landState (land1 none none);
      s.clear .endTask ∧ s.h.land ≠ [])
    ∧ (memState.clear (.bankmode 1 .cache) ∧ 1 < memState.h.scr ∧ memState.h.bankBusy 1 = false ∧ memState.setfeInto 0 (some 1) = false ∧ memState.h.l1 = [])
    ∧ (memState.clear (.bankmode 2 .scratch) ∧ memState.h.scr ≤ 2 ∧ memState.h.commit = false) := by decide +kernel

/-- A handler with a task of launch 1, and the first word of a saved image of member 1 in memory. -/
def saveState (h : Hart) : State := { memState with harts := [(0, withS h [(1, 0x300001), (2, 0x300000), (3, 0x200000)])], mem := [(0x200000, 1), (0x200004, 1)] }
theorem saveState_plain (h : Hart) (sec : Nat) (hs : 64 * sec < 2 ^ 40) : Plain (saveState h) sec 0 :=
  plain_of_low _ _ rfl (fun a ha => by
    show (if a = 0x200000 then (1 : Byte) else if a = 0x200004 then 1 else 0) = 0
    rw [if_neg (by omega), if_neg (by omega)]) rfl rfl rfl hs
/-- ContextSaveAndLoad: a save area with KEEP and one without; a request that has not been cancelled, a cancel on its way; an image of a member of the launch; a damaged one. -/
theorem wit_ContextSaveAndLoad :
    (let s := saveState hand0;
      s.h.mode = .handler ∧ s.rdS 1 &&& 0xFFF0000000000FFE = 0 ∧ s.areaBad 0x300000 = none ∧ s.clear (.ctxSv 1) ∧ s.clear (.ctxSv 2) ∧ Quiet s.h ∧ NoAtomics s s.cur ∧ s.h.matq = [] ∧ s.h.wLand = none
        ∧ s.taskEnding = false ∧ s.saveReady 0x300000 true = true ∧ s.saveReady 0x300000 false = true ∧ s.h.spBad = [] ∧ s.h.owed = none)
    ∧ (let s : State := { saveState hand0 with launches := [(1, { launch1 with phase := .ending })] };
      s.clear (.ctxSv 1) ∧ s.taskEnding = true)
    ∧ (let s := saveState { hand0 with land := [{ land1 none none with req := .dep none }], wLand := some 1 };
      s.clear (.ctxSv 1) ∧ s.taskEnding = false ∧ s.needsCancel = true ∧ let t : State := { s with msgs := [msg1 (.cancel 1)] };
        t.clear (.ctxSv 1) ∧ t.needsCancel = false ∧ t.saveReady 0x300000 true = false)
    ∧ (let s := saveState { hand0 with lid := none };
      s.clear (.ctxLd 3) ∧ s.rdS 3 &&& 0xFFF0000000000FFE = 0 ∧ s.areaBad 0x200000 = none ∧ s.anyRuns = false ∧ s.areaDamaged (s.loadSpans 0x200000) = none ∧ launch1.phase = .running ∧ launch1.scratch ≤ 16 ∧ s.imageOwner 0x200000 = some (1, 1) ∧ (s.launch? 1).isSome = true
        ∧ (∀ n, n < 64 → s.dwordAt (0x254800 + 320 * n) = 0))
    ∧ (let s : State := { saveState { hand0 with lid := none } with bad := [0x8000] };
      s.clear (.ctxLd 3) ∧ s.h.commit = false ∧ s.areaDamaged (s.loadSpans 0x200000) = some 0x8000) := by decide +kernel
/-- The image lies in the channel of a running bank engine. -/
theorem wit_ContextSaveAndLoad_deferred : let s : State := { saveState { hand0 with lid := none } with engines := [(engineOf 0x200000, { Engine.reset with st := .running })] }
    s.clear (.ctxLd 3) ∧ s.areaDeferred (s.loadSpans 0x200000) = true := by decide +kernel
theorem wit_ContextSaveAndLoad_plain (h : Hart) : ∀ sec, 0x200000 / 64 ≤ sec → sec < 0x300000 / 64 + 0xC000 → Plain (saveState h) sec 0 := fun sec _ h2 => saveState_plain h sec (by omega)

/-- CacheMaintenance: one byte of a page; a sector of it. -/
theorem wit_CacheMaintenance : 0 < (memState.rdS 5).toNat ∧ (memState.rdS 1).toNat % 4096 + (memState.rdS 5).toNat ≤ 4096 ∧ okIs (memState.xlate (memState.rdS 1)) page1 = true ∧ page1.cls = 0 ∧ page1.cpol ≠ 2
    ∧ page1.key = 0 ∧ page1.r = true ∧ page1.w = true ∧ NoAtomics memState memState.cur ∧ Quiet memState.h ∧ memState.clear (.cln 1 5) ∧ memState.clear (.clninv 1 5) ∧ memState.clear (.inv 1 5) := by decide +kernel
/-- A clean of the sector on its way, with nothing before it; a page that maintenance refuses. -/
def mntState : State := { memState with harts := [(0, { memTask with mnts := [{ id := 1, op := .cln, sector := 0x1000 }] })], msc := [(0x1000, { data := 0, dirty := true })] }
theorem wit_CacheMaintenance_arrives : (mntState.hartAt 0).mnts = [{ id := 1, op := .cln, sector := 0x1000 }] ∧ (mntState.hartAt 0).stq = [] ∧ mntState.accMay 0 (.maint { id := 1, op := .cln, sector := 0x1000 }) = true
    ∧ Tab.find mntState.msc 0x1000 = some { data := 0, dirty := true } ∧ ({ pa := 0, leaf := 0x3F } : Page).cls = 3 ∧ ({ pa := 0, leaf := 0x3 } : Page).w = false ∧ ({ pa := 0, leaf := 0x3 } : Page).cls = 0 := by
  decide +kernel
theorem wit_CacheMaintenance_inside : ∀ sec, page1.pa / 64 ≤ sec → sec ≤ (page1.pa + 1 - 1) / 64 → Plain memState sec 0 ∧ memState.runs (64 * sec) = false := by
  intro sec h1 h2
  have h1 : 4096 ≤ sec := h1
  have h2 : sec ≤ 4096 := h2
  have : sec = 4096 := by omega
  subst this
  exact ⟨plain_of_low _ _ rfl (pages1_low _ rfl) rfl rfl rfl (by decide), by decide +kernel⟩

/-- A task with two granted records, of which the first two are installed. -/
def recState : State :=
  { memState with
    harts := [(0, { withS memTask [(2, 0x10000), (3, 1), (4, 2), (5, 3), (6, 0x40000), (10, 0x10000), (11, 0)] with ltgrant := 0x30000, bars := [(0, bar1)], r := { memTask.r with s := (withS memTask [(2, 0x10000), (3, 1), (4, 2), (5, 3), (6, 0x40000), (10, 0x10000), (11, 0)]).r.s, v := [(1, (byteRec 0x100 2).setWidth 2048)] } })],
    launches := [(1, { gbarLaunch 1 with lrecs := [(0, byteRec 0x100 2), (1, byteRec 0 2)] })] }
/-- LayoutTable: a valid record and a bad one, an index at the end of the grant and one beyond it, an entry installed and one not. -/
theorem wit_LayoutTable :
    (recState.clear (.lrecPut 1 4) ∧ recCode (recOf (recState.rdV 1)) = 0 ∧ (recState.rdS 4).toNat < 65536 ∧ recState.h.granted 2 = true ∧ recState.h.lid = some 1 ∧ (recState.launch? 1).isSome = true)
    ∧ (recState.clear (.lrecPut 2 4) ∧ recCode (recOf (recState.rdV 2)) ≠ 0 ∧ recState.h.commit = false) ∧ (recState.clear (.lrecPut 1 5) ∧ recState.h.granted 3 = false)
    ∧ (recState.clear (.lrecGet 63 3) ∧ (Tab.find (launch1.lrecs) 2).isNone = true ∧ okIs (recState.record 1) (byteRec 0 2) = true ∧ errIs (recState.record 2) 9 13 = true) := by decide +kernel

/-- CopyCommandsIssue: every command with records, barrier and a probe that passes. -/
theorem wit_CopyCommandsIssue :
    (recState.h.copyBusy < 64 ∧ (recState.rdS 2).toNat / 2 ^ 42 = 0 ∧ (recState.rdS 2).toNat / 2 ^ 32 = 0 ∧ okIs (recState.record 0) (byteRec 0x100 2) = true ∧ okIs (recState.record 1) (byteRec 0 2) = true
      ∧ recState.h.bar 0 = some bar1)
    ∧ (∀ i ∈ ([.cp false 2 2 11, .cp true 2 2 11, .cpX false false 2 2 11, .cpPk false .bp 2 2 11, .cpUn true 2 2 11, .cpMc 2 2 11, .cpStamp 6 11, .netPut false .raw 2 11 11, .netGet true 2 2 11] : List Instr),
      recState.clear i) ∧ recState.groupOk 0 = true ∧ (recState.rdS 11).toNat / 2 ^ 26 = 0 := by decide +kernel
/-- A page of NMOK-free NORMAL memory takes a stamp; a byte copy's probe passes. -/
theorem wit_CopyCommandsIssue_probe :
    (recState.probeCmd (recState.command .cp false 0x10000 0 0 (byteRec 0x100 2) (byteRec 0 2)) true).toOption = some []
    ∧ (recState.probeCmd (recState.command .stamp true 0x40000 0 0 0 0) true).toOption = some [{ vpn := 0x40, ppn := 0x40, cpol := 1, key := 0, size := 4096 }] := by decide +kernel
/-- FullCopyQueueHolds: sixty-four commands. -/
theorem wit_FullCopyQueueHolds : let s := { memState with harts := [(0, { memTask with copyq := List.replicate 64 (cpyCmd .cp false [] true (byteRec 0x100 2) (byteRec 0 2)) })] }
    64 ≤ s.h.copyBusy ∧ s.clear (.cp false 2 2 11) ∧ s.clear (.cpStamp 6 11) ∧ s.clear (.netGet true 2 2 11) := by decide +kernel

/-- CopiesMove: a command not started; a byte from 0x100 to 0 on the core, and to a member; the last arrival; a stamp. -/
def part0 : Part := Part.fresh none
theorem wit_CopiesMove :
    (let c := cpyCmd .cp true [] false (byteRec 0x100 2) (byteRec 0 2);
      ((copyState c).hartAt 0).copyq = [c] ∧ c.wrote = [] ∧ c.seen = [] ∧ c.started = false ∧ c.op = .cp ∧ (copyState c).acqBefore 0 c.id = false
        ∧ let t : State := { copyState c with msgs := [{ msg1 (.atomic (.cas 0 1) 0x40000 1 0 false (some .die) 0x1000) with id := 0 }] }; t.acqBefore 0 c.id = true)
    ∧ (let c := cpyCmd .cp true [part0] true (byteRec 0x100 2) (byteRec 0 2);
      let s := copyState c;
      (s.hartAt 0).copyq = [c] ∧ s.cutLink c = none ∧ (s.hartAt 0).cst = [] ∧ recIlv c.dst = 0 ∧ c.parts = [part0] ∧ part0.buf = [] ∧ part0.arrived = false ∧ part0.next = 0 ∧ part0.moved = [] ∧ 2 ≤ c.total ∧ recFmt c.src = 0x10 ∧ recFmt c.dst = 0x10 ∧ recSpace c.src = 1
        ∧ recSpace c.dst = 1 ∧ recIlv c.src = 0 ∧ insideT c.src (coordsAt c.src c.so 0) = true ∧ insideT c.dst (coordsAt c.dst c.do_ 0) = true
        ∧ (recBase c.src : Int) + elemBit c.src (coordsAt c.src c.so 0) / 8 = 0x100 ∧ (recBase c.dst : Int) + elemBit c.dst (coordsAt c.dst c.do_ 0) / 8 = 0
        ∧ s.storage c.lid c.member c.core = .live 0 ∧ InScratch (s.hartAt 0) 0x100 1 ∧ InScratch (s.hartAt 0) 0 1 ∧ part0.dest = none)
    ∧ (let p := Part.fresh (some 0);
      let c := cpyCmd .mc false [p] true (byteRec 0x100 2) (byteRec 0 2);
      let s := copyState c;
      c.op = .mc ∧ p.dest = some 0 ∧ p.begun = false ∧ s.storage c.lid 0 c.core = .live 0 ∧ wf c.cmd 32 10 = 0 ∧ (s.hartAt 0).bar 0 = some { bar1 with refcnt := 2 })
    ∧ (let p : Part := { part0 with held := true, next := 2 };
      let c := cpyCmd .cp false [p] true (byteRec 0x100 2) (byteRec 0 2);
      let s := copyState c;
      c.ready = true ∧ c.errs = [] ∧ p.held = true ∧ p.lost = 0 ∧ (s.hartAt 0).bar 0 = some { bar1 with refcnt := 2 } ∧ 1 < ({ bar1 with refcnt := 2 } : Barrier).refcnt)
    ∧ (let g : Probed := { vpn := 0x40, ppn := 0x40, cpol := 1, key := 0, size := 4096 };
      let c : Cmd := { cpyCmd .stamp true [Part.fresh none] true 0 0 with cmd := 0x40008, aux := 5, pages := [g] };
      let s := copyState c;
      c.started = true ∧ c.finished = false ∧ s.stampWaits 0 c = false ∧ s.d2Core 0 = false ∧ s.reaches (hartDie 0) 0x40008 = true ∧ s.unitHeld 0 c (Part.fresh none) 0 = false ∧ g.vpn = c.cmd.toNat / 4096 ∧ c.cmd.toNat % 8 = 0) := by decide +kernel

/-! ### The tuple space and remote calls -/

/-- A PINNED carafe of 2 MiB at die 0, slice 0, its handle page at 0x400000, and a task of a launch that may use it; v1 holds a tuple of one word with tag 7. -/
def tsPages : Memory :=
  [(0x20000000000, 0x01), (0x20000000001, 0x10), (0x20000000005, 0x02), (0x20000001000, 0x01), (0x20000001001, 0x20), (0x20000001005, 0x02), (0x20000002000, 0x01), (0x20000002001, 0x30),
   (0x20000002005, 0x02), (0x20000003010, 0x9F), (0x20000003012, 0x40)]
def tsMem : Memory := (0x50002, 0x11) :: (0x5000A, 0x40) :: (0x50010, 1) :: tsPages ++ [(0x80000000032, 5)]
def tsTuple : Sector := 0x1000007
def tsTask : Hart := { withS memTask [(1, 0x400000), (2, 0), (3, 9)] with crftab := 0x50000, r := { (withS memTask [(1, 0x400000), (2, 0), (3, 9)]).r with v := [(1, 0x1000007), (2, 0)] } }
def tsState (h : Hart) : State :=
  { memState with
    described := true, time := 100, mem := tsMem, harts := [(0, h)], launches := [(1, { gbarLaunch 1 with carafes := [0] })] }
def tsCarafe : Carafe := { w0 := 0x110000, w1 := 0x400000, w2 := 1, w3 := 0 }
/-- TupleRequestsLeave: every request with a handle that resolves and a tuple without a fault; one that waits and one that is answered; a tuple with a fault. -/
theorem wit_TupleRequestsLeave :
    (∀ i ∈ ([.tsDep 15 1 1, .tsRdp 15 1 1 2 4095, .tsTakep 0 1 1 2 0, .tsCnt 1 31 1 2 1 0, .tsRd 15 1 1 2 3, .tsTake 0 1 1 2 3, .tsRdp 1 2 1 2 0] : List Instr), (tsState tsTask).clear i)
    ∧ (tsState tsTask).h.land.length < 64 ∧ okIs ((tsState tsTask).resolve ((tsState tsTask).rdS 1)) tsCarafe = true
    ∧ tupCode tsCarafe ((tsState tsTask).tupleOf 1) 0 true = 0 ∧ tupCode tsCarafe ((tsState tsTask).tupleOf 1) 0 false = 0 ∧ Quiet (tsState tsTask).h ∧ NoAtomics (tsState tsTask) 0 ∧ (tsState tsTask).h.wLand = none
    ∧ tupCode tsCarafe ((tsState tsTask).tupleOf 2) 0 false = 1 ∧ (tsState tsTask).h.commit = false
    ∧ (let s := tsState { tsTask with land := [{ land1 none (some []) with req := .tuple (.v 1) none, regs := [] }], wLand := some 1, waiting := some (waits 5) };
      s.h.wLand = some 1 ∧ s.h.answered 1 = true ∧ (s.h.waiting.isSome = true ∨ s.h.entry 1 = none) ∧ s.clear (.tsRd 15 1 1 2 3) ∧ s.clear (.tsTake 15 1 1 2 3)) := by decide +kernel

/-- A request of core 0, and of core 1, on its way or waiting at slice 0. -/
def tsMsg (id hart : Nat) (op : TsOp) (dl : Word) : Msg := { id := id, hart := hart, landing := id, rid := hart, lid := 1, member := hart, home := 0, time := 2, body := .ts op 0 tsTuple 0 dl }
def tsLand (id : Nat) (r : LandReq) : Landing := { land1 none none with id := id, req := r, regs := [] }
def served (op : TsOp) (r : LandReq) (sl : Slice) : State :=
  { tsState { tsTask with land := [tsLand 1 r] } with msgs := [tsMsg 1 0 op 0xFFFFFFFFFFFFFFFF], slices := [(0, sl)] }
def stored (place : Nat) : Tuple := { cid := 0, words := tsTuple, stamp := 0, place := place }
/-- TuplesAreServed: what every clause asks, for each kind of request, with an empty slice, one tuple stored, and a request that waits. -/
theorem wit_TuplesAreServed : ∀ x ∈ ([(.dep, .dep none, Slice.reset), (.take, .tuple (.v 1) none, { Slice.reset with tuples := [stored 0] }), (.rd, .tuple (.v 1) (some (.p 1)), Slice.reset),
      (.takep, .tuple (.v 1) none, Slice.reset), (.rdp, .tuple (.v 1) none, { Slice.reset with tuples := [stored 0] }), (.cnt, .cnt (.s 1) none, { Slice.reset with tuples := [stored 0] })] : List (TsOp × LandReq × Slice)),
    let s := served x.1 x.2.1 x.2.2
    (∀ y ∈ x.2.2.parked, s.parkDue y = false) ∧ (tsMsg 1 0 x.1 0xFFFFFFFFFFFFFFFF).ts? = some { op := x.1, cid := 0, t := tsTuple, mode := 0, dl := 0xFFFFFFFFFFFFFFFF } ∧ s.sliceAt 0 = x.2.2 ∧ x.2.2.served.1 ≠ s.sliceTime
      ∧ (s.route (hartDie 0) (0 / 16)).isSome = true ∧ s.carafe (s.partTable (hartDie 0)) 0 = tsCarafe ∧ tsCarafe.state = 1 ∧ s.carafeOk (hartDie 0) tsCarafe = true ∧ tsCarafe.cid = 0 ∧ s.dooms = [] ∧ (s.partTable (hartDie 0)).toNat % 32 = 0
      ∧ (s.hartAt 0).land = [tsLand 1 x.2.1] ∧ tupMatches tsTuple tsTuple 0 = true := by decide +kernel
/-- Its descriptor lies in a plain sector. -/
theorem wit_TuplesAreServed_plain (sl : Slice) : Plain (served .dep (.dep none) sl) (0x50000 / 64) 0 :=
  plain_of_nil _ _ _ rfl ⟨by decide, by with_unfolding_all rfl, by with_unfolding_all rfl, List.not_mem_nil, List.not_mem_nil, rfl⟩
theorem wit_TuplesAreServed_waiter : let s := { served .dep (.dep none) { Slice.reset with parked := [tsMsg 2 1 .take 0xFFFFFFFFFFFFFFFF] } with
      harts := [(0, { tsTask with land := [tsLand 1 (.dep none)] }), (1, { tsTask with land := [tsLand 2 (.tuple (.v 1) none)] })] }
    s.parkDue (tsMsg 2 1 .take 0xFFFFFFFFFFFFFFFF) = false ∧ (tsMsg 2 1 .take 0xFFFFFFFFFFFFFFFF).hart ≠ 0 ∧ (s.hartAt 1).land = [tsLand 2 (.tuple (.v 1) none)] ∧ (s.hartAt 0).land = [tsLand 1 (.dep none)] := by decide +kernel
/-- A carafe of n places, with one free, and with every place taken. -/
theorem wit_TuplesAreServed_places (n : Nat) : Slice.reset.freePlace 0 (n + 1) = some 0 ∧ ({ Slice.reset with tuples := (List.range n).map stored } : Slice).freePlace 0 n = none := by
  constructor
  · simp [Slice.freePlace, List.range_succ_eq_map, Slice.reset]
  · simp only [Slice.freePlace, List.find?_eq_none]
    intro i hi
    simp [stored]
    exact ⟨i, List.mem_range.mp hi, by simp⟩

/-- TupleWaitsEnd: a deadline that has come and one that has not; a cancel; a carafe that is being destroyed. -/
def parked (dl : Word) : State := { served .take (.tuple (.v 1) none) { Slice.reset with parked := [tsMsg 1 0 .take dl] } with msgs := [] }
theorem wit_TupleWaitsEnd :
    ((parked 100).sliceAt 0 = { Slice.reset with parked := [tsMsg 1 0 .take 100] } ∧ ((parked 100).hartAt 0).land = [tsLand 1 (.tuple (.v 1) none)] ∧ (100 : Word).toNat ≤ (parked 100).time / 2 * 2
      ∧ (parked 101).time / 2 * 2 < (101 : Word).toNat)
    ∧ (let c : Msg := { tsMsg 3 0 .take 0 with body := .cancel 1 };
      let s := { parked 101 with msgs := [c], harts := [(0, { tsTask with land := [tsLand 1 (.tuple (.v 1) none)], wLand := some 1 })] };
      s.msgs = [c] ∧ c.home = 0 ∧ Slice.reset.served.1 ≠ s.sliceTime ∧ (s.hartAt 0).wLand = some 1 ∧ s.parkDue (tsMsg 1 0 .take 101) = false)
    ∧ (let s : State := { parked 101 with mem := (0x50002, 0x21) :: tsMem.tail };
      (s.carafe (s.partTable (0 / 16)) 0).state = 2 ∧ Slice.reset.gone = []) := by decide +kernel

/-- A task whose s1 names a page, s2 an entry point. -/
def callTask : State := { memState with harts := [(0, withS memTask [(1, 0x40000), (2, 0x1040)])] }
/-- A call of core 0 to executor 0, and a context of the executor that runs it. -/
def call1 (post : Bool) : Call :=
  { caller := 0, hart := 0, lid := 1, member := 0, seq := 7, time := 10, entry := 0x2000, target := 0x40000, payload := [1, 2, 3, 4, 5, 6, 7, 8], task := 5, post := post, trap := false, deadline := 500, rel := false,
    budget := 1000, ptroot := 0, asid := 0, die := 0 }
def callHart (cyc : Nat) : Hart := { call0 with call := some (call1 false), cyc := cyc }
def ctxState (cyc : Nat) : State := { State.reset with harts := [(512, callHart cyc)], cur := 512, launches := [(1, launch1)] }
/-- CallsLeaveAndReturn: payloads of one register and of eight, destinations at the ends of their range; a payload that runs past s31; a context that returns. -/
theorem wit_CallsLeaveAndReturn :
    (callTask.clear (.rcall true true 8 28 1 2 24) ∧ callTask.clear (.rcall false false 1 1 1 2 3) ∧ callTask.clear (.rpost true 8 0 1 2 24) ∧ (callTask.rdS 2).toNat % 64 = 0 ∧ canonical (callTask.rdS 2) = true
      ∧ okIs (callTask.target (callTask.rdS 1)) page1 = true ∧ callTask.h.outst.length < 16 ∧ callTask.h.land.length < 64 ∧ Quiet callTask.h ∧ NoAtomics callTask 0)
    ∧ (callTask.clear (.rcall false false 8 1 1 2 25) ∧ callTask.h.commit = false ∧ 32 < 25 + 8)
    ∧ (let s := ctxState 20;
      s.clear (.rret 1 2 3) ∧ s.h.mode = .remote ∧ s.h.call = some (call1 false) ∧ (call1 false).post = false ∧ Quiet s.h ∧ s.msgs = [] ∧ (s.execAt 0).records.length < 1024) := by decide +kernel

/-- Messages between core 0 and executor 0. -/
def callMsg (b : MsgBody) : Msg := { id := 4, hart := 0, landing := 0, rid := 512, lid := 1, member := 0, home := 0, time := 0, body := b }
def out1 (post : Bool) : Outstanding := { caller := 0, target := 0x40000, seq := 7, time := 10, deadline := 500, exec := 0, post := post, trap := false, landing := 1 }
def waiter (time : Nat) (msgs : List Msg) (post : Bool) : State :=
  { State.reset with time := time, msgs := msgs, harts := [(0, { task0 with land := [{ land1 none none with req := .call 1 false, regs := [.s 1, .s 2, .s 3, .s 4] }], outst := [out1 post] })] }
def rec1 : CallRecord := { call := call1 false, reply := some [0, 1, 2, 3] }
/-- CallsRun: a call that arrives first and again; a free context; a budget that has run out; a reply, a deadline that has come and not; a notice, a record and a post that end. -/
theorem wit_CallsRun :
    (let s : State := { State.reset with msgs := [callMsg (.call (call1 false))], execs := [(0, { Executor.reset with records := [rec1] })] };
      (s.route 0 (0 / 16)).isSome = true ∧ s.time < (call1 false).deadline ∧ (s.execAt 0).queue = [] ∧ (s.execAt 0).records = [rec1] ∧ (call1 false).same rec1.call = true ∧ (∀ j ∈ execHarts 0, (s.hartAt j).call = none)
        ∧ (State.reset.execAt 0).records = [])
    ∧ (let s : State := { State.reset with execs := [(0, { Executor.reset with queue := [call1 false] })] };
      (s.execAt 0).queue = [call1 false] ∧ (s.hartAt 512).mode = .idle ∧ s.time < (call1 false).deadline ∧ (call1 false).payload.length ≤ 8)
    ∧ (let s := ctxState 1000;
      (s.hartAt 512).mode = .remote ∧ (s.hartAt 512).call = some (call1 false) ∧ (call1 false).budget ≤ (s.hartAt 512).cyc ∧ Quiet (s.hartAt 512) ∧ (s.hartAt 512).waiting = none ∧ (s.hartAt 512).going = none
        ∧ s.msgs = [])
    ∧ (let s := waiter 499 [callMsg (.reply (call1 false) [0, 1, 2, 3] false)] false;
      let h := s.hartAt 0;
      h.outst = [out1 false] ∧ h.l1 = [] ∧ h.pend.length = 0 ∧ (s.harts.findSome? fun x : Nat × Hart => (callOf (call1 false) x.2.outst).map fun o => (x.1, o)) = some (0, out1 false)
        ∧ (s.route ((512 - 512) / 16) (hartDie 0)).isSome = true ∧ s.time < (out1 false).deadline ∧ (out1 false).deadline ≤ (waiter 500 [] false).time)
    ∧ (let s : State := { State.reset with msgs := [callMsg (.notice 0 (call1 false))], execs := [(0, { Executor.reset with records := [rec1] })], time := 500 };
      (s.execAt 0).records = [rec1] ∧ (s.execAt 0).ended = [] ∧ rec1.call.deadline ≤ s.time)
    ∧ (((waiter 500 [] true).hartAt 0).outst = [out1 true] ∧ (out1 true).post = true) := by decide +kernel

/-! ### Near memory -/

def nmMem : Memory := [(0x40000, 1), (0x40019, 0x20), (0x4001A, 4), (0x40021, 0x10), (0x40087, 0x70)] ++ pages1 ++ [(0x20000004210, 0x8F), (0x20000004211, 0x22), (0x20000004212, 0x04)]
/-- A program of one HALT and a window of one page, at 0x40000; the window's page has NMOK. -/
def nmState (e : Engine) : State :=
  { memState with
    harts := [(0, withS memTask [(1, 0x40000), (4, 0x42000)])], engines := [(engineOf 0x42000, e)], mem := nmMem }
/-- NearMemoryInstructions: an engine that is loaded, empty, armed, running in the middle of a word, halted; one that another launch owns; an image that passes the checks. -/
theorem wit_NearMemoryInstructions :
    (okIs ((nmState Engine.reset).nmTarget ((nmState Engine.reset).rdS 4)) (engineOf 0x42000) = true ∧ (nmState Engine.reset).h.land.length < 64 ∧ (nmState Engine.reset).h.land = [])
    ∧ (∀ i ∈ ([.nmGo 15 4 1, .nmStop 4, .nmStat 31 4, .nmStat 0 4, .nmLoad 0 4 1] : List Instr), (nmState Engine.reset).clear i)
    ∧ (∀ st ∈ [EngState.loaded, .empty, .armed, .running, .halted], let e : Engine := { Engine.reset with st := st, owner := some 1, busy := 1, debt := 7 }
      (nmState e).engineAt (engineOf 0x42000) = e ∧ e.owner = (nmState e).h.lid ∧ 0 < e.busy ∧ e.debt < 8 ∧ e.iter < 2 ^ 20 ∧ e.pc < 2 ^ 10 ∧ e.code < 256)
    ∧ (¬ (({ Engine.reset with owner := some 2 } : Engine).owner = none ∨ ({ Engine.reset with owner := some 2 } : Engine).owner = memState.h.lid)) := by decide +kernel
theorem wit_NearMemoryInstructions_image : let s := nmState Engine.reset
    let l : List Page := [page1]
    let w := s.nmWord (s.rdS 1) l
    s.nmLoadHeld (s.rdS 1) = false ∧ canonical (s.rdS 1) = true ∧ (s.rdS 1).toNat % 64 = 0 ∧ s.nmImage (s.rdS 1) 128 = some l ∧ s.nmCount (s.rdS 1) l = 1 ∧ s.nmImage (s.rdS 1) 136 = some l
      ∧ s.nmBad (s.rdS 1) l 136 = false ∧ nmHeaderOk w = true ∧ ttCode [w 16] 0 = 0 ∧ okIs (s.nmWindows w) [{ pa := 0x42000, leaf := 0x4228F }] = true := by decide +kernel

/-- Its memory is faultless, and no acquire is on its way. -/
theorem wit_NearMemoryInstructions_faultless : Faultless (nmState Engine.reset) ∧ (nmState Engine.reset).acqBefore (nmState Engine.reset).cur ((nmState Engine.reset).nextId + 1) = false := by
  refine ⟨faultless_of_low _ rfl ?_ rfl rfl rfl rfl, by decide +kernel⟩
  intro a ha
  show Tab.get 0 nmMem a = 0
  simp only [nmMem, pages1, List.cons_append, List.nil_append, Tab.get]
  repeat (rw [if_neg (by omega)])

/-- A running engine whose last word is over, with the word to take next. -/
def engState (tt : List Word) : State :=
  { State.reset with engines := [(0, { Engine.reset with tt := tt, win := [0], st := .running, rows := [(0, 0)], flight := [] })] }
/-- TimetableWords: each word, in a window and outside, a loop that goes round and one that ends, a WAIT that is over, a start time, a refresh interval. -/
theorem wit_TimetableWords (w : Word) : let e := (engState [w, 0x7000000000000000]).engineAt 0
    e.tt.getD e.pc 0 = w ∧ e.st = .running ∧ e.busy = 0 ∧ e.wait = false ∧ e.force = false ∧ e.stop = false ∧ e.pc + 1 < e.tt.length := ⟨rfl, rfl, rfl, rfl, rfl, rfl, Nat.le.refl⟩
theorem wit_TimetableWords_fields :
    ([0].contains (engLine 0 0 0 / 4096) = true ∧ [0].contains (engLine 0 0 1 / 4096) = false)
    ∧ ((0x6000000040000000 : Word).toNat / 2 ^ 50 % 2 ^ 10 < 2 ∧ 0 + 1 < (0x6000000080000000 : Word).toNat / 2 ^ 30 % 2 ^ 20 ∧ ¬ 0 + 1 < (0x6000000040000000 : Word).toNat / 2 ^ 30 % 2 ^ 20)
    ∧ ((0x2000000000000000 : Word).toNat / 2 ^ 60 = 2 ∧ (0x3040000000000000 : Word).toNat / 2 ^ 60 = 3 ∧ (0x4000000000000000 : Word).toNat / 2 ^ 60 = 4 ∧ (0x5000000000000001 : Word).toNat / 2 ^ 60 = 5
      ∧ (0x6000000040000000 : Word).toNat / 2 ^ 60 = 6 ∧ (0x7000000000000000 : Word).toNat / 2 ^ 60 = 7) := by decide +kernel
def engWait (e : Engine) (t : Nat) : State := { State.reset with engines := [(0, e)], time := t }
theorem wit_TimetableWords_waits :
    (let e : Engine := { Engine.reset with st := .running, wait := true, tt := [0], pc := 0 };
      ((engWait e 0).engineAt 0) = e ∧ e.busy = 0 ∧ e.force = false ∧ e.pc < e.tt.length ∧ ({ e with pc := 1 } : Engine).tt.length ≤ ({ e with pc := 1 } : Engine).pc)
    ∧ (let e : Engine := { Engine.reset with st := .armed, startAt := 100 };
      e.startAt ≤ (engWait e 100).time ∧ (engWait e 100).time % 2 = 0 ∧ (engWait e 99).time < e.startAt)
    ∧ (let e : Engine := { Engine.reset with st := .running, flight := [(7, 1)], force := true };
      e.flight = [(7, 1)] ∧ e.st = .running ∧ (engWait e 14040).time % 14040 = 0 ∧ e.force = true ∧ e.busy = 0) ∧ Engine.reset.st ≠ .running := by decide +kernel
/-- ColumnWords: a read and a write of an open row in one word with ADDB, and a closed row. -/
theorem wit_ColumnWords : let w : Word := 0x1F00200011000000
    let s := engState [w, 0x7000000000000000]
    let e := s.engineAt 0
    w.toNat / 2 ^ 60 = 1 ∧ e.flight = [] ∧ e.pc + 1 < e.tt.length ∧ Tab.find e.rows (w.toNat / 2 ^ 51 % 32) = some 0 ∧ Tab.find e.rows (w.toNat / 2 ^ 37 % 32) = some 0
      ∧ w.getLsbD 59 = true ∧ w.getLsbD 45 = true ∧ w.toNat / 2 ^ 28 % 16 = 1 ∧ s.notLive (engLine 0 0 0) = false ∧ (0x1F40200000000000 : Word).toNat / 2 ^ 51 % 32 = 8 ∧ Tab.find e.rows 8 = none := by decide +kernel

/-! ### Launches and tasks -/

/-- Queue 0 of partition 0: ACTIVE, one record, its descriptor at 0x60000 and its ring at 0x70000; the doorbell rings c. -/
def queueState (phase : Nat) (c : Nat) : State :=
  let s : State := { State.reset with described := true, sec := { Security.reset with stage := .ready } }
  let s := (s.setCtl (ctlBase 0 + 8) 8 0x10000).setCtl (ctlBase 0 + 24) 8 0x60000
  let s := (s.setCtl 0x60004 4 0x70000).setCtl 0x60018 8 (64 * phase)
  s.setCtl (ctlBase 0 + offDoorbells) 8 c
/-- LaunchesAndCores: a doorbell in range and out of it, a queue that is not open to doorbells, a record that waits. -/
theorem wit_QueuesAndLaunches :
    (let s := queueState 1 1;
      s.doorsOpen = true ∧ 0 < s.nparts ∧ s.queueOwned 0 0 = true ∧ s.queuePa 0 0 = 0x60000 ∧ s.queueHead 0 0 = 0 ∧ s.queueSize 0 0 = 1 ∧ s.queueState 0 0 = 1 ∧ 0 + 1 < 2 ∧ (s.dieAt (s.lowestDie 0)).event.log2n = 0
        ∧ s.lowestDie 0 < 8 ∧ s.recordWaits 0 0 = true ∧ s.anyRuns = false ∧ 0x60000 % 32 = 0 ∧ 0x70000 % 256 = 0 ∧ (region 0x60000).1 = .hbm ∧ s.queueBase 0 0 = 0x70000 ∧ (0x70000 + 176) / 64 ≠ 0x60000 / 64)
    ∧ State.reset.doorsOpen = false := by decide +kernel
theorem wit_QueuesAndLaunches_plain : Plain (queueState 1 1) (0x60000 / 64) 0 ∧ Plain (queueState 1 1) ((0x70000 + 176) / 64) 0 :=
  ⟨plain_of_nil _ _ _ rfl (by decide +kernel), plain_of_nil _ _ _ rfl (by decide +kernel)⟩
theorem wit_QueuesAndLaunches_faultless : Faultless (queueState 1 1) := by
  refine faultless_of_ranges _ rfl ?_ rfl rfl rfl rfl
  intro sl k hk
  show Tab.get 0 (queueState 1 1).mem (elisionPa sl k) = 0
  have hm : (queueState 1 1).mem = [(393222, 7), (393240, 64), (8796093022218, 1), (8796093022234, 6), (8796629893120, 1)] := by decide +kernel
  rw [hm]
  generalize he : elisionPa sl k = e
  simp only [elisionPa, ctlBase, offElision] at he
  simp only [Tab.get]
  repeat (rw [if_neg (by omega)])
/-- LaunchesAndCores: dependences met and not, a launch that ages. -/
def waitingLaunch (dep : Word) (phase : Phase) : Launch := { Launch.fresh [0, 0, 0, 0, 0, 1, 0, 1, 0, 0, 0, 0, dep, 5] 0 0 with phase := phase }
def grantState (l : Launch) : State := { ((queueState 1 1).setCtl (ctlBase 0 + 64) 8 10) with launches := [(1, l)], time := 10 }
theorem wit_QueuesAndLaunches_launches :
    (let l := waitingLaunch 0 .accepted;
      (grantState l).launch? 1 = some l ∧ l.phase = .accepted ∧ (grantState l).stampsWait 1 l = false ∧ (grantState l).depsMet 1 l = true ∧ (grantState (waitingLaunch 0x1000 .accepted)).depsMet 1 (waitingLaunch 0x1000 .accepted) = false)
    ∧ (let l := waitingLaunch 0 .eligible;
      (grantState l).ages 1 l = true) := by decide +kernel
/-- CoresAreGranted: a launch that is served, and none. -/
theorem wit_CoresAreGranted : (let l := waitingLaunch 0 .eligible; (grantState l).grantee 0 = some (1, l) ∧ l.detlvl ≠ 2) ∧ State.reset.grantee 0 = none ∧ State.reset.quantumOver 1 0 = false := by decide +kernel
/-- Two blocks of a running launch on the clusters of die 0, and an eligible launch of higher priority that finds no cluster. -/
def victim : Launch :=
  { Launch.fresh [0, 0, 0, 0, 0, 1, 0x3F, 1] 0 0 with phase := .running, rots := [(0, { blocks := [0], resident := some 0, since := 0 }), (1, { blocks := [1], resident := some 1, since := 0 })] }
def hungry : Launch := { Launch.fresh [0, 0, 0, 0, 0, 0xE1, 0, 1] 0 7 with phase := .eligible }
/-- A rotation of two blocks whose first is on cluster 0, where core 0 runs member 0. -/
def rotating (resident : Option Nat) (blocks : List Nat) : Launch :=
  { Launch.fresh [0, 0, 0, 0, 0, 1, 0x20, 1] 0 0 with
    phase := .running, rots := [(0, { blocks := blocks, resident := resident, since := 0 })], members := if blocks = [] then [] else [(0, .saved 0x200000 0)] }
def clusterState (w0 : Nat) (l : Launch) : State := { ((queueState 1 1).setCtl (bindPa 0) 8 w0).setCtl (bindPa 0 + 8) 8 1 with launches := [(1, l)] }
theorem wit_CoresAreGranted_victims :
    (let s : State := { queueState 1 1 with launches := [(1, victim), (2, hungry)] };
      s.starved 0 = some (2, hungry) ∧ hungry.fixed = true ∧ (s.victimCluster hungry).isSome = true ∧ (∀ i, i < 32 → s.bindSwitch i = false))
    ∧ (let s := clusterState 0x10 (rotating (some 0) [0, 1]);
      s.quantumOver 1 0 = true ∧ s.bindLid 0 = 1 ∧ s.bindState 0 = 1 ∧ s.bindSwitch 0 = false ∧ s.bindLid 1 ≠ 1)
    ∧ (let l := rotating none [0];
      let r : Rotation := { blocks := [0], resident := none, since := 0 };
      (clusterState 0x30 l).launch? 1 = some l ∧ Tab.find l.rots 0 = some r ∧ l.phase = .running ∧ (clusterState 0x30 l).blockGone l 0 r = true ∧ r.next [0] = some 0 ∧ (r.blocks.filter fun b => !l.blockOver b) = [0] ∧ ((clusterState 0x30 l).dieAt (0 / 2)).bindStop = false
        ∧ (clusterState 0x30 l).blockIdle 1 l 0 = true ∧ ∀ m ∈ l.blockMembers 0, l.place m = .retired ∨ (clusterState 0x30 l).coreIdle (blockCore 0 m) = true)
    ∧ (let l := rotating none [];
      (clusterState 0x30 l).blockGone l 0 { blocks := [], resident := none, since := 0 } = true) := by decide +kernel

/-- A running launch, and core 0's bind record for it. -/
def runLaunch (mode : Nat) : Launch := { Launch.fresh [0, 0, 0x1000, 0, 0x77, BitVec.ofNat 64 mode, 0, 1] 0 0 with phase := .running, tctr := [(0, 15)] }
def boundState (w0 member : Nat) (l : Launch) : State :=
  { ((queueState 1 1).setCtl (bindPa 0) 8 w0).setCtl (bindPa 0 + 8) 8 (member * 2 ^ 32 + 1) with launches := [(1, l)] }
/-- TasksStartAndEnd: START of the last core number and core 0's, RESUME, EVENT, a ticket that may be drawn. -/
theorem wit_TasksStartAndEnd :
    (let s := boundState 3 0 (runLaunch 1);
      s.bindValid 0 = true ∧ s.bindKind 0 = 1 ∧ s.bindLid 0 = 1 ∧ s.launch? 1 = some (runLaunch 1) ∧ (runLaunch 1).phase = .running ∧ s.bindTicket 0 = false ∧ (runLaunch 1).place (s.bindWord 0 1 / 2 ^ 32) = .unstarted)
    ∧ (let s := boundState 5 0 (runLaunch 1);
      s.bindValid 0 = true ∧ s.bindKind 0 = 2)
    ∧ (let s := boundState 7 0 (runLaunch 1);
      s.bindValid 0 = true ∧ s.bindKind 0 = 3)
    ∧ (let s := (boundState 0x10 0xFFFFFFFF (runLaunch 0)).setCtl (ticketPa 0 15 + 16) 8 1;
      s.mayDraw 0 = true ∧ s.launch? (s.bindLid 0) = some (runLaunch 0) ∧ s.bindSwitch 0 = false ∧ (s.dieAt 0).bindStop = false ∧ Tab.find (runLaunch 0).tctr 0 = some 15 ∧ s.ticketNext 0 15 < s.ticketLimit 0 15) := by decide +kernel
/-- TasksStartAndEnd: a trap that waits for its handler; a launch whose one task has retired, with a DONE stamp and without, and one that is ending. -/
def doneLaunch (phase : Phase) (done : Word) : Launch :=
  { Launch.fresh [0, 0, 0, 0, 0, 1, 0, 1, 0, 0, 0, 0, 0, 0, 0, 0, 0, 0, 0, 0, done, 9] 0 0 with phase := phase, retired := 1 }
def endState (l : Launch) : State :=
  { State.reset with launches := [(1, l)], mem := pages1, policies := [(0, { State.reset.policy 0 with ptroot := 0x20000000000 })], harts := [(0, { task0 with mode := .stopped })] }
theorem wit_TasksStartAndEnd_ends :
    (let h : Hart := { task0 with trapPend := [(3, 0x2000)] };
      h.mode = .task ∧ h.going = none ∧ h.waiting = none ∧ h.cctl.getLsbD 44 = true)
    ∧ (let l := doneLaunch .running 0x40000;
      (doneLaunch .running 0).w 20 = 0 ∧ l.w 20 = 0x40000 ∧ (endState l).launch? 1 = some l ∧ l.retired = l.count ∧ (endState l).engines = [] ∧ (endState l).slices = [] ∧ (endState l).callsRun 1 = false ∧ okIs ((endState l).partPage (1 / 2 ^ 32) 0x40000) page1 = true)
    ∧ (let l := doneLaunch .ending 0;
      l.phase = .ending ∧ (endState l).tasksLeft 1 = false ∧ ((endState l).hartAt 0).lid = some 1) := by decide +kernel
theorem wit_TasksStartAndEnd_plain (l : Launch) : Plain (endState l) (0x40000 / 64) 0 := plain_of_low _ _ rfl (pages1_low _ rfl) rfl rfl rfl (by decide)
theorem wit_TasksStartAndEnd_faultless (l : Launch) : Faultless (endState l) := faultless_of_low _ rfl (pages1_low _ rfl) rfl rfl rfl rfl
/-- TasksStartAndEnd: a task asked to switch, at a bundle with SAFE. -/
def safeState : State :=
  let s := State.reset.withFetchWord 512 0x4000000000000000000000000000000000000000000000000000000000000000000000000000000000000000000000000000000000000000000000000000000
  { s with turn := none, harts := [(0, { s.hartAt 0 with cctl := 8, stall := 2 })] }

/-! ### The network, start-up and security -/

/-- Session 4,095 of die 0 in a state, with packets sent. -/
def sessState (state tx time : Nat) (k : SessKey) : State :=
  { ((((queueState 1 1).setCtl (sessionPa 0 4095) 8 state).setCtl (sessionPa 0 4095 + 56) 8 tx).setCtl (ctlBase 0 + 80) 8 (4095 + 0x10000)).setSessKey 0 4095 k with time := time }
theorem wit_SessionsAndLinks :
    (let s := sessState 1 (2 ^ 32) 36000000000 SessKey.none_;
      s.sessionLive 0 4095 = true ∧ (s.sessKey 0 4095).acked + 36000000000 ≤ s.time ∧ s.sessionState 0 4095 = 1 ∧ 2 ^ 32 ≤ s.txpkt 0 4095 ∧ s.harts.length = 0 ∧ s.ownsSession 0 0 4095 = true)
    ∧ (let s := sessState 2 0 35999999999 { SessKey.none_ with old := some 1, expiry := 35999999999 };
      s.time < (s.sessKey 0 4095).acked + 36000000000 ∧ s.sessionState 0 4095 = 2 ∧ (s.sessKey 0 4095).old.isSome = true ∧ (s.sessKey 0 4095).expiry ≤ s.time)
    ∧ (0 < ({ SessKey.none_ with expiry := 1 } : SessKey).expiry) ∧ (State.reset.linkUp 6 7 = true ∧ 7 < State.reset.ndie ∧ State.reset.openCalls.length = 0 ∧ State.reset.hasSect = true)
    ∧ ((hostState.dieAt 0).hostUp = true ∧ (State.reset.dieAt 0).hostUp = false) := by decide +kernel

/-- A peer's message of one byte for member 0 of launch 1, at record 0 or another. -/
def netMsg (record : Nat) : NetMsg := { session := 4095, tag := 7, key := 0, first := 0, bad := [], launch := 1, lcore := 0, bar := 0, contrib := 63, record := record, origin := [0], codec := .raw, stream := [7] }
def netState (live : Nat) : State :=
  { ((State.reset.setCtl (sessionPa 0 4095) 8 live).setCtl (sessionPa 0 4095 + 16) 8 1) with
    harts := [(0, { memTask with bars := [(0, bar1)] })], launches := [(1, { launch1 with words := [0, 0, 0, 0, 0, 0x10001, 1], lrecs := [(0, byteRec 0x100 1)] })] }
theorem wit_TasksStartAndEnd_switch : (safeState.hartAt 0).trapPend = [] ∧ safeState.switchable 0 = true ∧ (safeState.hartAt 0).wLand = none := by decide +kernel
theorem wit_NetworkCopies :
    (let s := netState 1;
      let m := netMsg 0;
      let c := s.peerCmd 0 m (byteRec 0x100 1);
      s.netIn.length = 0 ∧ s.netHeld.length = 0 ∧ (s.sessKey 0 m.session).accepts m.key s.time = true ∧ s.sessionLive 0 4095 = true ∧ okIs (s.peerWindow 0 m false) c = true ∧ okIs (s.peerWindow 0 m true) c = true ∧ winSize c.dst = 1 ∧ recFmt c.dst = 0x10 ∧ recSpace c.dst = 1 ∧ recIlv c.dst = 0
        ∧ insideT c.dst (coordsAt c.dst c.do_ 0) = true ∧ (recBase c.dst : Int) + elemBit c.dst (coordsAt c.dst c.do_ 0) / 8 = 0x100 ∧ (s.hartAt c.core).copyq = [] ∧ s.storage c.lid c.member c.core = .live 0
        ∧ InScratch (s.hartAt 0) 0x100 1 ∧ (s.hartAt 0).bar (m.bar % 1024) = some bar1 ∧ 0 < bar1.refcnt ∧ (s.hartAt 0).spBad = [] ∧ (s.hartAt 0).spCorr = [])
    ∧ (netState 0).sessionLive 0 4095 = false ∧ ((netState 1).peerWindow 0 (netMsg 1) true).toOption.isNone = true
    ∧ (let p : Part := { part0 with next := 1 };
      let c := cpyCmd (.netPut .raw) true [p] true (byteRec 0x100 2) 0;
      ((copyState c).hartAt 0).copyq = [c] ∧ c.closed = false ∧ c.confirmed + 2 ≤ streamSize c.src ∧ c.confirmed + 2 ≤ 4096 * p.next)
    ∧ (let c := cpyCmd .netGet true [part0] true 0 (byteRec 0x100 2);
      ((copyState c).hartAt 0).copyq = [c] ∧ 2 ≤ winSize c.dst ∧ (copyState c).storage c.lid c.member c.core = .live 0 ∧ c.confirmed = 0) := by decide +kernel

/-- StartSequence: each stage, with the counters at their limits. -/
def stageState (stage : Stage) (failrun time : Nat) : State := { State.reset with sec := { Security.reset with stage := stage, failrun := failrun }, time := time }
theorem wit_StartSequence :
    State.reset.sec.stage = .off ∧ (stageState .rom 3 0).sec.stage ≠ .off ∧ (stageState .rom 3 0).sec.failrun ≤ 3 ∧ (stageState .rom 2 0).sec.failrun < 3 ∧ (stageState .train 0 0).sec.stage = .train
    ∧ (stageState .part 0 0).sec.stage = .part ∧ (stageState .host 0 0).sec.stage = .host ∧ (stageState .image 0 0).sec.stage = .image
    ∧ ((stageState .barista 0 3599999999).time < (stageState .barista 0 0).sec.baristaSince + 3600000000 ∧ (stageState .barista 0 0).sec.baristaSince + 3600000000 ≤ (stageState .barista 0 3600000000).time
      ∧ (stageState .barista 0 0).allReady = false ∧ 7 < (stageState .barista 0 0).ndie)
    ∧ (let s : State := { stageState .barista 0 0 with dies := (List.range 8).map fun d => (d, { Die.reset with baristaUp := true }) };
      s.allReady = true) := by decide +kernel

/-- SecurityAndTemperature: a report inside memory and one that is not, a session that the partition owns and one that it does not, a key slot, an image that is loading. -/
theorem wit_SecurityAndTemperature :
    (let s := (queueState 1 1).setCtl (ctlBase 0 + 56) 8 0x2001;
      s.sec.stage = .ready ∧ s.inHbm 0 0x80000 626 = true ∧ 0x80000 % 8 = 0 ∧ s.inHbm 0 0x80000000000 626 = false ∧ s.hasMenc = true ∧ 0 < s.nparts ∧ s.keyOk (s.lowestDie 0) 1 = true ∧ s.ownsSession 0 0 4095 = false
        ∧ s.sec.loading = none ∧ s.sec.cmds = [] ∧ s.harts = [] ∧ s.netIn = [] ∧ s.ndie = 8 ∧ 2 ^ 37 - 1 + 1 ≤ 2 ^ 37)
    ∧ (sessState 0 0 0 SessKey.none_).ownsSession 0 0 4095 = true ∧ (sessState 0 0 0 SessKey.none_).sec.cmds = []
    ∧ ({ Security.reset with stage := .ready, loading := some [] } : Security).loading.isSome = true ∧ ({ Security.reset with stage := .ready, loading := some [] } : Security).cmds = [] := by decide +kernel
theorem wit_SecurityAndTemperature_plain : Plain (queueState 1 1) (0x80000 / 64) 0 ∧ Plain (queueState 1 1) ((0x80000 + 15) / 64) 0 :=
  ⟨plain_of_nil _ _ _ rfl (by decide +kernel), plain_of_nil _ _ _ rfl (by decide +kernel)⟩
/-- Its cupping clause, all together. -/
theorem wit_SecurityAndTemperature_cupping : let s := queueState 1 1
    s.sec.stage = .ready ∧ s.sec.cmds = [] ∧ s.sec.loading = none ∧ s.inHbm 0 0x80000 626 = true ∧ Faultless s ∧ Plain s (0x80000 / 64) 0 ∧ Plain s ((0x80000 + 15) / 64) 0 :=
  ⟨by decide +kernel, by decide +kernel, by decide +kernel, by decide +kernel, wit_QueuesAndLaunches_faultless, wit_SecurityAndTemperature_plain⟩
/-- EngineArithmetic: an element that is not NaN. -/
theorem wit_EngineArithmetic : ((bf16.value (secHalf 0 31)).isNan = false) ∧ 1 < 2 ∧ 31 < 32 := by decide +kernel

/-! ### Decoding: the worked words of the manual -/

/-- The word of this slot decodes to this instruction under this guard. -/
def reads (n : SlotName) (w : Nat) (neg : Bool) (pred : Nat) (i : Instr) : Bool := okIs (decodeSlot n false w) (some ⟨n, neg, pred, i⟩)
/-- The word of this slot is refused. -/
def refuses (n : SlotName) (w : Nat) : Bool :=
  match decodeSlot n false w with
  | .ok _ => false
  | .error _ => true

/-- The worked bundle of chapter 12 and the worked words of chapter 13 (13 lines 333–335), 17 (line 430), 20 (line 184) and 22 (line 111). -/
theorem test_words_s : reads .s 0x81C8E180FFFFFFFE true 9 (.addI 7 3 (.imm 0xFFFFFFFE)) ∧ reads .s 0x3500010000000005 false 0 (.loopSet 2 5)
    ∧ reads .s 0x3748000000000000 false 9 .loopBrk ∧ reads .s 0x1E01018A00000000 false 0 (.cmp .eq 8 3 5) ∧ reads .s 0x1C00618A48000000 false 0 (.bfi 3 3 5 9)
    ∧ reads .s 0x3A10000000000051 false 2 (.trap 0x51) ∧ reads .s 0x4400A20000000000 false 0 (.tlbPrb 5 4) := by decide
/-- Chapter 12's VFADD word, chapter 19's VEXT (line 151), and a VFMA laid out by R227 and R241: d 20, a 21, b s4 (SCL), c 22, MSK m9, SUB 1 (.rz). -/
theorem test_words_v : reads .v0 0x0102482200000000 false 0 (.vfadd .rn 18 16 (.vec 17) 0) ∧ reads .v1 0x4602A08020100000 false 0 (.vext .dword 21 1 4)
    ∧ reads .v1 (0x04 * 2 ^ 56 + 20 * 2 ^ 45 + 21 * 2 ^ 39 + 4 * 2 ^ 33 + 22 * 2 ^ 27 + 1 * 2 ^ 26 + 9 * 2 ^ 22 + 1 * 2 ^ 19) false 0 (.vfma .rz 20 21 (.scl 4) 22 9) := by decide
/-- Chapters 15 (lines 172–174) and 17 (line 216). -/
theorem test_words_m : reads .m 0x07000A0000000000 false 0 (.mcfg 0 20) ∧ reads .m 0x0100051660000000 false 0 (.mma 0 10 11 12 0)
    ∧ reads .m 0x0500069C00000000 false 0 (.mdrain false 0 13 14 0) ∧ reads .m 0x0100069C78000000 false 0 (.mma 0 13 14 15 0) := by decide
/-- Chapter 12's load; a store, an atomic and a sequenced AMOF laid out by R227, R230 and R231: st.w.e [s6 + s7 - 4] in C space; amo.add.ar.m s5;
amof.bf16.seq.rel.y with its sequence number in s9. -/
theorem test_words_lw : reads .l 0x0101820B30258002 false 0 (.ld .g .d false false false 12 ⟨4, 5, 2⟩ 300)
    ∧ reads .w (0x01 * 2 ^ 56 + 3 * 2 ^ 45 + 6 * 2 ^ 39 + 7 * 2 ^ 33 + (1 * 64 + 2 * 8 + 1) * 2 ^ 25 + 0x1FFF) false 0 (.st .c .w .empty 3 ⟨6, 7, 0x1FFF⟩)
    ∧ reads .w (0x06 * 2 ^ 56 + 5 * 2 ^ 45 + 6 * 2 ^ 39 + 7 * 2 ^ 33 + (0 * 16 + 14) * 2 ^ 25 + 40 * 2 ^ 13 + 1) false 0 (.amo .add (.ar .module) 5 ⟨6, 7, 1⟩ 40)
    ∧ reads .w (0x08 * 2 ^ 56 + 9 * 2 ^ 45 + 6 * 2 ^ 39 + 7 * 2 ^ 33 + (128 + 1 * 32 + 10) * 2 ^ 25) false 0 (.amofSeq true (some .system) 9 ⟨6, 7, 0⟩) := by decide
/-- Chapters 16 (lines 422–423), 17 (lines 217, 431, 432), 18 (lines 168, 169, 338, 339) and 19 (lines 148–150). -/
theorem test_words_c : reads .c 0x0301841202000000 false 0 (.cpX false true 12 8 9) ∧ reads .c 0x2002820D02000600 false 0 (.rcall true false 1 20 4 6 12)
    ∧ reads .c 0x0200A90000000000 false 0 (.cpMc 5 18 0) ∧ reads .c 0x0700488000000000 false 0 (.lrecPut 2 17) ∧ reads .c 0x01008D8000000000 false 0 (.cp false 4 27 0)
    ∧ reads .c 0x0100A88100000000 false 0 (.cp true 5 17 0) ∧ reads .c 0x060009B000000000 false 0 (.cpStamp 19 24)
    ∧ reads .c 0x0908011A00000000 false 1 (.cln 2 13) ∧ reads .c 0x3100030000000018 false 0 (.nmGo 3 6 0)
    ∧ reads .c 0x1200208600000490 false 0 (.tsTake 2 1 1 3 9) ∧ reads .c 0x1000408000000028 false 0 (.tsDep 5 2 1)
    ∧ reads .c 0x209B4A9404000A80 true 3 (.rcall false false 2 26 21 10 21) := by decide
/-- Chapters 12, 16 (line 424), 17 (line 214) and 18 (lines 170, 171, 340, 431). -/
theorem test_words_y : reads .y 0x400000600000 false 0 (.fence .module) ∧ reads .y 0x1C0180000005 false 0 (.barWait 3 (.imm 5)) ∧ reads .y 0x2806000E0000 false 0 (.gbar 7 12 0)
    ∧ reads .y 0x4C0980000000 false 0 (.monArm 19) ∧ reads .y 0x500A000C0000 false 0 (.monWait 6 20) ∧ reads .y 0x482000000000 false 1 .nmfence
    ∧ reads .y 0x442000000000 false 1 .xfence := by decide
/-- The whole worked bundle of chapter 12, from its bytes, lowest address first. -/
theorem test_worked_bundle : okIs (decodeBundle (bundleOfBytes ([0x00, 0x00, 0x60, 0x00, 0x00, 0x40] ++ List.replicate 16 0 ++ [0x02, 0x80, 0x25, 0x30, 0x0B, 0x82, 0x01, 0x01]
    ++ List.replicate 16 0 ++ [0, 0, 0, 0, 0x22, 0x48, 0x02, 0x01] ++ [0xFE, 0xFF, 0xFF, 0xFF, 0x80, 0xE1, 0xC8, 0x81] ++ [0, 0])))
    ⟨0, false, none, [⟨.s, true, 9, .addI 7 3 (.imm 0xFFFFFFFE)⟩, ⟨.v0, false, 0, .vfadd .rn 18 16 (.vec 17) 0⟩, ⟨.l, false, 0, .ld .g .d false false false 12 ⟨4, 5, 2⟩ 300⟩,
      ⟨.y, false, 0, .fence .module⟩]⟩ = true := by decide +kernel

/-- Encodings that are not instructions (R226, R228, R230, R232, R240, R241, R245–R247): NOP with a bit set, OPC[7] beyond 0x95, a V1 opcode in V0, a scalar
field above 31, L = 1 without a literal, COND 10, a guard on END, SP 3, a LAND on a C load, SZ 4, both FW and FC, OP 9 of AMO, Y opcode 0x16, BAR.FREE's SC 1. -/
theorem test_not_instructions : refuses .s 1 ∧ refuses .s (0x96 * 2 ^ 56) ∧ refuses .v0 0x4602A08020100000 ∧ refuses .s (0x01 * 2 ^ 56 + 32 * 2 ^ 45)
    ∧ refuses .s (0x81 * 2 ^ 56 + 1 * 2 ^ 38) ∧ refuses .s (0x1E * 2 ^ 56 + 10 * 2 ^ 19) ∧ refuses .s (0x39 * 2 ^ 56 + 1 * 2 ^ 51) ∧ refuses .l (0x01 * 2 ^ 56 + 3 * 2 ^ 31)
    ∧ refuses .l (0x01 * 2 ^ 56 + 1 * 2 ^ 31 + 1 * 2 ^ 13) ∧ refuses .l (0x01 * 2 ^ 56 + 4 * 2 ^ 28) ∧ refuses .w (0x01 * 2 ^ 56 + 3 * 2 ^ 25)
    ∧ refuses .w (0x06 * 2 ^ 56 + 9 * 2 ^ 29) ∧ refuses .y (0x16 * 2 ^ 42) ∧ refuses .y (0x02 * 2 ^ 42 + 1 * 2 ^ 21) := by decide

/-! ### Well-formedness: the smoke test -/

/-- A term that breaks one check is refused, check by check, beside the term that keeps it. -/
def broken : List (Instr × Instr) :=
  [(.add 32 0 0, .add 31 0 0), (.addI 0 32 .lit, .addI 0 31 .lit), (.clz 1 32, .clz 1 31), (.bfi 1 2 3 32, .bfi 1 2 3 31), (.sel 1 16 2 3, .sel 1 15 2 3),
   (.cmp .eq 16 0 0, .cmp .eq 15 0 0), (.plog 0 0 16 0, .plog 0 0 15 0), (.movpPs 32 0, .movpPs 31 15), (.movpSp 16 0, .movpSp 15 31), (.li 32 .lit, .li 31 .lit),
   (.rsr 0 (.lstk 6), .rsr 0 (.lstk 5)), (.wsr .time 0, .wsr .vstat 0), (.br .always 1 0, .br .always 0 0), (.callr false 32, .callr false 31), (.loopSet 1 0, .loopSet 1 1),
   (.loopSet 1 0xFFFFFFFF, .loopSet 1 0x7FFFFFFF), (.loopIdx 1 6, .loopIdx 1 5), (.bankmode 16 .fifo, .bankmode 15 .fifo), (.rbase (.imm 64 0 0), .rbase (.imm 63 7 7)),
   (.rbase (.reg 0), .rbase (.reg 1)), (.csrr 1 (.nmdebt 4), .csrr 1 (.nmdebt 3)), (.csrr 1 (.wcnt 0), .csrr 1 (.wcnt 1)), (.csrw .wstat 1, .csrw .cctl 1),
   (.tlbInvAsid 32, .tlbInvAsid 31), (.ctxSv 32, .ctxSv 31)]
def broken2 : List (Instr × Instr) :=
  [(.vfadd .rn 64 0 (.vec 0) 0, .vfadd .rn 63 0 (.vec 63) 15), (.vfadd .rn 0 0 (.scl 32) 0, .vfadd .rn 0 0 (.scl 31) 0), (.vfma .rn 0 0 (.vec 0) 64 0, .vfma .rn 0 0 (.vec 0) 63 0),
   (.vfabs 0 0 16, .vfabs 0 0 15), (.vfcmp .eq 16 0 (.vec 0) 0, .vfcmp .eq 15 0 (.vec 0) 0), (.vsel 0 0 (.vec 0) 16 0, .vsel 0 0 (.vec 0) 15 0),
   (.vcvt .bf16f32 .rz false 0 0 0, .vcvt .bf16f32 .rn false 0 0 0), (.vcvt .i32f32 .rn true 0 0 0, .vcvt .i32f32 .rn false 0 0 0),
   (.vqmx .e4m3 0 0 (some (.vec 64)) 0, .vqmx .e4m3 0 0 (some (.vec 63)) 0), (.vunpk .h false 2 0 0 0, .vunpk .h false 1 0 0 0), (.vunpk .q true 8 0 0 0, .vunpk .q true 7 0 0 0),
   (.vshuf .rev 0 0 1 0, .vshuf .rev 0 0 0 0), (.vbcast 0 (.lane 0 64) 0, .vbcast 0 (.lane 0 63) 0), (.vbcast 0 (.scalar 32) 0, .vbcast 0 (.scalar 31) 0),
   (.vins true 0 0 1, .vins true 0 0 2), (.vins false 0 0 64, .vins false 0 0 63), (.vext .dword 0 0 3, .vext .dword 0 0 2), (.vrng .lo 0 0 (.vec 0) 32 0, .vrng .lo 0 0 (.vec 0) 31 0),
   (.mlog 0 0 16 0, .mlog 0 0 15 0), (.mset 0 32, .mset 0 31), (.mma 4 0 0 0 0, .mma 3 0 0 0 0), (.mma 0 0 0 0 8, .mma 0 0 0 0 7), (.mmaG 0 0 0 0 64 0, .mmaG 0 0 0 0 63 0),
   (.mzero 4, .mzero 3), (.mcfg 0 28, .mcfg 0 27), (.mcfgr 0 0, .mcfgr 1 0), (.mcfgr 28 0, .mcfgr 27 0), (.mstat 32, .mstat 31)]
def broken3 : List (Instr × Instr) :=
  [(.ld .g .d true false false 1 ⟨0, 0, 0⟩ 0, .ld .g .d false false false 1 ⟨0, 0, 0⟩ 0), (.ld .l .b false false false 1 ⟨0, 0, 0⟩ 1, .ld .g .b false false false 1 ⟨0, 0, 0⟩ 1),
   (.ld .g .b false true false 1 ⟨0, 0, 0⟩ 0, .ld .c .b false true true 1 ⟨0, 0, 0⟩ 0), (.ld .g .b false false false 1 ⟨0, 0, 0⟩ 4096, .ld .g .b false false false 1 ⟨0, 0, 0⟩ 4095),
   (.ldv .l false false 64 ⟨0, 0, 0⟩ 0, .ldv .l false false 63 ⟨0, 0, 0⟩ 0), (.ldvS .l .d false false false 1 ⟨0, 0, 0⟩ 0, .ldvS .l .h true false false 1 ⟨0, 0, 0⟩ 0),
   (.ldvX .l .w true false false 1 ⟨0, 0, 0⟩ 0, .ldvX .l .w false false false 1 ⟨0, 63, 0⟩ 0), (.ldm .l false false 16 ⟨0, 0, 0⟩ 0, .ldm .l false false 15 ⟨0, 0, 0⟩ 0),
   (.pref ⟨32, 0, 0⟩, .pref ⟨31, 31, 0⟩), (.st .g .b .full 1 ⟨0, 0, 0⟩, .st .g .b .plain 1 ⟨0, 0, 0⟩), (.stvS .l .d .plain 1 ⟨0, 0, 0⟩, .stvS .l .w .plain 1 ⟨0, 0, 0⟩),
   (.stvX .l .b .plain 1 ⟨0, 64, 0⟩, .stvX .l .b .plain 1 ⟨0, 63, 0⟩), (.stm .l .plain 16 ⟨0, 0, 0⟩, .stm .l .plain 15 ⟨0, 0, 0⟩), (.amo .add .rlx 0 ⟨0, 0, 0⟩ 1, .amo .add .rlx 1 ⟨0, 0, 0⟩ 1),
   (.amof false none ⟨0, 32, 0⟩, .amof false none ⟨0, 31, 0⟩), (.amofSeqSkip false none 1 ⟨0, 1, 0⟩, .amofSeqSkip false none 1 ⟨0, 0, 0⟩), (.setfe .g true 1 ⟨0, 0, 0⟩, .setfe .c true 1 ⟨0, 0, 0⟩),
   (.cp true 64 0 0, .cp true 63 0 0), (.cpStamp 32 0, .cpStamp 31 0), (.lrecPut 64 0, .lrecPut 63 31), (.tsDep 16 0 0, .tsDep 15 0 0), (.tsRd 0 0 0 0 32, .tsRd 0 0 0 0 31),
   (.tsRdp 0 0 0 0 4096, .tsRdp 0 0 0 0 4095), (.tsCnt 0 32 0 0 0 0, .tsCnt 0 31 0 0 63 0), (.rcall true true 16 0 0 0 0, .rcall true true 15 0 0 0 0), (.rpost true 0 64 0 0 0, .rpost true 0 63 0 0 0),
   (.rret 0 0 32, .rret 0 0 31), (.nmLoad 16 0 0, .nmLoad 15 0 0), (.nmStop 32, .nmStop 31), (.barAlloc 16 0, .barAlloc 15 0), (.barFree (.imm 1024), .barFree (.imm 1023)),
   (.barRef (.reg 32), .barRef (.reg 31)), (.barInit 0 30 (.imm 0), .barInit 0 29 (.imm 0)), (.barInfo 0 (.imm 0) 8, .barInfo 0 (.imm 0) 7), (.gbar 0 0 256, .gbar 0 0 255),
   (.monWait 16 0, .monWait 15 0), (.monArm 32, .monArm 31)]
theorem test_wf_scalar : broken.all (fun x => !x.1.wf && x.2.wf) = true := by decide
theorem test_wf_vector : broken2.all (fun x => !x.1.wf && x.2.wf) = true := by decide
theorem test_wf_memory : broken3.all (fun x => !x.1.wf && x.2.wf) = true := by decide

/-! ### One step from reset -/

/-- Bit positions of the slots in a bundle (R222). -/
def atS : Nat := 2 ^ 256 * 2 ^ 176
def atW : Nat := 2 ^ 112
def atL : Nat := 2 ^ 176

/-- A step fetches and runs the worked word of chapter 12 without its guard: add s7, s3, -2 leaves -2 for s7, written one cycle after issue (R236, R249). -/
theorem test_step_add : nextIs (step (State.reset.withFetchWord 512 (0x8100E180FFFFFFFE * atS)))
    (fun t => (t.hartAt 0).pend == [⟨0, 1, .s 7 0xFFFFFFFFFFFFFFFE⟩] && (t.hartAt 0).pc == 0x1040) = true := by decide +kernel
/-- st.d.g s0 to 0x1000, whose offset field 0x200 is scaled by 8 (R74): with no declared bank every bank is a way of the L1 (R78), which takes the eight bytes
and marks them dirty (R80). -/
theorem test_step_store : nextIs (step (State.reset.withFetchWord 512 ((0x01 * 2 ^ 56 + (2 * 64 + 3 * 8) * 2 ^ 25 + 0x200) * atW)))
    (fun t => (t.hartAt 0).l1.map (fun x => (x.2.valid, x.2.dirty)) == [(0xFF, 0xFF)] && (t.hartAt 0).stq.isEmpty) = true := by decide +kernel
/-- The worked load of chapter 12 with both registers 0 and offset 0x200: a landing due exactly 300 cycles on (R95). -/
theorem test_step_load : nextIs (step (State.reset.withFetchWord 512 ((0x01 * 2 ^ 56 + 12 * 2 ^ 45 + 0x98 * 2 ^ 25 + 300 * 2 ^ 13 + 0x200) * atL)))
    (fun t => (t.hartAt 0).land.map (fun x => (x.due, x.regs)) == [(some 300, [.s 12])]) = true := by decide +kernel
/-- An encoding that is no instruction is ILLEGAL, undelegated after reset: the task stops at it (R247, R363). -/
theorem test_step_illegal : nextIs (step (State.reset.withFetchWord 512 (0x96 * 2 ^ 56 * atS)))
    (fun t => (t.hartAt 0).mode == .stopped && (t.hartAt 0).fcause.toNat % 256 == 1 && (t.hartAt 0).fpc == 0x1000) = true := by decide +kernel
/-- A log that software has given a base and 2^6 entries takes an entry: SOURCE 3, CODE 0x11, SEQ 0 in its first word, WRIDX 1 (R396, R397). Before that it was
disabled and counts a lost entry. -/
theorem test_log_ring : let s := (State.reset.statusWrite 0 0 0x10FFF).statusWrite 0 1 6
    (s.log .event 0x11 3 [5]).byteAt 0x10004 = 3 ∧ (s.log .event 0x11 3 [5]).byteAt 0x10002 = 0x11 ∧ (s.log .event 0x11 3 [5]).byteAt 0x10010 = 5
      ∧ (s.log .event 0x11 3 [5]).statusRead 0 2 = 1 ∧ (State.reset.log .event 0x11 3 [5]).statusRead 0 4 = 1
      ∧ (s.statusWrite 0 2 9).statusRead 0 2 = 0 := by decide +kernel
/-- SPCE of core 7 is cleared by a write of zero and by no other (R393). -/
theorem test_counter : let s := State.reset.setDie 0 { Die.reset with spce := [(7, 3)] }
    s.statusRead 0 22 = 3 ∧ (s.statusWrite 0 22 1).statusRead 0 22 = 3 ∧ (s.statusWrite 0 22 0).statusRead 0 22 = 0 := by decide

end Sys2Proof.Tests
end

section
/-! ### Home slices (R14)

Both parts of R14 turn on which address bits a field reads: the home reads no bit below 11 (a 2 KiB line) and, but for the line's own number, none below 15
(a 32 KiB block). -/

namespace Sys2Proof.Machine

theorem div_two_pow_congr {a b k lo : Nat} (h : a / 2 ^ k = b / 2 ^ k) (hk : k ≤ lo) : a / 2 ^ lo = b / 2 ^ lo := by
  rw [← Nat.add_sub_cancel' hk, Nat.pow_add, ← Nat.div_div_eq_div_mul, h, Nat.div_div_eq_div_mul]

/-- A field reads no bit below its lowest. -/
theorem fld_congr_of_div {a b k lo : Nat} (n : Nat) (h : a / 2 ^ k = b / 2 ^ k) (hk : k ≤ lo) : fld a lo n = fld b lo n :=
  congrArg (· % 2 ^ n) (div_two_pow_congr h hk)

theorem homeSlice_congr {a b : Nat} (h : a / 2 ^ 11 = b / 2 ^ 11) : homeSlice a = homeSlice b := by
  have hf (lo n : Nat) (hlo : 11 ≤ lo) : fld a lo n = fld b lo n := fld_congr_of_div n h hlo
  simp only [homeSlice, hf 11 _ (by decide), hf 15 _ (by decide), hf 19 _ (by decide), hf 23 _ (by decide), hf 27 _ (by decide)]

/-- Every region and every die's window begins on a 32 KiB boundary (R13). -/
theorem region_congr {a b : Nat} (h : a / 2 ^ 15 = b / 2 ^ 15) : region a = region b := by
  have hdie (k : Nat) (hk : 15 ≤ k) : a / 2 ^ k = b / 2 ^ k := div_two_pow_congr h hk
  have hhbm : a < 2 ^ 40 ↔ b < 2 ^ 40 := by omega
  have hsecond : a < 0x20000000000 ↔ b < 0x20000000000 := by omega
  have hhost : a < 0x40000000000 ↔ b < 0x40000000000 := by omega
  have hwindow : a < 0x80000000000 ↔ b < 0x80000000000 := by omega
  have hctl : a < 0x80800000000 ↔ b < 0x80800000000 := by omega
  rw [region, region, hdie 37 (by decide), hdie 38 (by decide), hdie 39 (by decide), hdie 32 (by decide)]
  simp only [← Nat.not_lt, hhbm, hsecond, hhost, hwindow, hctl]

/-- The lines of a 32 KiB block: each has its own number, xored with what all sixteen share, for its home. -/
theorem homeSlice_line (n : Nat) {i : Nat} (hi : i < 16) :
    (homeSlice (n * 2 ^ 15 + i * 2048)).1 = i ^^^ (homeSlice (n * 2 ^ 15)).1 := by
  have hdiv : (n * 2 ^ 15 + i * 2048) / 2 ^ 15 = n * 2 ^ 15 / 2 ^ 15 := by omega
  have hf (lo : Nat) (hlo : 15 ≤ lo) : fld (n * 2 ^ 15 + i * 2048) lo 4 = fld (n * 2 ^ 15) lo 4 := fld_congr_of_div 4 hdiv hlo
  have hline : fld (n * 2 ^ 15 + i * 2048) 11 4 = i := by simp only [fld]; omega
  have hfirst : fld (n * 2 ^ 15) 11 4 = 0 := by simp only [fld]; omega
  simp only [homeSlice, hline, hfirst, hf 15 (by decide), hf 19 (by decide), hf 23 (by decide), Nat.zero_xor, Nat.xor_assoc]

theorem sliceOf_line (n : Nat) {i : Nat} (hi : i < 16) :
    sliceOf (n * 2 ^ 15 + i * 2048) = (region (n * 2 ^ 15)).2 * 16 + (i ^^^ (homeSlice (n * 2 ^ 15)).1) := by
  have hdiv : (n * 2 ^ 15 + i * 2048) / 2 ^ 15 = n * 2 ^ 15 / 2 ^ 15 := by omega
  rw [sliceOf, homeSlice_line n hi, region_congr hdiv]

theorem eq_of_xor_eq {i j m : Nat} (h : i ^^^ m = j ^^^ m) : i = j := by
  have hm : i ^^^ m ^^^ m = j ^^^ m ^^^ m := congrArg (· ^^^ m) h
  rwa [Nat.xor_assoc, Nat.xor_assoc, Nat.xor_self, Nat.xor_zero, Nat.xor_zero] at hm

theorem sliceOf_line_inj (n : Nat) {i j : Nat} (hi : i < 16) (hj : j < 16)
    (h : sliceOf (n * 2 ^ 15 + i * 2048) = sliceOf (n * 2 ^ 15 + j * 2048)) : i = j := by
  rw [sliceOf_line n hi, sliceOf_line n hj] at h
  exact eq_of_xor_eq (Nat.add_left_cancel h)

/-- Settles O35: the fields of R14 as the statement writes them; none of them reads a bit inside a line; and in a 32 KiB block only the line's own number differs. -/
theorem homeSlices : Obligations.HomeSlices :=
  ⟨fun pa => ⟨rfl, rfl⟩, fun pa b hb => homeSlice_congr (by omega), fun n i j hi hj hne h => hne (sliceOf_line_inj n hi hj h)⟩

end Sys2Proof.Machine
end

section
/-! ### Rows of writes in sparse tables -/

namespace Sys2Proof.Machine

/-- A read after a row of writes, where those to the key agree. -/
theorem Tab.get_foldl_set {ι α : Type} [DecidableEq α] (d : α) (key : ι → Nat) (val : ι → α) {l : List ι} {n : Nat} {x : α}
    (h : ∀ i ∈ l, key i = n → val i = x) (t : Tab α) :
    Tab.get d (l.foldl (fun t i => Tab.set d t (key i) (val i)) t) n = if ∃ i ∈ l, key i = n then x else Tab.get d t n := by
  induction l generalizing t with
  | nil => simp
  | cons a l ih =>
    rw [List.foldl_cons, ih (fun i hi => h i (List.mem_cons_of_mem a hi)), Tab.get_set]
    by_cases hl : ∃ i ∈ l, key i = n
    · simp [hl]
    · by_cases ha : key a = n
      · simp [hl, ha, h a List.mem_cons_self ha]
      · simp [hl, ha, Ne.symm ha]

/-- A read after entries were dropped by their keys. -/
theorem Tab.get_filter_key {α : Type} (d : α) (p : Nat → Bool) (t : Tab α) (n : Nat) :
    Tab.get d (t.filter fun e => p e.1) n = if p n then Tab.get d t n else d := by
  induction t with
  | nil => simp
  | cons e t ih =>
    obtain ⟨k, v⟩ := e
    by_cases hk : p k
    · simp only [List.filter_cons, hk, if_true, Tab.get_cons, ih]
      by_cases hn : n = k
      · simp [hn, hk]
      · simp [hn]
    · simp only [List.filter_cons, hk, Bool.false_eq_true, if_false, Tab.get_cons, ih]
      by_cases hn : n = k
      · simp [hn, hk]
      · simp [hn]

end Sys2Proof.Machine
end

section
/-! ### The scratchpad under an engine's write (R83) -/

namespace Sys2Proof.Machine

variable (h : Hart)

theorem Hart.bank_setBank (b c : Nat) (x : Bank) : (h.setBank b x).bank c = if c = b then x else h.bank c := by
  by_cases hc : c = b
  · subst hc
    rw [if_pos rfl, Hart.bank, Hart.setBank, Tab.find_put]
  · rw [if_neg hc, Hart.bank, Hart.setBank, Tab.find_put_ne _ _ hc, Hart.bank]

theorem Hart.spByte_spWrite (o : Nat) (d : List Byte) (i : Nat) :
    (h.spWrite o d).spByte i = if o ≤ i ∧ i < o + d.length then d.getD (i - o) 0 else h.spByte i := by
  have hex : (∃ j ∈ List.range d.length, o + j = i) ↔ o ≤ i ∧ i < o + d.length :=
    ⟨fun ⟨j, hj, hi⟩ => by rw [List.mem_range] at hj; omega, fun hi => ⟨i - o, List.mem_range.2 (by omega), by omega⟩⟩
  have hval : ∀ j ∈ List.range d.length, o + j = i → d.getD j 0 = d.getD (i - o) 0 := by
    rintro j - rfl
    rw [Nat.add_sub_cancel_left]
  have hget := Tab.get_foldl_set 0 (o + ·) (fun j => d.getD j 0) hval h.sp
  simp only [hex] at hget
  exact hget

/-- Full bits are kept by bank and granule: granule g is bit g % 8192 of bank g / 8192. -/
theorem Hart.fullAt_setFull (g c : Nat) : (h.setFull g true).fullAt c = (decide (c = g) || h.fullAt c) := by
  have hset : (h.setFull g true).bank (c / 8192)
      = if c / 8192 = g / 8192 then { h.bank (g / 8192) with full := Tab.set false (h.bank (g / 8192)).full (g % 8192) true } else h.bank (c / 8192) :=
    Hart.bank_setBank { h with fills := g :: h.fills } _ _ _
  rw [Hart.fullAt, hset, Hart.fullAt]
  by_cases hb : c / 8192 = g / 8192
  · have hm : c % 8192 = g % 8192 ↔ c = g := by omega
    rw [if_pos hb, Tab.get_set, hb]
    by_cases hc : c = g <;> simp [hm, hc]
  · have hc : c ≠ g := fun e => hb (e ▸ rfl)
    simp [hb, hc]

theorem Hart.fullAt_setFulls (l : List Nat) (c : Nat) : (h.setFulls l true).fullAt c = (decide (c ∈ l) || h.fullAt c) := by
  induction l generalizing h with
  | nil => simp [Hart.setFulls]
  | cons g l ih =>
    have hstep : h.setFulls (g :: l) true = (h.setFull g true).setFulls l true := rfl
    rw [hstep, ih, Hart.fullAt_setFull]
    by_cases hg : c = g <;> simp [hg]

/-- Full bits stand apart from the bytes, from the matrix unit and from its status. -/
theorem Hart.setFulls_frame (l : List Nat) (x : Bool) :
    (h.setFulls l x).sp = h.sp ∧ (h.setFulls l x).matq = h.matq ∧ (h.setFulls l x).mstat = h.mstat :=
  foldl_keeps (p := fun g : Hart => g.sp = h.sp ∧ g.matq = h.matq ∧ g.mstat = h.mstat) (f := fun g c => g.setFull c x) (fun _ _ hg => hg) l h
    ⟨rfl, rfl, rfl⟩

@[simp] theorem Hart.engineWrite_matq (o : Nat) (d : List Byte) : (h.engineWrite o d).matq = h.matq :=
  ((h.spWrite o d).setFulls_frame _ true).2.1
@[simp] theorem Hart.engineWrite_mstat (o : Nat) (d : List Byte) : (h.engineWrite o d).mstat = h.mstat :=
  ((h.spWrite o d).setFulls_frame _ true).2.2

theorem Hart.spByte_engineWrite (o : Nat) (d : List Byte) (i : Nat) :
    (h.engineWrite o d).spByte i = if o ≤ i ∧ i < o + d.length then d.getD (i - o) 0 else h.spByte i := by
  rw [← h.spByte_spWrite o d i, Hart.spByte, Hart.spByte, Hart.engineWrite, ((h.spWrite o d).setFulls_frame _ true).1]

theorem Hart.fullAt_engineWrite (o : Nat) (d : List Byte) (g : Nat) :
    (h.engineWrite o d).fullAt g = (decide (g ∈ granules o d.length) || h.fullAt g) :=
  (h.spWrite o d).fullAt_setFulls _ g

/-- Several lines written one after another: the unit and its status stay. -/
theorem Hart.engineWrites_frame (l : List (Nat × List Byte)) :
    (l.foldl (fun g x => g.engineWrite x.1 x.2) h).matq = h.matq ∧ (l.foldl (fun g x => g.engineWrite x.1 x.2) h).mstat = h.mstat :=
  foldl_keeps (p := fun g : Hart => g.matq = h.matq ∧ g.mstat = h.mstat)
    (fun g x hg => by rw [g.engineWrite_matq, g.engineWrite_mstat]; exact hg) l h ⟨rfl, rfl⟩

/-! ### Reading lines of the scratchpad -/

@[simp] theorem Hart.length_spBytes (o n : Nat) : (h.spBytes o n).length = n := by simp [Hart.spBytes]

theorem Hart.spBytes_drop_take {o n a b : Nat} (hab : a + b ≤ n) : ((h.spBytes o n).drop a).take b = h.spBytes (o + a) b := by
  apply List.ext_getElem
  · simp; omega
  · intro i h1 h2
    simp [Hart.spBytes, Nat.add_assoc]

/-- Cutting what was put together from lines of one length gives the lines. -/
theorem getD_cutLines_flatMap {f : Nat → List Byte} {n c l : Nat} (hf : ∀ i, (f i).length = n) (hl : l < c) :
    (cutLines n c ((List.range c).flatMap f)).getD l [] = f l := by
  have hlen (c : Nat) : ((List.range c).flatMap f).length = c * n := by
    simp only [List.length_flatMap, hf, List.map_const', List.length_range, List.sum_replicate_nat]
  have hcut : ((List.range c).flatMap f).drop (l * n) = f l ++ ((List.range (c - l - 1)).map (l + 1 + ·)).flatMap f := by
    obtain ⟨k, rfl⟩ : ∃ k, c = l + 1 + k := ⟨c - l - 1, by omega⟩
    have hk : l + 1 + k - l - 1 = k := by omega
    rw [hk, List.range_add, List.range_succ, List.append_assoc, List.flatMap_append, List.drop_left' (hlen l)]
    simp
  simp only [cutLines, List.getD_eq_getElem?_getD, List.getElem?_map, List.getElem?_range hl, Option.map_some, Option.getD_some, hcut,
    List.take_left' (hf l)]

/-- Line l of a panel captured whole. -/
theorem getD_cutLines_bytesAt (w : Word) (n : Nat) {l : Nat} (hl : l < pLines w) :
    (cutLines n (pLines w) (Spec.bytesAt h (Spec.linesOf w n))).getD l [] = h.spBytes (pAddr w + l * pPitch w) n := by
  have hb : Spec.bytesAt h (Spec.linesOf w n) = (List.range (pLines w)).flatMap fun l => h.spBytes (pAddr w + l * pPitch w) n := by
    rw [Spec.bytesAt, Spec.linesOf, List.flatMap_map]
    rfl
  rw [hb, getD_cutLines_flatMap (fun _ => h.length_spBytes _ _) hl]

end Sys2Proof.Machine
end

section
/-! ### Tiles (R58) -/

namespace Sys2Proof.Machine

/-- A window of m × n tile elements to write. -/
def windowOf (m n : Nat) (f : Nat → Nat → Lane) : List (Nat × Nat × Lane) := (window m n).map fun p => (p.1, p.2, f p.1 p.2)

theorem mem_windowOf {m n : Nat} {f : Nat → Nat → Lane} {e : Nat × Nat × Lane} :
    e ∈ windowOf m n f ↔ e.1 < m ∧ e.2.1 < n ∧ e.2.2 = f e.1 e.2.1 := by
  obtain ⟨i, j, x⟩ := e
  simp only [windowOf, window, List.mem_map, List.mem_flatMap, List.mem_range, Prod.mk.injEq]
  constructor
  · rintro ⟨p, ⟨i', hi, j', hj, rfl⟩, rfl, rfl, rfl⟩
    exact ⟨hi, hj, rfl⟩
  · rintro ⟨hi, hj, rfl⟩
    exact ⟨(i, j), ⟨i, hi, j, hj, rfl⟩, rfl, rfl, rfl⟩

theorem mbinResult_eq (h : Hart) (t m n k : Nat) (xor : Bool) (pa pb : List Byte) :
    mbinResult h t m n k xor pa pb = windowOf m n fun i j => h.zAt t i j + BitVec.ofNat 32
      ((List.zipWith (fun (x y : Byte) => popcount (if xor then x ^^^ y else x &&& y))
        ((cutLines (k / 8) m pa).getD i []) ((cutLines (k / 8) n pb).getD j [])).foldl (· + ·) 0) := rfl

theorem mmaResult_fst (h : Hart) (t : Nat) (c : List Word) (m n k : Nat) (pa pb ta tb : List Byte) :
    (mmaResult h t c m n k pa pb ta tb).1 = windowOf m n fun i j => (accumulateLine (cfgElem c false) (cfgElem c true) (h.zAt t i j)
      ((prepare c false k (cutLines (rowBytes (cfgFmt c false) k) m pa) ta).1.getD i [])
      ((prepare c true k (cutLines (rowBytes (cfgFmt c true) k) n pb) tb).1.getD j [])).1 := by
  simp only [mmaResult, windowOf, List.map_map]
  rfl

/-- A tile element lies at a place of its own. -/
theorem tileKey_inj {t i j y p q : Nat} (hi : i < 128) (hj : j < 128) (hp : p < 128) (hq : q < 128)
    (h : (t * 128 + i) * 128 + j = (y * 128 + p) * 128 + q) : t = y ∧ i = p ∧ j = q := by omega

/-- Writing a window: its elements get their values, every other element of every tile stays. -/
theorem Hart.zAt_zPut_windowOf (h : Hart) (t : Nat) {m n : Nat} (f : Nat → Nat → Lane) (hm : m ≤ 128) (hn : n ≤ 128)
    (y : Nat) {i j : Nat} (hi : i < 128) (hj : j < 128) :
    (h.zPut t (windowOf m n f)).zAt y i j = if y = t ∧ i < m ∧ j < n then f i j else h.zAt y i j := by
  have hkey : ∀ e ∈ windowOf m n f, (t * 128 + e.1) * 128 + e.2.1 = (y * 128 + i) * 128 + j → t = y ∧ e.1 = i ∧ e.2.1 = j := by
    intro e he
    obtain ⟨h1, h2, -⟩ := mem_windowOf.1 he
    exact tileKey_inj (by omega) (by omega) hi hj
  have hex : (∃ e ∈ windowOf m n f, (t * 128 + e.1) * 128 + e.2.1 = (y * 128 + i) * 128 + j) ↔ y = t ∧ i < m ∧ j < n := by
    constructor
    · rintro ⟨e, he, hk⟩
      obtain ⟨ht, h1, h2⟩ := hkey e he hk
      obtain ⟨hm', hn', -⟩ := mem_windowOf.1 he
      exact ⟨ht.symm, h1 ▸ hm', h2 ▸ hn'⟩
    · rintro ⟨rfl, h1, h2⟩
      exact ⟨(i, j, f i j), mem_windowOf.2 ⟨h1, h2, rfl⟩, rfl⟩
  have hval : ∀ e ∈ windowOf m n f, (t * 128 + e.1) * 128 + e.2.1 = (y * 128 + i) * 128 + j → e.2.2 = f i j := by
    intro e he hk
    obtain ⟨-, h1, h2⟩ := hkey e he hk
    rw [(mem_windowOf.1 he).2.2, h1, h2]
  have hget := Tab.get_foldl_set 0 (fun e : Nat × Nat × Lane => (t * 128 + e.1) * 128 + e.2.1) (fun e => e.2.2) hval h.z
  simp only [hex] at hget
  exact hget

/-- MZERO's result clears its tile and no other. -/
theorem Hart.zAt_perform_z (h : Hart) (z y : Nat) {i j : Nat} (hi : i < 128) (hj : j < 128) :
    (h.perform (.z z)).zAt y i j = if y = z then 0 else h.zAt y i j := by
  have htile : ((y * 128 + i) * 128 + j) / 16384 = y := by omega
  have hget : (h.perform (.z z)).zAt y i j = _ := Tab.get_filter_key 0 (fun n => decide (n / 16384 ≠ z)) h.z ((y * 128 + i) * 128 + j)
  rw [hget, htile, Hart.zAt]
  by_cases hy : y = z <;> simp [hy]

end Sys2Proof.Machine
end

section
/-! ### The oldest operation of the matrix unit, alone in it -/

namespace Sys2Proof.Machine

variable {s : State} {h : Hart} {m : MatOp}

/-- An operation's first and second operand register as captured (R293), and the value of its third, K. -/
abbrev MatOp.regA (m : MatOp) : Word := m.ops.getD 0 0
abbrev MatOp.regB (m : MatOp) : Word := m.ops.getD 1 0
abbrev MatOp.depth (m : MatOp) : Nat := (m.ops.getD 2 0).toNat

/-- The operation is the only one in the unit, it is due, and nothing has written the scratchpad since its issue. -/
structure Hart.Finishing (h : Hart) (m : MatOp) : Prop where
  queue : h.matq = [m]
  due : m.due ≤ h.cyc
  quiet : h.spLog.drop m.seen = []

theorem Hart.matDue_of_single {p : MatKind → Bool} (hq : h.matq = [m]) (hd : m.due ≤ h.cyc) (hp : p m.kind = true) : h.matDue p = some m := by
  simp [Hart.matDue, hq, hd, hp]

/-- A panel that nothing wrote meanwhile is read as it was captured (R61). -/
theorem State.panel_of_quiet (hw : h.spLog.drop m.seen = []) (ix : Nat) (bits : Nat → Nat) (offs : List (Option Nat)) (n : Nat) :
    s.panel h m ix bits offs n = (m.panels.getD ix [], s) := by
  have hheld : h.held m (byteOffs offs n) (m.panels.getD ix []) = [m.panels.getD ix []] := by
    simp [Hart.held, hw, List.eraseDups_cons]
  rw [State.panel, hheld, State.mixRead]

theorem State.table_of_quiet (hw : h.spLog.drop m.seen = []) (ix : Nat) (span : List (Nat × Nat)) :
    s.table h m ix span = (m.panels.getD ix [], s) := State.panel_of_quiet hw ix _ _ _

/-- The operation leaves the unit, which is empty then, and with it the log of writes. -/
theorem Hart.matDone_of_single (hq : h.matq = [m]) : h.matDone m = { h with matq := [], spLog := [] } := by
  simp [Hart.matDone, hq]

/-! ### What each completion that writes a tile does -/

/-- The elements and MSTAT bits that an MMA makes of its panels as they were captured. -/
def MatOp.mmaCaptured (h : Hart) (m : MatOp) : List (Nat × Nat × Lane) × BitVec 6 :=
  mmaResult h m.tile m.cfg (pLines m.regA) (pLines m.regB) m.depth (m.panels.getD 0 []) (m.panels.getD 1 []) (m.panels.getD 2 []) (m.panels.getD 3 [])

theorem exec_mmaReady_mma {k : Nat} {g : Option VReg} (hf : (s.hartAt k).Finishing m) (hk : m.kind = .mma g) :
    exec (.mmaReady k) s = .next (s.setHart k
      ((((s.hartAt k).zPut m.tile (m.mmaCaptured (s.hartAt k)).1).joinMstat (m.mmaCaptured (s.hartAt k)).2).matDone m)) := by
  change execMmaReady k s = _
  simp only [execMmaReady, Hart.matDue_of_single hf.queue hf.due (p := isAccum) (by rw [hk]; rfl), hk, State.panel_of_quiet hf.quiet,
    State.table_of_quiet hf.quiet]
  rfl

theorem exec_mmaReady_mbin {k : Nat} {x : Bool} (hf : (s.hartAt k).Finishing m) (hk : m.kind = .mbin x) :
    exec (.mmaReady k) s = .next (s.setHart k
      (((s.hartAt k).zPut m.tile (mbinResult (s.hartAt k) m.tile (pLines m.regA) (pLines m.regB) m.depth x
        (m.panels.getD 0 []) (m.panels.getD 1 []))).matDone m)) := by
  change execMmaReady k s = _
  simp only [execMmaReady, Hart.matDue_of_single hf.queue hf.due (p := isAccum) (by rw [hk]; rfl), hk, State.panel_of_quiet hf.quiet]

/-- The element that a load makes of its bytes: FP32 bits, or BF16 bits made FP32. -/
def loadedElem (bf : Bool) (b : List Byte) : Lane :=
  if bf then (cvtLane .bf16f32 .rn false (BitVec.ofNat 32 (numOf b))).1 else BitVec.ofNat 32 (numOf b)

theorem exec_mloadzComplete {k : Nat} {bf : Bool} (hf : (s.hartAt k).Finishing m) (hk : m.kind = .mloadz bf) :
    exec (.mloadzComplete k) s = .next (s.setHart k
      (((s.hartAt k).zPut m.tile (windowOf (pLines m.regA) (wf m.regA 56 8) fun i j =>
        loadedElem bf ((((cutLines (wf m.regA 56 8 * (if bf then 2 else 4)) (pLines m.regA) (m.panels.getD 0 [])).getD i []).drop
          ((if bf then 2 else 4) * j)).take (if bf then 2 else 4)))).matDone m)) := by
  change execMloadzComplete k s = _
  simp only [execMloadzComplete, Hart.matDue_of_single hf.queue hf.due (p := isLoadz) (by rw [hk]; rfl), State.panel_of_quiet hf.quiet, hk]
  cases bf <;> rfl

end Sys2Proof.Machine
end

section
/-! ### What completions leave in tiles (R73, R295, R298) -/

namespace Sys2Proof.Machine

variable {s : State} {h : Hart} {m : MatOp}

/-- The operation has left the unit; registers, scratchpad, memory and every tile element outside the window m × n of tile z are as before. -/
def TileKept (s : State) (k : Nat) (t : State) (m n z : Nat) : Prop :=
  (t.hartAt k).matq = [] ∧ (t.hartAt k).r = (s.hartAt k).r ∧ (t.hartAt k).sp = (s.hartAt k).sp ∧ t.mem = s.mem
    ∧ ∀ y i j, i < 128 → j < 128 → (y ≠ z ∨ m ≤ i ∨ n ≤ j) → (t.hartAt k).zAt y i j = (s.hartAt k).zAt y i j

/-- An operation that completes by writing a window of a tile, and MSTAT or nothing more. -/
theorem completion_writes_window {k z M N : Nat} {f : Nat → Nat → Lane} {g : Hart} (hq : (s.hartAt k).matq = [m]) (hM : M ≤ 128) (hN : N ≤ 128)
    (hgq : g.matq = (s.hartAt k).matq) (hgr : g.r = (s.hartAt k).r) (hgs : g.sp = (s.hartAt k).sp)
    (hgz : g.z = ((s.hartAt k).zPut z (windowOf M N f)).z) :
    TileKept s k (s.setHart k (g.matDone m)) M N z
      ∧ ∀ i j, i < M → j < N → ((s.setHart k (g.matDone m)).hartAt k).zAt z i j = f i j := by
  rw [Hart.matDone_of_single (hgq.trans hq), TileKept, State.hartAt_setHart]
  have hz : ∀ y i j, i < 128 → j < 128 → Tab.get 0 g.z ((y * 128 + i) * 128 + j) = if y = z ∧ i < M ∧ j < N then f i j else (s.hartAt k).zAt y i j :=
    fun y i j hi hj => hgz ▸ (s.hartAt k).zAt_zPut_windowOf z f hM hN y hi hj
  refine ⟨⟨rfl, hgr, hgs, rfl, fun y i j hi hj hout => ?_⟩, fun i j hi hj => ?_⟩
  · exact (hz y i j hi hj).trans (if_neg (by omega))
  · exact (hz z i j (by omega) (by omega)).trans (if_pos ⟨rfl, hi, hj⟩)

theorem completion_writes_window_alone {k z M N : Nat} {f : Nat → Nat → Lane} (hq : (s.hartAt k).matq = [m]) (hM : M ≤ 128) (hN : N ≤ 128) :
    TileKept s k (s.setHart k (((s.hartAt k).zPut z (windowOf M N f)).matDone m)) M N z
      ∧ ((s.setHart k (((s.hartAt k).zPut z (windowOf M N f)).matDone m)).hartAt k).mstat = (s.hartAt k).mstat
      ∧ ∀ i j, i < M → j < N → ((s.setHart k (((s.hartAt k).zPut z (windowOf M N f)).matDone m)).hartAt k).zAt z i j = f i j := by
  obtain ⟨hkept, helem⟩ := completion_writes_window (g := (s.hartAt k).zPut z (windowOf M N f)) hq hM hN rfl rfl rfl rfl
  exact ⟨hkept, by rw [State.hartAt_setHart]; rfl, helem⟩

/-! ### The counts of MBIN -/

theorem popcount_eq_length_filter {w : Nat} (a : BitVec w) : popcount a = ((List.range w).filter a.getLsbD).length := by
  have hfold (l : List Nat) (n : Nat) : l.foldl (fun n i => if a.getLsbD i then n + 1 else n) n = n + (l.filter a.getLsbD).length := by
    induction l generalizing n with
    | nil => rfl
    | cons i l ih => by_cases hi : a.getLsbD i <;> simp [ih, hi]; omega
  exact (hfold _ _).trans (Nat.zero_add _)

/-- Counting bits byte by byte. -/
theorem length_filter_range_bytes (q : Nat → Bool) (n : Nat) :
    ((List.range (8 * n)).filter q).length = ((List.range n).map fun b => ((List.range 8).filter fun t => q (8 * b + t)).length).sum := by
  induction n with
  | zero => rfl
  | succ n ih =>
    rw [Nat.mul_succ, List.range_add (n := 8 * n), List.filter_append, List.length_append, ih, List.range_succ (n := n), List.map_append, List.sum_append,
      List.filter_map, List.length_map, List.map_singleton, List.sum_singleton]
    rfl

/-- The bits that two lines of n bytes have set together, or that differ between them. -/
theorem popcount_lines (x : Bool) (o p n : Nat) :
    (List.zipWith (fun (a b : Byte) => popcount (if x then a ^^^ b else a &&& b)) (h.spBytes o n) (h.spBytes p n)).foldl (· + ·) 0
      = ((List.range (8 * n)).filter fun i =>
          let u := (h.spByte (o + i / 8)).getLsbD (i % 8)
          let v := (h.spByte (p + i / 8)).getLsbD (i % 8)
          if x = true then u != v else u && v).length := by
  rw [← List.sum_eq_foldl_nat, Hart.spBytes, Hart.spBytes, List.zipWith_map, List.zipWith_self, length_filter_range_bytes]
  congr 1
  refine List.map_congr_left fun b _ => ?_
  rw [popcount_eq_length_filter]
  congr 1
  refine List.filter_congr fun t ht => ?_
  have ht8 : t < 8 := List.mem_range.1 ht
  have hdiv : (8 * b + t) / 8 = b := by omega
  have hmod : (8 * b + t) % 8 = t := by omega
  rw [hdiv, hmod]
  cases x <;> simp

/-! ### The three kinds of completion -/

/-- The prepared lines of a side (R67), from the panel and the rounding table as captured. -/
def MatOp.preparedLines (m : MatOp) (sideB : Bool) (lines panel table : Nat) : List (List (Nat × List Nat)) :=
  (prepare m.cfg sideB m.depth (cutLines (rowBytes (cfgFmt m.cfg sideB) m.depth) lines (m.panels.getD panel [])) (m.panels.getD table [])).1

theorem mma_completes {k : Nat} {g : Option VReg} (hf : (s.hartAt k).Finishing m) (hk : m.kind = .mma g) (hM : pLines m.regA ≤ 128)
    (hN : pLines m.regB ≤ 128) :
    ∃ t, exec (.mmaReady k) s = .next t ∧ TileKept s k t (pLines m.regA) (pLines m.regB) m.tile
      ∧ ∀ i j, i < pLines m.regA → j < pLines m.regB → (t.hartAt k).zAt m.tile i j =
          (accumulateLine (cfgElem m.cfg false) (cfgElem m.cfg true) ((s.hartAt k).zAt m.tile i j)
            ((m.preparedLines false (pLines m.regA) 0 2).getD i []) ((m.preparedLines true (pLines m.regB) 1 3).getD j [])).1 := by
  refine ⟨_, exec_mmaReady_mma hf hk, ?_⟩
  rw [MatOp.mmaCaptured, mmaResult_fst]
  exact completion_writes_window hf.queue hM hN rfl rfl rfl rfl

theorem mbin_completes {k : Nat} {x : Bool} (hf : (s.hartAt k).Finishing m) (hk : m.kind = .mbin x) (hM : pLines m.regA ≤ 128)
    (hN : pLines m.regB ≤ 128) (h8 : m.depth % 256 = 0)
    (hp : m.panels = [Spec.bytesAt (s.hartAt k) (Spec.linesOf m.regA (m.depth / 8)),
      Spec.bytesAt (s.hartAt k) (Spec.linesOf m.regB (m.depth / 8))]) :
    ∃ t, exec (.mmaReady k) s = .next t ∧ TileKept s k t (pLines m.regA) (pLines m.regB) m.tile
      ∧ (t.hartAt k).mstat = (s.hartAt k).mstat
      ∧ ∀ i j, i < pLines m.regA → j < pLines m.regB → (t.hartAt k).zAt m.tile i j =
          (s.hartAt k).zAt m.tile i j + BitVec.ofNat 32 ((List.range m.depth).filter fun p =>
            let u := ((s.hartAt k).spByte (pAddr m.regA + i * pPitch m.regA + p / 8)).getLsbD (p % 8)
            let v := ((s.hartAt k).spByte (pAddr m.regB + j * pPitch m.regB + p / 8)).getLsbD (p % 8)
            if x = true then u != v else u && v).length := by
  refine ⟨_, exec_mmaReady_mbin hf hk, ?_⟩
  rw [mbinResult_eq]
  refine And.imp_right (And.imp_right fun helem i j hi hj => (helem i j hi hj).trans ?_) (completion_writes_window_alone hf.queue hM hN)
  have h0 : m.panels.getD 0 [] = Spec.bytesAt (s.hartAt k) (Spec.linesOf m.regA (m.depth / 8)) := by rw [hp]; rfl
  have h1 : m.panels.getD 1 [] = Spec.bytesAt (s.hartAt k) (Spec.linesOf m.regB (m.depth / 8)) := by rw [hp]; rfl
  have hbits : 8 * (m.depth / 8) = m.depth := by omega
  rw [h0, h1, getD_cutLines_bytesAt _ _ _ hi, getD_cutLines_bytesAt _ _ _ hj, popcount_lines, hbits]

theorem mloadz_completes {k n : Nat} {bf : Bool} (hf : (s.hartAt k).Finishing m) (hk : m.kind = .mloadz bf) (hn : n = if bf then 2 else 4)
    (hM : pLines m.regA ≤ 128) (hN : wf m.regA 56 8 ≤ 128)
    (hp : m.panels = [Spec.bytesAt (s.hartAt k) (Spec.linesOf m.regA (wf m.regA 56 8 * n))]) :
    ∃ t, exec (.mloadzComplete k) s = .next t ∧ TileKept s k t (pLines m.regA) (wf m.regA 56 8) m.tile
      ∧ (t.hartAt k).mstat = (s.hartAt k).mstat
      ∧ ∀ i j, i < pLines m.regA → j < wf m.regA 56 8 → (t.hartAt k).zAt m.tile i j =
          loadedElem bf ((s.hartAt k).spBytes (pAddr m.regA + i * pPitch m.regA + n * j) n) := by
  refine ⟨_, exec_mloadzComplete hf hk, ?_⟩
  refine And.imp_right (And.imp_right fun helem i j hi hj => (helem i j hi hj).trans ?_) (completion_writes_window_alone hf.queue hM hN)
  have h0 : m.panels.getD 0 [] = Spec.bytesAt (s.hartAt k) (Spec.linesOf m.regA (wf m.regA 56 8 * n)) := by rw [hp]; rfl
  have hin : n * j + n ≤ wf m.regA 56 8 * n := by
    rw [← Nat.mul_succ, Nat.mul_comm]
    exact Nat.mul_le_mul_right n hj
  rw [← hn, h0, getD_cutLines_bytesAt _ _ _ hi, Hart.spBytes_drop_take _ hin]

theorem matrixResults : Spec.MatrixResults := by
  intro s k m h hq hd hw
  have hf : (s.hartAt k).Finishing m := ⟨hq, hd, hw⟩
  refine ⟨fun g hk ha hb => ?_, fun x hk ha hb h8 hp => ?_, fun hk hM hN hp => ?_, fun hk hM hN hp => ?_, fun z y i j _ hi hj => ?_⟩
  · obtain ⟨-, -, hM, -⟩ := ha
    obtain ⟨-, -, hN, -⟩ := hb
    exact mma_completes hf hk hM hN
  · obtain ⟨-, -, hM, -⟩ := ha
    obtain ⟨-, -, hN, -⟩ := hb
    exact mbin_completes hf hk hM hN h8 hp
  · exact mloadz_completes hf hk rfl hM hN hp
  · obtain ⟨t, ht, hkept, -, helem⟩ := mloadz_completes hf hk rfl hM hN hp
    exact ⟨t, ht, hkept, helem⟩
  · exact h.zAt_perform_z z y hi hj

end Sys2Proof.Machine
end

section
/-! ### What drains and quantisations leave in the scratchpad (R72, R81, R299, R300) -/

namespace Sys2Proof.Machine

variable {s : State} {h : Hart} {m : MatOp}

/-- A drain into plain scratchpad waits for its cycle only. -/
theorem Hart.drainReady_of_plain {bf : Bool} (hq : h.matq = [m]) (hd : m.due ≤ h.cyc) (hk : m.kind = .mdrain bf)
    (ho : ∀ x ∈ m.outs, h.inFifo x.1 = false) : h.drainReady = some m := by
  rcases hl : m.outs with _ | ⟨x, _ | ⟨y, l⟩⟩
  · simp [Hart.drainReady, hq, hd, hk, isDrain, hl]
  · simp [Hart.drainReady, hq, hd, hk, isDrain, hl, ho x (by simp [hl])]
  · simp [Hart.drainReady, hq, hd, hk, isDrain, hl]

/-- A drain into a FIFO bank waits too for the granule at TAIL to be empty (R81). -/
theorem Hart.drainReady_of_fifo {bf : Bool} {o : Nat} {d : List Byte} (hq : h.matq = [m]) (hd : m.due ≤ h.cyc) (hk : m.kind = .mdrain bf)
    (ho : m.outs = [(o, d)]) (hf : h.inFifo o = true) :
    h.drainReady = if Tab.get false (h.bank (o / bankSize)).full (h.bank (o / bankSize)).tail.toNat = true then none else some m := by
  have hdue : decide (m.due ≤ h.cyc) = true := decide_eq_true hd
  cases ht : Tab.get false (h.bank (o / bankSize)).full (h.bank (o / bankSize)).tail.toNat
  case true =>
    simp only [Hart.drainReady, hq, hk, ho, hf, hdue, ht, isDrain, List.zipIdx_cons, List.zipIdx_nil, List.findSome?_cons, List.findSome?_nil,
      Bool.and_self, Bool.not_true, Bool.or_true, Bool.false_eq_true, if_true, if_false]
  case false =>
    simp only [Hart.drainReady, hq, hk, ho, hf, hdue, ht, isDrain, List.zipIdx_cons, List.zipIdx_nil, List.findSome?_cons, List.take_zero, List.any_nil,
      Bool.and_self, Bool.not_true, Bool.or_false, Bool.false_eq_true, if_true, if_false]

/-- The hart after a granule was appended to FIFO bank b: the bytes where TAIL stood, TAIL moved on, the granule full (R81). -/
def Hart.granuleAppended (h : Hart) (b : Nat) (d : List Byte) : Hart :=
  (h.engineWrite (b * bankSize + 16 * (h.bank b).tail.toNat) d).setBank b
    { h.bank b with tail := (h.bank b).tail + 1, full := Tab.set false (h.bank b).full (h.bank b).tail.toNat true }

theorem Hart.fifoAppend_granule {b : Nat} {d : List Byte} (ht : Tab.get false (h.bank b).full (h.bank b).tail.toNat = false) (h16 : d.length = 16) :
    h.fifoAppend b (d.length / 16) d = (h.granuleAppended b d, []) := by
  have hne : d.isEmpty = false := by simp [← List.length_eq_zero_iff, h16]
  have htake : d.take 16 = d := List.take_of_length_le (Nat.le_of_eq h16)
  have hdrop : d.drop 16 = [] := List.drop_of_length_le (Nat.le_of_eq h16)
  simp [h16, Hart.fifoAppend, hne, ht, htake, hdrop, Hart.granuleAppended]

/-- Lines written to plain scratchpad, MSTAT joined, and the unit left empty. -/
theorem Hart.engineWrites_matDone (l : List (Nat × List Byte)) (b : BitVec 6) (hq : h.matq = [m]) :
    ((l.foldl (fun g x => g.engineWrite x.1 x.2) h).joinMstat b).matDone m
      = { l.foldl (fun g x => g.engineWrite x.1 x.2) h with mstat := h.mstat ||| b, matq := [], spLog := [] } := by
  obtain ⟨hmq, hst⟩ := h.engineWrites_frame l
  have hjoin : ((l.foldl (fun g x => g.engineWrite x.1 x.2) h).joinMstat b).matq = [m] := hmq.trans hq
  rw [Hart.matDone_of_single hjoin, Hart.joinMstat, hst]

theorem exec_mdrainComplete_of_plain {k : Nat} {bf : Bool} (hq : (s.hartAt k).matq = [m]) (hd : m.due ≤ (s.hartAt k).cyc) (hk : m.kind = .mdrain bf)
    (ho : ∀ x ∈ m.outs, (s.hartAt k).inFifo x.1 = false) :
    exec (.mdrainComplete k) s
      = .next (s.setHart k (((m.outs.foldl (fun g x => g.engineWrite x.1 x.2) (s.hartAt k)).joinMstat m.mstat).matDone m)) := by
  change execMdrainComplete k s = _
  simp only [execMdrainComplete, Hart.drainReady_of_plain hq hd hk ho]
  split
  · rename_i o d hl
    simp [hl, ho (o, d) (by simp [hl])]
  · rfl

theorem exec_mdrainComplete_of_fifo {k : Nat} {bf : Bool} {o : Nat} {d : List Byte} (hq : (s.hartAt k).matq = [m]) (hd : m.due ≤ (s.hartAt k).cyc)
    (hk : m.kind = .mdrain bf) (ho : m.outs = [(o, d)]) (hf : (s.hartAt k).inFifo o = true) (h16 : d.length = 16)
    (ht : Tab.get false ((s.hartAt k).bank (o / bankSize)).full ((s.hartAt k).bank (o / bankSize)).tail.toNat = false) :
    exec (.mdrainComplete k) s = .next (s.setHart k ((((s.hartAt k).granuleAppended (o / bankSize) d).joinMstat m.mstat).matDone m)) := by
  have hready : (s.hartAt k).drainReady = some m := (Hart.drainReady_of_fifo hq hd hk ho hf).trans (if_neg (by simp [ht]))
  change execMdrainComplete k s = _
  simp only [execMdrainComplete, hready, ho, hf, if_true, Hart.fifoAppend_granule ht h16, List.isEmpty_nil]

theorem exec_mdrainComplete_of_full {k : Nat} {bf : Bool} {o : Nat} {d : List Byte} (hq : (s.hartAt k).matq = [m]) (hd : m.due ≤ (s.hartAt k).cyc)
    (hk : m.kind = .mdrain bf) (ho : m.outs = [(o, d)]) (hf : (s.hartAt k).inFifo o = true)
    (ht : Tab.get false ((s.hartAt k).bank (o / bankSize)).full ((s.hartAt k).bank (o / bankSize)).tail.toNat = true) :
    exec (.mdrainComplete k) s = .next s := by
  have hready : (s.hartAt k).drainReady = none := (Hart.drainReady_of_fifo hq hd hk ho hf).trans (if_pos ht)
  change execMdrainComplete k s = _
  simp only [execMdrainComplete, hready]

/-- Panels as captured give the lines and bits of the issue. -/
theorem exec_mqntComplete_of_quiet {k : Nat} {side : Bool} (hf : (s.hartAt k).Finishing m) (hk : m.kind = .mqnt side) :
    exec (.mqntComplete k) s
      = .next (s.setHart k (((m.outs.foldl (fun g x => g.engineWrite x.1 x.2) (s.hartAt k)).joinMstat m.mstat).matDone m)) := by
  have hzip : (m.outs.map (·.1)).zip (m.outs.map (·.2)) = m.outs := by rw [List.zip_map']; simp
  change execMqntComplete k s = _
  simp only [execMqntComplete, Hart.matDue_of_single hf.queue hf.due (p := isQnt) (by rw [hk]; rfl), State.panel_of_quiet hf.quiet,
    State.table_of_quiet hf.quiet, and_self, if_true, hzip]

/-! ### The completions stop in no state -/

theorem mmaReady_next (s : State) (k : Nat) : ∃ t, exec (.mmaReady k) s = .next t := by
  change ∃ t, execMmaReady k s = .next t
  simp only [execMmaReady]
  split
  · exact ⟨_, rfl⟩
  · split <;> exact ⟨_, rfl⟩

theorem mloadzComplete_next (s : State) (k : Nat) : ∃ t, exec (.mloadzComplete k) s = .next t := by
  change ∃ t, execMloadzComplete k s = .next t
  simp only [execMloadzComplete]
  split <;> exact ⟨_, rfl⟩

theorem mdrainComplete_next (s : State) (k : Nat) : ∃ t, exec (.mdrainComplete k) s = .next t := by
  change ∃ t, execMdrainComplete k s = .next t
  simp only [execMdrainComplete]
  split
  · exact ⟨_, rfl⟩
  · split
    · split
      · split <;> exact ⟨_, rfl⟩
      · exact ⟨_, rfl⟩
    · exact ⟨_, rfl⟩

theorem mqntComplete_next (s : State) (k : Nat) : ∃ t, exec (.mqntComplete k) s = .next t := by
  change ∃ t, execMqntComplete k s = .next t
  simp only [execMqntComplete]
  split <;> exact ⟨_, rfl⟩

/-- Without a rotation each element is rounded by itself (R72). -/
theorem drainTile_of_unrotated {c : List Word} (ho : cfgOuter c = 0) (hi : cfgInner c = false) (t : List (List Lane)) :
    (drainTile c false t).1 = (t.map fun line => line.map fun x => (roundFp fp32 .rn false ((laneVal x).scale 0)).1)
    ∧ (drainTile c true t).1
      = t.map fun line => line.map fun x => (roundFp bf16 .rn false (fp32.value (roundFp fp32 .rn false ((laneVal x).scale 0)).1)).1 := by
  simp [drainTile, ho, hi, Function.comp_def]

theorem drainsAndQuantisations : Spec.DrainsAndQuantisations := by
  refine ⟨?lines, ?fifo, fun s k => ⟨mmaReady_next s k, mloadzComplete_next s k, mdrainComplete_next s k, mqntComplete_next s k⟩,
    fun h o d => ⟨h.spByte_engineWrite o d, h.fullAt_engineWrite o d⟩, fun c t ho hi => drainTile_of_unrotated ho hi t⟩
  case lines =>
    intro s k m h hq hd hw
    refine ⟨fun bf hk ho => ?_, fun side hk => ?_⟩
    · rw [exec_mdrainComplete_of_plain hq hd hk ho, Hart.engineWrites_matDone _ _ hq]
    · rw [exec_mqntComplete_of_quiet ⟨hq, hd, hw⟩ hk, Hart.engineWrites_matDone _ _ hq]
  case fifo =>
    intro s k m bf o d h b x tail hq hd hk ho hf
    refine ⟨fun ht h16 => ?_, exec_mdrainComplete_of_full hq hd hk ho hf⟩
    have hmq : ((h.granuleAppended (o / bankSize) d).joinMstat m.mstat).matq = [m] := (h.engineWrite_matq _ d).trans hq
    have hst : (h.granuleAppended (o / bankSize) d).mstat = h.mstat := h.engineWrite_mstat _ d
    rw [exec_mdrainComplete_of_fifo hq hd hk ho hf h16 ht, Hart.matDone_of_single hmq, Hart.joinMstat, hst]
    rfl

/-- Settles O28: each completion by its own lemma, on a row of writes to distinct places of a tile or of the scratchpad. -/
theorem matrixCompletion : Obligations.MatrixCompletion := ⟨matrixResults, drainsAndQuantisations⟩

end Sys2Proof.Machine
end
